-- ==== Sys2Proof/Word.lean ====
section
/-! DEFINITION. The word types of PVCD (00_scope.md R10, R12): bytes, 16-bit colours, 32-bit registers and
16-byte blocks. -/

namespace Sys2Proof

/-- A byte of BUF (20_memory.md R80). -/
abbrev Byte := BitVec 8

/-- A 16-bit colour (30_encoding.md R121, R122, R124). -/
abbrev Colour := BitVec 16

/-- A register of the register window (10_state.md R30). -/
abbrev Word := BitVec 32

/-- A byte vector of 16 bytes, `X[0..15]` (00_scope.md R12): byte `i` is bits `8i+7 : 8i`, so that it is the
little-endian integer its bytes spell (00_scope.md R13). `X xor Y` is the exclusive or of the whole. -/
abbrev Block := BitVec 128

/-- The 11 round keys, each 16 bytes (42_block_cipher.md R261; `NRK` of 00_scope.md R7). -/
abbrev RoundKeys := Vector Block 11

end Sys2Proof
end

