-- ==== Sys2Proof/Syntax.lean ====
section
/-! DEFINITION. The commands of PVCD (30_encoding.md R112): one constructor per row of the opcode table, with the
MODE field the row leaves open (R113). Operands are in registers, not in the word (10_state.md R63). -/

namespace Sys2Proof

/-- A PVCD command with its options. `tp` is the 2-bit TP field, whose value 3 is illegal; `ext`, `tm` and `scan`
are the one-bit fields (30_encoding.md R113). -/
inductive Instr where
  | nop
  | seed
  | candrst
  | cvt555 (tp : BitVec 2)
  | cvt565 (tp : BitVec 2)
  | pack555 (tp : BitVec 2)
  | pack565 (tp : BitVec 2)
  | l1dec (ext : Bool)
  | l1ext
  | l1enc (tm : Bool)
  | isoxy
  | palscan
  | tiledec (scan : Bool)
  | tileenc
  | maskfin
  | canvas
  | blit
  | sprdec
  | decblk
  | encblk
  | xortail
  | decpay
  | encpay
  | mark
  | coreenc
  | coredec
  | keydump
deriving DecidableEq, Repr

/-- Why a command word is illegal, in the order 30_encoding.md R111 decodes it. -/
inductive Illegal where
  /-- RSV, bits 31:16, is not 0 (R111 step 1). -/
  | reservedBits
  /-- OP is not in the opcode map (R111 step 2, R115). -/
  | reservedOp
  /-- MODE has a bit that the OP does not define, or TP = 3 (R111 step 3, R114). -/
  | reservedMode
deriving DecidableEq, Repr

end Sys2Proof
end

