-- ==== Sys2Proof/WellFormed.lean ====
section
/-! DEFINITION. Which terms of `Instr` an encoding exists for: TP = 3 is reserved and illegal
(30_encoding.md R113, R114); every other field admits every value. -/

namespace Sys2Proof

/-- TP is 0, 1 or 2 (30_encoding.md R113). -/
def legalTp (tp : BitVec 2) : Bool := tp != 3#2

/-- The command has an encoding (30_encoding.md R113, R114). -/
def Instr.wellFormed : Instr → Bool
  | .cvt555 tp => legalTp tp
  | .cvt565 tp => legalTp tp
  | .pack555 tp => legalTp tp
  | .pack565 tp => legalTp tp
  | .nop => true
  | .seed => true
  | .candrst => true
  | .l1dec _ => true
  | .l1ext => true
  | .l1enc _ => true
  | .isoxy => true
  | .palscan => true
  | .tiledec _ => true
  | .tileenc => true
  | .maskfin => true
  | .canvas => true
  | .blit => true
  | .sprdec => true
  | .decblk => true
  | .encblk => true
  | .xortail => true
  | .decpay => true
  | .encpay => true
  | .mark => true
  | .coreenc => true
  | .coredec => true
  | .keydump => true

end Sys2Proof
end

