-- ==== Sys2Proof/Decode.lean ====
section
/-! DEFINITION. The command word (30_encoding.md R110 to R115): the decoder, total on all 2^32 words and refusing by
name, the encoder, and the opcode map as rows of match and mask. -/

namespace Sys2Proof

/-! ## Fields of the word (30_encoding.md R110) -/

/-- OP, bits 7:0. -/
def opField (w : BitVec 32) : BitVec 8 := w.extractLsb' 0 8

/-- MODE, bits 15:8. -/
def modeField (w : BitVec 32) : BitVec 8 := w.extractLsb' 8 8

/-- RSV, bits 31:16. -/
def rsvField (w : BitVec 32) : BitVec 16 := w.extractLsb' 16 16

/-! ## MODE (30_encoding.md R113) -/

/-- A command without options: all of MODE must be 0. -/
def modeNone (mode : BitVec 8) (i : Instr) : Except Illegal Instr :=
  if mode = 0#8 then .ok i else .error .reservedMode

/-- TP in word bits 9:8; bits 15:10 must be 0 and TP = 3 is illegal. -/
def modeTp (mode : BitVec 8) (i : BitVec 2 → Instr) : Except Illegal Instr :=
  if mode.extractLsb' 2 6 = 0#6 ∧ legalTp (mode.extractLsb' 0 2) = true then .ok (i (mode.extractLsb' 0 2))
  else .error .reservedMode

/-- EXT, TM or SCAN in word bit 8; bits 15:9 must be 0. -/
def modeBit (mode : BitVec 8) (i : Bool → Instr) : Except Illegal Instr :=
  if mode.extractLsb' 1 7 = 0#7 then .ok (i (mode.getLsbD 0)) else .error .reservedMode

/-- OP and MODE of a word whose RSV is 0 (30_encoding.md R111 steps 2 to 4, R112, R113). -/
def decodeOp (op mode : BitVec 8) : Except Illegal Instr :=
  match op.toNat with
  | 0x00 => modeNone mode .nop
  | 0x01 => modeNone mode .seed
  | 0x02 => modeNone mode .candrst
  | 0x10 => modeTp mode .cvt555
  | 0x11 => modeTp mode .cvt565
  | 0x12 => modeTp mode .pack555
  | 0x13 => modeTp mode .pack565
  | 0x14 => modeBit mode .l1dec
  | 0x15 => modeNone mode .l1ext
  | 0x16 => modeBit mode .l1enc
  | 0x20 => modeNone mode .isoxy
  | 0x21 => modeNone mode .palscan
  | 0x22 => modeBit mode .tiledec
  | 0x23 => modeNone mode .tileenc
  | 0x24 => modeNone mode .maskfin
  | 0x25 => modeNone mode .canvas
  | 0x26 => modeNone mode .blit
  | 0x27 => modeNone mode .sprdec
  | 0x30 => modeNone mode .decblk
  | 0x31 => modeNone mode .encblk
  | 0x32 => modeNone mode .xortail
  | 0x33 => modeNone mode .decpay
  | 0x34 => modeNone mode .encpay
  | 0x35 => modeNone mode .mark
  | 0x36 => modeNone mode .coreenc
  | 0x37 => modeNone mode .coredec
  | 0x38 => modeNone mode .keydump
  | _ => .error .reservedOp

/-- The decoder (30_encoding.md R111): RSV first, then OP, then MODE. -/
def decode (w : BitVec 32) : Except Illegal Instr :=
  if rsvField w = 0#16 then decodeOp (opField w) (modeField w) else .error .reservedBits

/-! ## The encoder (30_encoding.md R110, R112, R113, R136) -/

/-- The OP value of a command (30_encoding.md R112). -/
def Instr.op : Instr → BitVec 8
  | .nop => 0x00#8
  | .seed => 0x01#8
  | .candrst => 0x02#8
  | .cvt555 _ => 0x10#8
  | .cvt565 _ => 0x11#8
  | .pack555 _ => 0x12#8
  | .pack565 _ => 0x13#8
  | .l1dec _ => 0x14#8
  | .l1ext => 0x15#8
  | .l1enc _ => 0x16#8
  | .isoxy => 0x20#8
  | .palscan => 0x21#8
  | .tiledec _ => 0x22#8
  | .tileenc => 0x23#8
  | .maskfin => 0x24#8
  | .canvas => 0x25#8
  | .blit => 0x26#8
  | .sprdec => 0x27#8
  | .decblk => 0x30#8
  | .encblk => 0x31#8
  | .xortail => 0x32#8
  | .decpay => 0x33#8
  | .encpay => 0x34#8
  | .mark => 0x35#8
  | .coreenc => 0x36#8
  | .coredec => 0x37#8
  | .keydump => 0x38#8

/-- The MODE bits of a command (30_encoding.md R113). -/
def Instr.mode : Instr → BitVec 8
  | .cvt555 tp => tp.setWidth 8
  | .cvt565 tp => tp.setWidth 8
  | .pack555 tp => tp.setWidth 8
  | .pack565 tp => tp.setWidth 8
  | .l1dec ext => (BitVec.ofBool ext).setWidth 8
  | .l1enc tm => (BitVec.ofBool tm).setWidth 8
  | .tiledec scan => (BitVec.ofBool scan).setWidth 8
  | .nop => 0#8
  | .seed => 0#8
  | .candrst => 0#8
  | .l1ext => 0#8
  | .isoxy => 0#8
  | .palscan => 0#8
  | .tileenc => 0#8
  | .maskfin => 0#8
  | .canvas => 0#8
  | .blit => 0#8
  | .sprdec => 0#8
  | .decblk => 0#8
  | .encblk => 0#8
  | .xortail => 0#8
  | .decpay => 0#8
  | .encpay => 0#8
  | .mark => 0#8
  | .coreenc => 0#8
  | .coredec => 0#8
  | .keydump => 0#8

/-- The command word `OP | (MODE << 8)` (30_encoding.md R136). -/
def encode (i : Instr) : BitVec 32 := 0#16 ++ i.mode ++ i.op

/-! ## The columns of the opcode map (30_encoding.md R112) -/

/-- Column "windows": the command uses the source window. -/
def Instr.usesSource : Instr → Bool
  | .nop => false
  | .seed => false
  | .candrst => false
  | .cvt555 _ => true
  | .cvt565 _ => true
  | .pack555 _ => true
  | .pack565 _ => true
  | .l1dec _ => true
  | .l1ext => true
  | .l1enc _ => true
  | .isoxy => false
  | .palscan => true
  | .tiledec _ => true
  | .tileenc => true
  | .maskfin => false
  | .canvas => false
  | .blit => true
  | .sprdec => true
  | .decblk => true
  | .encblk => true
  | .xortail => true
  | .decpay => true
  | .encpay => true
  | .mark => true
  | .coreenc => true
  | .coredec => true
  | .keydump => false

/-- Column "windows": the command uses the destination window (TILEDEC only without SCAN). -/
def Instr.usesDest : Instr → Bool
  | .nop => false
  | .seed => false
  | .candrst => false
  | .cvt555 _ => true
  | .cvt565 _ => true
  | .pack555 _ => true
  | .pack565 _ => true
  | .l1dec _ => true
  | .l1ext => false
  | .l1enc _ => true
  | .isoxy => false
  | .palscan => false
  | .tiledec scan => !scan
  | .tileenc => true
  | .maskfin => false
  | .canvas => true
  | .blit => true
  | .sprdec => true
  | .decblk => true
  | .encblk => true
  | .xortail => true
  | .decpay => true
  | .encpay => true
  | .mark => false
  | .coreenc => true
  | .coredec => true
  | .keydump => true

/-- Column "in-place": the command accepts `SRC = DST` (20_memory.md R85). -/
def Instr.inPlace : Instr → Bool
  | .nop => false
  | .seed => false
  | .candrst => false
  | .cvt555 _ => false
  | .cvt565 _ => false
  | .pack555 _ => false
  | .pack565 _ => false
  | .l1dec _ => false
  | .l1ext => false
  | .l1enc _ => false
  | .isoxy => false
  | .palscan => false
  | .tiledec _ => false
  | .tileenc => false
  | .maskfin => false
  | .canvas => false
  | .blit => false
  | .sprdec => false
  | .decblk => true
  | .encblk => true
  | .xortail => true
  | .decpay => true
  | .encpay => true
  | .mark => false
  | .coreenc => true
  | .coredec => true
  | .keydump => false

/-! ## The opcode map as rows of match and mask (30_encoding.md R110) -/

/-- A row matches a word `v` when `(v & mask) = match` (30_encoding.md R110). -/
structure OpRow where
  mnemonic : String
  matchWord : BitVec 32
  maskWord : BitVec 32
deriving DecidableEq, Repr

/-- The rows of the opcode table, in its order. The mask keeps TP, EXT, TM and SCAN open. -/
def opTable : List OpRow :=
  [⟨"NOP", 0x00000000#32, 0xFFFFFFFF#32⟩, ⟨"SEED", 0x00000001#32, 0xFFFFFFFF#32⟩,
   ⟨"CANDRST", 0x00000002#32, 0xFFFFFFFF#32⟩, ⟨"CVT555", 0x00000010#32, 0xFFFFFCFF#32⟩,
   ⟨"CVT565", 0x00000011#32, 0xFFFFFCFF#32⟩, ⟨"PACK555", 0x00000012#32, 0xFFFFFCFF#32⟩,
   ⟨"PACK565", 0x00000013#32, 0xFFFFFCFF#32⟩, ⟨"L1DEC", 0x00000014#32, 0xFFFFFEFF#32⟩,
   ⟨"L1EXT", 0x00000015#32, 0xFFFFFFFF#32⟩, ⟨"L1ENC", 0x00000016#32, 0xFFFFFEFF#32⟩] ++
  [⟨"ISOXY", 0x00000020#32, 0xFFFFFFFF#32⟩, ⟨"PALSCAN", 0x00000021#32, 0xFFFFFFFF#32⟩,
   ⟨"TILEDEC", 0x00000022#32, 0xFFFFFEFF#32⟩, ⟨"TILEENC", 0x00000023#32, 0xFFFFFFFF#32⟩,
   ⟨"MASKFIN", 0x00000024#32, 0xFFFFFFFF#32⟩, ⟨"CANVAS", 0x00000025#32, 0xFFFFFFFF#32⟩,
   ⟨"BLIT", 0x00000026#32, 0xFFFFFFFF#32⟩, ⟨"SPRDEC", 0x00000027#32, 0xFFFFFFFF#32⟩] ++
  [⟨"DECBLK", 0x00000030#32, 0xFFFFFFFF#32⟩, ⟨"ENCBLK", 0x00000031#32, 0xFFFFFFFF#32⟩,
   ⟨"XORTAIL", 0x00000032#32, 0xFFFFFFFF#32⟩, ⟨"DECPAY", 0x00000033#32, 0xFFFFFFFF#32⟩,
   ⟨"ENCPAY", 0x00000034#32, 0xFFFFFFFF#32⟩, ⟨"MARK", 0x00000035#32, 0xFFFFFFFF#32⟩,
   ⟨"COREENC", 0x00000036#32, 0xFFFFFFFF#32⟩, ⟨"COREDEC", 0x00000037#32, 0xFFFFFFFF#32⟩,
   ⟨"KEYDUMP", 0x00000038#32, 0xFFFFFFFF#32⟩]

/-- The row matches the word. -/
def OpRow.matches (r : OpRow) (w : BitVec 32) : Bool := w &&& r.maskWord == r.matchWord

/-- The command word that the low `nbits` bits of `w` spell, every bit above them 0. A command word is 32 bits
(30_encoding.md R110) and is written to CMD as one value, so it has no byte order of its own. -/
def tableWord (nbits w : Nat) : BitVec 32 := BitVec.ofNat 32 (w % 2 ^ nbits)

/-- The command the decoder reads from an instruction of the opcode table whose bits are `w`. -/
def decodeTableWord (nbits w : Nat) : Option Instr :=
  match decode (tableWord nbits w) with
  | .ok i => some i
  | .error _ => none

end Sys2Proof
end

