-- ==== Sys2Proof/Config.lean ====
section
/-! DEFINITION. The parameters of a PVCD (00_scope.md R7) and the free values the spec leaves open
(93_implementation_defined.md). A parameter that is data is a field of `Config`; a parameter that is a function,
and every value the spec calls unknown or "any value", is an opaque constant that nothing can evaluate. -/

namespace Sys2Proof

/-- `ISO_NEG_A_MODE` (00_scope.md R7, 41_sprite_compositor.md R200). -/
inductive IsoMode where
  | floor
  | decrementAll
deriving DecidableEq, Repr

/-- Which cipher core the instance is built with. `device` is the open one of 42_block_cipher.md R260 to R262;
`testTI` is the test instantiation of R273, which the spec gives so that examples can be computed. -/
inductive CipherCore where
  | device
  | testTI
deriving DecidableEq, Repr

/-- The parameters of one PVCD (00_scope.md R7) that are plain data. They are fixed: no step changes them. -/
structure Config where
  /-- `BUF_SIZE = 2^(16 + bufLog2)`: a power of two from 2^16 to 2^31 (20_memory.md R80). -/
  bufLog2 : Fin 16
  /-- `REG_BASE` (20_memory.md R82). -/
  regBase : Nat
  /-- `BUF_BASE` (20_memory.md R82). -/
  bufBase : Nat
  /-- `MASK_FALLBACK` (41_sprite_compositor.md R207). -/
  maskFallback : Colour
  /-- `ISO_NEG_A_MODE`. -/
  isoNegA : IsoMode
  /-- `SEED`, 16 bytes (43_system.md R311). -/
  seed : Block
  /-- `CIPHER_KEY_DEFAULT`, 16 bytes (10_state.md R59). -/
  keyDefault : Block
  /-- The cipher core (42_block_cipher.md R262). -/
  core : CipherCore
deriving DecidableEq, Repr

/-- `BUF_SIZE` (20_memory.md R80). -/
def Config.bufSize (c : Config) : Nat := 2 ^ (16 + c.bufLog2.val)

/-- `CANDLIST`, the 7 transparency candidates in order (00_scope.md R7, 10_state.md R52; 0x0300 stands,
90_conflicts.md C4). -/
def Config.candList : List Colour :=
  [0x7C00#16, 0x0300#16, 0x001F#16, 0x7FE0#16, 0x03FF#16, 0x7C1F#16, 0x7FFF#16]

/-! ## Open functions of the cipher (42_block_cipher.md R260 to R262) -/

/-- `SBOX`, a bijection on bytes; `INV_SBOX` is its inverse (R260). -/
opaque Config.sbox : Equiv.Perm Byte

/-- `RCON`, the key schedule's round constants (R261). -/
opaque Config.rcon : List Byte

/-- The key schedule as a function of its table and its round constants (R261). -/
opaque Config.kexpWith : Equiv.Perm Byte → List Byte → Block → RoundKeys

/-- The forward transform under 11 round keys as a function of its table (R262). The two laws of R262 say that it
is a bijection on 16-byte vectors, which is what the type says. -/
opaque Config.encCoreWith : Equiv.Perm Byte → RoundKeys → Equiv.Perm Block

/-- `KEXP` of the device (R261). -/
def Config.kexp (k : Block) : RoundKeys := Config.kexpWith Config.sbox Config.rcon k

/-- `ENC_CORE` of the device (R262). -/
def Config.encCore (rk : RoundKeys) (x : Block) : Block := Config.encCoreWith Config.sbox rk x

/-- `DEC_CORE` of the device: the inverse of `ENC_CORE` (R262 laws 1 and 2). -/
def Config.decCore (rk : RoundKeys) (y : Block) : Block := (Config.encCoreWith Config.sbox rk).symm y

/-! ## Open constants -/

/-- The device's `SEED` (00_scope.md R7, 93 I3). -/
opaque Config.deviceSeed : Block

/-- The device's `CIPHER_KEY_DEFAULT` (00_scope.md R7, 93 I4). -/
opaque Config.deviceKey : Block

/-- The platform's `REG_BASE` (20_memory.md R82, 93 I7). -/
opaque Config.deviceRegBase : Nat

/-- The platform's `BUF_BASE` (20_memory.md R82, 93 I7). -/
opaque Config.deviceBufBase : Nat

/-- What the BUF byte at an address holds from power-on until it is written: one draw per byte
(20_memory.md R99, 93 I8). -/
opaque Config.powerOnByte : Nat → Byte

/-- A fresh value of a register read while BUSY, by the number of the draw (20_memory.md R92, 93 I9). -/
opaque Config.freeWord : Nat → Word

/-- A fresh byte, by the number of the draw: a BUF byte read while BUSY (20_memory.md R92, 93 I9), or a byte of an
aborted command's destination window (43_system.md R319, 93 I10). -/
opaque Config.freeByte : Nat → Byte

/-- The parameters of the machine that starts at `State.reset`: the spec's default where 00_scope.md R7 gives one,
else an open constant. -/
def Config.default : Config where
  bufLog2 := 4
  regBase := Config.deviceRegBase
  bufBase := Config.deviceBufBase
  maskFallback := 0x7C00#16
  isoNegA := .floor
  seed := Config.deviceSeed
  keyDefault := Config.deviceKey
  core := .device

end Sys2Proof
end

