-- ==== Sys2Proof/Machine/Bits.lean ====
section
/-! DEFINITION. Byte order and packing: little-endian values (20_memory.md R83, 00_scope.md R13), 16-byte blocks
(00_scope.md R12) and their four registers (10_state.md R58, R60). -/

namespace Sys2Proof.Machine

/-- The low `n` bytes of `v`, least significant first: what `MemWrite(addr, n, v)` stores (00_scope.md R13). -/
def leBytes {k : Nat} : Nat → BitVec k → List Byte
  | 0, _ => []
  | n + 1, v => v.setWidth 8 :: leBytes n (v >>> 8)

/-- The unsigned little-endian integer of a byte list: what `MemRead` gives (00_scope.md R13). -/
def leValue : List Byte → Nat
  | [] => 0
  | b :: bs => b.toNat + 256 * leValue bs

/-- The two bytes of a 16-bit colour (30_encoding.md R124). -/
def colourBytes (c : Colour) : List Byte := leBytes 2 c

/-- A 16-bit pixel buffer as bytes (30_encoding.md R124). -/
def pixelBytes (cs : List Colour) : List Byte := cs.flatMap colourBytes

/-- The 16-bit colours a byte list holds, in order; a last odd byte is dropped. -/
def bytesColours : List Byte → List Colour
  | lo :: hi :: rest => (hi ++ lo) :: bytesColours rest
  | _ => []

/-- The byte vector `X[0..15]` that a list of 16 bytes spells (00_scope.md R12). -/
def bytesBlock (bs : List Byte) : Block := BitVec.ofNat 128 (leValue bs)

/-- The bytes `X[0], …, X[15]` (00_scope.md R12). -/
def blockBytes (x : Block) : List Byte := leBytes 16 x

/-- Four 32-bit registers in a row: RES0..RES3 (10_state.md R50), RKEY0..RKEY3 (R57), KEY0..KEY3 (R59). -/
structure Quad where
  w0 : Word
  w1 : Word
  w2 : Word
  w3 : Word
deriving DecidableEq, Repr

/-- A 16-byte vector as four registers, little-endian (10_state.md R58, R60). -/
def Quad.ofBlock (x : Block) : Quad where
  w0 := x.extractLsb' 0 32
  w1 := x.extractLsb' 32 32
  w2 := x.extractLsb' 64 32
  w3 := x.extractLsb' 96 32

/-- The byte vector four registers hold: `X[4j + k] = REGj[8k+7 : 8k]` (10_state.md R58, R60). -/
def Quad.block (q : Quad) : Block := q.w3 ++ q.w2 ++ q.w1 ++ q.w0

/-- Four registers that hold 0. -/
def Quad.zero : Quad := ⟨0#32, 0#32, 0#32, 0#32⟩

end Sys2Proof.Machine
end

