-- ==== Sys2Proof/Machine/State.lean ====
section
/-! DEFINITION. The state of a PVCD as plain data (10_state.md R30; INVENTORY.md lists every piece), the events
that drive it, the reasons a step can stop, and the state after power-on (70_reset_and_hazards.md R370). -/

namespace Sys2Proof.Machine

/-- STATUS, PVCD's only flags (10_state.md R33 to R37). Bits 31:5 are reserved and hold nothing. -/
structure Status where
  busy : Bool
  done : Bool
  err : Bool
  warn : Bool
  coll : Bool
deriving DecidableEq, Repr

/-- The operand registers (10_state.md R42 to R49). -/
structure Operands where
  src : Word
  slen : Word
  dst : Word
  dlen : Word
  arg0 : Word
  arg1 : Word
  arg2 : Word
  arg3 : Word
deriving DecidableEq, Repr

/-- The compositor's registers: MASK[15:0] (10_state.md R51), CAND.SET (R52) and CAND.FIXED (R53). -/
structure Compositor where
  mask : Colour
  set : BitVec 7
  fixed : Bool
deriving DecidableEq, Repr

/-- What BUF holds (20_memory.md R80): the bytes that something has written, at strictly rising addresses. An
address that is not listed holds its power-on byte (R99). -/
abbrev Memory := List Host.Cell

/-- A host transaction (30_encoding.md R120): width in bytes, then register offset or BUF offset, then the value of
a write. `busWrite` and `busRead` name a host address instead, which REG_BASE and BUF_BASE route (20_memory.md
R82). -/
inductive HostTxn where
  | regWrite (width offset : Nat) (value : Word)
  | regRead (width offset : Nat)
  | bufWrite (width offset : Nat) (value : Word)
  | bufRead (width offset : Nat)
  | busWrite (width address : Nat) (value : Word)
  | busRead (width address : Nat)
deriving DecidableEq, Repr

/-- What moves next (43_system.md R320): the host with one transaction, or the engine with its completion step. -/
inductive Event where
  | host (t : HostTxn)
  | engine
deriving DecidableEq, Repr

/-- The state of a PVCD. `cfg`, `agenda`, `draws` and `rdata` are the model's own fields (log entries 2, 1, 4, 5);
all others are the spec's. -/
structure State where
  /-- The parameters (00_scope.md R7); no step changes them. -/
  cfg : Config
  /-- CTRL.IE (10_state.md R32). -/
  ie : Bool
  /-- STATUS (10_state.md R33 to R37). -/
  status : Status
  /-- CMD (10_state.md R38); while BUSY it is the pending command's word (R64). -/
  cmd : Word
  /-- ERRCODE[7:0] (10_state.md R39). -/
  errcode : Byte
  /-- WARNCODE[7:0] (10_state.md R40). -/
  warncode : Byte
  /-- CMDCNT (10_state.md R41). -/
  cmdcnt : Word
  /-- SRC .. ARG3 (10_state.md R42 to R49). -/
  ops : Operands
  /-- RES0..RES3 (10_state.md R50). -/
  res : Quad
  /-- MASK and CAND (10_state.md R51 to R54). -/
  comp : Compositor
  /-- RKEY0..RKEY3 (10_state.md R57). -/
  rkey : Quad
  /-- KEY0..KEY3 (10_state.md R59). -/
  key : Quad
  /-- BUF (20_memory.md R80). -/
  buf : Memory
  /-- The events to come, the next one first (43_system.md R320). -/
  agenda : List Event
  /-- How many free values have been drawn (20_memory.md R92, 43_system.md R319). -/
  draws : Nat
  /-- What the last host read returned, zero-extended to 32 bits (43_system.md R314, R316). -/
  rdata : Word
deriving DecidableEq, Repr

/-- Why the machine stops. PVCD itself never stops (60_exceptions.md R339); only a host access that the bus does
not permit gets no step, and its agent is stuck (93_implementation_defined.md I11). -/
inductive Fault where
  /-- A register access that is not 4 bytes wide, not aligned, or not inside the 4096-byte window. Raised by a host
  transaction (20_memory.md R89). Safe: the spec gives such an access no step. -/
  | regAccess
  /-- A BUF access that is not 1, 2 or 4 bytes wide, not aligned, or passes BUF_SIZE. Raised by a host transaction
  (20_memory.md R88). Safe: the spec gives such an access no step. -/
  | bufAccess
deriving DecidableEq, Repr

/-- Why an instruction has no meaning. -/
inductive Refusal where
  /-- An instruction of the opcode table that the model gives no meaning. Raised only by an arm of `exec`; none does.
  Safe: nothing can be proved of such an instruction. -/
  | notModelled (mnemonic : String)
deriving DecidableEq, Repr

/-- The state of a PVCD with parameters `c` right after power-on (70_reset_and_hazards.md R370; 10_state.md R30). -/
def State.powerOn (c : Config) : State where
  cfg := c
  ie := false
  status := ⟨false, false, false, false, false⟩
  cmd := 0#32
  errcode := 0#8
  warncode := 0#8
  cmdcnt := 0#32
  ops := ⟨0#32, 0#32, 0#32, 0#32, 0#32, 0#32, 0#32, 0#32⟩
  res := Quad.zero
  comp := ⟨0x7C00#16, 0x7F#7, false⟩
  rkey := Quad.ofBlock c.seed
  key := Quad.ofBlock c.keyDefault
  buf := []
  agenda := []
  draws := 0
  rdata := 0#32

/-- The machine right after reset (70_reset_and_hazards.md R370), with the default parameters. -/
def State.reset : State := State.powerOn Config.default

end Sys2Proof.Machine
end

