-- ==== Sys2Proof/Machine/Flags.lean ====
section
/-! DEFINITION. STATUS, PVCD's only flags (10_state.md R33 to R37): its word, and what acceptance, completion and
the host's write-1-to-clear do to it; the interrupt output (60_exceptions.md R338). -/

namespace Sys2Proof.Machine

/-- STATUS as the host reads it: BUSY, DONE, ERR, WARN, COLL in bits 0 to 4, bits 31:5 zero (10_state.md R33). -/
def Status.word (f : Status) : Word :=
  0#27 ++ BitVec.ofBool f.coll ++ BitVec.ofBool f.warn ++ BitVec.ofBool f.err ++ BitVec.ofBool f.done
    ++ BitVec.ofBool f.busy

/-- Acceptance of a command: BUSY is set, DONE, ERR and WARN are cleared, COLL stays (43_system.md R317). -/
def Status.accept (f : Status) : Status :=
  { f with busy := true, done := false, err := false, warn := false }

/-- Completion of a command: BUSY is cleared, DONE is set, ERR and WARN say how it ended, COLL stays
(43_system.md R318; 10_state.md R34 to R37). -/
def Status.complete (f : Status) (err warn : Bool) : Status :=
  { f with busy := false, done := true, err := err, warn := warn }

/-- A host write of `v` to STATUS: for each bit 1 to 4 that `v` has set, that bit is cleared; BUSY does not change
(43_system.md R313). -/
def Status.ack (f : Status) (v : Word) : Status where
  busy := f.busy
  done := f.done && !v.getLsbD 1
  err := f.err && !v.getLsbD 2
  warn := f.warn && !v.getLsbD 3
  coll := f.coll && !v.getLsbD 4

/-- The IRQ output: `CTRL.IE and STATUS.DONE`, a level (60_exceptions.md R338). -/
def State.irq (s : State) : Bool := s.ie && s.status.done

end Sys2Proof.Machine
end

