-- ==== Sys2Proof/Machine/Ops.lean ====
section
/-! DEFINITION. The shared operations: reading and writing BUF (20_memory.md R80, R83, R99), issuing a command
(43_system.md R317), completing it with its effect or with an error (R318; 60_exceptions.md R334), and the soft
reset of the registers (R319). -/

namespace Sys2Proof.Machine

/-! ## BUF -/

/-- The byte something has written at an address, if any. -/
def Memory.lookup : Memory → Nat → Option Byte
  | [], _ => none
  | (k, b) :: rest, a => if k = a then some b else Memory.lookup rest a

/-- What an address that nothing has written reads as: its power-on byte, unknown and fixed (20_memory.md R99). -/
def Memory.unlisted (a : Nat) : Byte := Config.powerOnByte a

/-- `BUF[a]` (20_memory.md R80). -/
def Memory.byteAt (m : Memory) (a : Nat) : Byte :=
  match Memory.lookup m a with
  | some b => b
  | none => Memory.unlisted a

/-- `MemBytes(a, n)` (00_scope.md R13). -/
def Memory.readBytes (m : Memory) : Nat → Nat → List Byte
  | _, 0 => []
  | a, n + 1 => Memory.byteAt m a :: Memory.readBytes m (a + 1) n

/-- Bytes at consecutive addresses from `a`. -/
def Memory.cellsFrom : Nat → List Byte → List Host.Cell
  | _, [] => []
  | a, b :: bs => (a, b) :: Memory.cellsFrom (a + 1) bs

/-- `MemWriteBytes(a, X)` (00_scope.md R13): the cells below, the bytes written, the cells above. -/
def Memory.writeBytes (m : Memory) (a : Nat) (bs : List Byte) : Memory :=
  m.filter (fun c => c.1 < a) ++ Memory.cellsFrom a bs ++ m.filter (fun c => a + bs.length ≤ c.1)

/-- The addresses rise strictly. -/
def Memory.rising : Memory → Bool
  | [] => true
  | [_] => true
  | c :: d :: rest => decide (c.1 < d.1) && Memory.rising (d :: rest)

/-- The canonical form: the addresses rise strictly. A listed byte is one that something has written, which an
unlisted one is not (log entry 3). -/
def Memory.wf (m : Memory) : Bool := Memory.rising m

/-- Every listed address lies below `n`. -/
def Memory.below (m : Memory) (n : Nat) : Bool := m.all (fun c => decide (c.1 < n))

/-! ## What a command does: the outcome of 43_system.md R318 -/

/-- The error codes a command can end with (60_exceptions.md R330; codes 2 and 3 are never raised, R331). -/
inductive ErrCode where
  | truncatedInput
  | cipherMarkerMismatch
  | illegalCommand
  | range
  | overlap
deriving DecidableEq, Repr

/-- ERRCODE[7:0] (60_exceptions.md R330). -/
def ErrCode.code : ErrCode → Byte
  | .truncatedInput => 1#8
  | .cipherMarkerMismatch => 5#8
  | .illegalCommand => 6#8
  | .range => 7#8
  | .overlap => 8#8

/-- WARNCODE[7:0]: 4, MaskColorExhausted, or 0 (60_exceptions.md R332). -/
def warnCode (exhausted : Bool) : Byte := if exhausted then 4#8 else 0#8

/-- `Ok(bufWrites, regWrites, res, w)` of 43_system.md R318. `writes` holds destination offsets and bytes, applied
in order; `comp` and `rkey` are the values those registers take (10_state.md R66); `res` is RES0..RES3; `warn`
says that MaskColorExhausted was recorded. -/
structure Effect where
  writes : List (Nat × List Byte)
  comp : Compositor
  rkey : Quad
  res : Quad
  warn : Bool
deriving DecidableEq, Repr

/-- `finish(r0, r1, r2, r3)` with nothing else written (00_scope.md R14). -/
def State.finish (s : State) (r0 r1 r2 r3 : Word) : Effect where
  writes := []
  comp := s.comp
  rkey := s.rkey
  res := ⟨r0, r1, r2, r3⟩
  warn := false

/-- The same effect, with `out` written from destination offset 0. -/
def Effect.withOut (e : Effect) (out : List Byte) : Effect := { e with writes := [(0, out)] }

/-- `raise E` unless `c` (00_scope.md R14). -/
def require (c : Bool) (e : ErrCode) : Except ErrCode Unit := if c then .ok () else .error e

/-- `dstWrite` of every write of a command, in order (00_scope.md R14). -/
def Memory.dstWrites (m : Memory) (dst : Nat) (ws : List (Nat × List Byte)) : Memory :=
  ws.foldl (fun m w => Memory.writeBytes m (dst + w.1) w.2) m

/-- Completion without error (43_system.md R318, case `Ok`). -/
def State.completeOk (s : State) (e : Effect) : State :=
  { s with
    buf := Memory.dstWrites s.buf s.ops.dst.toNat e.writes
    comp := e.comp
    rkey := e.rkey
    res := e.res
    errcode := 0#8
    warncode := warnCode e.warn
    status := s.status.complete false e.warn
    cmdcnt := s.cmdcnt + 1#32 }

/-- Completion with an error code (43_system.md R318, case `Err`): exactly ERRCODE, WARNCODE, STATUS and CMDCNT
change (60_exceptions.md R334). It is PVCD's only exception, and it transfers no control (R339). -/
def State.completeErr (s : State) (e : ErrCode) : State :=
  { s with
    errcode := e.code
    warncode := 0#8
    status := s.status.complete true false
    cmdcnt := s.cmdcnt + 1#32 }

/-- The completion step of a command with this outcome (43_system.md R318). -/
def State.complete (s : State) : Except ErrCode Effect → State
  | .ok e => s.completeOk e
  | .error e => s.completeErr e

/-- A meaning's answer: the state after the completion step. -/
def commit (s : State) (r : Except ErrCode Effect) : Host.Outcome State Fault Refusal := .next (s.complete r)

/-- Return from an error or a completion (60_exceptions.md R340): a host write of `v` to STATUS clears each of bits
1 to 4 that `v` has set (43_system.md R313). -/
def State.ackStatus (s : State) (v : Word) : State := { s with status := s.status.ack v }

/-! ## Issue and reset -/

/-- Command issue (43_system.md R317): the word is accepted, not yet decoded. -/
def State.issue (s : State) (v : Word) : State := { s with cmd := v, status := s.status.accept }

/-- A host write that is dropped because STATUS.BUSY = 1 (20_memory.md R91). -/
def State.collide (s : State) : State := { s with status := { s.status with coll := true } }

/-- Every register at its reset value (43_system.md R319 point 2; 10_state.md R30). -/
def State.resetRegisters (s : State) : State :=
  { s with
    ie := false
    status := ⟨false, false, false, false, false⟩
    cmd := 0#32
    errcode := 0#8
    warncode := 0#8
    cmdcnt := 0#32
    ops := ⟨0#32, 0#32, 0#32, 0#32, 0#32, 0#32, 0#32, 0#32⟩
    res := Quad.zero
    comp := ⟨0x7C00#16, 0x7F#7, false⟩
    rkey := Quad.ofBlock s.cfg.seed
    key := Quad.ofBlock s.cfg.keyDefault }

end Sys2Proof.Machine
end

