-- ==== Sys2Proof/Machine/Operands.lean ====
section
/-! DEFINITION. Every operand form: the command windows and their checks (20_memory.md R84, R85; 60_exceptions.md
R335), the reads of the source window (00_scope.md R14), and the fields of the argument registers
(30_encoding.md R116). -/

namespace Sys2Proof.Machine

/-! ## Windows -/

/-- The source window `[SRC, SRC + SLEN)` passes BUF_SIZE, on unbounded integers (20_memory.md R84). -/
def State.sourceOut (s : State) : Bool := decide (s.cfg.bufSize < s.ops.src.toNat + s.ops.slen.toNat)

/-- The destination window `[DST, DST + DLEN)` passes BUF_SIZE (20_memory.md R84). -/
def State.destOut (s : State) : Bool := decide (s.cfg.bufSize < s.ops.dst.toNat + s.ops.dlen.toNat)

/-- Both windows have non-zero length and share a byte (20_memory.md R85). -/
def State.windowsMeet (s : State) : Bool :=
  s.ops.slen != 0#32 && s.ops.dlen != 0#32 && decide (s.ops.src.toNat < s.ops.dst.toNat + s.ops.dlen.toNat)
    && decide (s.ops.dst.toNat < s.ops.src.toNat + s.ops.slen.toNat)

/-- The generic checks, in the order of 60_exceptions.md R335: decode (an ill-formed term is an illegal word,
30_encoding.md R114), source window, destination window, overlap (20_memory.md R85). -/
def State.genericChecks (s : State) (i : Instr) : Except ErrCode Unit :=
  if !i.wellFormed then .error .illegalCommand
  else if i.usesSource && s.sourceOut then .error .range
  else if i.usesDest && s.destOut then .error .range
  else if i.usesSource && i.usesDest && s.windowsMeet && !(i.inPlace && s.ops.src == s.ops.dst) then
    .error .overlap
  else .ok ()

/-- The bytes of the source window (00_scope.md R14): its length is SLEN. -/
def State.source (s : State) : List Byte := Memory.readBytes s.buf s.ops.src.toNat s.ops.slen.toNat

/-- SLEN as a number (10_state.md R43). -/
def State.slen (s : State) : Nat := s.ops.slen.toNat

/-- DLEN as a number (10_state.md R45). -/
def State.dlen (s : State) : Nat := s.ops.dlen.toNat

/-! ## Reads of the source window (00_scope.md R14): past its end they raise TruncatedInput -/

/-- `src8(o)`. -/
def src8 (b : List Byte) (o : Nat) : Except ErrCode Byte :=
  match b[o]? with
  | some v => .ok v
  | none => .error .truncatedInput

/-- `src16(o)`, little-endian. -/
def src16 (b : List Byte) (o : Nat) : Except ErrCode (BitVec 16) := do
  let lo ← src8 b o
  let hi ← src8 b (o + 1)
  return hi ++ lo

/-- The 32 bits at `o`, little-endian; `srcI32(o)` is their signed value. -/
def src32 (b : List Byte) (o : Nat) : Except ErrCode (BitVec 32) := do
  let lo ← src16 b o
  let hi ← src16 b (o + 2)
  return hi ++ lo

/-- `srcBytes(o, 16)` as a block (42_block_cipher.md). -/
def srcBlock (b : List Byte) (o : Nat) : Except ErrCode Block :=
  if o + 16 ≤ b.length then .ok (bytesBlock ((b.drop o).take 16)) else .error .truncatedInput

/-! ## Argument fields (30_encoding.md R116) -/

/-- `ARG0[7:0]`: L1ENC's `x_off`, TILEENC's unused header byte. -/
def Operands.byte0 (o : Operands) : Byte := o.arg0.extractLsb' 0 8

/-- `ARG0[15:8]`: L1ENC's `y_off`. -/
def Operands.byte1 (o : Operands) : Byte := o.arg0.extractLsb' 8 8

/-- `ARG0[23:16]`: L1ENC's `width`. -/
def Operands.byte2 (o : Operands) : Byte := o.arg0.extractLsb' 16 8

/-- `ARG0[31:24]`: L1ENC's `height`. -/
def Operands.byte3 (o : Operands) : Byte := o.arg0.extractLsb' 24 8

/-- BLIT's frame origin `x_offset = s16(ARG0[15:0])`. -/
def Operands.originX (o : Operands) : Int := (o.arg0.extractLsb' 0 16).toInt

/-- BLIT's frame origin `y_offset = s16(ARG0[31:16])`. -/
def Operands.originY (o : Operands) : Int := (o.arg0.extractLsb' 16 16).toInt

/-- Frame width `w = ARG1`. -/
def Operands.frameW (o : Operands) : Nat := o.arg1.toNat

/-- Frame height `h = ARG2`. -/
def Operands.frameH (o : Operands) : Nat := o.arg2.toNat

/-- `1 <= w <= 65536` and `1 <= h <= 65536`, else Range. -/
def Operands.frameOk (o : Operands) : Bool :=
  decide (1 ≤ o.frameW) && decide (o.frameW ≤ 65536) && decide (1 ≤ o.frameH) && decide (o.frameH ≤ 65536)

/-- Block-def coordinate `a = s8(ARG3[7:0])`. -/
def Operands.blockA (o : Operands) : Int := (o.arg3.extractLsb' 0 8).toInt

/-- Block-def coordinate `b = s8(ARG3[15:8])`. -/
def Operands.blockB (o : Operands) : Int := (o.arg3.extractLsb' 8 8).toInt

end Sys2Proof.Machine
end

