-- ==== Sys2Proof/Machine/Cipher.lean ====
section
/-! DEFINITION. The legacy block cipher: the block transform of the instance (42_block_cipher.md R260 to R262, R273),
the chaining mode, and DECBLK, ENCBLK, XORTAIL, DECPAY, ENCPAY, MARK, COREENC, COREDEC, KEYDUMP (R263 to R271). -/

namespace Sys2Proof.Machine

/-! ## The block transform -/

/-- TI's `ENC_CORE`: each byte plus 1, modulo 256 (42_block_cipher.md R273). -/
def tiEnc (x : Block) : Block := bytesBlock ((blockBytes x).map (· + 1#8))

/-- TI's `DEC_CORE`: each byte minus 1, modulo 256 (42_block_cipher.md R273). -/
def tiDec (y : Block) : Block := bytesBlock ((blockBytes y).map (· - 1#8))

/-- `KEXP` of the instance: open for the device, 11 copies of the key for TI (42_block_cipher.md R261, R273). -/
def coreKexp (c : CipherCore) (k : Block) : RoundKeys :=
  match c with
  | .device => Config.kexp k
  | .testTI => Vector.replicate 11 k

/-- `ENC_CORE` of the instance (42_block_cipher.md R262, R273). -/
def coreEnc (c : CipherCore) (rk : RoundKeys) (x : Block) : Block :=
  match c with
  | .device => Config.encCore rk x
  | .testTI => tiEnc x

/-- `DEC_CORE` of the instance (42_block_cipher.md R262, R273). -/
def coreDec (c : CipherCore) (rk : RoundKeys) (y : Block) : Block :=
  match c with
  | .device => Config.decCore rk y
  | .testTI => tiDec y

/-- `RK = KEXP(K)`, from KEY as it stands (10_state.md R61). -/
def State.roundKeys (s : State) : RoundKeys := coreKexp s.cfg.core s.key.block

/-- `ENC_CORE(KEXP(K), X)`. -/
def State.encCore (s : State) (x : Block) : Block := coreEnc s.cfg.core s.roundKeys x

/-- `DEC_CORE(KEXP(K), Y)`. -/
def State.decCore (s : State) (y : Block) : Block := coreDec s.cfg.core s.roundKeys y

/-! ## Single blocks -/

/-- The operands of the one-block commands: 16 source bytes, room for 16 (42_block_cipher.md R263). -/
def State.oneBlock (s : State) : Except ErrCode Block := do
  let x ← srcBlock s.source 0
  require (decide (16 ≤ s.dlen)) .range
  return x

/-- `dstBytes(0, X)` and `finish(0, 0, 0, 16)`. -/
def State.blockEffect (s : State) (x : Block) : Effect := (s.finish 0 0 0 16).withOut (blockBytes x)

/-- DECBLK (42_block_cipher.md R263): `P = DEC_CORE(RK, C) xor R`, then `R <- C`. -/
def decblk (s : State) : Except ErrCode Effect := do
  s.genericChecks .decblk
  let c ← s.oneBlock
  return { s.blockEffect (s.decCore c ^^^ s.rkey.block) with rkey := Quad.ofBlock c }

/-- ENCBLK (42_block_cipher.md R264): `T = ENC_CORE(RK, P xor R)`, then `R <- T`. -/
def encblk (s : State) : Except ErrCode Effect := do
  s.genericChecks .encblk
  let p ← s.oneBlock
  let t := s.encCore (p ^^^ s.rkey.block)
  return { s.blockEffect t with rkey := Quad.ofBlock t }

/-- Bytes XORed with the first bytes of a rolling key (42_block_cipher.md R265). -/
def xorTail (r : Block) (bs : List Byte) : List Byte := List.zipWith (· ^^^ ·) bs (blockBytes r)

/-- XORTAIL (42_block_cipher.md R265); RKEY does not change. -/
def xortail (s : State) : Except ErrCode Effect := do
  s.genericChecks .xortail
  require (decide (s.slen ≤ 15)) .range
  require (decide (s.slen ≤ s.dlen)) .range
  return (s.finish 0 0 0 s.ops.slen).withOut (xorTail s.rkey.block s.source)

/-! ## Payloads -/

/-- The full 16-byte blocks at the front of a byte list, `n` of them. -/
def blocksOf : Nat → List Byte → List Block
  | 0, _ => []
  | n + 1, bs => bytesBlock (bs.take 16) :: blocksOf n (bs.drop 16)

/-- The decrypting chain (42_block_cipher.md R266): the plaintext blocks and the rolling key at the end. -/
def decChain (dec : Block → Block) : Block → List Block → List Block × Block
  | r, [] => ([], r)
  | r, c :: cs => ((dec c ^^^ r) :: (decChain dec c cs).1, (decChain dec c cs).2)

/-- The encrypting chain (42_block_cipher.md R267): the cipher blocks and the rolling key at the end. -/
def encChain (enc : Block → Block) : Block → List Block → List Block × Block
  | r, [] => ([], r)
  | r, p :: ps => (enc (p ^^^ r) :: (encChain enc (enc (p ^^^ r)) ps).1, (encChain enc (enc (p ^^^ r)) ps).2)

/-- The shared form of DECPAY and ENCPAY (42_block_cipher.md R266, R267): `n >= 4`, the marker, room; then the bytes
written and the final rolling key. `chain` starts from `SEED`. -/
def payload (chain : Block → List Block → List Block × Block) (seed : Block) (wantMark newMark : Byte)
    (src : List Byte) (dlen : Nat) : Except ErrCode (List Byte × Block) := do
  require (decide (4 ≤ src.length)) .truncatedInput
  require (src.head? == some wantMark) .cipherMarkerMismatch
  require (decide (src.length ≤ dlen)) .range
  let body := src.drop 4
  let nb := body.length / 16
  let r := chain seed (blocksOf nb body)
  return (newMark :: (src.drop 1).take 3 ++ r.1.flatMap blockBytes ++ xorTail r.2 (body.drop (16 * nb)), r.2)

/-- `R <- Rc; finish(nb, m, 0, n)` with the payload written (42_block_cipher.md R266, R267). -/
def State.payloadEffect (s : State) (r : List Byte × Block) : Effect :=
  { (s.finish (BitVec.ofNat 32 ((s.slen - 4) / 16)) (BitVec.ofNat 32 ((s.slen - 4) % 16)) 0 s.ops.slen).withOut r.1 with
    rkey := Quad.ofBlock r.2 }

/-- DECPAY (42_block_cipher.md R266): marker 0x58 becomes 0x3C. -/
def decpay (s : State) : Except ErrCode Effect := do
  s.genericChecks .decpay
  let r ← payload (decChain s.decCore) s.cfg.seed 0x58#8 0x3C#8 s.source s.dlen
  return s.payloadEffect r

/-- ENCPAY (42_block_cipher.md R267): marker 0x3C becomes 0x58. -/
def encpay (s : State) : Except ErrCode Effect := do
  s.genericChecks .encpay
  let r ← payload (encChain s.encCore) s.cfg.seed 0x3C#8 0x58#8 s.source s.dlen
  return s.payloadEffect r

/-- The marker class: 1 encrypted, 2 plaintext, 0 neither (42_block_cipher.md R268). -/
def markClass (b : Byte) : Word := if b == 0x58#8 then 1#32 else if b == 0x3C#8 then 2#32 else 0#32

/-- MARK (42_block_cipher.md R268). -/
def mark (s : State) : Except ErrCode Effect := do
  s.genericChecks .mark
  let b ← src8 s.source 0
  return s.finish (markClass b) (b.setWidth 32) 0 0

/-! ## The raw transform and the key schedule -/

/-- COREENC (42_block_cipher.md R269); RKEY does not change. -/
def coreenc (s : State) : Except ErrCode Effect := do
  s.genericChecks .coreenc
  let x ← s.oneBlock
  return s.blockEffect (s.encCore x)

/-- COREDEC (42_block_cipher.md R270); RKEY does not change. -/
def coredec (s : State) : Except ErrCode Effect := do
  s.genericChecks .coredec
  let x ← s.oneBlock
  return s.blockEffect (s.decCore x)

/-- KEYDUMP (42_block_cipher.md R271; 30_encoding.md R134): round key `r` at destination offset `16r`. -/
def keydump (s : State) : Except ErrCode Effect := do
  s.genericChecks .keydump
  require (decide (176 ≤ s.dlen)) .range
  return (s.finish 11 0 0 176).withOut (s.roundKeys.toList.flatMap blockBytes)

/-- The completion step of DECBLK. -/
def execDecblk (s : State) : Host.Outcome State Fault Refusal := commit s (decblk s)

/-- The completion step of ENCBLK. -/
def execEncblk (s : State) : Host.Outcome State Fault Refusal := commit s (encblk s)

/-- The completion step of XORTAIL. -/
def execXortail (s : State) : Host.Outcome State Fault Refusal := commit s (xortail s)

/-- The completion step of DECPAY. -/
def execDecpay (s : State) : Host.Outcome State Fault Refusal := commit s (decpay s)

/-- The completion step of ENCPAY. -/
def execEncpay (s : State) : Host.Outcome State Fault Refusal := commit s (encpay s)

/-- The completion step of MARK. -/
def execMark (s : State) : Host.Outcome State Fault Refusal := commit s (mark s)

/-- The completion step of COREENC. -/
def execCoreenc (s : State) : Host.Outcome State Fault Refusal := commit s (coreenc s)

/-- The completion step of COREDEC. -/
def execCoredec (s : State) : Host.Outcome State Fault Refusal := commit s (coredec s)

/-- The completion step of KEYDUMP. -/
def execKeydump (s : State) : Host.Outcome State Fault Refusal := commit s (keydump s)

end Sys2Proof.Machine
end

