-- ==== Sys2Proof/Machine/Rle.lean ====
section
/-! DEFINITION. The scanline run-length row format (30_encoding.md R126): decoding rows into placements
(40_pixel_codec.md R157), painting placements into a pixel buffer, and encoding a row (R160). -/

namespace Sys2Proof.Machine

/-- A placement `(x, r, c)`: colour `c` lands at column `x` of row `r` (40_pixel_codec.md R157). -/
structure Placement where
  x : Nat
  r : Nat
  c : Colour
deriving DecidableEq, Repr

/-- The `run` colours of one segment, from offset `o`, the first at column `x` of row `r`. -/
def decodeRun (b : List Byte) (r : Nat) : Nat → Nat → Nat → Except ErrCode (List Placement)
  | 0, _, _ => .ok []
  | run + 1, o, x => do
    let c ← src16 b o
    let rest ← decodeRun b r run (o + 2) (x + 1)
    return ⟨x, r, c⟩ :: rest

/-- The segments of one row: `skip` is halved and its low bit lost, `run` colours follow. Gives the offset after
them. -/
def decodeSegs (b : List Byte) (r : Nat) : Nat → Nat → Nat → Except ErrCode (Nat × List Placement)
  | 0, o, _ => .ok (o, [])
  | nseg + 1, o, x => do
    let skip ← src8 b o
    let run ← src8 b (o + 1)
    let here ← decodeRun b r run.toNat (o + 2) (x + (skip >>> 1).toNat)
    let (o', rest) ← decodeSegs b r nseg (o + 2 + 2 * run.toNat) (x + (skip >>> 1).toNat + run.toNat)
    return (o', here ++ rest)

/-- Rows `r`, `r + 1`, … from offset `o`, each with its cursor starting at column `xs`. -/
def decodeRowsFrom (b : List Byte) (xs : Nat) : Nat → Nat → Nat → Except ErrCode (Nat × List Placement)
  | 0, o, _ => .ok (o, [])
  | n + 1, o, r => do
    let nseg ← src8 b o
    let (o', here) ← decodeSegs b r nseg.toNat (o + 1) xs
    let (o'', rest) ← decodeRowsFrom b xs n o' (r + 1)
    return (o'', here ++ rest)

/-- `DecodeRows(o, nrows, xs)` (40_pixel_codec.md R157): the offset after the last row and the placements in stream
order. -/
def decodeRows (b : List Byte) (o nrows xs : Nat) : Except ErrCode (Nat × List Placement) :=
  decodeRowsFrom b xs nrows o 0

/-- `max({x + 1} ∪ {0})` over the placements (40_pixel_codec.md R158, R159). -/
def maxExtent (l : List Placement) : Nat := l.foldl (fun m p => max m (p.x + 1)) 0

/-- Colours written one after another at positions of a pixel buffer; a position outside it is dropped. -/
def paint (buf : List Colour) (ps : List (Nat × Colour)) : List Colour :=
  ps.foldl (fun b p => b.set p.1 p.2) buf

/-- The positions of placements in a buffer of stride `w` and `h` rows whose row 0 is row `-y0` of the stream:
those outside it are discarded (40_pixel_codec.md R158; 41_sprite_compositor.md R202). -/
def placed (w h y0 : Nat) (l : List Placement) : List (Nat × Colour) :=
  l.filterMap (fun p => if p.x < w ∧ y0 + p.r < h then some ((y0 + p.r) * w + p.x, p.c) else none)

/-! ## Encoding a row (40_pixel_codec.md R160) -/

/-- A segment of a row: `skip`, then the run's colours (30_encoding.md R126). -/
structure Segment where
  skip : Byte
  cols : List Colour
deriving DecidableEq, Repr

/-- `while gap > 127: segs.append((254, 0, [])); gap = gap - 127`, then the run with the gap that is left: the loop
runs `(gap - 1) / 127` times. -/
def gapSegs (gap : Nat) (cols : List Colour) : List Segment :=
  List.replicate ((gap - 1) / 127) ⟨254#8, []⟩ ++ [⟨BitVec.ofNat 8 (2 * (gap - 127 * ((gap - 1) / 127))), cols⟩]

/-- The loop of EncodeRow on the part of the row from the cursor on: skip the transparent colours, take a run of at
most 255 others, go on behind it. Each turn takes at least one colour, so the row's length is enough fuel. -/
def encodeSegs (t : Colour) : Nat → List Colour → List Segment
  | 0, _ => []
  | fuel + 1, row =>
    let gap := (row.takeWhile (· == t)).length
    let rest := row.dropWhile (· == t)
    let run := (rest.takeWhile (· != t)).take 255
    if rest.isEmpty then [] else gapSegs gap run ++ encodeSegs t fuel (rest.drop run.length)

/-- The bytes of a segment: skip, run, colours. -/
def Segment.bytes (g : Segment) : List Byte := [g.skip, BitVec.ofNat 8 g.cols.length] ++ pixelBytes g.cols

/-- `EncodeRow(P, W, xs, T)` (40_pixel_codec.md R160) of the row `P`, cursor at column `xs`, transparent colour
`t`. -/
def encodeRow (row : List Colour) (xs : Nat) (t : Colour) : Except ErrCode (List Byte) := do
  let segs := encodeSegs t row.length (row.drop xs)
  require (decide (segs.length ≤ 255)) .range
  return BitVec.ofNat 8 segs.length :: segs.flatMap Segment.bytes

/-- The rows of a pixel buffer of stride `w`, in order. -/
def rowsOf (w : Nat) : Nat → List Colour → List (List Colour)
  | 0, _ => []
  | h + 1, p => p.take w :: rowsOf w h (p.drop w)

/-- `out ++ EncodeRow(row)` for each row in turn. -/
def encodeRows (xs : Nat) (t : Colour) : List (List Colour) → Except ErrCode (List Byte)
  | [] => .ok []
  | row :: rows => do
    let here ← encodeRow row xs t
    let rest ← encodeRows xs t rows
    return here ++ rest

end Sys2Proof.Machine
end

