-- ==== Sys2Proof/Machine/Comp.lean ====
section
/-! DEFINITION. The compositor's single-step commands on coordinates, candidates and canvases: ISOXY, PALSCAN,
MASKFIN, CANVAS, BLIT (41_sprite_compositor.md R200, R201, R203, R207 to R210; 10_state.md R55). -/

namespace Sys2Proof.Machine

/-! ## The diamond-grid transform -/

/-- `ISO(a, b)` (41_sprite_compositor.md R200), under the reading `ISO_NEG_A_MODE`. -/
def iso (m : IsoMode) (a b : Int) : Int × Int :=
  if m = .floor ∨ 0 ≤ a then
    (24 * (b + a - Int.fdiv a 2), 12 * (b - Int.fdiv a 2))
  else
    (24 * (b + (a - 1) - Int.tdiv (a - 1) 2), 12 * (b - Int.tdiv (a - 1) 2))

/-- The transform of the block-def coordinates in ARG3 (30_encoding.md R116). -/
def State.isoArgs (s : State) : Int × Int := iso s.cfg.isoNegA s.ops.blockA s.ops.blockB

/-- ISOXY (41_sprite_compositor.md R201). -/
def isoxy (s : State) : Except ErrCode Effect := do
  s.genericChecks .isoxy
  return s.finish (BitVec.ofInt 32 s.isoArgs.1) (BitVec.ofInt 32 s.isoArgs.2) 0 0

/-! ## Candidates -/

/-- `hits(L)`: bit `i` is 1 exactly when `CANDLIST[i]` occurs in `L` (10_state.md R55). -/
def hits (l : List Colour) : BitVec 7 :=
  Config.candList.zipIdx.foldl (fun acc c => if l.contains c.1 then acc ||| (1#7 <<< c.2) else acc) 0#7

/-- `SET <- SET and not hits(L)` (10_state.md R55). -/
def scan (set : BitVec 7) (l : List Colour) : BitVec 7 := set &&& ~~~(hits l)

/-- `CANDLIST[first(S)]`: the candidate earliest in the list that is still unused; none when `S = 0`
(10_state.md R55). -/
def firstCandidate (set : BitVec 7) : Option Colour :=
  (Config.candList.zipIdx.find? (fun c => set.getLsbD c.2)).map (·.1)

/-- `[src16(o + 2*i) for i in 0 .. n-1]`. -/
def colourList (b : List Byte) : Nat → Nat → Except ErrCode (List Colour)
  | _, 0 => .ok []
  | o, n + 1 => do
    let c ← src16 b o
    let rest ← colourList b (o + 2) n
    return c :: rest

/-- A palette block body at offset `o`: the count byte, 0 meaning 256, and its colours (30_encoding.md R130). -/
def paletteAt (b : List Byte) (o : Nat) : Except ErrCode (Nat × List Colour) := do
  let c ← src8 b o
  let n := if c == 0#8 then 256 else c.toNat
  let p ← colourList b (o + 1) n
  return (n, p)

/-- MASK and CAND after a palette scan: the mask is fixed when it was not and a candidate remains
(41_sprite_compositor.md R203). -/
def paletteComp (c : Compositor) (p : List Colour) : Compositor :=
  match c.fixed, firstCandidate (scan c.set p) with
  | false, some m => ⟨m, scan c.set p, true⟩
  | _, _ => { c with set := scan c.set p }

/-- PALSCAN (41_sprite_compositor.md R203). -/
def palscan (s : State) : Except ErrCode Effect := do
  s.genericChecks .palscan
  let (n, p) ← paletteAt s.source 0
  let c := paletteComp s.comp p
  return { s.finish (BitVec.ofNat 32 n) (c.set.setWidth 32) (c.mask.setWidth 32) (BitVec.ofNat 32 (1 + 2 * n)) with
    comp := c }

/-- MASKFIN (41_sprite_compositor.md R207). -/
def maskfin (s : State) : Except ErrCode Effect := do
  s.genericChecks .maskfin
  if s.comp.fixed then
    return s.finish (s.comp.mask.setWidth 32) 0 0 0
  else
    match firstCandidate s.comp.set with
    | some m => return { s.finish (m.setWidth 32) 0 0 0 with comp := ⟨m, s.comp.set, true⟩ }
    | none =>
      return { s.finish (s.cfg.maskFallback.setWidth 32) 1 0 0 with
        comp := ⟨s.cfg.maskFallback, s.comp.set, true⟩
        warn := true }

/-! ## Canvas and blit -/

/-- `stride = w + (w mod 2)` (30_encoding.md R124). -/
def strideOf (w : Nat) : Nat := w + w % 2

/-- CANVAS (41_sprite_compositor.md R208). -/
def canvas (s : State) : Except ErrCode Effect := do
  s.genericChecks .canvas
  require s.ops.frameOk .range
  let stride := strideOf s.ops.frameW
  let h := s.ops.frameH
  require (decide (2 * stride * h ≤ s.dlen)) .range
  return (s.finish (BitVec.ofNat 32 stride) (BitVec.ofNat 32 h) 0 (BitVec.ofNat 32 (2 * stride * h))).withOut
    (pixelBytes (List.replicate (stride * h) s.comp.mask))

/-- A frame: its origin and its extent (30_encoding.md R116, R128). -/
structure Frame where
  x1 : Int
  y1 : Int
  w : Nat
  h : Nat
deriving DecidableEq, Repr

/-- Where one tile pixel of colour `v` at `(tx, ty)` lands in a frame's canvas when the block is at `(px, py)`: the
index in the canvas and the colour, or nothing when it is a mask pixel or outside (41_sprite_compositor.md R209). -/
def Frame.land (f : Frame) (mk : Colour) (px py : Int) (tx ty : Nat) (v : Colour) : Option (Nat × Colour) :=
  let x := px + tx - f.x1
  let y := py + ty - f.y1
  if v ≠ mk ∧ 0 ≤ x ∧ x < f.w ∧ 0 ≤ y ∧ y < f.h then some (y.toNat * strideOf f.w + x.toNat, v) else none

/-- `Blit` (41_sprite_compositor.md R209): what it writes, in order, as canvas index and colour. `tile` is 24 rows of
24 colours, row by row. -/
def blitWrites (f : Frame) (mk : Colour) (px py : Int) (tile : List Colour) : List (Nat × Colour) :=
  tile.zipIdx.filterMap (fun v => f.land mk px py (v.2 % 24) (v.2 / 24) v.1)

/-- The frame of the argument registers (30_encoding.md R116). -/
def Operands.frame (o : Operands) : Frame := ⟨o.originX, o.originY, o.frameW, o.frameH⟩

/-- BLIT (41_sprite_compositor.md R210). It writes only the pixels it places. -/
def blit (s : State) : Except ErrCode Effect := do
  s.genericChecks .blit
  require s.ops.frameOk .range
  require (decide (1152 ≤ s.slen)) .truncatedInput
  require (decide (2 * strideOf s.ops.frameW * s.ops.frameH ≤ s.dlen)) .range
  let px := s.isoArgs.1
  let py := s.isoArgs.2
  let ws := blitWrites s.ops.frame s.comp.mask px py ((bytesColours s.source).take 576)
  return { s.finish (BitVec.ofNat 32 ws.length) (BitVec.ofInt 32 px) (BitVec.ofInt 32 py) 0 with
    writes := ws.map (fun w => (2 * w.1, colourBytes w.2)) }

/-- The completion step of ISOXY. -/
def execIsoxy (s : State) : Host.Outcome State Fault Refusal := commit s (isoxy s)

/-- The completion step of PALSCAN. -/
def execPalscan (s : State) : Host.Outcome State Fault Refusal := commit s (palscan s)

/-- The completion step of MASKFIN. -/
def execMaskfin (s : State) : Host.Outcome State Fault Refusal := commit s (maskfin s)

/-- The completion step of CANVAS. -/
def execCanvas (s : State) : Host.Outcome State Fault Refusal := commit s (canvas s)

/-- The completion step of BLIT. -/
def execBlit (s : State) : Host.Outcome State Fault Refusal := commit s (blit s)

end Sys2Proof.Machine
end

