-- ==== Sys2Proof/Machine/L1.lean ====
section
/-! DEFINITION. The L1 image commands L1DEC, L1EXT, L1ENC (40_pixel_codec.md R158, R159, R161; 30_encoding.md
R125). -/

namespace Sys2Proof.Machine

/-- What the parse of an L1 stream gives (30_encoding.md R125): the header word `x_off, y_off, width, height`, the
offset after the last row, and the placements. An empty image has no rows. -/
structure L1Stream where
  hdr : Word
  width : Nat
  height : Nat
  next : Nat
  places : List Placement
deriving DecidableEq, Repr

/-- The parse shared by L1DEC and L1EXT (40_pixel_codec.md R158, R159). -/
def l1Parse (b : List Byte) : Except ErrCode L1Stream := do
  let xo ← src8 b 0
  let yo ← src8 b 1
  let w ← src8 b 2
  let h ← src8 b 3
  if w == 0#8 || h == 0#8 then
    return ⟨h ++ w ++ yo ++ xo, 0, 0, 4, []⟩
  else do
    let (o, l) ← decodeRows b 4 h.toNat 0
    return ⟨h ++ w ++ yo ++ xo, w.toNat, h.toNat, o, l⟩

/-- The output width: the declared one, or the true extent with EXT (40_pixel_codec.md R158). -/
def L1Stream.outWidth (l : L1Stream) (ext : Bool) : Nat := if ext then max l.width (maxExtent l.places) else l.width

/-- The pixel buffer of a parsed image, `P` of 40_pixel_codec.md R158. -/
def L1Stream.pixels (l : L1Stream) (ext : Bool) : List Colour :=
  paint (List.replicate (l.outWidth ext * l.height) 0#16) (placed (l.outWidth ext) l.height 0 l.places)

/-- `finish(hdr, ow, h, o)`. -/
def L1Stream.effect (l : L1Stream) (ext : Bool) (s : State) : Effect :=
  s.finish l.hdr (BitVec.ofNat 32 (l.outWidth ext)) (BitVec.ofNat 32 l.height) (BitVec.ofNat 32 l.next)

/-- L1DEC (40_pixel_codec.md R158). An empty image has no pixels, writes nothing and checks no size. -/
def l1dec (ext : Bool) (s : State) : Except ErrCode Effect := do
  s.genericChecks (.l1dec ext)
  let l ← l1Parse s.source
  require (decide (2 * l.outWidth ext * l.height ≤ s.dlen)) .range
  return (l.effect ext s).withOut (pixelBytes (l.pixels ext))

/-- L1EXT (40_pixel_codec.md R159): the dry pass; writes nothing. -/
def l1ext (s : State) : Except ErrCode Effect := do
  s.genericChecks .l1ext
  let l ← l1Parse s.source
  return l.effect true s

/-- The stream L1ENC writes (40_pixel_codec.md R161): the header bytes, then each row of the pixel buffer. -/
def l1Stream (o : Operands) (t : Colour) (src : List Byte) : Except ErrCode (List Byte) := do
  let w := o.byte2.toNat
  let h := o.byte3.toNat
  let header := [o.byte0, o.byte1, o.byte2, o.byte3]
  if w == 0 || h == 0 then return header
  else do
    require (decide (2 * w * h ≤ src.length)) .truncatedInput
    let rows ← encodeRows 0 t (rowsOf w h (bytesColours src))
    return header ++ rows

/-- L1ENC (40_pixel_codec.md R161). The transparent colour is 0x0000, or MASK with TM. -/
def l1enc (tm : Bool) (s : State) : Except ErrCode Effect := do
  s.genericChecks (.l1enc tm)
  let out ← l1Stream s.ops (if tm then s.comp.mask else 0#16) s.source
  require (decide (out.length ≤ s.dlen)) .range
  return (s.finish s.ops.arg0 (s.ops.byte2.setWidth 32) (s.ops.byte3.setWidth 32)
    (BitVec.ofNat 32 out.length)).withOut out

/-- The completion step of L1DEC. -/
def execL1dec (ext : Bool) (s : State) : Host.Outcome State Fault Refusal := commit s (l1dec ext s)

/-- The completion step of L1EXT. -/
def execL1ext (s : State) : Host.Outcome State Fault Refusal := commit s (l1ext s)

/-- The completion step of L1ENC. -/
def execL1enc (tm : Bool) (s : State) : Host.Outcome State Fault Refusal := commit s (l1enc tm s)

end Sys2Proof.Machine
end

