-- ==== Sys2Proof/Machine/Pixel.lean ====
section
/-! DEFINITION. Pixel conversion and packing: CVT555, CVT565, PACK555, PACK565 (40_pixel_codec.md R150 to R156). -/

namespace Sys2Proof.Machine

/-- The transparency policy TP applied to a colour (40_pixel_codec.md R150): 0 none, 1 zero is transparent, 2 MASK
is transparent. All 16 bits are compared (30_encoding.md R121). -/
def transparent (tp : BitVec 2) (mask v : Colour) : Bool :=
  (tp == 1#2 && v == 0#16) || (tp == 2#2 && v == mask)

/-- Channel expansion of 5 bits, `(c << 3) | (c >> 2)` (40_pixel_codec.md R151). -/
def e5 (c : BitVec 5) : Byte := (c.setWidth 8 <<< 3) ||| (c.setWidth 8 >>> 2)

/-- Channel expansion of 6 bits, `(c << 2) | (c >> 4)` (40_pixel_codec.md R151). -/
def e6 (c : BitVec 6) : Byte := (c.setWidth 8 <<< 2) ||| (c.setWidth 8 >>> 4)

/-- Channel reduction to 5 bits, `q >> 3` (40_pixel_codec.md R154). -/
def r5 (q : Byte) : BitVec 5 := q.extractLsb' 3 5

/-- Channel reduction to 6 bits, `q >> 2` (40_pixel_codec.md R154). -/
def r6 (q : Byte) : BitVec 6 := q.extractLsb' 2 6

/-- The RGBA bytes of an opaque RGB555 colour: red `[14:10]`, green `[9:5]`, blue `[4:0]`, alpha 255
(30_encoding.md R121, R123). -/
def rgba555 (v : Colour) : List Byte :=
  [e5 (v.extractLsb' 10 5), e5 (v.extractLsb' 5 5), e5 (v.extractLsb' 0 5), 0xFF#8]

/-- The RGBA bytes of an opaque RGB565 colour: red `[15:11]`, green `[10:5]`, blue `[4:0]`, alpha 255
(30_encoding.md R122, R123). -/
def rgba565 (v : Colour) : List Byte :=
  [e5 (v.extractLsb' 11 5), e6 (v.extractLsb' 5 6), e5 (v.extractLsb' 0 5), 0xFF#8]

/-- One pixel of a conversion: the transparent pixel is `00 00 00 00` (30_encoding.md R123). -/
def convertPixel (rgba : Colour → List Byte) (tp : BitVec 2) (mask v : Colour) : List Byte :=
  if transparent tp mask v then [0#8, 0#8, 0#8, 0#8] else rgba v

/-- The pseudocode of CVT555 and CVT565 up to `finish` (40_pixel_codec.md R152, R153): the bytes written. -/
def convert (rgba : Colour → List Byte) (tp : BitVec 2) (mask : Colour) (src : List Byte) (dlen : Nat) :
    Except ErrCode (List Byte) := do
  require (src.length % 2 == 0) .range
  require (decide (4 * (src.length / 2) ≤ dlen)) .range
  return (bytesColours src).flatMap (convertPixel rgba tp mask)

/-- RGB555 of an RGBA pixel, `(r5 R << 10) | (r5 G << 5) | r5 B`; bit 15 is 0 (40_pixel_codec.md R155). -/
def pack555Colour (r g b : Byte) : Colour := 0#1 ++ r5 r ++ r5 g ++ r5 b

/-- RGB565 of an RGBA pixel, `(r5 R << 11) | (r6 G << 5) | r5 B` (40_pixel_codec.md R156). -/
def pack565Colour (r g b : Byte) : Colour := r5 r ++ r6 g ++ r5 b

/-- One pixel of a packing (40_pixel_codec.md R155): alpha 0 gives the policy's transparent colour. -/
def packPixel (rgb : Byte → Byte → Byte → Colour) (tp : BitVec 2) (mask : Colour) (r g b a : Byte) : Colour :=
  if tp == 1#2 && a == 0#8 then 0#16 else if tp == 2#2 && a == 0#8 then mask else rgb r g b

/-- The colours of a list of RGBA pixels, in order; a last incomplete pixel is dropped. -/
def packPixels (rgb : Byte → Byte → Byte → Colour) (tp : BitVec 2) (mask : Colour) : List Byte → List Colour
  | r :: g :: b :: a :: rest => packPixel rgb tp mask r g b a :: packPixels rgb tp mask rest
  | _ => []

/-- The pseudocode of PACK555 and PACK565 up to `finish` (40_pixel_codec.md R155, R156): the bytes written. -/
def pack (rgb : Byte → Byte → Byte → Colour) (tp : BitVec 2) (mask : Colour) (src : List Byte) (dlen : Nat) :
    Except ErrCode (List Byte) := do
  require (src.length % 4 == 0) .range
  require (decide (2 * (src.length / 4) ≤ dlen)) .range
  return pixelBytes (packPixels rgb tp mask src)

/-- `finish(n, 0, 0, each * n)` of the conversions and packings, with `n = SLEN / per` pixels read and `each` bytes
written for each (30_encoding.md R118). -/
def State.pixelEffect (s : State) (per each : Nat) (out : List Byte) : Effect :=
  (s.finish (BitVec.ofNat 32 (s.slen / per)) 0 0 (BitVec.ofNat 32 (each * (s.slen / per)))).withOut out

/-- CVT555 (40_pixel_codec.md R152). -/
def cvt555 (tp : BitVec 2) (s : State) : Except ErrCode Effect := do
  s.genericChecks (.cvt555 tp)
  let out ← convert rgba555 tp s.comp.mask s.source s.dlen
  return s.pixelEffect 2 4 out

/-- CVT565 (40_pixel_codec.md R153). -/
def cvt565 (tp : BitVec 2) (s : State) : Except ErrCode Effect := do
  s.genericChecks (.cvt565 tp)
  let out ← convert rgba565 tp s.comp.mask s.source s.dlen
  return s.pixelEffect 2 4 out

/-- PACK555 (40_pixel_codec.md R155). -/
def pack555 (tp : BitVec 2) (s : State) : Except ErrCode Effect := do
  s.genericChecks (.pack555 tp)
  let out ← pack pack555Colour tp s.comp.mask s.source s.dlen
  return s.pixelEffect 4 2 out

/-- PACK565 (40_pixel_codec.md R156). -/
def pack565 (tp : BitVec 2) (s : State) : Except ErrCode Effect := do
  s.genericChecks (.pack565 tp)
  let out ← pack pack565Colour tp s.comp.mask s.source s.dlen
  return s.pixelEffect 4 2 out

/-- The completion step of CVT555. -/
def execCvt555 (tp : BitVec 2) (s : State) : Host.Outcome State Fault Refusal := commit s (cvt555 tp s)

/-- The completion step of CVT565. -/
def execCvt565 (tp : BitVec 2) (s : State) : Host.Outcome State Fault Refusal := commit s (cvt565 tp s)

/-- The completion step of PACK555. -/
def execPack555 (tp : BitVec 2) (s : State) : Host.Outcome State Fault Refusal := commit s (pack555 tp s)

/-- The completion step of PACK565. -/
def execPack565 (tp : BitVec 2) (s : State) : Host.Outcome State Fault Refusal := commit s (pack565 tp s)

end Sys2Proof.Machine
end

