-- ==== Sys2Proof/Machine/Tile.lean ====
section
/-! DEFINITION. Tiles: parsing and placing a 24x24 tile (41_sprite_compositor.md R202), TILEDEC (R205) and TILEENC
(R206). -/

namespace Sys2Proof.Machine

/-- What `TileParse` gives (41_sprite_compositor.md R202): the four header bytes, the offset after the last row and
the placements. -/
structure TileStream where
  x0 : Byte
  y0 : Byte
  unused : Byte
  nrows : Byte
  next : Nat
  places : List Placement
deriving DecidableEq, Repr

/-- `TileParse(t)` (41_sprite_compositor.md R202; 30_encoding.md R127): byte 0 is the column where every row starts,
not halved, byte 3 the number of rows. -/
def tileParse (b : List Byte) (t : Nat) : Except ErrCode TileStream := do
  let x0 ← src8 b t
  let y0 ← src8 b (t + 1)
  let u ← src8 b (t + 2)
  let nr ← src8 b (t + 3)
  let (e, l) ← decodeRows b (t + 4) nr.toNat x0.toNat
  return ⟨x0, y0, u, nr, e, l⟩

/-- The header word `x0 | (y0 << 8) | (u << 16) | (nr << 24)`. -/
def TileStream.hdr (t : TileStream) : Word := t.nrows ++ t.unused ++ t.y0 ++ t.x0

/-- `TilePlace(L, y0, F)`: 24 rows of 24 colours filled with `F`, then the placements that lie inside
(41_sprite_compositor.md R202). -/
def TileStream.place (t : TileStream) (fill : Colour) : List Colour :=
  paint (List.replicate 576 fill) (placed 24 24 t.y0.toNat t.places)

/-- `TileColours(L)`: every colour read, clipped or not (41_sprite_compositor.md R202). -/
def TileStream.colours (t : TileStream) : List Colour := t.places.map (·.c)

/-- TILEDEC (41_sprite_compositor.md R205). With SCAN nothing is written. -/
def tiledec (scanOnly : Bool) (s : State) : Except ErrCode Effect := do
  s.genericChecks (.tiledec scanOnly)
  let t ← tileParse s.source 0
  let set := scan s.comp.set t.colours
  let e := { s.finish t.hdr (set.setWidth 32) 0 (BitVec.ofNat 32 t.next) with comp := { s.comp with set := set } }
  if scanOnly then return e
  else do
    require (decide (1152 ≤ s.dlen)) .range
    return e.withOut (pixelBytes (t.place s.comp.mask))

/-- The columns and rows of the smallest box that holds every non-mask pixel of a tile's rows: `x0`, `y0`, `y1`, or
nothing when there is none (41_sprite_compositor.md R206). -/
def tileBox (mk : Colour) (rows : List (List Colour)) : Option (Nat × Nat × Nat) :=
  let used := fun (row : List Colour) => row.any (· != mk)
  match rows.findIdx? used, rows.reverse.findIdx? used,
      (List.range 24).find? (fun x => rows.any (fun row => (row[x]?).any (· != mk))) with
  | some y0, some z, some x0 => some (x0, y0, rows.length - 1 - z)
  | _, _, _ => none

/-- The stream TILEENC writes (41_sprite_compositor.md R206). `rows` are the tile's 24 rows, `u` the unused byte. -/
def tileStream (mk : Colour) (u : Byte) (rows : List (List Colour)) : Except ErrCode (List Byte) :=
  match tileBox mk rows with
  | none => .ok [0#8, 0#8, u, 0#8]
  | some (x0, y0, y1) => do
    let out ← encodeRows x0 mk ((rows.drop y0).take (y1 - y0 + 1))
    return [BitVec.ofNat 8 x0, BitVec.ofNat 8 y0, u, BitVec.ofNat 8 (y1 - y0 + 1)] ++ out

/-- TILEENC (41_sprite_compositor.md R206). -/
def tileenc (s : State) : Except ErrCode Effect := do
  s.genericChecks .tileenc
  require (decide (1152 ≤ s.slen)) .truncatedInput
  let out ← tileStream s.comp.mask s.ops.byte0 (rowsOf 24 24 (bytesColours s.source))
  require (decide (out.length ≤ s.dlen)) .range
  return (s.finish (BitVec.ofNat 32 (leValue (out.take 4))) 0 0 (BitVec.ofNat 32 out.length)).withOut out

/-- The completion step of TILEDEC. -/
def execTiledec (scanOnly : Bool) (s : State) : Host.Outcome State Fault Refusal := commit s (tiledec scanOnly s)

/-- The completion step of TILEENC. -/
def execTileenc (s : State) : Host.Outcome State Fault Refusal := commit s (tileenc s)

end Sys2Proof.Machine
end

