-- ==== Sys2Proof/Machine/Sprite.lean ====
section
/-! DEFINITION. SPRDEC: parsing a sprite container (41_sprite_compositor.md R211; 30_encoding.md R128), compositing
its frames and laying out the result (R212; 30_encoding.md R131 to R133). -/

namespace Sys2Proof.Machine

/-- A block def (30_encoding.md R128): coordinates `a`, `b`, the opaque `frame_type`, and `block_id`. -/
structure BlockDef where
  a : Byte
  b : Byte
  frameType : Byte
  id : BitVec 16
deriving DecidableEq, Repr

/-- A frame header with its block defs (30_encoding.md R128). `unk1` and `unk2` are kept opaquely. -/
structure FrameHdr where
  x1 : BitVec 16
  y1 : BitVec 16
  x2 : BitVec 16
  y2 : BitVec 16
  unk1 : BitVec 16
  unk2 : BitVec 16
  blockCount : BitVec 16
  blocks : List BlockDef
deriving DecidableEq, Repr

/-- What `SpriteParse` gives (41_sprite_compositor.md R211): whether a palette is present and its count, the frames,
the tiles, the candidate set after the scans, the final mask and whether the candidates were exhausted. -/
structure Sprite where
  pal : Bool
  palCount : Nat
  frames : List FrameHdr
  tiles : List TileStream
  set : BitVec 7
  mask : Colour
  exhausted : Bool
deriving DecidableEq, Repr

/-- `w[f] = x2[f] - x1[f] + 1`, on the signed fields. -/
def FrameHdr.width (f : FrameHdr) : Int := f.x2.toInt - f.x1.toInt + 1

/-- `h[f] = y2[f] - y1[f] + 1`, on the signed fields. -/
def FrameHdr.height (f : FrameHdr) : Int := f.y2.toInt - f.y1.toInt + 1

/-- The block defs from offset `o`, 5 bytes each. -/
def blocksAt (b : List Byte) : Nat → Nat → Except ErrCode (List BlockDef)
  | _, 0 => .ok []
  | o, n + 1 => do
    let ba ← src8 b o
    let bb ← src8 b (o + 1)
    let ft ← src8 b (o + 2)
    let id ← src16 b (o + 3)
    let rest ← blocksAt b (o + 5) n
    return ⟨ba, bb, ft, id⟩ :: rest

/-- The frame header at offset `o`, its extent check, then its block defs (41_sprite_compositor.md R211). -/
def frameAt (b : List Byte) (o : Nat) : Except ErrCode FrameHdr := do
  let x1 ← src16 b o
  let y1 ← src16 b (o + 2)
  let x2 ← src16 b (o + 4)
  let y2 ← src16 b (o + 6)
  let u1 ← src16 b (o + 8)
  let u2 ← src16 b (o + 10)
  let bc ← src16 b (o + 12)
  let f : FrameHdr := ⟨x1, y1, x2, y2, u1, u2, bc, []⟩
  require (bc == 0#16 || (decide (0 < f.width) && decide (0 < f.height))) .range
  let bs ← blocksAt b (o + 14) bc.toNat
  return { f with blocks := bs }

/-- The frames from offset `o`, `14 + 5*block_count` bytes each, and the offset after them. -/
def framesAt (b : List Byte) : Nat → Nat → Except ErrCode (Nat × List FrameHdr)
  | o, 0 => .ok (o, [])
  | o, n + 1 => do
    let f ← frameAt b o
    let (o', rest) ← framesAt b (o + 14 + 5 * f.blockCount.toNat) n
    return (o', f :: rest)

/-- `off[t] = srcI32(o + 4*t)`, as the 32 bits read. -/
def offsetsAt (b : List Byte) : Nat → Nat → Except ErrCode (List (BitVec 32))
  | _, 0 => .ok []
  | o, n + 1 => do
    let v ← src32 b o
    let rest ← offsetsAt b (o + 4) n
    return v :: rest

/-- The tiles at `table_base + off[t]`, each offset checked before its tile is parsed. -/
def tilesAt (b : List Byte) (tb : Nat) : List (BitVec 32) → Except ErrCode (List TileStream)
  | [] => .ok []
  | v :: vs => do
    require (decide (0 ≤ v.toInt) && decide (tb + v.toNat < b.length)) .range
    let t ← tileParse b (tb + v.toNat)
    let rest ← tilesAt b tb vs
    return t :: rest

/-- Every `block_id` is below the tile count. -/
def idsBelow (fs : List FrameHdr) (tc : Nat) : Bool :=
  fs.all (fun f => f.blocks.all (fun d => decide (d.id.toNat < tc)))

/-- Step 1 of `SpriteParse`: palette present, its count, the set after it, the mask if it is fixed, and the offset
of the frame count. -/
def spritePalette (b : List Byte) : Except ErrCode (Bool × Nat × BitVec 7 × Option Colour × Nat) := do
  let first ← src8 b 0
  if first == 0xFF#8 then do
    let (n, p) ← paletteAt b 1
    return (true, n, scan 0x7F#7 p, firstCandidate (scan 0x7F#7 p), 2 + 2 * n)
  else return (false, 0, 0x7F#7, none, 0)

/-- `SpriteParse()` (41_sprite_compositor.md R211); `fallback` is MASK_FALLBACK. -/
def spriteParse (fallback : Colour) (b : List Byte) : Except ErrCode Sprite := do
  let (pal, pc, s1, m1, o) ← spritePalette b
  let fc ← src8 b o
  let (o2, frames) ← framesAt b (o + 1) fc.toNat
  let tc ← src32 b o2
  require (decide (0 ≤ tc.toInt)) .range
  let offs ← offsetsAt b (o2 + 4) tc.toNat
  require (idsBelow frames tc.toNat) .range
  let tiles ← tilesAt b (o2 + 4 + 4 * tc.toNat) offs
  let set := tiles.foldl (fun st t => scan st t.colours) s1
  match m1, firstCandidate set with
  | some m, _ => return ⟨pal, pc, frames, tiles, set, m, false⟩
  | none, some m => return ⟨pal, pc, frames, tiles, set, m, false⟩
  | none, none => return ⟨pal, pc, frames, tiles, set, fallback, true⟩

/-- The frame as a canvas sees it. -/
def FrameHdr.frame (f : FrameHdr) : Frame := ⟨f.x1.toInt, f.y1.toInt, f.width.toNat, f.height.toNat⟩

/-- `stride[f]` (30_encoding.md R132). -/
def FrameHdr.stride (f : FrameHdr) : Nat := strideOf f.frame.w

/-- The bytes of the frame's canvas, none when it has no blocks (30_encoding.md R133). -/
def FrameHdr.canvasSize (f : FrameHdr) : Nat := if f.blocks.isEmpty then 0 else 2 * f.stride * f.frame.h

/-- What one block writes into its frame's canvas: the referenced tile, filled with the final mask. -/
def blockWrites (m : IsoMode) (mk : Colour) (tiles : List TileStream) (f : FrameHdr) (d : BlockDef) :
    List (Nat × Colour) :=
  match tiles[d.id.toNat]? with
  | some t =>
    blitWrites f.frame mk (iso m d.a.toInt d.b.toInt).1 (iso m d.a.toInt d.b.toInt).2 (t.place mk)
  | none => []

/-- The canvas of a frame with blocks: filled with the mask, then each block blitted in list order
(41_sprite_compositor.md R212). -/
def FrameHdr.canvas (m : IsoMode) (mk : Colour) (tiles : List TileStream) (f : FrameHdr) : List Colour :=
  paint (List.replicate (f.stride * f.frame.h) mk) (f.blocks.flatMap (blockWrites m mk tiles f))

/-- A frame record, 32 bytes (30_encoding.md R132); `po` is the canvas's destination offset. -/
def FrameHdr.record (f : FrameHdr) (po : Nat) : List Byte :=
  leBytes 2 f.x1 ++ leBytes 2 f.y1 ++ leBytes 2 f.x2 ++ leBytes 2 f.y2 ++ leBytes 2 f.unk1 ++ leBytes 2 f.unk2
    ++ leBytes 2 f.blockCount
    ++ (match f.blocks with
      | [] => [0#8, 0#8] ++ List.replicate 16 0#8
      | d :: _ => [d.frameType, 1#8] ++ leBytes 4 (BitVec.ofNat 32 f.frame.w) ++ leBytes 4 (BitVec.ofNat 32 f.frame.h)
          ++ leBytes 4 (BitVec.ofNat 32 f.stride) ++ leBytes 4 (BitVec.ofNat 32 po))

/-- The records in frame order; the canvases follow one another without gaps (30_encoding.md R133). -/
def frameRecords : Nat → List FrameHdr → List Byte
  | _, [] => []
  | po, f :: fs => f.record po ++ frameRecords (po + f.canvasSize) fs

/-- `16 + 32*frame_count`, where the canvas area starts (30_encoding.md R133). -/
def Sprite.canvasBase (p : Sprite) : Nat := 16 + 32 * p.frames.length

/-- The total of bytes written (30_encoding.md R133). -/
def Sprite.total (p : Sprite) : Nat := p.canvasBase + (p.frames.map FrameHdr.canvasSize).sum

/-- The flags field: bit 0 palette present, bit 1 MaskColorExhausted (30_encoding.md R131). -/
def Sprite.flags (p : Sprite) : BitVec 16 := 0#14 ++ BitVec.ofBool p.exhausted ++ BitVec.ofBool p.pal

/-- The output header, 16 bytes (30_encoding.md R131). -/
def Sprite.header (p : Sprite) : List Byte :=
  leBytes 2 (BitVec.ofNat 16 p.frames.length) ++ leBytes 2 p.mask ++ leBytes 2 p.flags
    ++ leBytes 2 (BitVec.ofNat 16 p.palCount) ++ leBytes 4 (BitVec.ofNat 32 p.tiles.length)
    ++ leBytes 4 (BitVec.ofNat 32 p.total)

/-- The bytes SPRDEC writes (41_sprite_compositor.md R212): header, records, canvases of the frames with blocks. -/
def Sprite.output (m : IsoMode) (p : Sprite) : List Byte :=
  p.header ++ frameRecords p.canvasBase p.frames
    ++ (p.frames.filter (fun f => !f.blocks.isEmpty)).flatMap (fun f => pixelBytes (f.canvas m p.mask p.tiles))

/-- SPRDEC (41_sprite_compositor.md R212). It starts from a fresh candidate set, whatever CAND holds. -/
def sprdec (s : State) : Except ErrCode Effect := do
  s.genericChecks .sprdec
  let p ← spriteParse s.cfg.maskFallback s.source
  require (decide (p.total ≤ s.dlen)) .range
  return { (s.finish (BitVec.ofNat 32 p.frames.length) (BitVec.ofNat 32 p.tiles.length) (p.mask.setWidth 32)
      (BitVec.ofNat 32 p.total)).withOut (p.output s.cfg.isoNegA) with
    comp := ⟨p.mask, p.set, true⟩
    warn := p.exhausted }

/-- The completion step of SPRDEC. -/
def execSprdec (s : State) : Host.Outcome State Fault Refusal := commit s (sprdec s)

end Sys2Proof.Machine
end

