-- ==== Sys2Proof/Machine/System.lean ====
section
/-! DEFINITION. The system commands NOP, SEED and CANDRST (43_system.md R310 to R312). -/

namespace Sys2Proof.Machine

/-- NOP (43_system.md R310): `finish(0, 0, 0, 0)`. -/
def nop (s : State) : Except ErrCode Effect := do
  s.genericChecks .nop
  return s.finish 0 0 0 0

/-- SEED (43_system.md R311): `R <- SEED`. -/
def seed (s : State) : Except ErrCode Effect := do
  s.genericChecks .seed
  return { s.finish 0 0 0 0 with rkey := Quad.ofBlock s.cfg.seed }

/-- CANDRST (43_system.md R312): `CAND.SET <- 0x7F; CAND.FIXED <- 0`; MASK is not changed. -/
def candrst (s : State) : Except ErrCode Effect := do
  s.genericChecks .candrst
  return { s.finish 0 0 0 0 with comp := { s.comp with set := 0x7F#7, fixed := false } }

/-- The completion step of NOP. -/
def execNop (s : State) : Host.Outcome State Fault Refusal := commit s (nop s)

/-- The completion step of SEED. -/
def execSeed (s : State) : Host.Outcome State Fault Refusal := commit s (seed s)

/-- The completion step of CANDRST. -/
def execCandrst (s : State) : Host.Outcome State Fault Refusal := commit s (candrst s)

end Sys2Proof.Machine
end

