-- ==== Sys2Proof/Machine/Dispatch.lean ====
section
/-! DEFINITION. One arm per command: its completion step (43_system.md R318). -/

namespace Sys2Proof.Machine

def exec (i : Instr) (s : State) : Host.Outcome State Fault Refusal :=
  match i with
  | .nop => Sys2Proof.Machine.execNop s
  | .seed => Sys2Proof.Machine.execSeed s
  | .candrst => Sys2Proof.Machine.execCandrst s
  | .cvt555 tp => Sys2Proof.Machine.execCvt555 tp s
  | .cvt565 tp => Sys2Proof.Machine.execCvt565 tp s
  | .pack555 tp => Sys2Proof.Machine.execPack555 tp s
  | .pack565 tp => Sys2Proof.Machine.execPack565 tp s
  | .l1dec ext => Sys2Proof.Machine.execL1dec ext s
  | .l1ext => Sys2Proof.Machine.execL1ext s
  | .l1enc tm => Sys2Proof.Machine.execL1enc tm s
  | .isoxy => Sys2Proof.Machine.execIsoxy s
  | .palscan => Sys2Proof.Machine.execPalscan s
  | .tiledec scan => Sys2Proof.Machine.execTiledec scan s
  | .tileenc => Sys2Proof.Machine.execTileenc s
  | .maskfin => Sys2Proof.Machine.execMaskfin s
  | .canvas => Sys2Proof.Machine.execCanvas s
  | .blit => Sys2Proof.Machine.execBlit s
  | .sprdec => Sys2Proof.Machine.execSprdec s
  | .decblk => Sys2Proof.Machine.execDecblk s
  | .encblk => Sys2Proof.Machine.execEncblk s
  | .xortail => Sys2Proof.Machine.execXortail s
  | .decpay => Sys2Proof.Machine.execDecpay s
  | .encpay => Sys2Proof.Machine.execEncpay s
  | .mark => Sys2Proof.Machine.execMark s
  | .coreenc => Sys2Proof.Machine.execCoreenc s
  | .coredec => Sys2Proof.Machine.execCoredec s
  | .keydump => Sys2Proof.Machine.execKeydump s

end Sys2Proof.Machine
end

