-- ==== Sys2Proof/Machine/HostPort.lean ====
section
/-! DEFINITION. The host's side: the register map (10_state.md R30), register reads and writes (43_system.md R313,
R314), BUF reads and writes (R315, R316), the soft reset (R319) and the host addresses of the two spaces
(20_memory.md R82). -/

namespace Sys2Proof.Machine

/-! ## The register map -/

/-- The defined registers (10_state.md R30). -/
inductive Reg where
  | id | ctrl | status | cmd | errcode | warncode | cmdcnt
  | src | slen | dst | dlen | arg0 | arg1 | arg2 | arg3
  | res0 | res1 | res2 | res3 | mask | cand
  | rkey0 | rkey1 | rkey2 | rkey3 | key0 | key1 | key2 | key3
deriving DecidableEq, Repr

/-- The registers with their offsets (10_state.md R30). -/
def regMap : List (Nat × Reg) :=
  [(0x000, .id), (0x004, .ctrl), (0x008, .status), (0x00C, .cmd), (0x010, .errcode), (0x014, .warncode),
   (0x018, .cmdcnt), (0x020, .src), (0x024, .slen), (0x028, .dst), (0x02C, .dlen), (0x030, .arg0), (0x034, .arg1),
   (0x038, .arg2), (0x03C, .arg3)] ++
  [(0x040, .res0), (0x044, .res1), (0x048, .res2), (0x04C, .res3), (0x050, .mask), (0x054, .cand), (0x060, .rkey0),
   (0x064, .rkey1), (0x068, .rkey2), (0x06C, .rkey3), (0x070, .key0), (0x074, .key1), (0x078, .key2), (0x07C, .key3)]

/-- The register at an offset; none where the offset is reserved (10_state.md R56). -/
def Reg.atOffset (o : Nat) : Option Reg := (regMap.find? (fun e => e.1 == o)).map (·.2)

/-- The offset of a register. -/
def Reg.offset (r : Reg) : Nat := ((regMap.find? (fun e => e.2 == r)).map (·.1)).getD 0

/-- ID (10_state.md R31). -/
def idValue : Word := 0x50560007#32

/-- CAND as the host reads it: SET in bits 6:0, FIXED in bit 16 (10_state.md R52 to R54). -/
def Compositor.candWord (c : Compositor) : Word := 0#15 ++ BitVec.ofBool c.fixed ++ 0#9 ++ c.set

/-- The value of a register, reserved bits 0 (43_system.md R314). -/
def State.readReg (s : State) : Reg → Word
  | .id => idValue
  | .ctrl => 0#31 ++ BitVec.ofBool s.ie
  | .status => s.status.word
  | .cmd => s.cmd
  | .errcode => s.errcode.setWidth 32
  | .warncode => s.warncode.setWidth 32
  | .cmdcnt => s.cmdcnt
  | .src => s.ops.src
  | .slen => s.ops.slen
  | .dst => s.ops.dst
  | .dlen => s.ops.dlen
  | .arg0 => s.ops.arg0
  | .arg1 => s.ops.arg1
  | .arg2 => s.ops.arg2
  | .arg3 => s.ops.arg3
  | .res0 => s.res.w0
  | .res1 => s.res.w1
  | .res2 => s.res.w2
  | .res3 => s.res.w3
  | .mask => s.comp.mask.setWidth 32
  | .cand => s.comp.candWord
  | .rkey0 => s.rkey.w0
  | .rkey1 => s.rkey.w1
  | .rkey2 => s.rkey.w2
  | .rkey3 => s.rkey.w3
  | .key0 => s.key.w0
  | .key1 => s.key.w1
  | .key2 => s.key.w2
  | .key3 => s.key.w3

/-- The registers whose read while BUSY returns any value (20_memory.md R92). -/
def Reg.openWhileBusy : Reg → Bool
  | .res0 => true
  | .res1 => true
  | .res2 => true
  | .res3 => true
  | .errcode => true
  | .warncode => true
  | .mask => true
  | .cand => true
  | .rkey0 => true
  | .rkey1 => true
  | .rkey2 => true
  | .rkey3 => true
  | .id => false
  | .ctrl => false
  | .status => false
  | .cmd => false
  | .cmdcnt => false
  | .src => false
  | .slen => false
  | .dst => false
  | .dlen => false
  | .arg0 => false
  | .arg1 => false
  | .arg2 => false
  | .arg3 => false
  | .key0 => false
  | .key1 => false
  | .key2 => false
  | .key3 => false

/-! ## The pending command's destination window -/

/-- The pending command has a destination window: its word is legal and names a command that uses one
(30_encoding.md R112). -/
def State.pendingUsesDest (s : State) : Bool :=
  s.status.busy && (match decode s.cmd with
    | .ok i => i.usesDest
    | .error _ => false)

/-- The address lies in the pending command's destination window (20_memory.md R92). -/
def State.inPendingDest (s : State) (a : Nat) : Bool :=
  s.pendingUsesDest && decide (s.ops.dst.toNat ≤ a) && decide (a < s.ops.dst.toNat + s.ops.dlen.toNat)

/-- How many bytes of BUF the pending command's destination window has. -/
def State.pendingDestLen (s : State) : Nat :=
  if s.pendingUsesDest then min s.ops.dlen.toNat (s.cfg.bufSize - s.ops.dst.toNat) else 0

/-- Fresh bytes, one draw each, from draw number `d` on. -/
def freshBytes : Nat → Nat → List Byte
  | _, 0 => []
  | d, n + 1 => Config.freeByte d :: freshBytes (d + 1) n

/-! ## Soft reset -/

/-- The soft reset (43_system.md R319): a pending command is aborted and each byte of its destination window becomes
a fresh any value; every register takes its reset value; BUF is otherwise unchanged. -/
def State.softReset (s : State) : State :=
  { s.resetRegisters with
    buf := if s.pendingDestLen = 0 then s.buf
      else Memory.writeBytes s.buf s.ops.dst.toNat (freshBytes s.draws s.pendingDestLen)
    draws := s.draws + s.pendingDestLen }

/-! ## Register accesses -/

/-- A host write that takes effect (43_system.md R313 point 2). -/
def State.writeReg (s : State) (r : Reg) (v : Word) : State :=
  match r with
  | .ctrl => if v.getLsbD 1 then s.softReset else { s with ie := v.getLsbD 0 }
  | .status => s.ackStatus v
  | .cmd => s.issue v
  | .mask => { s with comp := { s.comp with mask := v.extractLsb' 0 16 } }
  | .cand => { s with comp := { s.comp with set := v.extractLsb' 0 7, fixed := v.getLsbD 16 } }
  | .src => { s with ops := { s.ops with src := v } }
  | .slen => { s with ops := { s.ops with slen := v } }
  | .dst => { s with ops := { s.ops with dst := v } }
  | .dlen => { s with ops := { s.ops with dlen := v } }
  | .arg0 => { s with ops := { s.ops with arg0 := v } }
  | .arg1 => { s with ops := { s.ops with arg1 := v } }
  | .arg2 => { s with ops := { s.ops with arg2 := v } }
  | .arg3 => { s with ops := { s.ops with arg3 := v } }
  | .rkey0 => { s with rkey := { s.rkey with w0 := v } }
  | .rkey1 => { s with rkey := { s.rkey with w1 := v } }
  | .rkey2 => { s with rkey := { s.rkey with w2 := v } }
  | .rkey3 => { s with rkey := { s.rkey with w3 := v } }
  | .key0 => { s with key := { s.key with w0 := v } }
  | .key1 => { s with key := { s.key with w1 := v } }
  | .key2 => { s with key := { s.key with w2 := v } }
  | .key3 => { s with key := { s.key with w3 := v } }
  | .id => s
  | .errcode => s
  | .warncode => s
  | .cmdcnt => s
  | .res0 => s
  | .res1 => s
  | .res2 => s
  | .res3 => s

/-- A register access the bus permits: 4 bytes wide, aligned, inside the window (20_memory.md R81, R89). -/
def regAccessOk (width offset : Nat) : Bool := width == 4 && offset % 4 == 0 && decide (offset < 4096)

/-- The write of a permitted register access (43_system.md R313): dropped while BUSY, but for CTRL; ignored at a
reserved offset. -/
def State.hostWriteReg (s : State) (offset : Nat) (v : Word) : State :=
  if s.status.busy && offset != 0x004 then s.collide
  else match Reg.atOffset offset with
    | some r => s.writeReg r v
    | none => s

/-- The read of a permitted register access (43_system.md R314): the value is returned, no register changes. -/
def State.hostReadReg (s : State) (offset : Nat) : State :=
  match Reg.atOffset offset with
  | some r =>
    if s.status.busy && r.openWhileBusy then { s with rdata := Config.freeWord s.draws, draws := s.draws + 1 }
    else { s with rdata := s.readReg r }
  | none => { s with rdata := 0#32 }

/-! ## BUF accesses -/

/-- A BUF access the bus permits: 1, 2 or 4 bytes wide, aligned, within BUF_SIZE (20_memory.md R88). -/
def State.bufAccessOk (s : State) (width a : Nat) : Bool :=
  (width == 1 || width == 2 || width == 4) && a % width == 0 && decide (a + width ≤ s.cfg.bufSize)

/-- The write of a permitted BUF access (43_system.md R315): dropped while BUSY. -/
def State.hostWriteBuf (s : State) (width a : Nat) (v : Word) : State :=
  if s.status.busy then s.collide else { s with buf := Memory.writeBytes s.buf a (leBytes width v) }

/-- The bytes a BUF read returns (43_system.md R316): a byte of the pending command's destination window reads as any
value, with draw number `d` for the first byte. -/
def State.hostBytes (s : State) : Nat → Nat → Nat → List Byte
  | _, _, 0 => []
  | d, a, n + 1 =>
    (if s.inPendingDest a then Config.freeByte d else Memory.byteAt s.buf a) :: s.hostBytes (d + 1) (a + 1) n

/-- The read of a permitted BUF access (43_system.md R316). While a pending command has a destination window, each byte
read uses one draw number. -/
def State.hostReadBuf (s : State) (width a : Nat) : State :=
  { s with
    rdata := BitVec.ofNat 32 (leValue (s.hostBytes s.draws a width))
    draws := if s.pendingUsesDest then s.draws + width else s.draws }

/-! ## Transactions -/

/-- Where the platform's map puts a host address (20_memory.md R82): a register offset, a BUF offset, or neither. -/
def Config.regOffset (c : Config) (address : Nat) : Option Nat :=
  if c.regBase ≤ address ∧ address < c.regBase + 4096 then some (address - c.regBase) else none

/-- See `Config.regOffset`. -/
def Config.bufOffset (c : Config) (address : Nat) : Option Nat :=
  if c.bufBase ≤ address ∧ address < c.bufBase + c.bufSize then some (address - c.bufBase) else none

/-- A register write, or the fault of an access the bus does not permit. -/
def regWriteStep (s : State) (width offset : Nat) (v : Word) : Host.Outcome State Fault Refusal :=
  if regAccessOk width offset then .next (s.hostWriteReg offset v) else .fault .regAccess

/-- A register read, or the fault of an access the bus does not permit. -/
def regReadStep (s : State) (width offset : Nat) : Host.Outcome State Fault Refusal :=
  if regAccessOk width offset then .next (s.hostReadReg offset) else .fault .regAccess

/-- A BUF write, or the fault of an access the bus does not permit. -/
def bufWriteStep (s : State) (width a : Nat) (v : Word) : Host.Outcome State Fault Refusal :=
  if s.bufAccessOk width a then .next (s.hostWriteBuf width a v) else .fault .bufAccess

/-- A BUF read, or the fault of an access the bus does not permit. -/
def bufReadStep (s : State) (width a : Nat) : Host.Outcome State Fault Refusal :=
  if s.bufAccessOk width a then .next (s.hostReadBuf width a) else .fault .bufAccess

/-- A transaction at a host address: to the register window, else to BUF, else not to PVCD, which it leaves alone
(20_memory.md R82). -/
def busWriteStep (s : State) (width address : Nat) (v : Word) : Host.Outcome State Fault Refusal :=
  match Config.regOffset s.cfg address, Config.bufOffset s.cfg address with
  | some o, _ => regWriteStep s width o v
  | none, some a => bufWriteStep s width a v
  | none, none => .next s

/-- See `busWriteStep`. -/
def busReadStep (s : State) (width address : Nat) : Host.Outcome State Fault Refusal :=
  match Config.regOffset s.cfg address, Config.bufOffset s.cfg address with
  | some o, _ => regReadStep s width o
  | none, some a => bufReadStep s width a
  | none, none => .next s

/-- One host transaction (43_system.md R313 to R316). -/
def hostStep (t : HostTxn) (s : State) : Host.Outcome State Fault Refusal :=
  match t with
  | .regWrite width offset v => regWriteStep s width offset v
  | .regRead width offset => regReadStep s width offset
  | .bufWrite width a v => bufWriteStep s width a v
  | .bufRead width a => bufReadStep s width a
  | .busWrite width address v => busWriteStep s width address v
  | .busRead width address => busReadStep s width address

end Sys2Proof.Machine
end

