-- ==== Sys2Proof/Machine/Step.lean ====
section
/-! DEFINITION. The step relation (43_system.md R313 to R320) as one function: the agenda says who moves next. -/

namespace Sys2Proof.Machine

/-- The engine's turn (43_system.md R318): with a command pending, decode its word and complete it, an illegal word
with IllegalCommand (30_encoding.md R111); with none pending the engine is idle (70_reset_and_hazards.md R372). -/
def engineTurn (s : State) : Host.Outcome State Fault Refusal :=
  if s.status.busy then
    match decode s.cmd with
    | .ok i => exec i s
    | .error _ => .next (s.completeErr .illegalCommand)
  else .next s

/-- One step (43_system.md R320): the next event of the agenda, a host transaction or the engine's completion step.
When no event is left the engine moves, so that a pending command completes (70_reset_and_hazards.md R380). -/
def step (s : State) : Host.Outcome State Fault Refusal :=
  match s.agenda with
  | [] => engineTurn s
  | .engine :: rest => engineTurn { s with agenda := rest }
  | .host t :: rest => hostStep t { s with agenda := rest }

/-- The agenda after which the very next step is the engine's. -/
def engineFirst : List Event → List Event
  | [] => []
  | e :: rest => .engine :: e :: rest

/-- `s` with the command word of the opcode table accepted as the pending command (43_system.md R317), which is where
the engine takes its next command from, and the engine to move first. -/
def State.withFetchWord (s : State) (nbits w : Nat) : State :=
  { s.issue (tableWord nbits w) with agenda := engineFirst s.agenda }

end Sys2Proof.Machine
end

