-- ==== Sys2Proof/Machine/Script.lean ====
section
/-! DEFINITION. The host of a command script (30_encoding.md R135 to R137): its statements, the pseudo-instructions,
and how a script drives a PVCD through `step`. Labels are positions in the list of statements. -/

namespace Sys2Proof.Machine

/-- A statement of a script (30_encoding.md R135). A label is the index of the statement it names. -/
inductive Stmt where
  | wr (r : Reg) (v : Word)
  | rd (r : Reg)
  | bw (a : Nat) (v : Byte)
  | br (a : Nat)
  | cmd (i : Instr)
  | wait
  | w1c (bits : Word)
  | bnz (r : Reg) (label : Nat)
  | bz (r : Reg) (label : Nat)
  | sub (r : Reg) (v : Word)
  | add (r : Reg) (v : Word)
  | check
deriving DecidableEq, Repr

/-- `exec <MNEMONIC>` (30_encoding.md R137). -/
def Stmt.exec (i : Instr) : List Stmt := [.cmd i, .wait]

/-- `win <s>, <sl>, <d>, <dl>` (30_encoding.md R137). -/
def Stmt.win (src slen dst dlen : Word) : List Stmt := [.wr .src src, .wr .slen slen, .wr .dst dst, .wr .dlen dlen]

/-- `ack` (30_encoding.md R137). -/
def Stmt.ack : List Stmt := [.w1c 0x1E#32]

/-- `mem <addr>: <bytes>` (30_encoding.md R135): BUF before the script runs. -/
def State.withMem (s : State) (a : Nat) (bs : List Byte) : State := { s with buf := Memory.writeBytes s.buf a bs }

/-- A script that runs: the PVCD, the position in the script, and whether `check` has stopped it. -/
structure ScriptRun where
  dev : State
  pc : Nat
  failed : Bool
deriving DecidableEq, Repr

/-- A host write of a register. -/
def writeEvent (r : Reg) (v : Word) : Event := .host (.regWrite 4 r.offset v)

/-- A host read of a register. -/
def readEvent (r : Reg) : Event := .host (.regRead 4 r.offset)

/-- The events of the agenda taken one by one. -/
def runSteps : Nat → State → Host.Outcome State Fault Refusal
  | 0, s => .next s
  | n + 1, s =>
    match step s with
    | .next t => runSteps n t
    | .fault f => .fault f
    | .refused r => .refused r

/-- PVCD takes these events, one step each. -/
def State.feed (s : State) (es : List Event) : Host.Outcome State Fault Refusal :=
  runSteps es.length { s with agenda := es }

/-- The events of a statement whose host does not look at what a read returned (30_encoding.md R135, R136). `wait`
lets the engine complete, then reads STATUS. -/
def Stmt.events : Stmt → List Event
  | .wr r v => [writeEvent r v]
  | .rd r => [readEvent r]
  | .bw a v => [.host (.bufWrite 1 a (v.setWidth 32))]
  | .br a => [.host (.bufRead 1 a)]
  | .cmd i => [writeEvent .cmd (encode i)]
  | .wait => [.engine, readEvent .status]
  | .w1c bits => [writeEvent .status bits]
  | .bnz r _ => [readEvent r]
  | .bz r _ => [readEvent r]
  | .sub r _ => [readEvent r]
  | .add r _ => [readEvent r]
  | .check => [readEvent .errcode]

/-- What the host does after the events: where it goes on, and the register it writes back (30_encoding.md R135). -/
def Stmt.after (t : State) (pc : Nat) : Stmt → Nat × List Event
  | .bnz _ label => (if t.rdata = 0#32 then pc + 1 else label, [])
  | .bz _ label => (if t.rdata = 0#32 then label else pc + 1, [])
  | .sub r v => (pc + 1, [writeEvent r (t.rdata - v)])
  | .add r v => (pc + 1, [writeEvent r (t.rdata + v)])
  | .wr _ _ => (pc + 1, [])
  | .rd _ => (pc + 1, [])
  | .bw _ _ => (pc + 1, [])
  | .br _ => (pc + 1, [])
  | .cmd _ => (pc + 1, [])
  | .wait => (pc + 1, [])
  | .w1c _ => (pc + 1, [])
  | .check => (pc + 1, [])

/-- `check` stops the script when ERRCODE is not 0 (30_encoding.md R137). -/
def Stmt.stops (t : State) : Stmt → Bool
  | .check => t.rdata != 0#32
  | .wr _ _ => false
  | .rd _ => false
  | .bw _ _ => false
  | .br _ => false
  | .cmd _ => false
  | .wait => false
  | .w1c _ => false
  | .bnz _ _ => false
  | .bz _ _ => false
  | .sub _ _ => false
  | .add _ _ => false

/-- One statement of a script; past its end, or once stopped, nothing changes. -/
def scriptStep (prog : List Stmt) (h : ScriptRun) : Host.Outcome ScriptRun Fault Refusal :=
  match h.failed, prog[h.pc]? with
  | false, some st =>
    match h.dev.feed st.events with
    | .next t =>
      match t.feed (st.after t h.pc).2 with
      | .next u => .next ⟨u, (st.after t h.pc).1, st.stops t⟩
      | .fault f => .fault f
      | .refused r => .refused r
    | .fault f => .fault f
    | .refused r => .refused r
  | _, _ => .next h

/-- `n` statements of a script. -/
def runScript (prog : List Stmt) : Nat → ScriptRun → Host.Outcome ScriptRun Fault Refusal
  | 0, h => .next h
  | n + 1, h =>
    match scriptStep prog h with
    | .next h' => runScript prog n h'
    | .fault f => .fault f
    | .refused r => .refused r

end Sys2Proof.Machine
end

