-- ==== Sys2Proof/Safety.lean ====
section
/-! DEFINITION. The terms claims are made in: what a read of BUF gives, how a command ends and what it leaves alone,
the formats as data, and the invariant of the machine. -/

namespace Sys2Proof.Machine

/-! ## BUF through its reads -/

/-- The u16 at an address, little-endian (20_memory.md R83). -/
def colourAt (m : Memory) (a : Nat) : Colour := Memory.byteAt m (a + 1) ++ Memory.byteAt m a

/-- The u32 at an address, little-endian (20_memory.md R83). -/
def wordAt (m : Memory) (a : Nat) : Word := colourAt m (a + 2) ++ colourAt m a

/-- The 16 bytes from an address (00_scope.md R12, R13). -/
def blockAt (m : Memory) (a : Nat) : Block := bytesBlock (Memory.readBytes m a 16)

/-- The value a host read of `n` bytes at `a` returns (43_system.md R316), for the widths a host may use. -/
def valueAt (m : Memory) (a : Nat) : Nat → Word
  | 1 => (Memory.byteAt m a).setWidth 32
  | 2 => (colourAt m a).setWidth 32
  | _ => wordAt m a

/-- The bytes `bs` stand at `a`, `a + 1`, …. -/
def holdsAt (m : Memory) (a : Nat) (bs : List Byte) : Prop := ∀ k b, bs[k]? = some b → Memory.byteAt m (a + k) = b

/-- Every byte outside `[a, a + n)` reads as before. -/
def sameOutside (m m' : Memory) (a n : Nat) : Prop := ∀ x, x < a ∨ a + n ≤ x → Memory.byteAt m' x = Memory.byteAt m x

/-- Every byte reads as before. -/
def sameBytes (m m' : Memory) : Prop := ∀ x, Memory.byteAt m' x = Memory.byteAt m x

/-- SRC as a number. -/
def State.src (s : State) : Nat := s.ops.src.toNat

/-- DST as a number. -/
def State.dst (s : State) : Nat := s.ops.dst.toNat

/-- The operand registers with these windows. -/
def State.window (s : State) (src slen dst dlen : Nat) : State :=
  { s with ops := { s.ops with
      src := BitVec.ofNat 32 src, slen := BitVec.ofNat 32 slen, dst := BitVec.ofNat 32 dst, dlen := BitVec.ofNat 32 dlen } }

/-! ## How a command ends -/

/-- From `s`, a command has completed in `t` without error (43_system.md R318; 10_state.md R34 to R41): STATUS,
ERRCODE, WARNCODE, CMDCNT. -/
def State.finished (s t : State) (warn : Bool) : Prop :=
  t.status = ⟨false, true, false, warn, s.status.coll⟩ ∧ t.errcode = 0#8
    ∧ t.warncode = (if warn then 4#8 else 0#8) ∧ t.cmdcnt = s.cmdcnt + 1#32

/-- From `s`, a command has ended in `t` with error code `n`: exactly ERRCODE, WARNCODE, STATUS and CMDCNT have changed
(60_exceptions.md R334). -/
def State.failed (s t : State) (n : Byte) : Prop :=
  t = { s with
    errcode := n
    warncode := 0#8
    status := ⟨false, true, true, false, s.status.coll⟩
    cmdcnt := s.cmdcnt + 1#32 }

/-- The command `i` ends with error code `n` on `s`. -/
def failsWith (i : Instr) (s : State) (n : Byte) : Prop := ∃ t, exec i s = .next t ∧ s.failed t n

/-- What no command writes (10_state.md R66): the parameters, CTRL, CMD, SRC .. ARG3, KEY0..KEY3, and the model's own
agenda, draws and rdata. -/
def State.kept (s t : State) : Prop :=
  t.cfg = s.cfg ∧ t.ie = s.ie ∧ t.cmd = s.cmd ∧ t.ops = s.ops ∧ t.key = s.key ∧ t.agenda = s.agenda
    ∧ t.draws = s.draws ∧ t.rdata = s.rdata

/-- The compositor's registers and the rolling key are as before. -/
def State.keptCodec (s t : State) : Prop := t.comp = s.comp ∧ t.rkey = s.rkey

/-- `finish(r0, r1, r2, r3)` from `s` to `t`: the completion registers, the results, and what no command writes. What
the command does to MASK, CAND, RKEY and BUF is said beside it. -/
def State.completes (s t : State) (r0 r1 r2 r3 : Word) (warn : Bool) : Prop :=
  s.finished t warn ∧ s.kept t ∧ t.res = ⟨r0, r1, r2, r3⟩

/-- The checks of a command in their order, each with the error it gives, and how it ends when none of them fails:
then `exec` answers a next state of which `ok` holds (60_exceptions.md R336). -/
def endsAs (i : Instr) (s : State) : List (Prop × Byte) → (State → Prop) → Prop
  | [], ok => ∃ t, exec i s = .next t ∧ ok t
  | c :: cs, ok => (c.1 → failsWith i s c.2) ∧ (¬ c.1 → endsAs i s cs ok)

/-- The windows share a byte (20_memory.md R85). -/
def State.overlapping (s : State) : Prop :=
  ∃ x, s.src ≤ x ∧ x < s.src + s.slen ∧ s.dst ≤ x ∧ x < s.dst + s.dlen

/-- The generic checks that a legal word leaves to do, in order: source window, destination window, overlap
(60_exceptions.md R335 points 2 to 4). -/
def State.windowChecks (s : State) (i : Instr) : List (Prop × Byte) :=
  [(i.usesSource = true ∧ s.cfg.bufSize < s.src + s.slen, 7#8), (i.usesDest = true ∧ s.cfg.bufSize < s.dst + s.dlen, 7#8),
   (i.usesSource = true ∧ i.usesDest = true ∧ s.overlapping ∧ ¬ (i.inPlace = true ∧ s.src = s.dst), 8#8)]

/-- None of the generic checks fails. -/
def State.windowsOk (s : State) (i : Instr) : Prop :=
  (i.usesSource = true → s.src + s.slen ≤ s.cfg.bufSize) ∧ (i.usesDest = true → s.dst + s.dlen ≤ s.cfg.bufSize)
    ∧ (i.usesSource = true → i.usesDest = true → s.overlapping → i.inPlace = true ∧ s.src = s.dst)

/-- The errors a command can raise, IllegalCommand apart (60_exceptions.md R337, with Range from a window check). -/
def errorsOf : Instr → List Byte
  | .nop => []
  | .seed => []
  | .candrst => []
  | .isoxy => []
  | .maskfin => []
  | .canvas => [7#8]
  | .keydump => [7#8]
  | .cvt555 _ => [7#8, 8#8]
  | .cvt565 _ => [7#8, 8#8]
  | .pack555 _ => [7#8, 8#8]
  | .pack565 _ => [7#8, 8#8]
  | .xortail => [7#8, 8#8]
  | .l1ext => [1#8, 7#8]
  | .palscan => [1#8, 7#8]
  | .mark => [1#8, 7#8]
  | .tiledec scan => if scan then [1#8, 7#8] else [1#8, 7#8, 8#8]
  | .l1dec _ => [1#8, 7#8, 8#8]
  | .l1enc _ => [1#8, 7#8, 8#8]
  | .tileenc => [1#8, 7#8, 8#8]
  | .blit => [1#8, 7#8, 8#8]
  | .sprdec => [1#8, 7#8, 8#8]
  | .decblk => [1#8, 7#8, 8#8]
  | .encblk => [1#8, 7#8, 8#8]
  | .coreenc => [1#8, 7#8, 8#8]
  | .coredec => [1#8, 7#8, 8#8]
  | .decpay => [1#8, 5#8, 7#8, 8#8]
  | .encpay => [1#8, 5#8, 7#8, 8#8]

/-- The state after a command, for sequences of commands. -/
def runCommand (i : Instr) (s : State) : State :=
  match exec i s with
  | .next t => t
  | .fault _ => s
  | .refused _ => s

/-! ## Events -/

/-- The bus permits the transaction (20_memory.md R88, R89). -/
def HostTxn.permitted (c : Config) : HostTxn → Bool
  | .regWrite w o _ => regAccessOk w o
  | .regRead w o => regAccessOk w o
  | .bufWrite w a _ => (w == 1 || w == 2 || w == 4) && a % w == 0 && decide (a + w ≤ c.bufSize)
  | .bufRead w a => (w == 1 || w == 2 || w == 4) && a % w == 0 && decide (a + w ≤ c.bufSize)
  | .busWrite w x _ =>
    match Config.regOffset c x, Config.bufOffset c x with
    | some o, _ => regAccessOk w o
    | none, some a => (w == 1 || w == 2 || w == 4) && a % w == 0 && decide (a + w ≤ c.bufSize)
    | none, none => true
  | .busRead w x =>
    match Config.regOffset c x, Config.bufOffset c x with
    | some o, _ => regAccessOk w o
    | none, some a => (w == 1 || w == 2 || w == 4) && a % w == 0 && decide (a + w ≤ c.bufSize)
    | none, none => true

/-- The register the transaction writes, by offset, and the value. -/
def HostTxn.regWritten (c : Config) : HostTxn → Option (Nat × Word)
  | .regWrite w o v => if regAccessOk w o then some (o, v) else none
  | .busWrite w x v =>
    match Config.regOffset c x with
    | some o => if regAccessOk w o then some (o, v) else none
    | none => none
  | .regRead _ _ => none
  | .bufWrite _ _ _ => none
  | .bufRead _ _ => none
  | .busRead _ _ => none

/-- The transaction is a soft reset: a write to CTRL with bit 1 set (43_system.md R319). -/
def HostTxn.resets (c : Config) (t : HostTxn) : Prop := ∃ v, t.regWritten c = some (0x004, v) ∧ v.getLsbD 1 = true

/-- The engine moves next (43_system.md R320; log entry 1 for the empty agenda). -/
def State.engineNext (s : State) : Prop := s.agenda = [] ∨ ∃ rest, s.agenda = .engine :: rest

/-- The next event of the agenda is the engine's completion step (43_system.md R318, R320). -/
def State.completionNext (s : State) : Prop := ∃ rest, s.agenda = .engine :: rest

/-- The host moves next, with this transaction. -/
def State.hostNext (s : State) (t : HostTxn) : Prop := ∃ rest, s.agenda = .host t :: rest

/-! ## Colours (40_pixel_codec.md R150, R151) -/

/-- `e5(c) = 8c + (c >> 2)`. -/
def wide5 (c : Nat) : Byte := BitVec.ofNat 8 (8 * c + c / 4)

/-- `e6(c) = 4c + (c >> 4)`. -/
def wide6 (c : Nat) : Byte := BitVec.ofNat 8 (4 * c + c / 16)

/-- `transparent(v)` under TP. -/
def cleared (tp : BitVec 2) (mask v : Colour) : Prop := (tp = 1#2 ∧ v = 0#16) ∨ (tp = 2#2 ∧ v = mask)

/-- The RGBA bytes at an address. -/
def rgbaAt (m : Memory) (a : Nat) (r g b al : Byte) : Prop :=
  Memory.byteAt m a = r ∧ Memory.byteAt m (a + 1) = g ∧ Memory.byteAt m (a + 2) = b ∧ Memory.byteAt m (a + 3) = al

/-! ## The row format as data (30_encoding.md R126; 40_pixel_codec.md R157) -/

/-- A row: its segments, each a skip byte and the colours of its run. -/
abbrev Row := List (Byte × List Colour)

/-- The row has an encoding: at most 255 segments of at most 255 colours. -/
def Row.legal (r : Row) : Prop := r.length ≤ 255 ∧ ∀ g ∈ r, g.2.length ≤ 255

/-- `{segment_count:u8, [skip:u8, run:u8, run×u16 color]*}` (30_encoding.md R126). -/
def Row.bytes (r : Row) : List Byte :=
  BitVec.ofNat 8 r.length :: r.flatMap (fun g => g.1 :: BitVec.ofNat 8 g.2.length :: pixelBytes g.2)

/-- Where the colours of row number `y` land, its cursor at column `x`: a skip is halved, a run goes on to the right
(40_pixel_codec.md R157). -/
def Row.places (y : Nat) : Nat → Row → List Placement
  | _, [] => []
  | x, g :: gs =>
    g.2.zipIdx.map (fun c => ⟨x + g.1.toNat / 2 + c.2, y, c.1⟩)
      ++ Row.places y (x + g.1.toNat / 2 + g.2.length) gs

/-- The bytes of consecutive rows. -/
def rowsBytes (rs : List Row) : List Byte := rs.flatMap Row.bytes

/-- The placements of consecutive rows, the first being row `y`, every cursor starting at column `xs`. -/
def rowsPlaces (xs : Nat) : Nat → List Row → List Placement
  | _, [] => []
  | y, r :: rs => Row.places y xs r ++ rowsPlaces xs (y + 1) rs

/-- `n` rows that have an encoding stand at the front of `b`, and `rest` follows them. -/
def rowsAre (n : Nat) (b : List Byte) (rs : List Row) (rest : List Byte) : Prop :=
  rs.length = n ∧ (∀ r ∈ rs, Row.legal r) ∧ b = rowsBytes rs ++ rest

/-- `max({x + 1} ∪ {0})` over placements (40_pixel_codec.md R158, R159). -/
def extentOf (l : List Placement) : Nat := (l.map (fun p => p.x + 1)).foldr max 0

/-- The colour at `(x, y)` after the placements: the one placed there, else `fill`. -/
def placedAt (l : List Placement) (fill : Colour) (x y : Nat) : Colour :=
  match l.find? (fun p => p.x == x && p.r == y) with
  | some p => p.c
  | none => fill

/-! ## Encoding a row, as the loop of 40_pixel_codec.md R160 -/

/-- `while gap > 127: segs.append((254, 0, [])); gap = gap - 127`, with fuel: the bare segments and the gap left. -/
def splitGap : Nat → Nat → Row × Nat
  | 0, gap => ([], gap)
  | fuel + 1, gap => if 127 < gap then ((254#8, []) :: (splitGap fuel (gap - 127)).1, (splitGap fuel (gap - 127)).2) else ([], gap)

/-- `while e < W and P[e] != T and e - n < 255: e = e + 1`, with fuel: the colours taken from position `e` on, `len` of
the run being behind it. -/
def takeRun (p : List Colour) (t : Colour) : Nat → Nat → Nat → List Colour
  | 0, _, _ => []
  | fuel + 1, len, e =>
    match p[e]? with
    | some c => if c ≠ t ∧ len < 255 then c :: takeRun p t fuel (len + 1) (e + 1) else []
    | none => []

/-- The outer loop from column `x` on, with fuel. -/
def rowLoop (p : List Colour) (t : Colour) : Nat → Nat → Row
  | 0, _ => []
  | fuel + 1, x =>
    match (List.range p.length).find? (fun i => decide (x ≤ i) && p[i]? != some t) with
    | none => []
    | some n =>
      (splitGap (n - x) (n - x)).1
        ++ (BitVec.ofNat 8 (2 * (splitGap (n - x) (n - x)).2), takeRun p t p.length 0 n)
        :: rowLoop p t fuel (n + (takeRun p t p.length 0 n).length)

/-- The segments `EncodeRow(P, W, xs, T)` gives (40_pixel_codec.md R160). -/
def rowSegments (p : List Colour) (xs : Nat) (t : Colour) : Row := rowLoop p t p.length xs

/-- The colours at `(0, y) .. (w - 1, y)` of a pixel buffer of stride `w` in the source window (30_encoding.md R124). -/
def State.sourceRow (s : State) (w y : Nat) : List Colour :=
  (List.range w).map (fun x => colourAt s.buf (s.src + 2 * (y * w + x)))

/-- The stream of L1ENC for a `w x h` pixel buffer in the source window: the header bytes of ARG0, then its rows
(40_pixel_codec.md R161). -/
def State.l1Code (s : State) (t : Colour) (w h : Nat) : List Byte :=
  leBytes 4 s.ops.arg0 ++ (if w = 0 ∨ h = 0 then [] else
    rowsBytes ((List.range h).map (fun y => rowSegments (s.sourceRow w y) 0 t)))

/-! ## Candidates (10_state.md R55) -/

/-- `SET' = SET and not hits(L)`, where `L` is the colours `p` holds of. -/
def refined (set set' : BitVec 7) (p : Colour → Prop) : Prop :=
  ∀ i c, Config.candList[i]? = some c → (set'.getLsbD i = true ↔ set.getLsbD i = true ∧ ¬ p c)

/-- `m = CANDLIST[first(SET)]`. -/
def isFirst (set : BitVec 7) (m : Colour) : Prop :=
  ∃ i, Config.candList[i]? = some m ∧ set.getLsbD i = true ∧ ∀ j, j < i → set.getLsbD j = false

/-! ## Compositing -/

/-- `ISO(a, b)` (41_sprite_compositor.md R200) gives `(px, py)`. -/
def isoIs (m : IsoMode) (a b px py : Int) : Prop :=
  (m = .floor ∨ 0 ≤ a → px = 24 * (b + a - a / 2) ∧ py = 12 * (b - a / 2))
    ∧ (m = .decrementAll → a < 0 → px = 24 * (b + (a - 1) - a / 2) ∧ py = 12 * (b - a / 2))

/-- The pixel `(tx, ty)` of the 24x24 tile at an address (30_encoding.md R124). -/
def tileAt (m : Memory) (a tx ty : Nat) : Colour := colourAt m (a + 2 * (24 * ty + tx))

/-- The colour a block at `(px, py)` places at canvas pixel `(x, y)` of a frame with origin `(x1, y1)` and width `w`, if
any: a tile pixel that is not a mask pixel (41_sprite_compositor.md R209). -/
def coveredBy (tile : Nat → Nat → Colour) (mk : Colour) (x1 y1 : Int) (w : Nat) (px py : Int) (x y : Nat) : Option Colour :=
  let tx := x + x1 - px
  let ty := y + y1 - py
  if x < w ∧ 0 ≤ tx ∧ tx < 24 ∧ 0 ≤ ty ∧ ty < 24 ∧ tile tx.toNat ty.toNat ≠ mk then some (tile tx.toNat ty.toNat)
  else none

/-- The pixel `(tx, ty)` of a parsed tile filled with `fill` (41_sprite_compositor.md R202). -/
def TileStream.pixelAt (t : TileStream) (fill : Colour) (tx ty : Nat) : Colour :=
  if t.y0.toNat ≤ ty then placedAt t.places fill tx (ty - t.y0.toNat) else fill

/-- The colour SPRDEC leaves at canvas pixel `(x, y)` of a frame: that of the last block in the list that places one
there, else the mask (41_sprite_compositor.md R209, R212, R214). -/
def Sprite.pixelAt (m : IsoMode) (p : Sprite) (f : FrameHdr) (x y : Nat) : Colour :=
  ((f.blocks.filterMap (fun d => (p.tiles[d.id.toNat]?).bind (fun t =>
      coveredBy (t.pixelAt p.mask) p.mask f.x1.toInt f.y1.toInt f.width.toNat
        (iso m d.a.toInt d.b.toInt).1 (iso m d.a.toInt d.b.toInt).2 x y))).getLast?).getD p.mask

/-- The destination offset of the canvas of frame number `k` (30_encoding.md R133). -/
def Sprite.canvasOffset (p : Sprite) (k : Nat) : Nat :=
  16 + 32 * p.frames.length
    + ((p.frames.take k).map (fun f => if f.blocks = [] then 0 else 2 * strideOf f.width.toNat * f.height.toNat)).sum

/-- The record of a frame stands at `r`, its canvas at destination offset `po` (30_encoding.md R132). -/
def recordAt (m : Memory) (r po : Nat) (f : FrameHdr) : Prop :=
  colourAt m r = f.x1 ∧ colourAt m (r + 2) = f.y1 ∧ colourAt m (r + 4) = f.x2 ∧ colourAt m (r + 6) = f.y2
    ∧ colourAt m (r + 8) = f.unk1 ∧ colourAt m (r + 10) = f.unk2 ∧ colourAt m (r + 12) = f.blockCount
    ∧ (f.blocks = [] → colourAt m (r + 14) = 0#16 ∧ wordAt m (r + 16) = 0#32 ∧ wordAt m (r + 20) = 0#32
        ∧ wordAt m (r + 24) = 0#32 ∧ wordAt m (r + 28) = 0#32)
    ∧ (∀ d ds, f.blocks = d :: ds → Memory.byteAt m (r + 14) = d.frameType ∧ Memory.byteAt m (r + 15) = 1#8
        ∧ wordAt m (r + 16) = BitVec.ofInt 32 f.width ∧ wordAt m (r + 20) = BitVec.ofInt 32 f.height
        ∧ wordAt m (r + 24) = BitVec.ofNat 32 (strideOf f.width.toNat) ∧ wordAt m (r + 28) = BitVec.ofNat 32 po)

/-! ## The sprite container as data (30_encoding.md R128) -/

/-- A tile's bytes: its four header bytes, then its rows (30_encoding.md R127). -/
structure TileData where
  x0 : Byte
  y0 : Byte
  unused : Byte
  rows : List Row
deriving DecidableEq, Repr

/-- At most 255 rows, each with an encoding. -/
def TileData.legal (t : TileData) : Prop := t.rows.length ≤ 255 ∧ ∀ r ∈ t.rows, Row.legal r

/-- The tile stream. -/
def TileData.bytes (t : TileData) : List Byte :=
  [t.x0, t.y0, t.unused, BitVec.ofNat 8 t.rows.length] ++ rowsBytes t.rows

/-- Where its colours land, rows counted from its first stored row. -/
def TileData.places (t : TileData) : List Placement := rowsPlaces t.x0.toNat 0 t.rows

/-- The bytes of the palette block, `count = 0` meaning 256; no palette, no bytes. -/
def paletteBytes : Option (List Colour) → List Byte
  | none => []
  | some l => 0xFF#8 :: BitVec.ofNat 8 l.length :: pixelBytes l

/-- The bytes of a block def. -/
def BlockDef.bytes (d : BlockDef) : List Byte := [d.a, d.b, d.frameType] ++ colourBytes d.id

/-- The bytes of a frame header with its block defs. -/
def FrameHdr.bytes (f : FrameHdr) : List Byte :=
  colourBytes f.x1 ++ colourBytes f.y1 ++ colourBytes f.x2 ++ colourBytes f.y2 ++ colourBytes f.unk1
    ++ colourBytes f.unk2 ++ colourBytes f.blockCount ++ f.blocks.flatMap BlockDef.bytes

/-- A sprite container: its palette if it has one, its frames, and its tiles with their offsets from the table base. -/
structure Container where
  palette : Option (List Colour)
  frames : List FrameHdr
  tiles : List (Nat × TileData)
deriving DecidableEq, Repr

/-- Palette, a frame count of `n`, and the frames that stand so far. -/
def frontBytes (palette : Option (List Colour)) (n : Nat) (frames : List FrameHdr) : List Byte :=
  paletteBytes palette ++ [BitVec.ofNat 8 n] ++ frames.flatMap FrameHdr.bytes

/-- A container up to its last tile offset; what follows is the table base. -/
def headBytes (palette : Option (List Colour)) (frames : List FrameHdr) (offs : List Word) : List Byte :=
  frontBytes palette frames.length frames ++ leBytes 4 (BitVec.ofNat 32 offs.length) ++ offs.flatMap (leBytes 4)

/-- The block defs are as many as the header says, and a frame with blocks has a positive extent. -/
def FrameHdr.legal (f : FrameHdr) : Prop :=
  f.blockCount = BitVec.ofNat 16 f.blocks.length ∧ f.blocks.length < 2 ^ 16 ∧ (f.blocks ≠ [] → 0 < f.width ∧ 0 < f.height)

/-- The palette has 1 to 256 colours, the frame count `n` fits its byte and is not read as a palette marker, and every
frame is legal. -/
def frontLegal (palette : Option (List Colour)) (n : Nat) (frames : List FrameHdr) : Prop :=
  (∀ l, palette = some l → 1 ≤ l.length ∧ l.length ≤ 256) ∧ n ≤ 255 ∧ (palette = none → n ≠ 255)
    ∧ ∀ f ∈ frames, f.legal

/-- Every `block_id` is below the tile count `tc`. -/
def idsInside (frames : List FrameHdr) (tc : Nat) : Prop := ∀ f ∈ frames, ∀ d ∈ f.blocks, d.id.toNat < tc

/-- The offset `v` from the table base `tb` is inside the container. -/
def offsetInside (b : List Byte) (tb : Nat) (v : Word) : Prop := 0 ≤ v.toInt ∧ tb + v.toNat < b.length

/-- A whole tile stream stands at position `o`. -/
def tileStands (b : List Byte) (o : Nat) : Prop := ∃ t : TileData, t.legal ∧ t.bytes <+: b.drop o

/-- The containers that are refused, each with its error (41_sprite_compositor.md R211). What stands before the fault is
legal, so the parse reaches it first. -/
inductive ContainerRefused (b : List Byte) : ErrCode → Prop where
  /-- The bytes end inside the palette, the frame count, a block def, the tile count or the offsets. -/
  | headEnds (palette : Option (List Colour)) (frames : List FrameHdr) (offs : List Word) :
      frontLegal palette frames.length frames → offs.length < 2 ^ 31 → b <+: headBytes palette frames offs →
      b.length < (headBytes palette frames offs).length → ContainerRefused b .truncatedInput
  /-- The bytes end inside the 14 bytes of a frame header, whatever extent it has. -/
  | frameEnds (palette : Option (List Colour)) (n : Nat) (done : List FrameHdr) (part : List Byte) :
      frontLegal palette n done → done.length < n → b = frontBytes palette n done ++ part → part.length < 14 →
      ContainerRefused b .truncatedInput
  /-- A frame with blocks whose width or height is not positive. -/
  | extent (palette : Option (List Colour)) (n : Nat) (done : List FrameHdr) (f : FrameHdr) :
      frontLegal palette n done → done.length < n → frontBytes palette n (done ++ [f]) <+: b → f.blockCount ≠ 0#16 →
      f.width ≤ 0 ∨ f.height ≤ 0 → ContainerRefused b .range
  /-- A negative tile count. -/
  | tileCount (palette : Option (List Colour)) (frames : List FrameHdr) (tc : Word) :
      frontLegal palette frames.length frames → frontBytes palette frames.length frames ++ leBytes 4 tc <+: b →
      tc.toInt < 0 → ContainerRefused b .range
  /-- A `block_id` that is not below the tile count. -/
  | blockId (palette : Option (List Colour)) (frames : List FrameHdr) (offs : List Word) :
      frontLegal palette frames.length frames → offs.length < 2 ^ 31 → headBytes palette frames offs <+: b →
      ¬ idsInside frames offs.length → ContainerRefused b .range
  /-- A tile offset that is negative or not inside the container, the tiles before it being whole. -/
  | tileOffset (palette : Option (List Colour)) (frames : List FrameHdr) (before after : List Word) (v : Word) :
      frontLegal palette frames.length frames → (before ++ v :: after).length < 2 ^ 31 →
      headBytes palette frames (before ++ v :: after) <+: b → idsInside frames (before ++ v :: after).length →
      (∀ w ∈ before, offsetInside b (headBytes palette frames (before ++ v :: after)).length w
        ∧ tileStands b ((headBytes palette frames (before ++ v :: after)).length + w.toNat)) →
      ¬ offsetInside b (headBytes palette frames (before ++ v :: after)).length v → ContainerRefused b .range
  /-- A tile whose stream ends early, the tiles before it being whole. -/
  | tileEnds (palette : Option (List Colour)) (frames : List FrameHdr) (before after : List Word) (v : Word) :
      frontLegal palette frames.length frames → (before ++ v :: after).length < 2 ^ 31 →
      headBytes palette frames (before ++ v :: after) <+: b → idsInside frames (before ++ v :: after).length →
      (∀ w ∈ before, offsetInside b (headBytes palette frames (before ++ v :: after)).length w
        ∧ tileStands b ((headBytes palette frames (before ++ v :: after)).length + w.toNat)) →
      offsetInside b (headBytes palette frames (before ++ v :: after)).length v →
      ¬ tileStands b ((headBytes palette frames (before ++ v :: after)).length + v.toNat) →
      ContainerRefused b .truncatedInput

/-- The container up to the last tile offset. -/
def Container.head (c : Container) : List Byte :=
  headBytes c.palette c.frames (c.tiles.map (fun t => BitVec.ofNat 32 t.1))

/-- The fields fit their widths and pass the structural checks (41_sprite_compositor.md R211). -/
def Container.legal (c : Container) : Prop :=
  frontLegal c.palette c.frames.length c.frames ∧ c.tiles.length < 2 ^ 31 ∧ idsInside c.frames c.tiles.length
    ∧ ∀ t ∈ c.tiles, t.1 < 2 ^ 31 ∧ t.2.legal

/-- The byte list is the container: its head, and every tile's bytes at its offset from the table base. -/
def Container.spelledBy (c : Container) (b : List Byte) : Prop :=
  c.head <+: b ∧ ∀ t ∈ c.tiles, t.2.bytes <+: b.drop (c.head.length + t.1)

/-- The colours of the container that the candidate scan sees after the palette: those of its tiles. -/
def Container.tileColour (c : Container) (v : Colour) : Prop := ∃ t ∈ c.tiles, ∃ p ∈ t.2.places, p.c = v

/-- The source offsets at which the tiles of a container start (41_sprite_compositor.md R211). -/
def tileStarts (b : List Byte) : Except ErrCode (List Nat) := do
  let (_, _, _, _, o) ← spritePalette b
  let fc ← src8 b o
  let (o2, _) ← framesAt b (o + 1) fc.toNat
  let tc ← src32 b o2
  let offs ← offsetsAt b (o2 + 4) tc.toNat
  return offs.map (fun v => o2 + 4 + 4 * tc.toNat + v.toNat)

/-! ## The chaining mode as a sequence of keys (42_block_cipher.md R266, R267) -/

/-- The `j`-th block of the payload in the source window. -/
def State.payloadBlock (s : State) (j : Nat) : Block := blockAt s.buf (s.src + 4 + 16 * j)

/-- The rolling key of DECPAY before block `j`: SEED, then the ciphertext block just processed. -/
def State.decKey (s : State) : Nat → Block
  | 0 => s.cfg.seed
  | j + 1 => s.payloadBlock j

/-- The rolling key of ENCPAY before block `j`: SEED, then the transform output of the block just processed. -/
def State.encKey (s : State) : Nat → Block
  | 0 => s.cfg.seed
  | j + 1 => s.encCore (s.payloadBlock j ^^^ s.encKey j)

/-- Byte `i` of a block (00_scope.md R12). -/
def blockByte (x : Block) (i : Nat) : Byte := x.extractLsb' (8 * i) 8

/-- The host's sequence of per-block commands on the payload whose source starts at `src` and whose destination at
`dst`: block number 0 to `n - 1` (42_block_cipher.md R272 law 3). -/
def runBlocks (i : Instr) (src dst : Nat) (s : State) : Nat → State
  | 0 => s
  | n + 1 => runCommand i ((runBlocks i src dst s n).window (src + 4 + 16 * n) 16 (dst + 4 + 16 * n) 16)

/-! ## The invariant -/

/-- What holds of the machine at reset and after every step: BUF is in canonical form and inside BUF_SIZE
(20_memory.md R80, R84, R88); while a command is pending DONE, ERR and WARN are 0 (43_system.md R317); ERR and WARN
stand only beside a code (10_state.md R35, R36); ERRCODE and WARNCODE are codes that PVCD raises (60_exceptions.md
R330 to R332), and no warning accompanies an error (R333). -/
def State.Inv (s : State) : Prop :=
  Memory.wf s.buf = true ∧ Memory.below s.buf s.cfg.bufSize = true
    ∧ (s.status.busy = true → s.status.done = false ∧ s.status.err = false ∧ s.status.warn = false)
    ∧ (s.status.err = true → s.errcode ≠ 0#8)
    ∧ (s.status.warn = true → s.warncode = 4#8)
    ∧ (s.errcode = 0#8 ∨ s.errcode = 1#8 ∨ s.errcode = 5#8 ∨ s.errcode = 6#8 ∨ s.errcode = 7#8 ∨ s.errcode = 8#8)
    ∧ (s.warncode = 0#8 ∨ s.warncode = 4#8)
    ∧ (s.errcode ≠ 0#8 → s.warncode = 0#8)

end Sys2Proof.Machine
end

