-- ==== Sys2Proof/Certificates/Slice0/Obligations.lean ====
section
/-! DEFINITION. The statements about PVCD. Each docstring says which rule of spec/ a statement formalises. A statement
about a command names its checks in their order with `endsAs`: past the last of them, `exec` answers a next state. -/

open Sys2Proof Sys2Proof.Machine

/-! ## Reset, the invariant, and the encoding -/

/-- R370, R30: after power-on a read of every register gives its reset value and a reserved offset reads 0; no command is
pending; IRQ is 0; every BUF byte is the unknown value of its address (the model's form of it, log entry 3). -/
def Obligations.PowerOnValues : Prop :=
  ∀ c : Config,
    (∀ e ∈ [(0x000, 0x50560007#32), (0x050, 0x00007C00#32), (0x054, 0x0000007F#32)],
      ((State.powerOn c).hostReadReg e.1).rdata = e.2)
    ∧ (∀ o ∈ [0x004, 0x008, 0x00C, 0x010, 0x014, 0x018, 0x020, 0x024, 0x028, 0x02C, 0x030, 0x034, 0x038, 0x03C, 0x040,
        0x044, 0x048, 0x04C], ((State.powerOn c).hostReadReg o).rdata = 0#32)
    ∧ (∀ j, j < 4 → ((State.powerOn c).hostReadReg (0x060 + 4 * j)).rdata = c.seed.extractLsb' (32 * j) 32
        ∧ ((State.powerOn c).hostReadReg (0x070 + 4 * j)).rdata = c.keyDefault.extractLsb' (32 * j) 32)
    ∧ (∀ o, o = 0x01C ∨ o = 0x058 ∨ o = 0x05C ∨ 0x080 ≤ o → ((State.powerOn c).hostReadReg o).rdata = 0#32)
    ∧ (State.powerOn c).status.busy = false ∧ (State.powerOn c).irq = false
    ∧ (∀ a, Memory.byteAt (State.powerOn c).buf a = Config.powerOnByte a)
    ∧ State.reset = State.powerOn Config.default

/-- The machine after reset meets the invariant. -/
def Obligations.ResetMeetsInvariant : Prop := State.reset.Inv

/-- Every step keeps the invariant, from every state that meets it. -/
def Obligations.StepKeepsInvariant : Prop := ∀ s t : State, s.Inv → step s = .next t → t.Inv

/-- R110 to R113: the decoder and the encoder agree in both directions, for every word and every command with every
option its encoding admits. -/
def Obligations.DecodeEncodeAgree : Prop :=
  ∀ (w : BitVec 32) (i : Instr), decode w = .ok i ↔ i.wellFormed = true ∧ encode i = w

/-- R111, R115: decoding refuses in the order RSV, OP, MODE; OP is reserved exactly in the ranges of R115. -/
def Obligations.DecodeRefusesInOrder : Prop :=
  ∀ w : BitVec 32,
    let op := (w.extractLsb' 0 8).toNat
    (w.extractLsb' 16 16 ≠ 0#16 → decode w = .error .reservedBits)
    ∧ (w.extractLsb' 16 16 = 0#16 →
        ((3 ≤ op ∧ op ≤ 0x0F) ∨ (0x17 ≤ op ∧ op ≤ 0x1F) ∨ (0x28 ≤ op ∧ op ≤ 0x2F) ∨ 0x39 ≤ op
          ↔ decode w = .error .reservedOp))

/-- R110, R113: no word matches two rows of the opcode map, and a word names a command exactly when it matches a row
and is not one of the words of the four TP rows with TP = 3. -/
def Obligations.OpcodeRowsDisjoint : Prop :=
  ∀ w : BitVec 32,
    (∀ r ∈ opTable, ∀ r' ∈ opTable, r.matches w = true → r'.matches w = true → r = r')
    ∧ ((∃ i, decode w = .ok i) ↔ (∃ r ∈ opTable, r.matches w = true)
        ∧ w ≠ 0x310#32 ∧ w ≠ 0x311#32 ∧ w ≠ 0x312#32 ∧ w ≠ 0x313#32)

/-- R112, R113, R136: words written out from the opcode map decode to what they stand for. -/
def Obligations.SampleWordsDecode : Prop :=
  decode 0x00000000#32 = .ok .nop ∧ decode 0x00000110#32 = .ok (.cvt555 1#2) ∧ decode 0x00000213#32 = .ok (.pack565 2#2)
    ∧ decode 0x00000114#32 = .ok (.l1dec true) ∧ decode 0x00000122#32 = .ok (.tiledec true)
    ∧ decode 0x00000026#32 = .ok .blit ∧ decode 0x00000033#32 = .ok .decpay ∧ decode 0x00000310#32 = .error .reservedMode
    ∧ decode 0x00000039#32 = .error .reservedOp ∧ decode 0x00010000#32 = .error .reservedBits

/-! ## Steps -/

/-- R318, R320: at the engine's turn, with a pending word that decodes to `i`, a step is `exec i` on the state whose
agenda has moved on; the same when the agenda is empty (the model's choice, log entry 1); and the step after
`withFetchWord` runs the instruction of that word (log entry 13). -/
def Obligations.StepRunsDecoded : Prop :=
  (∀ (s : State) (rest : List Event) (i : Instr), s.status.busy = true → decode s.cmd = .ok i →
      step { s with agenda := .engine :: rest } = exec i { s with agenda := rest }
      ∧ step { s with agenda := [] } = exec i { s with agenda := [] })
  ∧ ∀ (s : State) (nbits w : Nat) (i : Instr), decodeTableWord nbits w = some i →
      step (s.withFetchWord nbits w)
        = exec i { s with cmd := tableWord nbits w, status := ⟨true, false, false, false, s.status.coll⟩ }

/-- R114: each illegal encoding completes with IllegalCommand and no other effect. -/
def Obligations.IllegalWordCompletes : Prop :=
  ∀ s : State, s.status.busy = true → s.completionNext →
    (s.cmd.extractLsb' 16 16 ≠ 0#16
      ∨ ((s.cmd.extractLsb' 0 8).toNat ∈ [0x10, 0x11, 0x12, 0x13]
          ∧ (s.cmd.extractLsb' 10 6 ≠ 0#6 ∨ s.cmd.extractLsb' 8 2 = 3#2))
      ∨ ((s.cmd.extractLsb' 0 8).toNat ∈ [0x14, 0x16, 0x22] ∧ s.cmd.extractLsb' 9 7 ≠ 0#7)
      ∨ ((s.cmd.extractLsb' 0 8).toNat ∉ [0x10, 0x11, 0x12, 0x13, 0x14, 0x16, 0x22] ∧ s.cmd.extractLsb' 8 8 ≠ 0#8)
      ∨ (3 ≤ (s.cmd.extractLsb' 0 8).toNat ∧ (s.cmd.extractLsb' 0 8).toNat ≤ 0x0F)
      ∨ (0x17 ≤ (s.cmd.extractLsb' 0 8).toNat ∧ (s.cmd.extractLsb' 0 8).toNat ≤ 0x1F)
      ∨ (0x28 ≤ (s.cmd.extractLsb' 0 8).toNat ∧ (s.cmd.extractLsb' 0 8).toNat ≤ 0x2F)
      ∨ 0x39 ≤ (s.cmd.extractLsb' 0 8).toNat) →
    ∃ t, step s = .next t ∧ State.failed { s with agenda := s.agenda.tail } t 6#8

/-- R317: a write of any word to CMD while idle is accepted: CMD, BUSY, DONE, ERR, WARN change, nothing else does, and
the word is not decoded. -/
def Obligations.IssueAccepts : Prop :=
  ∀ (s : State) (v : Word) (rest : List Event), s.status.busy = false →
    step { s with agenda := .host (.regWrite 4 0x00C v) :: rest }
      = .next { s with agenda := rest, cmd := v, status := ⟨true, false, false, false, s.status.coll⟩ }

/-- R318: a pending command completes, whatever it is: BUSY falls, DONE rises, CMDCNT counts it, ERR says whether there is
an error code and WARN whether there is a warning code, COLL stays, and what no command writes stays. Two clauses are the
model's choice, not R318's (log entry 1): that the engine moves too when the agenda is empty, and that an engine's turn
with no command pending, for which R318 has no step, changes nothing. -/
def Obligations.CompletionStep : Prop :=
  ∀ s : State, s.engineNext →
    (s.status.busy = true → ∃ t, step s = .next t
      ∧ t.status.busy = false ∧ t.status.done = true ∧ t.status.coll = s.status.coll ∧ t.cmdcnt = s.cmdcnt + 1#32
      ∧ (t.status.err = true ↔ t.errcode ≠ 0#8) ∧ (t.status.warn = true ↔ t.warncode ≠ 0#8)
      ∧ State.kept { s with agenda := s.agenda.tail } t)
    ∧ (s.status.busy = false → step s = .next { s with agenda := s.agenda.tail })

/-- R91, R37, R56: while a command is pending every permitted host write is dropped and sets COLL, but for a write to CTRL:
a register write at any other offset, reserved or not, and every BUF write. -/
def Obligations.BusyDropsHostWrites : Prop :=
  ∀ (s : State) (rest : List Event) (v : Word), s.status.busy = true →
    (∀ o, o % 4 = 0 → o < 4096 → o ≠ 0x004 →
      step { s with agenda := .host (.regWrite 4 o v) :: rest }
        = .next { s with agenda := rest, status := { s.status with coll := true } })
    ∧ (∀ n a, n = 1 ∨ n = 2 ∨ n = 4 → a % n = 0 → a + n ≤ s.cfg.bufSize →
      step { s with agenda := .host (.bufWrite n a v) :: rest }
        = .next { s with agenda := rest, status := { s.status with coll := true } })

/-- R32, R319, R371: a write to CTRL, pending command or not. With bit 1 it is the soft reset: every register is as after
power-on, and BUF is unchanged but for the destination window of an aborted command, whose bytes inside BUF take fresh
values, one draw each (log entry 11 for the part of the window outside BUF). Without bit 1 it sets IE and nothing else. -/
def Obligations.CtrlWriteResets : Prop :=
  ∀ (s : State) (v : Word) (rest : List Event),
    (v.getLsbD 1 = false →
      step { s with agenda := .host (.regWrite 4 0x004 v) :: rest } = .next { s with agenda := rest, ie := v.getLsbD 0 })
    ∧ (v.getLsbD 1 = true → ∃ t, step { s with agenda := .host (.regWrite 4 0x004 v) :: rest } = .next t
        ∧ t = { State.powerOn s.cfg with buf := t.buf, agenda := rest, draws := t.draws, rdata := s.rdata }
        ∧ (s.status.busy = false → t.buf = s.buf)
        ∧ (∀ e, decode s.cmd = .error e → t.buf = s.buf)
        ∧ (∀ i, decode s.cmd = .ok i → i.usesDest = false → t.buf = s.buf)
        ∧ (∀ i, s.status.busy = true → decode s.cmd = .ok i → i.usesDest = true →
            sameOutside s.buf t.buf s.dst s.dlen
            ∧ ∀ k, k < s.dlen → s.dst + k < s.cfg.bufSize →
                Memory.byteAt t.buf (s.dst + k) = Config.freeByte (s.draws + k)))

/-- R340, R34 to R37: while idle, a write of `v` to STATUS clears each of DONE, ERR, WARN and COLL whose bit `v` has set,
and changes nothing else. -/
def Obligations.AcknowledgeClears : Prop :=
  ∀ (s : State) (v : Word) (rest : List Event), s.status.busy = false →
    ∃ t, step { s with agenda := .host (.regWrite 4 0x008 v) :: rest } = .next t
      ∧ t = { s with agenda := rest, status := t.status }
      ∧ t.status.busy = false
      ∧ (t.status.done = true ↔ s.status.done = true ∧ v.getLsbD 1 = false)
      ∧ (t.status.err = true ↔ s.status.err = true ∧ v.getLsbD 2 = false)
      ∧ (t.status.warn = true ↔ s.status.warn = true ∧ v.getLsbD 3 = false)
      ∧ (t.status.coll = true ↔ s.status.coll = true ∧ v.getLsbD 4 = false)

/-- R30, R54, R56, R63: while idle, a write to a read-write register is what a later read gives (MASK keeps 16 bits,
CAND bits 6:0 and 16), a write to a read-only register or a reserved offset changes nothing, and no write of these
changes what a read of another register or of BUF gives. -/
def Obligations.RegisterReadback : Prop :=
  ∀ (s : State) (v : Word) (rest : List Event), s.status.busy = false →
    (∀ o ∈ [0x020, 0x024, 0x028, 0x02C, 0x030, 0x034, 0x038, 0x03C, 0x050, 0x054, 0x060, 0x064, 0x068, 0x06C, 0x070,
        0x074, 0x078, 0x07C], ∃ t, step { s with agenda := .host (.regWrite 4 o v) :: rest } = .next t
      ∧ (t.hostReadReg o).rdata = (if o = 0x050 then v &&& 0xFFFF#32 else if o = 0x054 then v &&& 0x1007F#32 else v)
      ∧ (∀ o', o' ≠ o → (t.hostReadReg o').rdata = (s.hostReadReg o').rdata)
      ∧ t = { s with ops := t.ops, comp := t.comp, rkey := t.rkey, key := t.key, agenda := rest })
    ∧ (∀ o, o % 4 = 0 → o < 4096 →
        o ∈ [0x000, 0x010, 0x014, 0x018, 0x040, 0x044, 0x048, 0x04C] ∨ o = 0x01C ∨ o = 0x058 ∨ o = 0x05C ∨ 0x080 ≤ o →
        step { s with agenda := .host (.regWrite 4 o v) :: rest } = .next { s with agenda := rest })

/-- R83, R315, R316: while idle, a permitted BUF write puts the low bytes of the value at ascending addresses, least
significant first, and leaves every other byte; a permitted read gives the bytes in that order. -/
def Obligations.HostBufReadback : Prop :=
  ∀ (s : State) (n a : Nat) (v : Word) (rest : List Event), s.status.busy = false → n = 1 ∨ n = 2 ∨ n = 4 → a % n = 0 →
    a + n ≤ s.cfg.bufSize →
    (∃ t, step { s with agenda := .host (.bufWrite n a v) :: rest } = .next t
      ∧ t = { s with agenda := rest, buf := t.buf } ∧ sameOutside s.buf t.buf a n
      ∧ ∀ k, k < n → Memory.byteAt t.buf (a + k) = v.extractLsb' (8 * k) 8)
    ∧ step { s with agenda := .host (.bufRead n a) :: rest } = .next { s with agenda := rest, rdata := valueAt s.buf a n }

/-- R314, R316, R89: a permitted host read answers, and changes no register and no byte of BUF: only the value on the bus
and the count of free values move. -/
def Obligations.HostReadsChangeNothing : Prop :=
  ∀ (s : State) (rest : List Event),
    (∀ o, o % 4 = 0 → o < 4096 → ∃ t, step { s with agenda := .host (.regRead 4 o) :: rest } = .next t
      ∧ t = { s with agenda := rest, rdata := t.rdata, draws := t.draws })
    ∧ (∀ n a, n = 1 ∨ n = 2 ∨ n = 4 → a % n = 0 → a + n ≤ s.cfg.bufSize →
      ∃ t, step { s with agenda := .host (.bufRead n a) :: rest } = .next t
        ∧ t = { s with agenda := rest, rdata := t.rdata, draws := t.draws })

/-- R92, R314, R316: reads while a command is pending. The registers outside the open list read as they are, reserved
offsets 0, and a register of the open list as a fresh free value. A BUF read under a command without a destination window
gives what BUF holds; the same under an illegal word, which has no window (the model's choice, log entry 11). Under a
command with one, each byte inside it is a fresh free value and every other byte what BUF holds. The free values and their
count are the model's form of any value, and that a byte outside the window stays definite in a read across its edge is
the model's choice between R92 and R316 (log entry 4). -/
def Obligations.ReadsWhileBusy : Prop :=
  ∀ (s : State) (rest : List Event), s.status.busy = true →
    (∀ r ∈ [Reg.id, .ctrl, .status, .cmd, .cmdcnt, .src, .slen, .dst, .dlen, .arg0, .arg1, .arg2, .arg3, .key0, .key1,
        .key2, .key3], step { s with agenda := readEvent r :: rest } = .next { s with agenda := rest, rdata := s.readReg r })
    ∧ (∀ r ∈ [Reg.res0, .res1, .res2, .res3, .errcode, .warncode, .mask, .cand, .rkey0, .rkey1, .rkey2, .rkey3],
        step { s with agenda := readEvent r :: rest }
          = .next { s with agenda := rest, rdata := Config.freeWord s.draws, draws := s.draws + 1 })
    ∧ (∀ o, o % 4 = 0 → o < 4096 → o = 0x01C ∨ o = 0x058 ∨ o = 0x05C ∨ 0x080 ≤ o →
        step { s with agenda := .host (.regRead 4 o) :: rest } = .next { s with agenda := rest, rdata := 0#32 })
    ∧ ∀ n a, n = 1 ∨ n = 2 ∨ n = 4 → a % n = 0 → a + n ≤ s.cfg.bufSize →
      ((∃ e, decode s.cmd = .error e) ∨ (∃ i, decode s.cmd = .ok i ∧ i.usesDest = false) →
        step { s with agenda := .host (.bufRead n a) :: rest } = .next { s with agenda := rest, rdata := valueAt s.buf a n })
      ∧ ∀ i, decode s.cmd = .ok i → i.usesDest = true →
        ∃ t, step { s with agenda := .host (.bufRead n a) :: rest } = .next t
          ∧ t = { s with agenda := rest, rdata := t.rdata, draws := s.draws + n }
          ∧ (a + n ≤ s.dst ∨ s.dst + s.dlen ≤ a → t.rdata = valueAt s.buf a n)
          ∧ (∀ k, k < n → t.rdata.extractLsb' (8 * k) 8
              = if s.dst ≤ a + k ∧ a + k < s.dst + s.dlen then Config.freeByte (s.draws + k) else Memory.byteAt s.buf (a + k))
          ∧ ∀ k, n ≤ k → k < 4 → t.rdata.extractLsb' (8 * k) 8 = 0#8

/-- R88, R89: an access of a bad width, alignment or range gets no step: the model stops with a fault (its form of it, log
entries 9 and 10). Every other access gets one. R82: an access at `REG_BASE + o` does what the register access at `o`
does, and one at `BUF_BASE + a` what the BUF access at `a` does. That the register window is asked first where the two
meet, and that PVCD does not move for an address in neither, is the model's choice (log entry 16). -/
def Obligations.BadHostAccessStops : Prop :=
  ∀ (s : State) (n a : Nat) (v : Word) (rest : List Event),
    (¬ (n = 4 ∧ a % 4 = 0 ∧ a < 4096) →
      step { s with agenda := .host (.regWrite n a v) :: rest } = .fault .regAccess
      ∧ step { s with agenda := .host (.regRead n a) :: rest } = .fault .regAccess)
    ∧ (¬ ((n = 1 ∨ n = 2 ∨ n = 4) ∧ a % n = 0 ∧ a + n ≤ s.cfg.bufSize) →
      step { s with agenda := .host (.bufWrite n a v) :: rest } = .fault .bufAccess
      ∧ step { s with agenda := .host (.bufRead n a) :: rest } = .fault .bufAccess)
    ∧ (∀ t : HostTxn, t.permitted s.cfg = true → ∃ u, step { s with agenda := .host t :: rest } = .next u)
    ∧ (a < 4096 →
      step { s with agenda := .host (.busWrite n (s.cfg.regBase + a) v) :: rest }
        = step { s with agenda := .host (.regWrite n a v) :: rest }
      ∧ step { s with agenda := .host (.busRead n (s.cfg.regBase + a)) :: rest }
        = step { s with agenda := .host (.regRead n a) :: rest })
    ∧ (a < s.cfg.bufSize → s.cfg.bufBase + a < s.cfg.regBase ∨ s.cfg.regBase + 4096 ≤ s.cfg.bufBase + a →
      step { s with agenda := .host (.busWrite n (s.cfg.bufBase + a) v) :: rest }
        = step { s with agenda := .host (.bufWrite n a v) :: rest }
      ∧ step { s with agenda := .host (.busRead n (s.cfg.bufBase + a)) :: rest }
        = step { s with agenda := .host (.bufRead n a) :: rest })
    ∧ ∀ x, x < s.cfg.regBase ∨ s.cfg.regBase + 4096 ≤ x → x < s.cfg.bufBase ∨ s.cfg.bufBase + s.cfg.bufSize ≤ x →
      step { s with agenda := .host (.busWrite n x v) :: rest } = .next { s with agenda := rest }
      ∧ step { s with agenda := .host (.busRead n x) :: rest } = .next { s with agenda := rest }

/-- R338: IRQ is IE and DONE; a completion with IE set raises it; a write of 1 to STATUS bit 1, a CTRL write that clears
IE, an accepted command and a soft reset each drop it. -/
def Obligations.IrqFollowsDone : Prop :=
  ∀ s t : State,
    (s.irq = true ↔ s.ie = true ∧ s.status.done = true)
    ∧ (s.completionNext → s.status.busy = true → s.ie = true → step s = .next t → t.irq = true)
    ∧ (∀ v : Word, s.status.busy = false → v.getLsbD 1 = true → s.hostNext (.regWrite 4 0x008 v) → step s = .next t →
        t.irq = false)
    ∧ (∀ v : Word, v.getLsbD 0 = false ∨ v.getLsbD 1 = true → s.hostNext (.regWrite 4 0x004 v) → step s = .next t →
        t.irq = false)
    ∧ (∀ v : Word, s.status.busy = false → s.hostNext (.regWrite 4 0x00C v) → step s = .next t → t.irq = false)

/-- R33: BUSY rises only where a command is accepted and falls only where it completes or a soft reset aborts it. -/
def Obligations.BusyUntilCompletionOrReset : Prop :=
  ∀ s t : State, step s = .next t →
    (s.status.busy = true → t.status.busy = false →
      s.engineNext ∨ ∃ x, s.hostNext x ∧ x.resets s.cfg)
    ∧ (s.status.busy = false → t.status.busy = true →
      ∃ x v, s.hostNext x ∧ x.regWritten s.cfg = some (0x00C, v) ∧ t.cmd = v)

/-- R41: each completion adds 1 to CMDCNT modulo 2^32; a soft reset sets it to 0; nothing else changes it. -/
def Obligations.CmdcntCounts : Prop :=
  ∀ s t : State, step s = .next t →
    (s.completionNext → s.status.busy = true → t.cmdcnt.toNat = (s.cmdcnt.toNat + 1) % 2 ^ 32)
    ∧ (s.completionNext → s.status.busy = false → t.cmdcnt = s.cmdcnt)
    ∧ (∀ x, s.hostNext x → (x.resets s.cfg → t.cmdcnt = 0#32) ∧ (¬ x.resets s.cfg → t.cmdcnt = s.cmdcnt))

/-- Whatever permitted events are to come, they and one step more leave no command pending. R380 says that a pending
command completes after finitely many host steps and names no bound: that one step more is enough rests on the engine
moving when the agenda is empty, which is the model's choice (log entry 1). -/
def Obligations.PendingCompletes : Prop :=
  ∀ s : State, (∀ x, Event.host x ∈ s.agenda → x.permitted s.cfg = true) →
    ∃ t, runSteps (s.agenda.length + 1) s = .next t ∧ t.status.busy = false ∧ t.agenda = []

/-! ## Every command -/

/-- R66, R84: every command answers a next state; it writes none of CTRL, CMD, SRC .. ARG3 and KEY; MASK, SET, FIXED and
RKEY only where R66 lists it; BUF only inside its destination window, and not at all when it has none. -/
def Obligations.ExecKeeps : Prop :=
  ∀ (i : Instr) (s : State), ∃ t, exec i s = .next t ∧ s.kept t
    ∧ (i ∉ [.palscan, .maskfin, .sprdec] → t.comp.mask = s.comp.mask)
    ∧ (i ∉ [.candrst, .palscan, .tiledec false, .tiledec true, .sprdec] → t.comp.set = s.comp.set)
    ∧ (i ∉ [.candrst, .palscan, .maskfin, .sprdec] → t.comp.fixed = s.comp.fixed)
    ∧ (i ∉ [.seed, .decblk, .encblk, .decpay, .encpay] → t.rkey = s.rkey)
    ∧ (i.usesDest = false → sameBytes s.buf t.buf) ∧ sameOutside s.buf t.buf s.dst s.dlen

/-- R334: a command that ends with an error changes exactly ERRCODE, WARNCODE, STATUS and CMDCNT. -/
def Obligations.ErrorChangesOnly : Prop :=
  ∀ (i : Instr) (s t : State), exec i s = .next t → t.status.err = true →
    t = { s with
      errcode := t.errcode
      warncode := 0#8
      status := ⟨false, true, true, false, s.status.coll⟩
      cmdcnt := s.cmdcnt + 1#32 }

/-- R337, R330 to R332: the errors each command can raise, and the warning that only MASKFIN and SPRDEC give. -/
def Obligations.ErrorsRaised : Prop :=
  ∀ (i : Instr) (s t : State), i.wellFormed = true → exec i s = .next t →
    (t.errcode = 0#8 ∨ t.errcode ∈ errorsOf i)
    ∧ (t.warncode = 0#8 ∨ (t.warncode = 4#8 ∧ t.errcode = 0#8 ∧ (i = .maskfin ∨ i = .sprdec)))

/-- R335: the generic checks come first, in their order: an illegal word, then the source window, the destination
window, the overlap. -/
def Obligations.GenericChecksFirst : Prop :=
  ∀ s : State, s.status.busy = true → s.completionNext →
    (∀ e, decode s.cmd = .error e → ∃ t, step s = .next t ∧ State.failed { s with agenda := s.agenda.tail } t 6#8)
    ∧ ∀ i, decode s.cmd = .ok i →
      (i.usesSource = true ∧ s.cfg.bufSize < s.src + s.slen → ∃ t, step s = .next t ∧ State.failed { s with agenda := s.agenda.tail } t 7#8)
      ∧ (¬ (i.usesSource = true ∧ s.cfg.bufSize < s.src + s.slen) → i.usesDest = true →
          s.cfg.bufSize < s.dst + s.dlen → ∃ t, step s = .next t ∧ State.failed { s with agenda := s.agenda.tail } t 7#8)
      ∧ (¬ (i.usesSource = true ∧ s.cfg.bufSize < s.src + s.slen) →
          ¬ (i.usesDest = true ∧ s.cfg.bufSize < s.dst + s.dlen) →
          i.usesSource = true → i.usesDest = true → s.overlapping → ¬ (i.inPlace = true ∧ s.src = s.dst) →
          ∃ t, step s = .next t ∧ State.failed { s with agenda := s.agenda.tail } t 8#8)

/-- R100, R84: a command's outcome does not depend on BUF outside its source window: on two states that agree there and
in every register it leaves equal registers, and each byte it either leaves alone in both or makes equal in both. -/
def Obligations.SourceNoninterference : Prop :=
  ∀ (i : Instr) (s t : State) (m : Memory),
    (i.usesSource = true → ∀ x, s.src ≤ x → x < s.src + s.slen → Memory.byteAt m x = Memory.byteAt s.buf x) →
    exec i s = .next t →
    ∃ t', exec i { s with buf := m } = .next t' ∧ t' = { t with buf := t'.buf }
      ∧ ∀ x, (Memory.byteAt t.buf x = Memory.byteAt s.buf x ∧ Memory.byteAt t'.buf x = Memory.byteAt m x)
          ∨ Memory.byteAt t'.buf x = Memory.byteAt t.buf x

/-- R90, R91: a pending command's result is that of the state as it was accepted, whatever permitted transactions the host
makes before it completes, a soft reset apart: BUF and every register but COLL and IE end as if it had completed at once. -/
def Obligations.CommandSeesAcceptedState : Prop :=
  ∀ (s : State) (xs : List HostTxn) (rest : List Event), s.status.busy = true →
    (∀ x ∈ xs, x.permitted s.cfg = true ∧ ¬ x.resets s.cfg) →
    ∃ t u, runSteps (xs.length + 1) { s with agenda := xs.map Event.host ++ .engine :: rest } = .next t
      ∧ step { s with agenda := .engine :: rest } = .next u
      ∧ t.buf = u.buf ∧ t.res = u.res ∧ t.comp = u.comp ∧ t.rkey = u.rkey ∧ t.errcode = u.errcode
      ∧ t.warncode = u.warncode ∧ t.cmdcnt = u.cmdcnt ∧ t.ops = u.ops ∧ t.key = u.key ∧ t.cmd = u.cmd
      ∧ t.agenda = u.agenda ∧ { t.status with coll := u.status.coll } = u.status

/-! ## System commands -/

/-- R310, R311, R312: NOP, SEED and CANDRST end without error from every state, with results 0 and BUF unchanged; SEED
loads RKEY with the seed; CANDRST makes all seven candidates unused and clears FIXED, MASK staying. -/
def Obligations.SystemCommands : Prop :=
  encode .nop = 0x00#32 ∧ encode .seed = 0x01#32 ∧ encode .candrst = 0x02#32 ∧
  ∀ s : State,
    (∃ t, exec .nop s = .next t ∧ s.completes t 0 0 0 0 false ∧ s.keptCodec t ∧ sameBytes s.buf t.buf)
    ∧ (∃ t, exec .seed s = .next t ∧ s.completes t 0 0 0 0 false ∧ sameBytes s.buf t.buf ∧ t.comp = s.comp
        ∧ t.rkey.block = s.cfg.seed)
    ∧ (∃ t, exec .candrst s = .next t ∧ s.completes t 0 0 0 0 false ∧ sameBytes s.buf t.buf ∧ t.rkey = s.rkey
        ∧ t.comp = ⟨s.comp.mask, 0x7F#7, false⟩)

/-! ## The pixel codec -/

/-- R152, R153, R150, R151: CVT555 and CVT565. Range for an odd SLEN or a short destination; else pixel `k` of the source
becomes the RGBA pixel `k` of the destination, cleared when the policy calls it transparent; nothing else changes. -/
def Obligations.ConvertPixels : Prop :=
  (∀ tp : BitVec 2, encode (.cvt555 tp) = 0x10#32 ||| tp.setWidth 32 <<< 8 ∧ encode (.cvt565 tp) = 0x11#32 ||| tp.setWidth 32 <<< 8) ∧
  decode 0x310#32 = .error .reservedMode ∧ decode 0x311#32 = .error .reservedMode ∧
  ∀ (tp : BitVec 2) (s : State), tp ≠ 3#2 →
    endsAs (.cvt555 tp) s
      (s.windowChecks (.cvt555 tp) ++ [(s.slen % 2 ≠ 0, 7#8), (s.dlen < 4 * (s.slen / 2), 7#8)])
      (fun t => s.completes t (BitVec.ofNat 32 (s.slen / 2)) 0 0 (BitVec.ofNat 32 (4 * (s.slen / 2))) false
        ∧ s.keptCodec t ∧ sameOutside s.buf t.buf s.dst (4 * (s.slen / 2))
        ∧ ∀ k v, k < s.slen / 2 → v = colourAt s.buf (s.src + 2 * k) →
          (cleared tp s.comp.mask v → rgbaAt t.buf (s.dst + 4 * k) 0#8 0#8 0#8 0#8)
          ∧ (¬ cleared tp s.comp.mask v → rgbaAt t.buf (s.dst + 4 * k) (wide5 (v.toNat / 1024 % 32))
              (wide5 (v.toNat / 32 % 32)) (wide5 (v.toNat % 32)) 255#8))
    ∧ endsAs (.cvt565 tp) s
      (s.windowChecks (.cvt565 tp) ++ [(s.slen % 2 ≠ 0, 7#8), (s.dlen < 4 * (s.slen / 2), 7#8)])
      (fun t => s.completes t (BitVec.ofNat 32 (s.slen / 2)) 0 0 (BitVec.ofNat 32 (4 * (s.slen / 2))) false
        ∧ s.keptCodec t ∧ sameOutside s.buf t.buf s.dst (4 * (s.slen / 2))
        ∧ ∀ k v, k < s.slen / 2 → v = colourAt s.buf (s.src + 2 * k) →
          (cleared tp s.comp.mask v → rgbaAt t.buf (s.dst + 4 * k) 0#8 0#8 0#8 0#8)
          ∧ (¬ cleared tp s.comp.mask v → rgbaAt t.buf (s.dst + 4 * k) (wide5 (v.toNat / 2048))
              (wide6 (v.toNat / 32 % 64)) (wide5 (v.toNat % 32)) 255#8))

/-- R155, R156: PACK555 and PACK565. Range for an SLEN that is not whole pixels or a short destination; else RGBA pixel
`k` of the source becomes colour `k` of the destination: the policy's transparent colour when alpha is 0, else the
channels truncated; nothing else changes. -/
def Obligations.PackPixels : Prop :=
  (∀ tp : BitVec 2, encode (.pack555 tp) = 0x12#32 ||| tp.setWidth 32 <<< 8 ∧ encode (.pack565 tp) = 0x13#32 ||| tp.setWidth 32 <<< 8) ∧
  decode 0x312#32 = .error .reservedMode ∧ decode 0x313#32 = .error .reservedMode ∧
  ∀ (tp : BitVec 2) (s : State), tp ≠ 3#2 →
    endsAs (.pack555 tp) s
      (s.windowChecks (.pack555 tp) ++ [(s.slen % 4 ≠ 0, 7#8), (s.dlen < 2 * (s.slen / 4), 7#8)])
      (fun t => s.completes t (BitVec.ofNat 32 (s.slen / 4)) 0 0 (BitVec.ofNat 32 (2 * (s.slen / 4))) false
        ∧ s.keptCodec t ∧ sameOutside s.buf t.buf s.dst (2 * (s.slen / 4))
        ∧ ∀ k r g b al, k < s.slen / 4 → rgbaAt s.buf (s.src + 4 * k) r g b al →
          (tp = 1#2 → al = 0#8 → colourAt t.buf (s.dst + 2 * k) = 0#16)
          ∧ (tp = 2#2 → al = 0#8 → colourAt t.buf (s.dst + 2 * k) = s.comp.mask)
          ∧ (tp = 0#2 ∨ al ≠ 0#8 → (colourAt t.buf (s.dst + 2 * k)).toNat
              = r.toNat / 8 * 1024 + g.toNat / 8 * 32 + b.toNat / 8))
    ∧ endsAs (.pack565 tp) s
      (s.windowChecks (.pack565 tp) ++ [(s.slen % 4 ≠ 0, 7#8), (s.dlen < 2 * (s.slen / 4), 7#8)])
      (fun t => s.completes t (BitVec.ofNat 32 (s.slen / 4)) 0 0 (BitVec.ofNat 32 (2 * (s.slen / 4))) false
        ∧ s.keptCodec t ∧ sameOutside s.buf t.buf s.dst (2 * (s.slen / 4))
        ∧ ∀ k r g b al, k < s.slen / 4 → rgbaAt s.buf (s.src + 4 * k) r g b al →
          (tp = 1#2 → al = 0#8 → colourAt t.buf (s.dst + 2 * k) = 0#16)
          ∧ (tp = 2#2 → al = 0#8 → colourAt t.buf (s.dst + 2 * k) = s.comp.mask)
          ∧ (tp = 0#2 ∨ al ≠ 0#8 → (colourAt t.buf (s.dst + 2 * k)).toNat
              = r.toNat / 8 * 2048 + g.toNat / 4 * 32 + b.toNat / 8))

/-- R158, R157, R125, R126: L1DEC on a source that starts with the header and the rows of an image. Range when the pixel
buffer does not fit; else pixel `(x, y)` is the colour the rows place there, or 0, at the declared width or, with EXT,
the true extent. An empty image writes nothing. -/
def Obligations.L1decDecodes : Prop :=
  ∀ (ext : Bool) (s : State) (xo yo w h : Byte) (body : List Byte), s.source = xo :: yo :: w :: h :: body →
    (w = 0#8 ∨ h = 0#8 →
      endsAs (.l1dec ext) s (s.windowChecks (.l1dec ext))
        (fun t => s.completes t (h ++ w ++ yo ++ xo) 0 0 4 false ∧ s.keptCodec t ∧ sameBytes s.buf t.buf))
    ∧ (w ≠ 0#8 → h ≠ 0#8 → ∀ rs rest, rowsAre h.toNat body rs rest →
      let places := rowsPlaces 0 0 rs
      let ow := if ext then max w.toNat (extentOf places) else w.toNat
      endsAs (.l1dec ext) s (s.windowChecks (.l1dec ext) ++ [(s.dlen < 2 * ow * h.toNat, 7#8)])
        (fun t => s.completes t (h ++ w ++ yo ++ xo) (BitVec.ofNat 32 ow) (h.setWidth 32)
            (BitVec.ofNat 32 (4 + (rowsBytes rs).length)) false
          ∧ s.keptCodec t ∧ sameOutside s.buf t.buf s.dst (2 * ow * h.toNat)
          ∧ ∀ x y, x < ow → y < h.toNat → colourAt t.buf (s.dst + 2 * (y * ow + x)) = placedAt places 0#16 x y))

/-- R157 to R159, R202: L1DEC, L1EXT and TILEDEC on a stream that ends early, that is with no header or with no whole
rows behind it, end with TruncatedInput once the windows are right. -/
def Obligations.ShortStreamsTruncated : Prop :=
  ∀ (i : Instr) (s : State), (∃ b, i = .l1dec b) ∨ i = .l1ext ∨ (∃ b, i = .tiledec b) → s.windowsOk i →
    (s.slen < 4 → failsWith i s 1#8)
    ∧ (∀ b0 b1 b2 b3 body, s.source = b0 :: b1 :: b2 :: b3 :: body → (∀ rs rest, ¬ rowsAre b3.toNat body rs rest) →
        (∃ b, i = .tiledec b) ∨ (b2 ≠ 0#8 ∧ b3 ≠ 0#8) → failsWith i s 1#8)

/-- R159: L1EXT gives the extent and the bytes consumed and writes nothing. -/
def Obligations.L1extMeasures : Prop :=
  ∀ (s : State) (xo yo w h : Byte) (body : List Byte), s.source = xo :: yo :: w :: h :: body →
    (w = 0#8 ∨ h = 0#8 →
      endsAs .l1ext s (s.windowChecks .l1ext)
        (fun t => s.completes t (h ++ w ++ yo ++ xo) 0 0 4 false ∧ s.keptCodec t ∧ sameBytes s.buf t.buf))
    ∧ (w ≠ 0#8 → h ≠ 0#8 → ∀ rs rest, rowsAre h.toNat body rs rest →
      endsAs .l1ext s (s.windowChecks .l1ext)
        (fun t => s.completes t (h ++ w ++ yo ++ xo) (BitVec.ofNat 32 (max w.toNat (extentOf (rowsPlaces 0 0 rs))))
            (h.setWidth 32) (BitVec.ofNat 32 (4 + (rowsBytes rs).length)) false
          ∧ s.keptCodec t ∧ sameBytes s.buf t.buf))

/-- R161, R160: L1ENC. TruncatedInput for a source shorter than `2wh`, Range for a stream that does not fit; else the
header bytes of ARG0 and every row of the pixel buffer as the loop of R160 encodes it. -/
def Obligations.L1encEncodes : Prop :=
  encode (.l1enc false) = 0x16#32 ∧ encode (.l1enc true) = 0x116#32 ∧
  ∀ (tm : Bool) (s : State),
    let w := s.ops.byte2.toNat
    let h := s.ops.byte3.toNat
    let out := s.l1Code (if tm then s.comp.mask else 0#16) w h
    endsAs (.l1enc tm) s
      (s.windowChecks (.l1enc tm) ++ [(w ≠ 0 ∧ h ≠ 0 ∧ s.slen < 2 * w * h, 1#8), (s.dlen < out.length, 7#8)])
      (fun t => s.completes t s.ops.arg0 (BitVec.ofNat 32 w) (BitVec.ofNat 32 h) (BitVec.ofNat 32 out.length) false
        ∧ s.keptCodec t ∧ sameOutside s.buf t.buf s.dst out.length ∧ holdsAt t.buf s.dst out)

/-- R160: EncodeRow as the model computes it is the loop of the rule: it gives the bytes of the loop's segments when there
are at most 255 of them, and Range when there are more. -/
def Obligations.EncodeRowFollowsLoop : Prop :=
  ∀ (p : List Colour) (xs : Nat) (t : Colour),
    encodeRow p xs t
      = if (rowSegments p xs t).length ≤ 255 then .ok (Row.bytes (rowSegments p xs t)) else .error .range

/-! ## The compositor -/

/-- R201, R200, R116: ISOXY gives the diamond transform of `a = s8(ARG3[7:0])`, `b = s8(ARG3[15:8])`. -/
def Obligations.IsoxyTransforms : Prop :=
  encode .isoxy = 0x20#32 ∧
  ∀ (s : State) (px py : Int),
    isoIs s.cfg.isoNegA (s.ops.arg3.extractLsb' 0 8).toInt (s.ops.arg3.extractLsb' 8 8).toInt px py →
    ∃ t, exec .isoxy s = .next t ∧ s.completes t (BitVec.ofInt 32 px) (BitVec.ofInt 32 py) 0 0 false ∧ s.keptCodec t
      ∧ sameBytes s.buf t.buf

/-- R215, R200: the geometry of the diamond grid in FLOOR mode, and its range over i8 coordinates in both modes. -/
def Obligations.IsoGeometry : Prop :=
  ∀ a b : Int,
    iso .floor a (b + 1) = ((iso .floor a b).1 + 24, (iso .floor a b).2 + 12)
    ∧ iso .floor (a + 2) b = ((iso .floor a b).1 + 24, (iso .floor a b).2 - 12)
    ∧ (a % 2 = 0 → iso .floor (a + 1) b = ((iso .floor a b).1 + 24, (iso .floor a b).2))
    ∧ (a % 2 = 1 → iso .floor (a + 1) b = ((iso .floor a b).1, (iso .floor a b).2 - 12))
    ∧ iso .floor 0 0 = (0, 0)
    ∧ (0 ≤ a → iso .decrementAll a b = iso .floor a b)
    ∧ (a < 0 → iso .decrementAll a b = ((iso .floor a b).1 - 24, (iso .floor a b).2))
    ∧ (-128 ≤ a → a ≤ 127 → -128 ≤ b → b ≤ 127 →
        -4608 ≤ (iso .floor a b).1 ∧ (iso .floor a b).1 ≤ 4584 ∧ -2292 ≤ (iso .floor a b).2 ∧ (iso .floor a b).2 ≤ 2292)

/-- R203, R55, R130: PALSCAN on a palette of `n` colours. TruncatedInput for a short palette; else the candidates in the
palette leave SET, and the first one left becomes the mask when none was fixed. -/
def Obligations.PalscanScans : Prop :=
  encode .palscan = 0x21#32 ∧
  ∀ s : State,
    (s.windowsOk .palscan → s.slen = 0 → failsWith .palscan s 1#8)
    ∧ ∀ n, 1 ≤ n → n ≤ 256 → Memory.byteAt s.buf s.src = BitVec.ofNat 8 n → 1 ≤ s.slen →
      endsAs .palscan s (s.windowChecks .palscan ++ [(s.slen < 1 + 2 * n, 1#8)])
        (fun t => s.completes t (BitVec.ofNat 32 n) (t.comp.set.setWidth 32) (t.comp.mask.setWidth 32)
            (BitVec.ofNat 32 (1 + 2 * n)) false
          ∧ t.rkey = s.rkey ∧ sameBytes s.buf t.buf
          ∧ refined s.comp.set t.comp.set (fun v => ∃ k, k < n ∧ colourAt s.buf (s.src + 1 + 2 * k) = v)
          ∧ (s.comp.fixed = true ∨ t.comp.set = 0#7 → t.comp.mask = s.comp.mask ∧ t.comp.fixed = s.comp.fixed)
          ∧ (s.comp.fixed = false → t.comp.set ≠ 0#7 → isFirst t.comp.set t.comp.mask ∧ t.comp.fixed = true))

/-- R205, R202, R127: TILEDEC on a source that starts with a tile stream: every colour of the stream leaves SET; without
SCAN, Range for a destination under 1152 bytes, else the 24x24 tile, filled with MASK where the stream places nothing;
with SCAN nothing is written. -/
def Obligations.TiledecDecodes : Prop :=
  ∀ (s : State) (x0 y0 u nr : Byte) (body : List Byte) (rs : List Row) (rest : List Byte),
    s.source = x0 :: y0 :: u :: nr :: body → rowsAre nr.toNat body rs rest →
    let places := rowsPlaces x0.toNat 0 rs
    let common := fun t : State => s.completes t (nr ++ u ++ y0 ++ x0) (t.comp.set.setWidth 32) 0
        (BitVec.ofNat 32 (4 + (rowsBytes rs).length)) false
      ∧ t.rkey = s.rkey ∧ t.comp.mask = s.comp.mask ∧ t.comp.fixed = s.comp.fixed
      ∧ refined s.comp.set t.comp.set (fun v => ∃ p ∈ places, p.c = v)
    endsAs (.tiledec true) s (s.windowChecks (.tiledec true)) (fun t => common t ∧ sameBytes s.buf t.buf)
    ∧ endsAs (.tiledec false) s (s.windowChecks (.tiledec false) ++ [(s.dlen < 1152, 7#8)])
        (fun t => common t ∧ sameOutside s.buf t.buf s.dst 1152
          ∧ ∀ x y, x < 24 → y < 24 → tileAt t.buf s.dst x y
              = if y0.toNat ≤ y then placedAt places s.comp.mask x (y - y0.toNat) else s.comp.mask)

/-- R206, R160: TILEENC. TruncatedInput for a source under 1152 bytes, Range for a stream that does not fit; else a tile
of mask pixels only gives the four header bytes, and any other tile the smallest box that holds its other pixels as the
header, its rows following as the loop of R160 encodes them. -/
def Obligations.TileencEncodes : Prop :=
  encode .tileenc = 0x23#32 ∧
  ∀ (s : State) (out : List Byte),
    ((∀ x y, x < 24 → y < 24 → tileAt s.buf s.src x y = s.comp.mask) ∧ out = [0#8, 0#8, s.ops.byte0, 0#8]
      ∨ ∃ x0 y0 y1, x0 < 24 ∧ y0 ≤ y1 ∧ y1 < 24
        ∧ (∀ x y, x < 24 → y < 24 → tileAt s.buf s.src x y ≠ s.comp.mask → x0 ≤ x ∧ y0 ≤ y ∧ y ≤ y1)
        ∧ (∃ y, y < 24 ∧ tileAt s.buf s.src x0 y ≠ s.comp.mask)
        ∧ (∃ x, x < 24 ∧ tileAt s.buf s.src x y0 ≠ s.comp.mask)
        ∧ (∃ x, x < 24 ∧ tileAt s.buf s.src x y1 ≠ s.comp.mask)
        ∧ out = [BitVec.ofNat 8 x0, BitVec.ofNat 8 y0, s.ops.byte0, BitVec.ofNat 8 (y1 - y0 + 1)]
            ++ rowsBytes ((List.range (y1 - y0 + 1)).map (fun k =>
                rowSegments (s.sourceRow 24 (y0 + k)) x0 s.comp.mask))) →
    endsAs .tileenc s (s.windowChecks .tileenc ++ [(s.slen < 1152, 1#8), (s.dlen < out.length, 7#8)])
      (fun t => s.completes t (BitVec.ofNat 32 (leValue (out.take 4))) 0 0 (BitVec.ofNat 32 out.length) false
        ∧ s.keptCodec t ∧ sameOutside s.buf t.buf s.dst out.length ∧ holdsAt t.buf s.dst out)

/-- R207, R332: MASKFIN keeps a fixed mask, else fixes the first unused candidate, else the fallback with the warning. -/
def Obligations.MaskfinFinalises : Prop :=
  encode .maskfin = 0x24#32 ∧
  ∀ s : State,
    (s.comp.fixed = true → ∃ t, exec .maskfin s = .next t
      ∧ s.completes t (s.comp.mask.setWidth 32) 0 0 0 false ∧ s.keptCodec t ∧ sameBytes s.buf t.buf)
    ∧ (s.comp.fixed = false → ∀ m, isFirst s.comp.set m → ∃ t, exec .maskfin s = .next t
      ∧ s.completes t (m.setWidth 32) 0 0 0 false ∧ t.comp = ⟨m, s.comp.set, true⟩ ∧ t.rkey = s.rkey
      ∧ sameBytes s.buf t.buf)
    ∧ (s.comp.fixed = false → s.comp.set = 0#7 → ∃ t, exec .maskfin s = .next t
      ∧ s.completes t (s.cfg.maskFallback.setWidth 32) 1 0 0 true ∧ t.comp = ⟨s.cfg.maskFallback, 0#7, true⟩
      ∧ t.rkey = s.rkey ∧ sameBytes s.buf t.buf)

/-- R208: CANVAS. Range for a width or height outside 1..65536 or a short destination; else `stride * height` colours
MASK, the width rounded up to even being the stride. -/
def Obligations.CanvasFills : Prop :=
  encode .canvas = 0x25#32 ∧
  ∀ s : State,
    let w := s.ops.arg1.toNat
    let h := s.ops.arg2.toNat
    let size := 2 * (w + w % 2) * h
    endsAs .canvas s (s.windowChecks .canvas ++ [(w < 1 ∨ 65536 < w ∨ h < 1 ∨ 65536 < h, 7#8), (s.dlen < size, 7#8)])
      (fun t => s.completes t (BitVec.ofNat 32 (w + w % 2)) (BitVec.ofNat 32 h) 0 (BitVec.ofNat 32 size) false
        ∧ s.keptCodec t ∧ sameOutside s.buf t.buf s.dst size
        ∧ ∀ k, k < (w + w % 2) * h → colourAt t.buf (s.dst + 2 * k) = s.comp.mask)

/-- R210, R209, R116: BLIT. Range for a bad width or height, then TruncatedInput for a short tile, then Range for a canvas
that does not fit; else a canvas pixel covered by a tile pixel that is not a mask pixel takes it, every other canvas
pixel keeps its value, and RES0 counts the pixels placed. -/
def Obligations.BlitPlaces : Prop :=
  encode .blit = 0x26#32 ∧
  ∀ (s : State) (px py : Int),
    isoIs s.cfg.isoNegA (s.ops.arg3.extractLsb' 0 8).toInt (s.ops.arg3.extractLsb' 8 8).toInt px py →
    let w := s.ops.arg1.toNat
    let h := s.ops.arg2.toNat
    let x1 := (s.ops.arg0.extractLsb' 0 16).toInt
    let y1 := (s.ops.arg0.extractLsb' 16 16).toInt
    let stride := w + w % 2
    let tile := tileAt s.buf s.src
    let placed := fun k : Nat => decide (tile (k % 24) (k / 24) ≠ s.comp.mask
      ∧ x1 ≤ px + (k % 24 : Nat) ∧ px + (k % 24 : Nat) < x1 + w ∧ y1 ≤ py + (k / 24 : Nat) ∧ py + (k / 24 : Nat) < y1 + h)
    endsAs .blit s
      (s.windowChecks .blit ++ [(w < 1 ∨ 65536 < w ∨ h < 1 ∨ 65536 < h, 7#8), (s.slen < 1152, 1#8),
        (s.dlen < 2 * stride * h, 7#8)])
      (fun t => s.completes t (BitVec.ofNat 32 ((List.range 576).countP placed)) (BitVec.ofInt 32 px)
          (BitVec.ofInt 32 py) 0 false
        ∧ s.keptCodec t ∧ sameOutside s.buf t.buf s.dst (2 * stride * h)
        ∧ ∀ x y, x < stride → y < h → colourAt t.buf (s.dst + 2 * (y * stride + x))
            = (coveredBy tile s.comp.mask x1 y1 w px py x y).getD (colourAt s.buf (s.dst + 2 * (y * stride + x))))

/-- R214, R209: of two BLITs into one canvas, from two tile buffers and with two block positions, the later one wins where
both place a pixel; where only the earlier does, its pixel stays. The host writes SRC and ARG3 between them. -/
def Obligations.LaterBlitWins : Prop :=
  ∀ (s t u : State) (src2 arg3 : Word),
    exec .blit s = .next t → t.errcode = 0#8 →
    exec .blit { t with ops := { t.ops with src := src2, arg3 := arg3 } } = .next u → u.errcode = 0#8 →
    let w := s.ops.arg1.toNat
    let stride := w + w % 2
    let x1 := (s.ops.arg0.extractLsb' 0 16).toInt
    let y1 := (s.ops.arg0.extractLsb' 16 16).toInt
    let first := coveredBy (tileAt s.buf s.src) s.comp.mask x1 y1 w s.isoArgs.1 s.isoArgs.2
    let second := coveredBy (tileAt t.buf src2.toNat) s.comp.mask x1 y1 w
      (iso s.cfg.isoNegA (arg3.extractLsb' 0 8).toInt (arg3.extractLsb' 8 8).toInt).1
      (iso s.cfg.isoNegA (arg3.extractLsb' 0 8).toInt (arg3.extractLsb' 8 8).toInt).2
    ∀ x y, x < stride → y < s.ops.arg2.toNat →
      (∀ c, second x y = some c → colourAt u.buf (s.dst + 2 * (y * stride + x)) = c)
      ∧ (∀ c, second x y = none → first x y = some c → colourAt u.buf (s.dst + 2 * (y * stride + x)) = c)

/-- R211, R128, R202: SpriteParse reads a well-formed container: its frames, its tiles, the candidates that neither the
palette nor a tile uses, and the mask: fixed at the palette when a candidate remains, else the first that remains after
the tiles, else the fallback, which is then reported. And it refuses a container that ends early, a frame with blocks and
a non-positive extent, a negative tile count, a `block_id` not below the tile count and a tile offset outside the
container, each with its error, whatever follows the fault. -/
def Obligations.SpriteParseReadsContainer : Prop :=
  (∀ (fallback : Colour) (b : List Byte) (e : ErrCode), ContainerRefused b e → spriteParse fallback b = .error e) ∧
  ∀ (c : Container) (fallback : Colour) (b : List Byte), c.legal → c.spelledBy b →
    (∀ t ∈ c.tiles, c.head.length + t.1 < b.length) →
    ∃ p, spriteParse fallback b = .ok p ∧ p.frames = c.frames ∧ p.pal = c.palette.isSome
      ∧ p.palCount = (c.palette.map List.length).getD 0
      ∧ p.tiles.map (fun t => (t.x0, t.y0, t.unused, t.nrows.toNat, t.places))
          = c.tiles.map (fun t => (t.2.x0, t.2.y0, t.2.unused, t.2.rows.length, t.2.places))
      ∧ refined 0x7F#7 p.set (fun v => (∃ l, c.palette = some l ∧ v ∈ l) ∨ c.tileColour v)
      ∧ (∀ l m first, c.palette = some l → refined 0x7F#7 first (fun v => v ∈ l) → isFirst first m →
          p.mask = m ∧ p.exhausted = false)
      ∧ ((∀ l first, c.palette = some l → refined 0x7F#7 first (fun v => v ∈ l) → first = 0#7) →
          (∀ m, isFirst p.set m → p.mask = m ∧ p.exhausted = false)
          ∧ (p.set = 0#7 → p.mask = fallback ∧ p.exhausted = true))

/-- R212, R131, R132, R133: SPRDEC with what SpriteParse gives (`SpriteParseReadsContainer` says what that is, and which
containers are refused with which error). Its error, or Range for an output that does not fit; else the header, one record
for each frame, and for each frame with blocks the canvas in which each pixel is that of the last block that places one,
else the mask; MASK, SET and FIXED; the warning when the candidates are exhausted. -/
def Obligations.SprdecComposes : Prop :=
  ∀ s : State,
    (∀ e, spriteParse s.cfg.maskFallback s.source = .error e → s.windowsOk .sprdec → failsWith .sprdec s e.code)
    ∧ ∀ p, spriteParse s.cfg.maskFallback s.source = .ok p →
      let total := p.canvasOffset p.frames.length
      endsAs .sprdec s (s.windowChecks .sprdec ++ [(s.dlen < total, 7#8)])
        (fun t => s.completes t (BitVec.ofNat 32 p.frames.length) (BitVec.ofNat 32 p.tiles.length) (p.mask.setWidth 32)
            (BitVec.ofNat 32 total) p.exhausted
          ∧ t.comp = ⟨p.mask, p.set, true⟩ ∧ t.rkey = s.rkey ∧ sameOutside s.buf t.buf s.dst total
          ∧ colourAt t.buf s.dst = BitVec.ofNat 16 p.frames.length ∧ colourAt t.buf (s.dst + 2) = p.mask
          ∧ (colourAt t.buf (s.dst + 4)).toNat = p.pal.toNat + 2 * p.exhausted.toNat
          ∧ colourAt t.buf (s.dst + 6) = BitVec.ofNat 16 p.palCount
          ∧ wordAt t.buf (s.dst + 8) = BitVec.ofNat 32 p.tiles.length
          ∧ wordAt t.buf (s.dst + 12) = BitVec.ofNat 32 total
          ∧ ∀ k f, p.frames[k]? = some f → recordAt t.buf (s.dst + 16 + 32 * k) (p.canvasOffset k) f
            ∧ (f.blocks ≠ [] → ∀ x y, x < strideOf f.width.toNat → y < f.height.toNat →
                colourAt t.buf (s.dst + p.canvasOffset k + 2 * (y * strideOf f.width.toNat + x))
                  = p.pixelAt s.cfg.isoNegA f x y))

/-- R213: the step-by-step route settles the same mask. On a container that SPRDEC decodes without error, CANDRST, PALSCAN
on the palette body when there is one, TILEDEC with SCAN on each tile in table order, and MASKFIN end with SPRDEC's MASK
and CAND, MASKFIN ends without error, and it warns exactly when SPRDEC does. The canvases are no part of it. -/
def Obligations.MaskRoutesAgree : Prop :=
  ∀ (s t : State) (starts : List Nat), exec .sprdec s = .next t → t.errcode = 0#8 → tileStarts s.source = .ok starts →
    let fresh := runCommand .candrst s
    let scanned := if s.source.head? = some 0xFF#8 then runCommand .palscan (fresh.window (s.src + 1) (s.slen - 1) 0 0)
      else fresh
    let tiled := starts.foldl (fun v o => runCommand (.tiledec true) (v.window (s.src + o) (s.slen - o) 0 0)) scanned
    let final := runCommand .maskfin tiled
    final.comp = t.comp ∧ final.status.warn = t.status.warn ∧ final.status.err = false

/-! ## The block cipher -/

/-- R263, R264: DECBLK and ENCBLK. TruncatedInput under 16 source bytes, Range under 16 destination bytes; else one step
of the chain: DECBLK writes the inverse transform of the block XOR the rolling key, which becomes the ciphertext;
ENCBLK writes the transform of the block XOR the rolling key, which becomes that output. -/
def Obligations.ChainBlocks : Prop :=
  encode .decblk = 0x30#32 ∧ encode .encblk = 0x31#32 ∧
  ∀ s : State,
    endsAs .decblk s (s.windowChecks .decblk ++ [(s.slen < 16, 1#8), (s.dlen < 16, 7#8)])
      (fun t => s.completes t 0 0 0 16 false ∧ t.comp = s.comp ∧ sameOutside s.buf t.buf s.dst 16
        ∧ blockAt t.buf s.dst = s.decCore (blockAt s.buf s.src) ^^^ s.rkey.block
        ∧ t.rkey.block = blockAt s.buf s.src)
    ∧ endsAs .encblk s (s.windowChecks .encblk ++ [(s.slen < 16, 1#8), (s.dlen < 16, 7#8)])
      (fun t => s.completes t 0 0 0 16 false ∧ t.comp = s.comp ∧ sameOutside s.buf t.buf s.dst 16
        ∧ blockAt t.buf s.dst = s.encCore (blockAt s.buf s.src ^^^ s.rkey.block)
        ∧ t.rkey.block = s.encCore (blockAt s.buf s.src ^^^ s.rkey.block))

/-- R265: XORTAIL. Range for more than 15 bytes or a short destination; else byte `i` XOR byte `i` of the rolling key,
which does not change. -/
def Obligations.XortailXors : Prop :=
  encode .xortail = 0x32#32 ∧
  ∀ s : State,
    endsAs .xortail s (s.windowChecks .xortail ++ [(15 < s.slen, 7#8), (s.dlen < s.slen, 7#8)])
      (fun t => s.completes t 0 0 0 s.ops.slen false ∧ s.keptCodec t ∧ sameOutside s.buf t.buf s.dst s.slen
        ∧ ∀ k, k < s.slen →
          Memory.byteAt t.buf (s.dst + k) = Memory.byteAt s.buf (s.src + k) ^^^ blockByte s.rkey.block k)

/-- R266, R267, R272 law 5: DECPAY and ENCPAY. TruncatedInput under 4 bytes, CipherMarkerMismatch for the wrong marker,
Range for a short destination; else the marker rewritten, bytes 1 to 3 copied, every full block chained from SEED, the
tail XORed with the final rolling key, which RKEY then holds. -/
def Obligations.PayloadChains : Prop :=
  encode .decpay = 0x33#32 ∧ encode .encpay = 0x34#32 ∧
  ∀ s : State,
    let nb := (s.slen - 4) / 16
    let m := (s.slen - 4) % 16
    let head := fun t : State => ∀ k, 1 ≤ k → k < 4 → Memory.byteAt t.buf (s.dst + k) = Memory.byteAt s.buf (s.src + k)
    let tail := fun (t : State) (key : Block) => ∀ k, k < m → Memory.byteAt t.buf (s.dst + 4 + 16 * nb + k)
      = Memory.byteAt s.buf (s.src + 4 + 16 * nb + k) ^^^ blockByte key k
    endsAs .decpay s (s.windowChecks .decpay ++ [(s.slen < 4, 1#8), (Memory.byteAt s.buf s.src ≠ 0x58#8, 5#8),
        (s.dlen < s.slen, 7#8)])
      (fun t => s.completes t (BitVec.ofNat 32 nb) (BitVec.ofNat 32 m) 0 s.ops.slen false ∧ t.comp = s.comp
        ∧ t.rkey.block = s.decKey nb ∧ sameOutside s.buf t.buf s.dst s.slen
        ∧ Memory.byteAt t.buf s.dst = 0x3C#8 ∧ head t ∧ tail t (s.decKey nb)
        ∧ ∀ j, j < nb → blockAt t.buf (s.dst + 4 + 16 * j) = s.decCore (s.payloadBlock j) ^^^ s.decKey j)
    ∧ endsAs .encpay s (s.windowChecks .encpay ++ [(s.slen < 4, 1#8), (Memory.byteAt s.buf s.src ≠ 0x3C#8, 5#8),
        (s.dlen < s.slen, 7#8)])
      (fun t => s.completes t (BitVec.ofNat 32 nb) (BitVec.ofNat 32 m) 0 s.ops.slen false ∧ t.comp = s.comp
        ∧ t.rkey.block = s.encKey nb ∧ sameOutside s.buf t.buf s.dst s.slen
        ∧ Memory.byteAt t.buf s.dst = 0x58#8 ∧ head t ∧ tail t (s.encKey nb)
        ∧ ∀ j, j < nb → blockAt t.buf (s.dst + 4 + 16 * j) = s.encCore (s.payloadBlock j ^^^ s.encKey j))

/-- R268: MARK gives the class of byte 0 and the byte. -/
def Obligations.MarkClassifies : Prop :=
  encode .mark = 0x35#32 ∧
  ∀ s : State,
    endsAs .mark s (s.windowChecks .mark ++ [(s.slen = 0, 1#8)])
      (fun t => s.completes t
          (if Memory.byteAt s.buf s.src = 0x58#8 then 1 else if Memory.byteAt s.buf s.src = 0x3C#8 then 2 else 0)
          ((Memory.byteAt s.buf s.src).setWidth 32) 0 0 false
        ∧ s.keptCodec t ∧ sameBytes s.buf t.buf)

/-- R262, R269, R270: COREENC and COREDEC apply the bare transform under the round keys of KEY, and the rolling key does
not change; each transform undoes the other. -/
def Obligations.CoreTransforms : Prop :=
  encode .coreenc = 0x36#32 ∧ encode .coredec = 0x37#32 ∧
  ∀ s : State,
    (∀ x, s.decCore (s.encCore x) = x ∧ s.encCore (s.decCore x) = x)
    ∧ endsAs .coreenc s (s.windowChecks .coreenc ++ [(s.slen < 16, 1#8), (s.dlen < 16, 7#8)])
      (fun t => s.completes t 0 0 0 16 false ∧ s.keptCodec t ∧ sameOutside s.buf t.buf s.dst 16
        ∧ blockAt t.buf s.dst = s.encCore (blockAt s.buf s.src))
    ∧ endsAs .coredec s (s.windowChecks .coredec ++ [(s.slen < 16, 1#8), (s.dlen < 16, 7#8)])
      (fun t => s.completes t 0 0 0 16 false ∧ s.keptCodec t ∧ sameOutside s.buf t.buf s.dst 16
        ∧ blockAt t.buf s.dst = s.decCore (blockAt s.buf s.src))

/-- R271, R134: KEYDUMP. Range under 176 destination bytes; else round key `r` at destination offset `16r`. -/
def Obligations.KeydumpWrites : Prop :=
  encode .keydump = 0x38#32 ∧
  ∀ s : State,
    endsAs .keydump s (s.windowChecks .keydump ++ [(s.dlen < 176, 7#8)])
      (fun t => s.completes t 11 0 0 176 false ∧ s.keptCodec t ∧ sameOutside s.buf t.buf s.dst 176
        ∧ ∀ r x, s.roundKeys[r]? = some x → blockAt t.buf (s.dst + 16 * r) = x)

/-! ## Round trips -/

/-- R162 law 1: packing what was converted gives the colours back, bit 15 of RGB555 apart. The host sets the windows of
the second command. -/
def Obligations.PixelRoundTrip : Prop :=
  ∀ (s t u v w : State) (d2 l2 : Nat), d2 + l2 ≤ s.cfg.bufSize →
    (exec (.cvt555 0#2) s = .next t → t.errcode = 0#8 →
      exec (.pack555 0#2) (t.window s.dst (4 * (s.slen / 2)) d2 l2) = .next u → u.errcode = 0#8 →
      ∀ k, k < s.slen / 2 → colourAt u.buf (d2 + 2 * k) = colourAt s.buf (s.src + 2 * k) &&& 0x7FFF#16)
    ∧ (exec (.cvt565 0#2) s = .next v → v.errcode = 0#8 →
      exec (.pack565 0#2) (v.window s.dst (4 * (s.slen / 2)) d2 l2) = .next w → w.errcode = 0#8 →
      ∀ k, k < s.slen / 2 → colourAt w.buf (d2 + 2 * k) = colourAt s.buf (s.src + 2 * k))

/-- R162 law 2: L1DEC gives back, pixel for pixel and with the same header word, the image that L1ENC encoded with
TM = 0; with room for it, it cannot fail. -/
def Obligations.L1RoundTrip : Prop :=
  ∀ (s t : State) (d2 l2 : Nat),
    let w := s.ops.byte2.toNat
    let h := s.ops.byte3.toNat
    1 ≤ w → 1 ≤ h → exec (.l1enc false) s = .next t → t.errcode = 0#8 →
    2 * w * h ≤ l2 → d2 + l2 ≤ s.cfg.bufSize → s.dst + t.res.w3.toNat ≤ d2 ∨ d2 + l2 ≤ s.dst →
    ∃ u, exec (.l1dec false) (t.window s.dst t.res.w3.toNat d2 l2) = .next u ∧ u.errcode = 0#8 ∧ u.res.w0 = s.ops.arg0
      ∧ ∀ x y, x < w → y < h →
        colourAt u.buf (d2 + 2 * (y * w + x)) = colourAt s.buf (s.src + 2 * (y * w + x))

/-- R215: TILEDEC gives back the tile that TILEENC encoded under the same MASK, and its stream ends where RES3 says. -/
def Obligations.TileRoundTrip : Prop :=
  ∀ (s t : State) (d2 l2 : Nat),
    exec .tileenc s = .next t → t.errcode = 0#8 →
    1152 ≤ l2 → d2 + l2 ≤ s.cfg.bufSize → s.dst + t.res.w3.toNat ≤ d2 ∨ d2 + l2 ≤ s.dst →
    ∃ u, exec (.tiledec false) (t.window s.dst t.res.w3.toNat d2 l2) = .next u ∧ u.errcode = 0#8
      ∧ u.res.w3 = t.res.w3 ∧ u.res.w0 = t.res.w0
      ∧ ∀ x y, x < 24 → y < 24 → tileAt u.buf d2 x y = tileAt s.buf s.src x y

/-- R272 law 2: DECPAY of ENCPAY's output is the payload, and ENCPAY of DECPAY's output is the payload, tail and marker
included. -/
def Obligations.PayloadRoundTrip : Prop :=
  ∀ (s t : State) (d2 l2 : Nat),
    t.errcode = 0#8 → s.slen ≤ l2 → d2 + l2 ≤ s.cfg.bufSize → s.dst + s.slen ≤ d2 ∨ d2 + l2 ≤ s.dst →
    (exec .encpay s = .next t →
      ∃ u, exec .decpay (t.window s.dst s.slen d2 l2) = .next u ∧ u.errcode = 0#8
        ∧ ∀ k, k < s.slen → Memory.byteAt u.buf (d2 + k) = Memory.byteAt s.buf (s.src + k))
    ∧ (exec .decpay s = .next t →
      ∃ u, exec .encpay (t.window s.dst s.slen d2 l2) = .next u ∧ u.errcode = 0#8
        ∧ ∀ k, k < s.slen → Memory.byteAt u.buf (d2 + k) = Memory.byteAt s.buf (s.src + k))

/-- R272 law 3: DECPAY equals SEED, DECBLK on each full block in order and XORTAIL on the tail, and ENCPAY the same with
ENCBLK: the body's bytes and RKEY are equal, in place or not. -/
def Obligations.PayloadDecomposes : Prop :=
  ∀ (i j : Instr) (s t : State), (i = .decpay ∧ j = .decblk) ∨ (i = .encpay ∧ j = .encblk) →
    exec i s = .next t → t.errcode = 0#8 →
    let nb := (s.slen - 4) / 16
    let blocks := runBlocks j s.src s.dst (runCommand .seed s) nb
    let last := runCommand .xortail
      (blocks.window (s.src + 4 + 16 * nb) ((s.slen - 4) % 16) (s.dst + 4 + 16 * nb) ((s.slen - 4) % 16))
    last.rkey = t.rkey ∧ last.errcode = 0#8
      ∧ ∀ k, 4 ≤ k → k < s.slen → Memory.byteAt last.buf (s.dst + k) = Memory.byteAt t.buf (s.dst + k)
end

