-- ==== Sys2Proof/Laws/Bits.lean ====
section
/-! SUPPORT. Lemmas about byte order and packing (Machine/Bits.lean). -/

namespace Sys2Proof.Machine

@[simp] theorem leBytes_length {k : Nat} (n : Nat) (v : BitVec k) : (leBytes n v).length = n := by
  induction n generalizing v with
  | zero => rfl
  | succ n ih => simp [leBytes, ih]

theorem leBytes_getElem? {k : Nat} (n : Nat) (v : BitVec k) (i : Nat) (h : i < n) :
    (leBytes n v)[i]? = some ((v >>> (8 * i)).setWidth 8) := by
  induction n generalizing v i with
  | zero => omega
  | succ n ih =>
    cases i with
    | zero => simp [leBytes]
    | succ i =>
      have := ih (v >>> 8) i (by omega)
      simp only [leBytes, List.getElem?_cons_succ, this]
      rw [← BitVec.shiftRight_add]
      congr 3
      omega

@[simp] theorem colourBytes_length (c : Colour) : (colourBytes c).length = 2 := leBytes_length 2 c

theorem colourBytes_eq (c : Colour) : colourBytes c = [c.extractLsb' 0 8, c.extractLsb' 8 8] := by
  simp [colourBytes, leBytes]
  constructor <;> (ext i; simp_all)

@[simp] theorem pixelBytes_nil : pixelBytes [] = [] := rfl

@[simp] theorem pixelBytes_cons (c : Colour) (cs : List Colour) :
    pixelBytes (c :: cs) = c.extractLsb' 0 8 :: c.extractLsb' 8 8 :: pixelBytes cs := by
  simp [pixelBytes, colourBytes_eq]

@[simp] theorem pixelBytes_append (l₁ l₂ : List Colour) : pixelBytes (l₁ ++ l₂) = pixelBytes l₁ ++ pixelBytes l₂ := by
  simp [pixelBytes]

@[simp] theorem pixelBytes_length (cs : List Colour) : (pixelBytes cs).length = 2 * cs.length := by
  induction cs with
  | nil => rfl
  | cons c cs ih => simp [ih]; omega

/-- A colour is put together from its two bytes. -/
theorem colour_of_bytes (c : Colour) : c.extractLsb' 8 8 ++ c.extractLsb' 0 8 = c := by
  apply BitVec.eq_of_toNat_eq
  have := c.isLt
  rw [BitVec.toNat_append]
  rw [← Nat.shiftLeft_add_eq_or_of_lt (BitVec.isLt _)]
  simp [BitVec.extractLsb'_toNat, Nat.shiftLeft_eq, Nat.shiftRight_eq_div_pow]
  omega

@[simp] theorem bytesColours_pixelBytes (cs : List Colour) : bytesColours (pixelBytes cs) = cs := by
  induction cs with
  | nil => rfl
  | cons c cs ih => rw [pixelBytes_cons, bytesColours, ih, colour_of_bytes]

theorem bytesColours_length (bs : List Byte) : (bytesColours bs).length = bs.length / 2 := by
  induction bs using bytesColours.induct with
  | case1 lo hi rest ih => simp [bytesColours, ih]; omega
  | case2 bs h =>
    match bs, h with
    | [], _ => rfl
    | [_], _ => simp [bytesColours]
    | a :: b :: r, h => exact absurd rfl (h a b r)

/-- The `k`-th colour of a byte list is made of bytes `2k` and `2k + 1`. -/
theorem bytesColours_getElem? (bs : List Byte) (k : Nat) (lo hi : Byte) (h0 : bs[2 * k]? = some lo)
    (h1 : bs[2 * k + 1]? = some hi) : (bytesColours bs)[k]? = some (hi ++ lo) := by
  induction bs using bytesColours.induct generalizing k with
  | case1 a b rest ih =>
    cases k with
    | zero => simp_all [bytesColours]
    | succ k =>
      rw [bytesColours, List.getElem?_cons_succ]
      refine ih k ?_ ?_
      · rw [show 2 * (k + 1) = 2 * k + 1 + 1 by omega] at h0; simpa using h0
      · rw [show 2 * (k + 1) + 1 = 2 * k + 1 + 1 + 1 by omega] at h1; simpa using h1
  | case2 bs h =>
    match bs, h with
    | [], _ => simp at h0
    | [_], _ => simp at h1
    | a :: b :: r, h => exact absurd rfl (h a b r)

/-- The little-endian value of the low bytes of `v` is `v` modulo the bytes taken. -/
theorem leValue_leBytes {k : Nat} (n : Nat) (v : BitVec k) : leValue (leBytes n v) = v.toNat % 2 ^ (8 * n) := by
  induction n generalizing v with
  | zero => simp [leBytes, leValue, Nat.mod_one]
  | succ n ih =>
    simp only [leBytes, leValue, ih, BitVec.toNat_ushiftRight, BitVec.toNat_setWidth, Nat.shiftRight_eq_div_pow]
    rw [show 8 * (n + 1) = 8 + 8 * n by omega, Nat.pow_add, Nat.mod_mul]

@[simp] theorem blockBytes_length (x : Block) : (blockBytes x).length = 16 := leBytes_length 16 x

@[simp] theorem bytesBlock_blockBytes (x : Block) : bytesBlock (blockBytes x) = x := by
  rw [bytesBlock, blockBytes, leValue_leBytes]
  apply BitVec.eq_of_toNat_eq
  rw [BitVec.toNat_ofNat, Nat.mod_mod_of_dvd _ (by decide), Nat.mod_eq_of_lt x.isLt]

theorem leValue_lt (bs : List Byte) : leValue bs < 2 ^ (8 * bs.length) := by
  induction bs with
  | nil => simp [leValue]
  | cons b bs ih =>
    have := b.isLt
    simp only [leValue, List.length_cons, show 8 * (bs.length + 1) = 8 + 8 * bs.length by omega, Nat.pow_add]
    omega

/-- Taking the bytes of the value of bytes gives them back. -/
theorem leBytes_leValue {k : Nat} (bs : List Byte) (n m : Nat) (hn : bs.length = n) (hm : m = leValue bs)
    (hk : 8 * n ≤ k) : leBytes n (BitVec.ofNat k m) = bs := by
  induction bs generalizing n m with
  | nil => subst hn; rfl
  | cons b bs ih =>
    subst hn
    simp only [List.length_cons] at hk ⊢
    have hb := b.isLt
    have hlt := leValue_lt bs
    simp only [leValue] at hm
    have hmk : m < 2 ^ k := by
      calc m < 2 ^ (8 * (bs.length + 1)) := by
              rw [show 8 * (bs.length + 1) = 8 + 8 * bs.length by omega, Nat.pow_add]; omega
        _ ≤ 2 ^ k := Nat.pow_le_pow_right (by omega) hk
    simp only [leBytes]
    congr 1
    · apply BitVec.eq_of_toNat_eq
      simp [Nat.mod_eq_of_lt hmk]
      omega
    · have hsh : (BitVec.ofNat k m) >>> 8 = BitVec.ofNat k (leValue bs) := by
        apply BitVec.eq_of_toNat_eq
        have : leValue bs < 2 ^ k := by omega
        simp [Nat.mod_eq_of_lt hmk, Nat.mod_eq_of_lt this, Nat.shiftRight_eq_div_pow]
        omega
      rw [hsh]
      exact ih bs.length _ rfl rfl (by omega)

/-- The bytes of the block that 16 bytes spell are those bytes. -/
theorem blockBytes_bytesBlock (bs : List Byte) (h : bs.length = 16) : blockBytes (bytesBlock bs) = bs :=
  leBytes_leValue bs 16 _ h rfl (by omega)

/-- Packing a byte vector into four registers and taking it out again (10_state.md R58, R60). -/
@[simp] theorem Quad.block_ofBlock (x : Block) : (Quad.ofBlock x).block = x := by
  simp only [Quad.block, Quad.ofBlock]
  ext i hi
  simp only [BitVec.getElem_append, BitVec.getElem_extractLsb']
  split
  · simp [hi]
  · split
    · simp only [← BitVec.getLsbD_eq_getElem]; congr 1; omega
    · split <;> (simp only [← BitVec.getLsbD_eq_getElem]; congr 1; omega)

/-- Four registers are determined by the byte vector they hold. -/
@[simp] theorem Quad.ofBlock_block (q : Quad) : Quad.ofBlock q.block = q := by
  cases q
  simp only [Quad.block, Quad.ofBlock, Quad.mk.injEq]
  refine ⟨?_, ?_, ?_, ?_⟩ <;>
    (ext i hi
     simp only [BitVec.getElem_extractLsb', BitVec.getLsbD_append]
     repeat (first | (rw [if_pos (by omega)]) | (rw [if_neg (by omega)]))
     rw [BitVec.getLsbD_eq_getElem (by omega)]
     try (congr 1; omega))

end Sys2Proof.Machine
end

