-- ==== Sys2Proof/Laws/Memory.lean ====
section
/-! SUPPORT. The laws of BUF: what a read gives after a write, and that every operation keeps the canonical form. -/

namespace Sys2Proof.Machine

/-! ## Reads after writes -/

theorem Memory.lookup_append (m m' : Memory) (x : Nat) :
    Memory.lookup (m ++ m') x = (Memory.lookup m x).or (Memory.lookup m' x) := by
  induction m with
  | nil => simp [Memory.lookup]
  | cons c m ih =>
    obtain ⟨k, b⟩ := c
    by_cases h : k = x <;> simp [Memory.lookup, h, ih]

theorem Memory.lookup_filter (p : Nat → Bool) (m : Memory) (x : Nat) :
    Memory.lookup (m.filter (fun c => p c.1)) x = if p x then Memory.lookup m x else none := by
  induction m with
  | nil => simp [Memory.lookup]
  | cons c m ih =>
    obtain ⟨k, b⟩ := c
    by_cases hk : p k <;> by_cases h : k = x <;> by_cases hx : p x <;> simp_all [Memory.lookup]

theorem Memory.lookup_cellsFrom (a : Nat) (bs : List Byte) (x : Nat) :
    Memory.lookup (Memory.cellsFrom a bs) x = if a ≤ x then bs[x - a]? else none := by
  induction bs generalizing a with
  | nil => simp [Memory.cellsFrom, Memory.lookup]
  | cons b bs ih =>
    simp only [Memory.cellsFrom, Memory.lookup, ih]
    by_cases h : a = x
    · subst h; simp
    · by_cases h' : a ≤ x
      · have : x - a = (x - (a + 1)) + 1 := by omega
        simp [h, h', show a + 1 ≤ x by omega, this]
      · simp [h, h', show ¬ a + 1 ≤ x by omega]

theorem Memory.lookup_writeBytes (m : Memory) (a : Nat) (bs : List Byte) (x : Nat) :
    Memory.lookup (Memory.writeBytes m a bs) x
      = if a ≤ x ∧ x < a + bs.length then bs[x - a]? else Memory.lookup m x := by
  have h1 := Memory.lookup_filter (fun k => decide (k < a)) m x
  have h2 := Memory.lookup_filter (fun k => decide (a + bs.length ≤ k)) m x
  simp only [Memory.writeBytes, Memory.lookup_append, h1, h2, Memory.lookup_cellsFrom]
  by_cases ha : a ≤ x
  · by_cases hb : x < a + bs.length
    · rw [List.getElem?_eq_getElem (show x - a < bs.length by omega)]
      simp [ha, hb, show ¬ x < a by omega, show ¬ a + bs.length ≤ x by omega]
    · rw [List.getElem?_eq_none (show bs.length ≤ x - a by omega)]
      simp [ha, hb, show ¬ x < a by omega, show a + bs.length ≤ x by omega]
  · simp [ha, show x < a by omega, show ¬ a + bs.length ≤ x by omega]

/-- The whole law of a write: inside, the bytes written; outside, what was there. -/
theorem Memory.byteAt_writeBytes (m : Memory) (a : Nat) (bs : List Byte) (x : Nat) :
    Memory.byteAt (Memory.writeBytes m a bs) x
      = if a ≤ x ∧ x < a + bs.length then bs.getD (x - a) 0#8 else Memory.byteAt m x := by
  simp only [Memory.byteAt, Memory.lookup_writeBytes]
  by_cases h : a ≤ x ∧ x < a + bs.length
  · rw [if_pos h, if_pos h, List.getElem?_eq_getElem (show x - a < bs.length by omega), List.getD_eq_getElem?_getD,
      List.getElem?_eq_getElem (show x - a < bs.length by omega)]
    rfl
  · rw [if_neg h, if_neg h]

theorem Memory.byteAt_writeBytes_inside (m : Memory) (a : Nat) (bs : List Byte) (k : Nat) (b : Byte)
    (h : bs[k]? = some b) : Memory.byteAt (Memory.writeBytes m a bs) (a + k) = b := by
  have hk : k < bs.length := by
    rcases Nat.lt_or_ge k bs.length with h' | h'
    · exact h'
    · rw [List.getElem?_eq_none h'] at h; exact absurd h (by simp)
  rw [Memory.byteAt_writeBytes, if_pos (by omega), List.getD_eq_getElem?_getD]
  simp [h]

theorem Memory.byteAt_writeBytes_outside (m : Memory) (a : Nat) (bs : List Byte) (x : Nat)
    (h : x < a ∨ a + bs.length ≤ x) : Memory.byteAt (Memory.writeBytes m a bs) x = Memory.byteAt m x := by
  rw [Memory.byteAt_writeBytes, if_neg (by omega)]

@[simp] theorem Memory.writeBytes_nil (m : Memory) (a x : Nat) :
    Memory.byteAt (Memory.writeBytes m a []) x = Memory.byteAt m x :=
  Memory.byteAt_writeBytes_outside m a [] x (by simp; omega)

/-! ## Reading several bytes -/

@[simp] theorem Memory.readBytes_length (m : Memory) (a n : Nat) : (Memory.readBytes m a n).length = n := by
  induction n generalizing a with
  | zero => rfl
  | succ n ih => simp [Memory.readBytes, ih]

theorem Memory.readBytes_getElem? (m : Memory) (a n k : Nat) :
    (Memory.readBytes m a n)[k]? = if k < n then some (Memory.byteAt m (a + k)) else none := by
  induction n generalizing a k with
  | zero => simp [Memory.readBytes]
  | succ n ih =>
    cases k with
    | zero => simp [Memory.readBytes]
    | succ k =>
      simp only [Memory.readBytes, List.getElem?_cons_succ, ih, Nat.add_lt_add_iff_right]
      rw [show a + 1 + k = a + (k + 1) by omega]

/-- Two memories that read alike in a range give the same bytes there. -/
theorem Memory.readBytes_congr (m m' : Memory) (a n : Nat)
    (h : ∀ x, a ≤ x → x < a + n → Memory.byteAt m x = Memory.byteAt m' x) :
    Memory.readBytes m a n = Memory.readBytes m' a n := by
  induction n generalizing a with
  | zero => rfl
  | succ n ih =>
    rw [Memory.readBytes, Memory.readBytes, h a (by omega) (by omega), ih (a + 1) (fun x h1 h2 => h x (by omega) (by omega))]

theorem Memory.readBytes_drop (m : Memory) (a n k : Nat) :
    (Memory.readBytes m a n).drop k = Memory.readBytes m (a + k) (n - k) := by
  induction n generalizing a k with
  | zero => simp [Memory.readBytes]
  | succ n ih =>
    cases k with
    | zero => rfl
    | succ k =>
      rw [Memory.readBytes, List.drop_succ_cons, ih]
      congr 1 <;> omega

theorem Memory.readBytes_take (m : Memory) (a n k : Nat) :
    (Memory.readBytes m a n).take k = Memory.readBytes m a (min k n) := by
  induction n generalizing a k with
  | zero => simp [Memory.readBytes]
  | succ n ih =>
    cases k with
    | zero => simp [Memory.readBytes]
    | succ k =>
      rw [Memory.readBytes, List.take_succ_cons, ih, Nat.succ_min_succ]
      rfl

/-- Reading what was written gives it back. -/
theorem Memory.readBytes_writeBytes (m : Memory) (a : Nat) (bs : List Byte) :
    Memory.readBytes (Memory.writeBytes m a bs) a bs.length = bs := by
  apply List.ext_getElem?
  intro k
  rw [Memory.readBytes_getElem?]
  split
  · rename_i h
    rw [List.getElem?_eq_getElem h, Memory.byteAt_writeBytes_inside m a bs k bs[k] (List.getElem?_eq_getElem h)]
  · rename_i h; rw [List.getElem?_eq_none (by omega)]

/-! ## The canonical form -/

/-- Every listed address lies in `[lo, hi)`. -/
def Memory.between (lo hi : Nat) (m : Memory) : Prop := ∀ c ∈ m, lo ≤ c.1 ∧ c.1 < hi

theorem Memory.rising_cons (c : Host.Cell) (m : Memory) :
    Memory.rising (c :: m) = true ↔ (∀ d ∈ m.head?, c.1 < d.1) ∧ Memory.rising m = true := by
  cases m <;> simp [Memory.rising]

/-- The canonical form, as a statement about every pair. -/
theorem Memory.rising_iff (m : Memory) : Memory.rising m = true ↔ m.Pairwise (fun c d => c.1 < d.1) := by
  induction m with
  | nil => simp [Memory.rising]
  | cons c m ih =>
    rw [Memory.rising_cons, List.pairwise_cons, ih]
    constructor
    · rintro ⟨h, hm⟩
      refine ⟨?_, hm⟩
      cases m with
      | nil => simp
      | cons d m =>
        have hd : c.1 < d.1 := h d (by simp)
        intro e he
        rcases List.mem_cons.mp he with rfl | he
        · exact hd
        · exact lt_trans hd ((List.pairwise_cons.mp hm).1 e he)
    · rintro ⟨h, hm⟩
      exact ⟨fun d hd => h d (List.mem_of_mem_head? hd), hm⟩

theorem Memory.mem_cellsFrom (a : Nat) (bs : List Byte) (c : Host.Cell) (h : c ∈ Memory.cellsFrom a bs) :
    a ≤ c.1 ∧ c.1 < a + bs.length := by
  induction bs generalizing a with
  | nil => simp [Memory.cellsFrom] at h
  | cons b bs ih =>
    rcases List.mem_cons.mp h with rfl | h
    · simp
    · have := ih (a + 1) h
      simp; omega

theorem Memory.pairwise_cellsFrom (a : Nat) (bs : List Byte) :
    (Memory.cellsFrom a bs).Pairwise (fun c d => c.1 < d.1) := by
  induction bs generalizing a with
  | nil => simp [Memory.cellsFrom]
  | cons b bs ih =>
    rw [Memory.cellsFrom, List.pairwise_cons]
    exact ⟨fun d hd => by have := Memory.mem_cellsFrom _ _ _ hd; simp; omega, ih _⟩

/-- A write keeps the canonical form. -/
theorem Memory.wf_writeBytes (m : Memory) (a : Nat) (bs : List Byte) (h : Memory.wf m = true) :
    Memory.wf (Memory.writeBytes m a bs) = true := by
  rw [Memory.wf, Memory.rising_iff] at h ⊢
  rw [Memory.writeBytes, List.pairwise_append, List.pairwise_append]
  refine ⟨⟨h.filter _, Memory.pairwise_cellsFrom a bs, ?_⟩, h.filter _, ?_⟩
  · intro c hc d hd
    have := Memory.mem_cellsFrom _ _ _ hd
    simp at hc
    omega
  · intro c hc d hd
    simp at hd
    rcases List.mem_append.mp hc with hc | hc
    · simp at hc; omega
    · have := Memory.mem_cellsFrom _ _ _ hc; omega

/-- The writes of a command keep the canonical form. -/
theorem Memory.wf_dstWrites (ws : List (Nat × List Byte)) (m : Memory) (dst : Nat) (h : Memory.wf m = true) :
    Memory.wf (Memory.dstWrites m dst ws) = true := by
  induction ws generalizing m with
  | nil => exact h
  | cons w ws ih => exact ih _ (Memory.wf_writeBytes m _ _ h)

/-- A write below `n` keeps memory below `n`. -/
theorem Memory.below_writeBytes (m : Memory) (a n : Nat) (bs : List Byte) (h : Memory.below m n = true)
    (hb : bs = [] ∨ a + bs.length ≤ n) : Memory.below (Memory.writeBytes m a bs) n = true := by
  simp only [Memory.below, List.all_eq_true, decide_eq_true_eq] at h ⊢
  intro c hc
  simp only [Memory.writeBytes, List.mem_append] at hc
  rcases hc with (hc | hc) | hc
  · exact h c (List.mem_filter.mp hc).1
  · have := Memory.mem_cellsFrom _ _ _ hc
    rcases hb with rfl | hb
    · simp at this; omega
    · omega
  · exact h c (List.mem_filter.mp hc).1

/-- The writes of a command that stay below `n` keep memory below `n`. -/
theorem Memory.below_dstWrites (ws : List (Nat × List Byte)) (m : Memory) (dst n : Nat)
    (h : Memory.below m n = true) (hw : ∀ w ∈ ws, w.2 = [] ∨ dst + w.1 + w.2.length ≤ n) :
    Memory.below (Memory.dstWrites m dst ws) n = true := by
  induction ws generalizing m with
  | nil => exact h
  | cons w ws ih =>
    exact ih _ (Memory.below_writeBytes m _ n _ h (hw w (by simp))) (fun v hv => hw v (by simp [hv]))

/-! ## The writes of a command -/

@[simp] theorem Memory.dstWrites_nil (m : Memory) (dst : Nat) : Memory.dstWrites m dst [] = m := rfl

@[simp] theorem Memory.dstWrites_cons (m : Memory) (dst : Nat) (w : Nat × List Byte) (ws : List (Nat × List Byte)) :
    Memory.dstWrites m dst (w :: ws) = Memory.dstWrites (Memory.writeBytes m (dst + w.1) w.2) dst ws := rfl

/-- The writes of a command leave every byte alone that none of them covers. -/
theorem Memory.byteAt_dstWrites_outside (ws : List (Nat × List Byte)) (m : Memory) (dst x : Nat)
    (h : ∀ w ∈ ws, x < dst + w.1 ∨ dst + w.1 + w.2.length ≤ x) :
    Memory.byteAt (Memory.dstWrites m dst ws) x = Memory.byteAt m x := by
  induction ws generalizing m with
  | nil => rfl
  | cons w ws ih =>
    rw [Memory.dstWrites_cons, ih _ (fun v hv => h v (by simp [hv])),
      Memory.byteAt_writeBytes_outside m _ _ x (h w (by simp))]

end Sys2Proof.Machine
end

