-- ==== Sys2Proof/Laws/State.lean ====
section
/-! SUPPORT. One lemma per field and update of the machine's state, so that no proof unfolds an update. -/

namespace Sys2Proof.Machine

/-! ## Completion (43_system.md R318) -/

@[simp] theorem State.completeOk_cfg (s : State) (e : Effect) : (s.completeOk e).cfg = s.cfg := rfl
@[simp] theorem State.completeOk_ie (s : State) (e : Effect) : (s.completeOk e).ie = s.ie := rfl
@[simp] theorem State.completeOk_status (s : State) (e : Effect) :
    (s.completeOk e).status = s.status.complete false e.warn := rfl
@[simp] theorem State.completeOk_cmd (s : State) (e : Effect) : (s.completeOk e).cmd = s.cmd := rfl
@[simp] theorem State.completeOk_errcode (s : State) (e : Effect) : (s.completeOk e).errcode = 0#8 := rfl
@[simp] theorem State.completeOk_warncode (s : State) (e : Effect) : (s.completeOk e).warncode = warnCode e.warn := rfl
@[simp] theorem State.completeOk_cmdcnt (s : State) (e : Effect) : (s.completeOk e).cmdcnt = s.cmdcnt + 1#32 := rfl
@[simp] theorem State.completeOk_ops (s : State) (e : Effect) : (s.completeOk e).ops = s.ops := rfl
@[simp] theorem State.completeOk_res (s : State) (e : Effect) : (s.completeOk e).res = e.res := rfl
@[simp] theorem State.completeOk_comp (s : State) (e : Effect) : (s.completeOk e).comp = e.comp := rfl
@[simp] theorem State.completeOk_rkey (s : State) (e : Effect) : (s.completeOk e).rkey = e.rkey := rfl
@[simp] theorem State.completeOk_key (s : State) (e : Effect) : (s.completeOk e).key = s.key := rfl
@[simp] theorem State.completeOk_buf (s : State) (e : Effect) :
    (s.completeOk e).buf = Memory.dstWrites s.buf s.ops.dst.toNat e.writes := rfl
@[simp] theorem State.completeOk_agenda (s : State) (e : Effect) : (s.completeOk e).agenda = s.agenda := rfl
@[simp] theorem State.completeOk_draws (s : State) (e : Effect) : (s.completeOk e).draws = s.draws := rfl
@[simp] theorem State.completeOk_rdata (s : State) (e : Effect) : (s.completeOk e).rdata = s.rdata := rfl

@[simp] theorem State.completeErr_cfg (s : State) (e : ErrCode) : (s.completeErr e).cfg = s.cfg := rfl
@[simp] theorem State.completeErr_ie (s : State) (e : ErrCode) : (s.completeErr e).ie = s.ie := rfl
@[simp] theorem State.completeErr_status (s : State) (e : ErrCode) :
    (s.completeErr e).status = s.status.complete true false := rfl
@[simp] theorem State.completeErr_cmd (s : State) (e : ErrCode) : (s.completeErr e).cmd = s.cmd := rfl
@[simp] theorem State.completeErr_errcode (s : State) (e : ErrCode) : (s.completeErr e).errcode = e.code := rfl
@[simp] theorem State.completeErr_warncode (s : State) (e : ErrCode) : (s.completeErr e).warncode = 0#8 := rfl
@[simp] theorem State.completeErr_cmdcnt (s : State) (e : ErrCode) : (s.completeErr e).cmdcnt = s.cmdcnt + 1#32 := rfl
@[simp] theorem State.completeErr_ops (s : State) (e : ErrCode) : (s.completeErr e).ops = s.ops := rfl
@[simp] theorem State.completeErr_res (s : State) (e : ErrCode) : (s.completeErr e).res = s.res := rfl
@[simp] theorem State.completeErr_comp (s : State) (e : ErrCode) : (s.completeErr e).comp = s.comp := rfl
@[simp] theorem State.completeErr_rkey (s : State) (e : ErrCode) : (s.completeErr e).rkey = s.rkey := rfl
@[simp] theorem State.completeErr_key (s : State) (e : ErrCode) : (s.completeErr e).key = s.key := rfl
@[simp] theorem State.completeErr_buf (s : State) (e : ErrCode) : (s.completeErr e).buf = s.buf := rfl
@[simp] theorem State.completeErr_agenda (s : State) (e : ErrCode) : (s.completeErr e).agenda = s.agenda := rfl
@[simp] theorem State.completeErr_draws (s : State) (e : ErrCode) : (s.completeErr e).draws = s.draws := rfl
@[simp] theorem State.completeErr_rdata (s : State) (e : ErrCode) : (s.completeErr e).rdata = s.rdata := rfl

@[simp] theorem State.complete_ok (s : State) (e : Effect) : s.complete (.ok e) = s.completeOk e := rfl
@[simp] theorem State.complete_error (s : State) (e : ErrCode) : s.complete (.error e) = s.completeErr e := rfl

/-! ## What a command ends with -/

@[simp] theorem State.finish_writes (s : State) (a b c d : Word) : (s.finish a b c d).writes = [] := rfl
@[simp] theorem State.finish_comp (s : State) (a b c d : Word) : (s.finish a b c d).comp = s.comp := rfl
@[simp] theorem State.finish_rkey (s : State) (a b c d : Word) : (s.finish a b c d).rkey = s.rkey := rfl
@[simp] theorem State.finish_res (s : State) (a b c d : Word) : (s.finish a b c d).res = ⟨a, b, c, d⟩ := rfl
@[simp] theorem State.finish_warn (s : State) (a b c d : Word) : (s.finish a b c d).warn = false := rfl

@[simp] theorem Effect.withOut_writes (e : Effect) (out : List Byte) : (e.withOut out).writes = [(0, out)] := rfl
@[simp] theorem Effect.withOut_comp (e : Effect) (out : List Byte) : (e.withOut out).comp = e.comp := rfl
@[simp] theorem Effect.withOut_rkey (e : Effect) (out : List Byte) : (e.withOut out).rkey = e.rkey := rfl
@[simp] theorem Effect.withOut_res (e : Effect) (out : List Byte) : (e.withOut out).res = e.res := rfl
@[simp] theorem Effect.withOut_warn (e : Effect) (out : List Byte) : (e.withOut out).warn = e.warn := rfl

/-! ## Issue, acknowledgement, dropped writes and reset -/

@[simp] theorem State.issue_cfg (s : State) (v : Word) : (s.issue v).cfg = s.cfg := rfl
@[simp] theorem State.issue_ie (s : State) (v : Word) : (s.issue v).ie = s.ie := rfl
@[simp] theorem State.issue_status (s : State) (v : Word) : (s.issue v).status = s.status.accept := rfl
@[simp] theorem State.issue_cmd (s : State) (v : Word) : (s.issue v).cmd = v := rfl
@[simp] theorem State.issue_errcode (s : State) (v : Word) : (s.issue v).errcode = s.errcode := rfl
@[simp] theorem State.issue_warncode (s : State) (v : Word) : (s.issue v).warncode = s.warncode := rfl
@[simp] theorem State.issue_cmdcnt (s : State) (v : Word) : (s.issue v).cmdcnt = s.cmdcnt := rfl
@[simp] theorem State.issue_ops (s : State) (v : Word) : (s.issue v).ops = s.ops := rfl
@[simp] theorem State.issue_res (s : State) (v : Word) : (s.issue v).res = s.res := rfl
@[simp] theorem State.issue_comp (s : State) (v : Word) : (s.issue v).comp = s.comp := rfl
@[simp] theorem State.issue_rkey (s : State) (v : Word) : (s.issue v).rkey = s.rkey := rfl
@[simp] theorem State.issue_key (s : State) (v : Word) : (s.issue v).key = s.key := rfl
@[simp] theorem State.issue_buf (s : State) (v : Word) : (s.issue v).buf = s.buf := rfl
@[simp] theorem State.issue_agenda (s : State) (v : Word) : (s.issue v).agenda = s.agenda := rfl
@[simp] theorem State.issue_draws (s : State) (v : Word) : (s.issue v).draws = s.draws := rfl
@[simp] theorem State.issue_rdata (s : State) (v : Word) : (s.issue v).rdata = s.rdata := rfl

@[simp] theorem State.collide_cfg (s : State) : (s.collide).cfg = s.cfg := rfl
@[simp] theorem State.collide_ie (s : State) : (s.collide).ie = s.ie := rfl
@[simp] theorem State.collide_status (s : State) : (s.collide).status = { s.status with coll := true } := rfl
@[simp] theorem State.collide_cmd (s : State) : (s.collide).cmd = s.cmd := rfl
@[simp] theorem State.collide_errcode (s : State) : (s.collide).errcode = s.errcode := rfl
@[simp] theorem State.collide_warncode (s : State) : (s.collide).warncode = s.warncode := rfl
@[simp] theorem State.collide_cmdcnt (s : State) : (s.collide).cmdcnt = s.cmdcnt := rfl
@[simp] theorem State.collide_ops (s : State) : (s.collide).ops = s.ops := rfl
@[simp] theorem State.collide_res (s : State) : (s.collide).res = s.res := rfl
@[simp] theorem State.collide_comp (s : State) : (s.collide).comp = s.comp := rfl
@[simp] theorem State.collide_rkey (s : State) : (s.collide).rkey = s.rkey := rfl
@[simp] theorem State.collide_key (s : State) : (s.collide).key = s.key := rfl
@[simp] theorem State.collide_buf (s : State) : (s.collide).buf = s.buf := rfl
@[simp] theorem State.collide_agenda (s : State) : (s.collide).agenda = s.agenda := rfl
@[simp] theorem State.collide_draws (s : State) : (s.collide).draws = s.draws := rfl
@[simp] theorem State.collide_rdata (s : State) : (s.collide).rdata = s.rdata := rfl

@[simp] theorem State.ackStatus_cfg (s : State) (v : Word) : (s.ackStatus v).cfg = s.cfg := rfl
@[simp] theorem State.ackStatus_ie (s : State) (v : Word) : (s.ackStatus v).ie = s.ie := rfl
@[simp] theorem State.ackStatus_status (s : State) (v : Word) : (s.ackStatus v).status = s.status.ack v := rfl
@[simp] theorem State.ackStatus_cmd (s : State) (v : Word) : (s.ackStatus v).cmd = s.cmd := rfl
@[simp] theorem State.ackStatus_errcode (s : State) (v : Word) : (s.ackStatus v).errcode = s.errcode := rfl
@[simp] theorem State.ackStatus_warncode (s : State) (v : Word) : (s.ackStatus v).warncode = s.warncode := rfl
@[simp] theorem State.ackStatus_cmdcnt (s : State) (v : Word) : (s.ackStatus v).cmdcnt = s.cmdcnt := rfl
@[simp] theorem State.ackStatus_ops (s : State) (v : Word) : (s.ackStatus v).ops = s.ops := rfl
@[simp] theorem State.ackStatus_res (s : State) (v : Word) : (s.ackStatus v).res = s.res := rfl
@[simp] theorem State.ackStatus_comp (s : State) (v : Word) : (s.ackStatus v).comp = s.comp := rfl
@[simp] theorem State.ackStatus_rkey (s : State) (v : Word) : (s.ackStatus v).rkey = s.rkey := rfl
@[simp] theorem State.ackStatus_key (s : State) (v : Word) : (s.ackStatus v).key = s.key := rfl
@[simp] theorem State.ackStatus_buf (s : State) (v : Word) : (s.ackStatus v).buf = s.buf := rfl
@[simp] theorem State.ackStatus_agenda (s : State) (v : Word) : (s.ackStatus v).agenda = s.agenda := rfl
@[simp] theorem State.ackStatus_draws (s : State) (v : Word) : (s.ackStatus v).draws = s.draws := rfl
@[simp] theorem State.ackStatus_rdata (s : State) (v : Word) : (s.ackStatus v).rdata = s.rdata := rfl

@[simp] theorem State.resetRegisters_cfg (s : State) : (s.resetRegisters).cfg = s.cfg := rfl
@[simp] theorem State.resetRegisters_ie (s : State) : (s.resetRegisters).ie = false := rfl
@[simp] theorem State.resetRegisters_status (s : State) :
    (s.resetRegisters).status = ⟨false, false, false, false, false⟩ := rfl
@[simp] theorem State.resetRegisters_cmd (s : State) : (s.resetRegisters).cmd = 0#32 := rfl
@[simp] theorem State.resetRegisters_errcode (s : State) : (s.resetRegisters).errcode = 0#8 := rfl
@[simp] theorem State.resetRegisters_warncode (s : State) : (s.resetRegisters).warncode = 0#8 := rfl
@[simp] theorem State.resetRegisters_cmdcnt (s : State) : (s.resetRegisters).cmdcnt = 0#32 := rfl
@[simp] theorem State.resetRegisters_ops (s : State) :
    (s.resetRegisters).ops = ⟨0#32, 0#32, 0#32, 0#32, 0#32, 0#32, 0#32, 0#32⟩ := rfl
@[simp] theorem State.resetRegisters_res (s : State) : (s.resetRegisters).res = Quad.zero := rfl
@[simp] theorem State.resetRegisters_comp (s : State) : (s.resetRegisters).comp = ⟨0x7C00#16, 0x7F#7, false⟩ := rfl
@[simp] theorem State.resetRegisters_rkey (s : State) : (s.resetRegisters).rkey = Quad.ofBlock s.cfg.seed := rfl
@[simp] theorem State.resetRegisters_key (s : State) : (s.resetRegisters).key = Quad.ofBlock s.cfg.keyDefault := rfl
@[simp] theorem State.resetRegisters_buf (s : State) : (s.resetRegisters).buf = s.buf := rfl
@[simp] theorem State.resetRegisters_agenda (s : State) : (s.resetRegisters).agenda = s.agenda := rfl
@[simp] theorem State.resetRegisters_draws (s : State) : (s.resetRegisters).draws = s.draws := rfl
@[simp] theorem State.resetRegisters_rdata (s : State) : (s.resetRegisters).rdata = s.rdata := rfl

@[simp] theorem State.softReset_cfg (s : State) : (s.softReset).cfg = s.cfg := rfl
@[simp] theorem State.softReset_ie (s : State) : (s.softReset).ie = false := rfl
@[simp] theorem State.softReset_status (s : State) : (s.softReset).status = ⟨false, false, false, false, false⟩ := rfl
@[simp] theorem State.softReset_cmd (s : State) : (s.softReset).cmd = 0#32 := rfl
@[simp] theorem State.softReset_errcode (s : State) : (s.softReset).errcode = 0#8 := rfl
@[simp] theorem State.softReset_warncode (s : State) : (s.softReset).warncode = 0#8 := rfl
@[simp] theorem State.softReset_cmdcnt (s : State) : (s.softReset).cmdcnt = 0#32 := rfl
@[simp] theorem State.softReset_ops (s : State) :
    (s.softReset).ops = ⟨0#32, 0#32, 0#32, 0#32, 0#32, 0#32, 0#32, 0#32⟩ := rfl
@[simp] theorem State.softReset_res (s : State) : (s.softReset).res = Quad.zero := rfl
@[simp] theorem State.softReset_comp (s : State) : (s.softReset).comp = ⟨0x7C00#16, 0x7F#7, false⟩ := rfl
@[simp] theorem State.softReset_rkey (s : State) : (s.softReset).rkey = Quad.ofBlock s.cfg.seed := rfl
@[simp] theorem State.softReset_key (s : State) : (s.softReset).key = Quad.ofBlock s.cfg.keyDefault := rfl
@[simp] theorem State.softReset_agenda (s : State) : (s.softReset).agenda = s.agenda := rfl
@[simp] theorem State.softReset_draws (s : State) : (s.softReset).draws = s.draws + s.pendingDestLen := rfl
@[simp] theorem State.softReset_rdata (s : State) : (s.softReset).rdata = s.rdata := rfl

/-! ## The fetch of the opcode table's word -/

@[simp] theorem State.withFetchWord_cfg (s : State) (n w : Nat) : (s.withFetchWord n w).cfg = s.cfg := rfl
@[simp] theorem State.withFetchWord_ie (s : State) (n w : Nat) : (s.withFetchWord n w).ie = s.ie := rfl
@[simp] theorem State.withFetchWord_status (s : State) (n w : Nat) :
    (s.withFetchWord n w).status = s.status.accept := rfl
@[simp] theorem State.withFetchWord_cmd (s : State) (n w : Nat) : (s.withFetchWord n w).cmd = tableWord n w := rfl
@[simp] theorem State.withFetchWord_errcode (s : State) (n w : Nat) : (s.withFetchWord n w).errcode = s.errcode := rfl
@[simp] theorem State.withFetchWord_warncode (s : State) (n w : Nat) :
    (s.withFetchWord n w).warncode = s.warncode := rfl
@[simp] theorem State.withFetchWord_cmdcnt (s : State) (n w : Nat) : (s.withFetchWord n w).cmdcnt = s.cmdcnt := rfl
@[simp] theorem State.withFetchWord_ops (s : State) (n w : Nat) : (s.withFetchWord n w).ops = s.ops := rfl
@[simp] theorem State.withFetchWord_res (s : State) (n w : Nat) : (s.withFetchWord n w).res = s.res := rfl
@[simp] theorem State.withFetchWord_comp (s : State) (n w : Nat) : (s.withFetchWord n w).comp = s.comp := rfl
@[simp] theorem State.withFetchWord_rkey (s : State) (n w : Nat) : (s.withFetchWord n w).rkey = s.rkey := rfl
@[simp] theorem State.withFetchWord_key (s : State) (n w : Nat) : (s.withFetchWord n w).key = s.key := rfl
@[simp] theorem State.withFetchWord_buf (s : State) (n w : Nat) : (s.withFetchWord n w).buf = s.buf := rfl
@[simp] theorem State.withFetchWord_agenda (s : State) (n w : Nat) :
    (s.withFetchWord n w).agenda = engineFirst s.agenda := rfl
@[simp] theorem State.withFetchWord_draws (s : State) (n w : Nat) : (s.withFetchWord n w).draws = s.draws := rfl
@[simp] theorem State.withFetchWord_rdata (s : State) (n w : Nat) : (s.withFetchWord n w).rdata = s.rdata := rfl

/-! ## Flags (10_state.md R33 to R37) -/

@[simp] theorem Status.accept_busy (f : Status) : (f.accept).busy = true := rfl
@[simp] theorem Status.accept_done (f : Status) : (f.accept).done = false := rfl
@[simp] theorem Status.accept_err (f : Status) : (f.accept).err = false := rfl
@[simp] theorem Status.accept_warn (f : Status) : (f.accept).warn = false := rfl
@[simp] theorem Status.accept_coll (f : Status) : (f.accept).coll = f.coll := rfl

@[simp] theorem Status.complete_busy (f : Status) (e w : Bool) : (f.complete e w).busy = false := rfl
@[simp] theorem Status.complete_done (f : Status) (e w : Bool) : (f.complete e w).done = true := rfl
@[simp] theorem Status.complete_err (f : Status) (e w : Bool) : (f.complete e w).err = e := rfl
@[simp] theorem Status.complete_warn (f : Status) (e w : Bool) : (f.complete e w).warn = w := rfl
@[simp] theorem Status.complete_coll (f : Status) (e w : Bool) : (f.complete e w).coll = f.coll := rfl

end Sys2Proof.Machine
end

