-- ==== Sys2Proof/Laws/Exec.lean ====
section
/-! SUPPORT. What `exec` answers: the completion step of a command's outcome; the generic checks; how an outcome shows in
the terms of Safety.lean. -/

namespace Sys2Proof.Machine

/-! ## Outcomes -/

theorem bind_eq_ok {α β : Type} (x : Except ErrCode α) (f : α → Except ErrCode β) (b : β) :
    (x >>= f) = .ok b ↔ ∃ a, x = .ok a ∧ f a = .ok b := by
  cases x <;> simp [bind, Except.bind]

theorem bind_eq_error {α β : Type} (x : Except ErrCode α) (f : α → Except ErrCode β) (e : ErrCode) :
    (x >>= f) = .error e ↔ x = .error e ∨ ∃ a, x = .ok a ∧ f a = .error e := by
  cases x <;> simp [bind, Except.bind]

@[simp] theorem ok_bind {α β : Type} (a : α) (f : α → Except ErrCode β) : ((.ok a : Except ErrCode α) >>= f) = f a := rfl

@[simp] theorem error_bind {α β : Type} (e : ErrCode) (f : α → Except ErrCode β) :
    ((.error e : Except ErrCode α) >>= f) = .error e := rfl

@[simp] theorem pure_eq_ok {α : Type} (a : α) : (pure a : Except ErrCode α) = .ok a := rfl

@[simp] theorem require_eq_ok (c : Bool) (e : ErrCode) (u : Unit) : require c e = .ok u ↔ c = true := by
  cases c <;> simp [require]

@[simp] theorem require_eq_error (c : Bool) (e e' : ErrCode) : require c e = .error e' ↔ c = false ∧ e = e' := by
  cases c <;> simp [require]

@[simp] theorem require_true (e : ErrCode) : require true e = .ok () := rfl

@[simp] theorem require_false (e : ErrCode) : require false e = .error e := rfl

theorem code_ne_zero (e : ErrCode) : e.code ≠ 0#8 := by cases e <;> decide

/-- The outcome of a command: what `exec` completes. -/
def outcomeOf (i : Instr) (s : State) : Except ErrCode Effect :=
  match i with
  | .nop => nop s
  | .seed => seed s
  | .candrst => candrst s
  | .cvt555 tp => cvt555 tp s
  | .cvt565 tp => cvt565 tp s
  | .pack555 tp => pack555 tp s
  | .pack565 tp => pack565 tp s
  | .l1dec ext => l1dec ext s
  | .l1ext => l1ext s
  | .l1enc tm => l1enc tm s
  | .isoxy => isoxy s
  | .palscan => palscan s
  | .tiledec scan => tiledec scan s
  | .tileenc => tileenc s
  | .maskfin => maskfin s
  | .canvas => canvas s
  | .blit => blit s
  | .sprdec => sprdec s
  | .decblk => decblk s
  | .encblk => encblk s
  | .xortail => xortail s
  | .decpay => decpay s
  | .encpay => encpay s
  | .mark => mark s
  | .coreenc => coreenc s
  | .coredec => coredec s
  | .keydump => keydump s

/-- `exec` is the completion step of the outcome. -/
theorem exec_eq (i : Instr) (s : State) : exec i s = .next (s.complete (outcomeOf i s)) := by cases i <;> rfl

theorem exec_of_ok {i : Instr} {s : State} {e : Effect} (h : outcomeOf i s = .ok e) :
    exec i s = .next (s.completeOk e) := by rw [exec_eq, h]; rfl

theorem exec_of_error {i : Instr} {s : State} {e : ErrCode} (h : outcomeOf i s = .error e) :
    exec i s = .next (s.completeErr e) := by rw [exec_eq, h]; rfl

/-- The two ways a command ends. -/
theorem exec_cases {i : Instr} {s t : State} (h : exec i s = .next t) :
    (∃ e, outcomeOf i s = .ok e ∧ t = s.completeOk e) ∨ ∃ e, outcomeOf i s = .error e ∧ t = s.completeErr e := by
  rw [exec_eq] at h
  cases h' : outcomeOf i s with
  | ok e => rw [h'] at h; exact .inl ⟨e, rfl, by cases h; rfl⟩
  | error e => rw [h'] at h; exact .inr ⟨e, rfl, by cases h; rfl⟩

theorem completeErr_failed (s : State) (e : ErrCode) : s.failed (s.completeErr e) e.code := rfl

theorem failsWith_of_error {i : Instr} {s : State} {e : ErrCode} (h : outcomeOf i s = .error e) :
    failsWith i s e.code := ⟨_, exec_of_error h, completeErr_failed s e⟩

theorem completeOk_finished (s : State) (e : Effect) : s.finished (s.completeOk e) e.warn := by
  cases h : e.warn <;> simp [State.finished, warnCode, Status.complete, h]

theorem completeOk_kept (s : State) (e : Effect) : s.kept (s.completeOk e) := by simp [State.kept]

theorem completeErr_kept (s : State) (e : ErrCode) : s.kept (s.completeErr e) := by simp [State.kept]

theorem completeOk_completes (s : State) (e : Effect) {r0 r1 r2 r3 : Word} {w : Bool} (h : e.res = ⟨r0, r1, r2, r3⟩)
    (hw : e.warn = w) : s.completes (s.completeOk e) r0 r1 r2 r3 w :=
  ⟨hw ▸ completeOk_finished s e, completeOk_kept s e, h⟩

/-! ## The generic checks (60_exceptions.md R335) -/

theorem overlapping_iff (s : State) : s.overlapping ↔ s.windowsMeet = true := by
  simp only [State.overlapping, State.windowsMeet, State.src, State.dst, State.slen, State.dlen, Bool.and_eq_true,
    bne_iff_ne, ne_eq, decide_eq_true_eq]
  have h0 : ∀ v : Word, v = 0#32 ↔ v.toNat = 0 := fun v => ⟨fun h => by simp [h], fun h => BitVec.eq_of_toNat_eq (by simpa using h)⟩
  rw [h0, h0]
  constructor
  · rintro ⟨x, h⟩; omega
  · intro h; exact ⟨max s.ops.src.toNat s.ops.dst.toNat, by omega⟩

/-- The generic checks pass on a well-formed command exactly when its windows are right. -/
theorem genericChecks_ok {s : State} {i : Instr} (hw : i.wellFormed = true) (h : s.windowsOk i) :
    s.genericChecks i = .ok () := by
  obtain ⟨h1, h2, h3⟩ := h
  simp only [State.src, State.dst, State.slen, State.dlen] at h1 h2 h3
  rw [overlapping_iff] at h3
  unfold State.genericChecks State.sourceOut State.destOut
  have a1 : (i.usesSource && decide (s.cfg.bufSize < s.ops.src.toNat + s.ops.slen.toNat)) = false := by
    cases hs : i.usesSource
    · rfl
    · have := h1 hs; simp; omega
  have a2 : (i.usesDest && decide (s.cfg.bufSize < s.ops.dst.toNat + s.ops.dlen.toNat)) = false := by
    cases hs : i.usesDest
    · rfl
    · have := h2 hs; simp; omega
  have a3 : (i.usesSource && i.usesDest && s.windowsMeet && !(i.inPlace && s.ops.src == s.ops.dst)) = false := by
    cases hs : i.usesSource <;> cases hd : i.usesDest <;> cases hm : s.windowsMeet <;> simp
    have h4 := h3 hs hd hm
    exact ⟨h4.1, BitVec.eq_of_toNat_eq h4.2⟩
  rw [a1, a2, a3, hw]
  rfl

/-- Past the window checks, `endsAs` has only the command's own checks left; before them, the generic checks answer. -/
theorem endsAs_windowChecks {i : Instr} {s : State} {cs : List (Prop × Byte)} {ok : State → Prop}
    (hg : ∀ e, s.genericChecks i = .error e → outcomeOf i s = .error e) (hw : i.wellFormed = true)
    (h : s.windowsOk i → endsAs i s cs ok) : endsAs i s (s.windowChecks i ++ cs) ok := by
  have key : ∀ e, s.genericChecks i = .error e → failsWith i s e.code := fun e he => failsWith_of_error (hg e he)
  simp only [State.windowChecks, List.cons_append, List.nil_append, endsAs]
  refine ⟨fun h1 => ?_, fun h1 => ⟨fun h2 => ?_, fun h2 => ⟨fun h3 => ?_, fun h3 => ?_⟩⟩⟩
  · refine key .range ?_
    simp only [State.src, State.slen] at h1
    simp [State.genericChecks, hw, State.sourceOut, h1]
  · refine key .range ?_
    simp only [State.src, State.slen, State.dst, State.dlen] at h1 h2
    simp only [State.genericChecks, hw, State.sourceOut, State.destOut, h2]
    split <;> simp_all
  · refine key .overlap ?_
    rw [overlapping_iff] at h3
    simp only [State.src, State.slen, State.dst, State.dlen] at h1 h2 h3
    obtain ⟨hs, hd, hm, hn⟩ := h3
    have hn' : (i.inPlace && s.ops.src == s.ops.dst) = false := by
      cases hp : i.inPlace
      · rfl
      · simp only [Bool.true_and, beq_eq_false_iff_ne, ne_eq]
        intro h; exact hn ⟨hp, by rw [h]⟩
    have a1 : decide (s.cfg.bufSize < s.ops.src.toNat + s.ops.slen.toNat) = false := by
      simp only [decide_eq_false_iff_not]; exact fun h => h1 ⟨hs, h⟩
    have a2 : decide (s.cfg.bufSize < s.ops.dst.toNat + s.ops.dlen.toNat) = false := by
      simp only [decide_eq_false_iff_not]; exact fun h => h2 ⟨hd, h⟩
    simp [State.genericChecks, hw, State.sourceOut, State.destOut, hs, hd, hm, hn', a1, a2]
  · refine h ⟨fun hs => ?_, fun hd => ?_, fun hs hd ho => ?_⟩
    · by_contra hc; exact h1 ⟨hs, by omega⟩
    · by_contra hc; exact h2 ⟨hd, by omega⟩
    · by_contra hc; exact h3 ⟨hs, hd, ho, hc⟩

/-- A command's error from the generic checks is its error. -/
theorem outcomeOf_generic {i : Instr} {s : State} {e : ErrCode} (h : s.genericChecks i = .error e) :
    outcomeOf i s = .error e := by
  cases i <;>
    simp only [outcomeOf, nop, seed, candrst, cvt555, cvt565, pack555, pack565, l1dec, l1ext, l1enc, isoxy, palscan,
      tiledec, tileenc, maskfin, canvas, blit, sprdec, decblk, encblk, xortail, decpay, encpay, mark, coreenc, coredec,
      keydump, h, error_bind]

/-- A command's success means that its generic checks passed. -/
theorem genericChecks_of_ok {i : Instr} {s : State} {e : Effect} (h : outcomeOf i s = .ok e) :
    s.genericChecks i = .ok () := by
  cases hg : s.genericChecks i with
  | ok u => rfl
  | error e' => rw [outcomeOf_generic hg] at h; cases h

/-- What the generic checks leave: a well-formed command with its windows right. -/
theorem windowsOk_of_generic {i : Instr} {s : State} (h : s.genericChecks i = .ok ()) :
    i.wellFormed = true ∧ s.windowsOk i := by
  simp only [State.genericChecks] at h
  split at h
  · cases h
  split at h
  · cases h
  split at h
  · cases h
  split at h
  · cases h
  rename_i h0 h1 h2 h3
  refine ⟨by simpa using h0, fun hs => ?_, fun hd => ?_, fun hs hd ho => ?_⟩
  · simp [hs, State.sourceOut] at h1; simpa [State.src, State.slen] using h1
  · simp [hd, State.destOut] at h2; simpa [State.dst, State.dlen] using h2
  · rw [overlapping_iff] at ho
    simp [hs, hd, ho] at h3
    exact ⟨h3.1, by rw [State.src, State.dst, h3.2]⟩

end Sys2Proof.Machine
end

