-- ==== Sys2Proof/Laws/Rows.lean ====
section
/-! SUPPORT. The laws of the stream reads and of the row decoder: what they give is exactly what the format spells, and
their only error is TruncatedInput. -/

namespace Sys2Proof.Machine

/-! ## Reads of the source window -/

theorem src8_eq_ok (b : List Byte) (o : Nat) (v : Byte) : src8 b o = .ok v ↔ b[o]? = some v := by
  unfold src8; cases b[o]? <;> simp

theorem src8_error {b : List Byte} {o : Nat} {e : ErrCode} (h : src8 b o = .error e) :
    e = .truncatedInput ∧ b.length ≤ o := by
  unfold src8 at h
  split at h
  · cases h
  · rename_i hn; cases h; exact ⟨rfl, by simpa using hn⟩

theorem src16_eq_ok (b : List Byte) (o : Nat) (v : BitVec 16) :
    src16 b o = .ok v ↔ ∃ lo hi, b[o]? = some lo ∧ b[o + 1]? = some hi ∧ v = hi ++ lo := by
  simp only [src16, bind_eq_ok, src8_eq_ok, pure_eq_ok]
  constructor
  · rintro ⟨lo, h1, hi, h2, h3⟩; cases h3; exact ⟨lo, hi, h1, h2, rfl⟩
  · rintro ⟨lo, hi, h1, h2, rfl⟩; exact ⟨lo, h1, hi, h2, rfl⟩

theorem src16_error {b : List Byte} {o : Nat} {e : ErrCode} (h : src16 b o = .error e) :
    e = .truncatedInput ∧ b.length < o + 2 := by
  simp only [src16, bind_eq_error] at h
  rcases h with h | ⟨lo, _, h | ⟨hi, _, h⟩⟩
  · have := src8_error h; exact ⟨this.1, by omega⟩
  · have := src8_error h; exact ⟨this.1, by omega⟩
  · cases h

theorem src32_eq_ok (b : List Byte) (o : Nat) (v : BitVec 32) :
    src32 b o = .ok v ↔ ∃ lo hi, src16 b o = .ok lo ∧ src16 b (o + 2) = .ok hi ∧ v = hi ++ lo := by
  simp only [src32, bind_eq_ok, pure_eq_ok]
  constructor
  · rintro ⟨lo, h1, hi, h2, h3⟩; cases h3; exact ⟨lo, hi, h1, h2, rfl⟩
  · rintro ⟨lo, hi, h1, h2, rfl⟩; exact ⟨lo, h1, hi, h2, rfl⟩

theorem src32_error {b : List Byte} {o : Nat} {e : ErrCode} (h : src32 b o = .error e) : e = .truncatedInput := by
  simp only [src32, bind_eq_error] at h
  rcases h with h | ⟨lo, _, h | ⟨hi, _, h⟩⟩
  · exact (src16_error h).1
  · exact (src16_error h).1
  · cases h

theorem srcBlock_error {b : List Byte} {o : Nat} {e : ErrCode} (h : srcBlock b o = .error e) :
    e = .truncatedInput ∧ b.length < o + 16 := by
  unfold srcBlock at h
  split at h
  · cases h
  · cases h; exact ⟨rfl, by omega⟩

theorem src8_of_drop {b : List Byte} {o : Nat} {v : Byte} {rest : List Byte} (h : b.drop o = v :: rest) :
    src8 b o = .ok v ∧ b.drop (o + 1) = rest := by
  refine ⟨(src8_eq_ok _ _ _).mpr ?_, ?_⟩
  · rw [← List.head?_drop, h]; rfl
  · rw [← List.drop_drop, h]; rfl

theorem drop_of_getElem? {b : List Byte} {o : Nat} {v : Byte} (h : b[o]? = some v) : b.drop o = v :: b.drop (o + 1) := by
  obtain ⟨ho, rfl⟩ := List.getElem?_eq_some_iff.mp h
  exact List.drop_eq_getElem_cons ho

theorem src16_of_drop {b : List Byte} {o : Nat} {v : Colour} {rest : List Byte} (h : b.drop o = pixelBytes [v] ++ rest) :
    src16 b o = .ok v ∧ b.drop (o + 2) = rest := by
  simp only [pixelBytes_cons, pixelBytes_nil, List.cons_append, List.nil_append] at h
  obtain ⟨h1, h2⟩ := src8_of_drop h
  obtain ⟨h3, h4⟩ := src8_of_drop h2
  exact ⟨by simp only [src16, h1, h3, ok_bind, pure_eq_ok, colour_of_bytes], h4⟩

theorem drop_of_src16 {b : List Byte} {o : Nat} {v : Colour} (h : src16 b o = .ok v) :
    b.drop o = pixelBytes [v] ++ b.drop (o + 2) := by
  obtain ⟨lo, hi, h1, h2, rfl⟩ := (src16_eq_ok _ _ _).mp h
  rw [drop_of_getElem? h1, drop_of_getElem? h2]
  have e1 : (hi ++ lo).extractLsb' 0 8 = lo := by
    apply BitVec.eq_of_getLsbD_eq; intro i hi'; simp only [BitVec.getLsbD_extractLsb', BitVec.getLsbD_append]; simp [hi']
  have e2 : (hi ++ lo).extractLsb' 8 8 = hi := by
    apply BitVec.eq_of_getLsbD_eq; intro i hi'; simp only [BitVec.getLsbD_extractLsb', BitVec.getLsbD_append]; simp [hi']
  simp [e1, e2]

/-! ## Rows -/

/-- A run decodes exactly to the colours that stand there. -/
theorem decodeRun_eq_ok (b : List Byte) (r run o x : Nat) (l : List Placement) :
    decodeRun b r run o x = .ok l ↔ ∃ cs, cs.length = run ∧ b.drop o = pixelBytes cs ++ b.drop (o + 2 * run)
      ∧ l = cs.zipIdx.map (fun c => ⟨x + c.2, r, c.1⟩) := by
  induction run generalizing o x l with
  | zero =>
    simp only [decodeRun, Nat.mul_zero, Nat.add_zero]
    constructor
    · intro h; cases h; exact ⟨[], rfl, by simp, rfl⟩
    · rintro ⟨cs, hl, -, rfl⟩; rw [List.length_eq_zero_iff.mp hl]; rfl
  | succ run ih =>
    simp only [decodeRun, bind_eq_ok, pure_eq_ok]
    constructor
    · rintro ⟨c, hc, rest, hr, hl⟩
      cases hl
      obtain ⟨cs, h1, h2, h3⟩ := (ih _ _ _).mp hr
      refine ⟨c :: cs, by simp [h1], ?_, ?_⟩
      · rw [drop_of_src16 hc, h2, show o + 2 + 2 * run = o + 2 * (run + 1) by omega,
          show pixelBytes (c :: cs) = pixelBytes [c] ++ pixelBytes cs by rw [← pixelBytes_append]; rfl, List.append_assoc]
      · rw [h3, List.zipIdx_cons', List.map_cons, List.map_map]
        simp only [Nat.add_zero, List.cons.injEq, true_and]
        apply List.map_congr_left
        intro p _
        simp only [Function.comp, Prod.map, id, Placement.mk.injEq, and_true]
        omega
    · rintro ⟨cs, h1, h2, h3⟩
      cases cs with
      | nil => simp at h1
      | cons c cs =>
        rw [show pixelBytes (c :: cs) = pixelBytes [c] ++ pixelBytes cs by rw [← pixelBytes_append]; rfl,
          List.append_assoc] at h2
        obtain ⟨h4, h5⟩ := src16_of_drop h2
        refine ⟨c, h4, _, (ih _ _ _).mpr ⟨cs, by simpa using h1, ?_, rfl⟩, ?_⟩
        · rw [h5, show o + 2 + 2 * run = o + 2 * (run + 1) by omega]
        · rw [h3, List.zipIdx_cons', List.map_cons, List.map_map]
          simp only [Nat.add_zero, Except.ok.injEq, List.cons.injEq, true_and]
          apply List.map_congr_left
          intro p _
          simp only [Function.comp, Prod.map, id, Placement.mk.injEq, and_true]
          omega

theorem decodeRun_error {b : List Byte} {r run o x : Nat} {e : ErrCode} (h : decodeRun b r run o x = .error e) :
    e = .truncatedInput := by
  induction run generalizing o x with
  | zero => cases h
  | succ run ih =>
    simp only [decodeRun, bind_eq_error] at h
    rcases h with h | ⟨c, _, h | ⟨l, _, h⟩⟩
    · exact (src16_error h).1
    · exact ih h
    · cases h

/-- The bytes of the segments of a row. -/
def segBytes (r : Row) : List Byte := r.flatMap (fun g => g.1 :: BitVec.ofNat 8 g.2.length :: pixelBytes g.2)

theorem segBytes_cons (g : Byte × List Colour) (gs : Row) :
    segBytes (g :: gs) = g.1 :: BitVec.ofNat 8 g.2.length :: (pixelBytes g.2 ++ segBytes gs) := by
  simp [segBytes]

theorem half_eq (v : Byte) : (v >>> 1).toNat = v.toNat / 2 := by
  simp [Nat.shiftRight_eq_div_pow]

theorem ofNat8_toNat {n : Nat} (h : n ≤ 255) : (BitVec.ofNat 8 n).toNat = n := by
  rw [BitVec.toNat_ofNat]; omega

theorem ofNat8_self (v : Byte) : BitVec.ofNat 8 v.toNat = v := by simp

/-- The segments of a row decode exactly to what the format spells. -/
theorem decodeSegs_eq_ok (b : List Byte) (r n o x : Nat) (o' : Nat) (l : List Placement) :
    decodeSegs b r n o x = .ok (o', l) ↔ ∃ row : Row, row.length = n ∧ (∀ g ∈ row, g.2.length ≤ 255)
      ∧ b.drop o = segBytes row ++ b.drop o' ∧ o' = o + (segBytes row).length ∧ l = Row.places r x row := by
  induction n generalizing o x l with
  | zero =>
    simp only [decodeSegs]
    constructor
    · intro h; cases h; exact ⟨[], rfl, by simp, by simp [segBytes], by simp [segBytes], rfl⟩
    · rintro ⟨row, hl, -, -, ho, rfl⟩
      have := List.length_eq_zero_iff.mp hl
      subst this
      simp [segBytes] at ho; subst ho; rfl
  | succ n ih =>
    simp only [decodeSegs, bind_eq_ok]
    constructor
    · rintro ⟨skip, hs, run, hr, here, hh, ⟨o'', rest⟩, hrest, hl⟩
      cases hl
      obtain ⟨cs, h1, h2, h3⟩ := (decodeRun_eq_ok _ _ _ _ _ _).mp hh
      obtain ⟨row, h4, h5, h6, h7, h8⟩ := (ih _ _ _).mp hrest
      have hrun : BitVec.ofNat 8 cs.length = run := by rw [h1, ofNat8_self]
      refine ⟨(skip, cs) :: row, by simp [h4], ?_, ?_, ?_, ?_⟩
      · rintro g hg
        rcases List.mem_cons.mp hg with rfl | hg
        · have := run.isLt; simp only; omega
        · exact h5 g hg
      · rw [drop_of_getElem? ((src8_eq_ok _ _ _).mp hs), drop_of_getElem? ((src8_eq_ok _ _ _).mp hr), h2, h6, segBytes_cons]
        simp [hrun]
      · rw [h7, segBytes_cons]; simp [h1]; omega
      · rw [h3, h8, half_eq]; simp [Row.places, h1]
    · rintro ⟨row, h1, h2, h3, h4, h5⟩
      cases row with
      | nil => simp at h1
      | cons g row =>
        obtain ⟨skip, cs⟩ := g
        rw [segBytes_cons] at h3
        simp only [List.cons_append, List.append_assoc] at h3
        have hcs : cs.length ≤ 255 := h2 (skip, cs) (by simp)
        obtain ⟨a1, a2⟩ := src8_of_drop h3
        obtain ⟨a3, a4⟩ := src8_of_drop a2
        have hto := ofNat8_toNat hcs
        have hlen : o' = o + 2 + 2 * cs.length + (segBytes row).length := by
          rw [h4, segBytes_cons]; simp; omega
        have hdrop : b.drop (o + 2 + 2 * cs.length) = segBytes row ++ b.drop o' := by
          rw [show o + 2 + 2 * cs.length = o + 1 + 1 + (pixelBytes cs).length by simp, ← List.drop_drop, a4,
            List.drop_left]
        refine ⟨skip, a1, _, a3, cs.zipIdx.map (fun c => ⟨x + skip.toNat / 2 + c.2, r, c.1⟩), ?_,
          (o', Row.places r (x + skip.toNat / 2 + cs.length) row), ?_, ?_⟩
        · rw [decodeRun_eq_ok, half_eq]
          refine ⟨cs, hto.symm, ?_, rfl⟩
          rw [hto, a4, hdrop]
        · rw [hto, half_eq, ih]
          exact ⟨row, by simpa using h1, fun g hg => h2 g (by simp [hg]), hdrop, hlen, rfl⟩
        · rw [h5]; rfl

theorem decodeSegs_error {b : List Byte} {r n o x : Nat} {e : ErrCode} (h : decodeSegs b r n o x = .error e) :
    e = .truncatedInput := by
  induction n generalizing o x with
  | zero => cases h
  | succ n ih =>
    simp only [decodeSegs, bind_eq_error] at h
    rcases h with h | ⟨_, _, h | ⟨_, _, h | ⟨_, _, h | ⟨⟨_, _⟩, _, h⟩⟩⟩⟩
    · exact (src8_error h).1
    · exact (src8_error h).1
    · exact decodeRun_error h
    · exact ih h
    · cases h

theorem rowBytes_eq (r : Row) : Row.bytes r = BitVec.ofNat 8 r.length :: segBytes r := rfl

theorem decodeRowsFrom_eq_ok (b : List Byte) (xs n o r o' : Nat) (l : List Placement) :
    decodeRowsFrom b xs n o r = .ok (o', l) ↔ ∃ rs : List Row, rs.length = n ∧ (∀ q ∈ rs, Row.legal q)
      ∧ b.drop o = rowsBytes rs ++ b.drop o' ∧ o' = o + (rowsBytes rs).length ∧ l = rowsPlaces xs r rs := by
  induction n generalizing o r l with
  | zero =>
    simp only [decodeRowsFrom]
    constructor
    · intro h; cases h; exact ⟨[], rfl, by simp, by simp [rowsBytes], by simp [rowsBytes], rfl⟩
    · rintro ⟨rs, hl, -, -, ho, rfl⟩
      have := List.length_eq_zero_iff.mp hl
      subst this
      simp [rowsBytes] at ho; subst ho; rfl
  | succ n ih =>
    simp only [decodeRowsFrom, bind_eq_ok]
    constructor
    · rintro ⟨nseg, hn, ⟨o1, here⟩, hh, ⟨o2, rest⟩, hrest, hl⟩
      cases hl
      obtain ⟨row, h1, h2, h3, h4, h5⟩ := (decodeSegs_eq_ok _ _ _ _ _ _ _).mp hh
      obtain ⟨rs, h6, h7, h8, h9, h10⟩ := (ih _ _ _).mp hrest
      have hr : BitVec.ofNat 8 row.length = nseg := by rw [h1, ofNat8_self]
      refine ⟨row :: rs, by simp [h6], ?_, ?_, ?_, ?_⟩
      · intro q hq
        rcases List.mem_cons.mp hq with rfl | hq
        · exact ⟨by have := nseg.isLt; omega, h2⟩
        · exact h7 q hq
      · rw [drop_of_getElem? ((src8_eq_ok _ _ _).mp hn), h3, h8]
        simp [rowsBytes, rowBytes_eq, hr]
      · rw [h9, h4]; simp [rowsBytes, rowBytes_eq]; omega
      · rw [h5, h10]; rfl
    · rintro ⟨rs, h1, h2, h3, h4, h5⟩
      cases rs with
      | nil => simp at h1
      | cons row rs =>
        obtain ⟨hq1, hq2⟩ := h2 row (by simp)
        have e : rowsBytes (row :: rs) = BitVec.ofNat 8 row.length :: (segBytes row ++ rowsBytes rs) := by
          simp [rowsBytes, rowBytes_eq]
        rw [e] at h3 h4
        simp only [List.cons_append, List.append_assoc] at h3
        obtain ⟨a1, a2⟩ := src8_of_drop h3
        have hto := ofNat8_toNat hq1
        have hdrop : b.drop (o + 1 + (segBytes row).length) = rowsBytes rs ++ b.drop o' := by
          rw [← List.drop_drop, a2, List.drop_left]
        refine ⟨_, a1, (o + 1 + (segBytes row).length, Row.places r xs row), ?_, (o', rowsPlaces xs (r + 1) rs), ?_, ?_⟩
        · rw [hto, decodeSegs_eq_ok]
          exact ⟨row, rfl, hq2, by rw [a2, hdrop], rfl, rfl⟩
        · rw [ih]
          refine ⟨rs, by simpa using h1, fun q hq => h2 q (by simp [hq]), hdrop, ?_, rfl⟩
          rw [h4]; simp; omega
        · rw [h5]; rfl

/-- The whole law of the row decoder (40_pixel_codec.md R157): it gives the offset after the rows and their placements
exactly when rows that have an encoding stand there. -/
theorem decodeRows_eq_ok (b : List Byte) (o n xs o' : Nat) (l : List Placement) :
    decodeRows b o n xs = .ok (o', l) ↔ ∃ rs : List Row, rs.length = n ∧ (∀ q ∈ rs, Row.legal q)
      ∧ b.drop o = rowsBytes rs ++ b.drop o' ∧ o' = o + (rowsBytes rs).length ∧ l = rowsPlaces xs 0 rs :=
  decodeRowsFrom_eq_ok b xs n o 0 o' l

/-- Its only error is TruncatedInput. -/
theorem decodeRows_error {b : List Byte} {o n xs : Nat} {e : ErrCode} (h : decodeRows b o n xs = .error e) :
    e = .truncatedInput := by
  unfold decodeRows at h
  generalize 0 = r at h
  induction n generalizing o r with
  | zero => cases h
  | succ n ih =>
    simp only [decodeRowsFrom, bind_eq_error] at h
    rcases h with h | ⟨_, _, h | ⟨⟨_, _⟩, _, h | ⟨⟨_, _⟩, _, h⟩⟩⟩
    · exact (src8_error h).1
    · exact decodeSegs_error h
    · exact ih _ h
    · cases h

end Sys2Proof.Machine
end

