-- ==== Sys2Proof/Laws/Effects.lean ====
section
/-! SUPPORT. What a command that ends without error can have done, command by command: how long its output is, which
registers it leaves alone, and that it writes only inside its destination window; and which errors it can end with. -/

namespace Sys2Proof.Machine

/-! ## Lengths of outputs -/

@[simp] theorem State.source_length (s : State) : s.source.length = s.slen := Memory.readBytes_length _ _ _

theorem convert_ok {rgba : Colour → List Byte} {tp : BitVec 2} {mask : Colour} {src : List Byte} {dlen : Nat}
    {out : List Byte} (hr : ∀ v, (rgba v).length = 4) (h : convert rgba tp mask src dlen = .ok out) :
    out.length = 4 * (src.length / 2) ∧ 4 * (src.length / 2) ≤ dlen ∧ src.length % 2 = 0
      ∧ out = (bytesColours src).flatMap (convertPixel rgba tp mask) := by
  simp only [convert, bind_eq_ok, require_eq_ok, pure_eq_ok] at h
  obtain ⟨_, h1, _, h2, h3⟩ := h
  cases h3
  refine ⟨?_, by simpa using h2, by simpa using h1, rfl⟩
  have : ∀ l : List Colour, (l.flatMap (convertPixel rgba tp mask)).length = 4 * l.length := by
    intro l
    induction l with
    | nil => rfl
    | cons c l ih =>
      rw [List.flatMap_cons, List.length_append, ih, List.length_cons]
      have : (convertPixel rgba tp mask c).length = 4 := by unfold convertPixel; split <;> simp [hr]
      omega
  rw [this, bytesColours_length]

theorem packPixels_length (rgb : Byte → Byte → Byte → Colour) (tp : BitVec 2) (mask : Colour) (src : List Byte) :
    (packPixels rgb tp mask src).length = src.length / 4 := by
  induction src using packPixels.induct with
  | case1 r g b a rest ih => simp [packPixels, ih]; omega
  | case2 src h =>
    match src, h with
    | [], _ => rfl
    | [_], _ => simp [packPixels]
    | [_, _], _ => simp [packPixels]
    | [_, _, _], _ => simp [packPixels]
    | a :: b :: c :: d :: r, h => exact absurd rfl (h a b c d r)

theorem pack_ok {rgb : Byte → Byte → Byte → Colour} {tp : BitVec 2} {mask : Colour} {src : List Byte} {dlen : Nat}
    {out : List Byte} (h : pack rgb tp mask src dlen = .ok out) :
    out.length = 2 * (src.length / 4) ∧ 2 * (src.length / 4) ≤ dlen ∧ src.length % 4 = 0
      ∧ out = pixelBytes (packPixels rgb tp mask src) := by
  simp only [pack, bind_eq_ok, require_eq_ok, pure_eq_ok] at h
  obtain ⟨_, h1, _, h2, h3⟩ := h
  cases h3
  exact ⟨by simp [packPixels_length], by simpa using h2, by simpa using h1, rfl⟩

@[simp] theorem paint_length (buf : List Colour) (ps : List (Nat × Colour)) : (paint buf ps).length = buf.length := by
  induction ps generalizing buf with
  | nil => rfl
  | cons p ps ih => exact (ih _).trans (by simp)

@[simp] theorem L1Stream.pixels_length (l : L1Stream) (ext : Bool) :
    (l.pixels ext).length = l.outWidth ext * l.height := by simp [L1Stream.pixels]

@[simp] theorem TileStream.place_length (t : TileStream) (fill : Colour) : (t.place fill).length = 576 := by
  rw [TileStream.place, paint_length, List.length_replicate]

@[simp] theorem xorTail_length (r : Block) (bs : List Byte) : (xorTail r bs).length = min bs.length 16 := by
  simp [xorTail]

@[simp] theorem blocksOf_length (n : Nat) (bs : List Byte) : (blocksOf n bs).length = n := by
  induction n generalizing bs with
  | zero => rfl
  | succ n ih => simp [blocksOf, ih]

@[simp] theorem decChain_length (dec : Block → Block) (r : Block) (cs : List Block) :
    (decChain dec r cs).1.length = cs.length := by
  induction cs generalizing r with
  | nil => rfl
  | cons c cs ih => simp [decChain, ih]

@[simp] theorem encChain_length (enc : Block → Block) (r : Block) (ps : List Block) :
    (encChain enc r ps).1.length = ps.length := by
  induction ps generalizing r with
  | nil => rfl
  | cons c cs ih => simp [encChain, ih]

theorem flatMap_blockBytes_length (l : List Block) : (l.flatMap blockBytes).length = 16 * l.length := by
  induction l with
  | nil => rfl
  | cons c cs ih => simp [ih]; omega

theorem payload_ok {chain : Block → List Block → List Block × Block} {seed : Block} {want new : Byte}
    {src : List Byte} {dlen : Nat} {r : List Byte × Block} (hc : ∀ k bs, (chain k bs).1.length = bs.length)
    (h : payload chain seed want new src dlen = .ok r) :
    r.1.length = src.length ∧ 4 ≤ src.length ∧ src.length ≤ dlen ∧ src.head? = some want := by
  simp only [payload, bind_eq_ok, require_eq_ok, pure_eq_ok] at h
  obtain ⟨_, h1, _, h2, _, h3, h4⟩ := h
  cases h4
  have h1 : 4 ≤ src.length := by simpa using h1
  refine ⟨?_, h1, by simpa using h3, by simpa using h2⟩
  simp [hc]
  omega

/-! ## Sprite output -/

@[simp] theorem FrameHdr.record_length (f : FrameHdr) (po : Nat) : (f.record po).length = 32 := by
  unfold FrameHdr.record
  cases f.blocks <;> simp

theorem frameRecords_length (po : Nat) (fs : List FrameHdr) : (frameRecords po fs).length = 32 * fs.length := by
  induction fs generalizing po with
  | nil => rfl
  | cons f fs ih => simp [frameRecords, ih]; omega

@[simp] theorem Sprite.header_length (p : Sprite) : p.header.length = 16 := by simp [Sprite.header]

@[simp] theorem FrameHdr.canvas_length (m : IsoMode) (mk : Colour) (tiles : List TileStream) (f : FrameHdr) :
    (f.canvas m mk tiles).length = f.stride * f.frame.h := by simp [FrameHdr.canvas]

theorem Sprite.output_length (m : IsoMode) (p : Sprite) : (p.output m).length = p.total := by
  have : ∀ fs : List FrameHdr,
      ((fs.filter (fun f => !f.blocks.isEmpty)).flatMap (fun f => pixelBytes (f.canvas m p.mask p.tiles))).length
        = (fs.map FrameHdr.canvasSize).sum := by
    intro fs
    induction fs with
    | nil => rfl
    | cons f fs ih =>
      cases h : f.blocks with
      | nil => simp [h, ih, FrameHdr.canvasSize]
      | cons d ds => simp [h, ih, FrameHdr.canvasSize]; ring
  simp [Sprite.output, Sprite.total, Sprite.canvasBase, frameRecords_length, this]
  omega

/-! ## Compositor writes -/

theorem Frame.land_bound {f : Frame} {mk : Colour} {px py : Int} {tx ty : Nat} {v : Colour} {w : Nat × Colour}
    (h : f.land mk px py tx ty v = some w) : w.1 < strideOf f.w * f.h := by
  simp only [Frame.land] at h
  split at h
  · rename_i hc
    cases h
    obtain ⟨-, h1, h2, h3, h4⟩ := hc
    have hy : (py + ty - f.y1).toNat < f.h := by omega
    have hx : (px + tx - f.x1).toNat < strideOf f.w := by unfold strideOf; omega
    calc (py + ty - f.y1).toNat * strideOf f.w + (px + tx - f.x1).toNat
        < (py + ty - f.y1).toNat * strideOf f.w + strideOf f.w := by omega
      _ = ((py + ty - f.y1).toNat + 1) * strideOf f.w := by ring
      _ ≤ f.h * strideOf f.w := Nat.mul_le_mul_right _ hy
      _ = strideOf f.w * f.h := Nat.mul_comm _ _
  · cases h

theorem blitWrites_bound {f : Frame} {mk : Colour} {px py : Int} {tile : List Colour} {w : Nat × Colour}
    (h : w ∈ blitWrites f mk px py tile) : w.1 < strideOf f.w * f.h := by
  simp only [blitWrites, List.mem_filterMap] at h
  obtain ⟨v, -, hv⟩ := h
  exact Frame.land_bound hv

/-! ## The effect of a command that ends without error -/

/-- What a successful command has left alone: it writes inside its destination window, or nothing when it has none; of
MASK, SET, FIXED and RKEY only what 10_state.md R66 lists; it warns only where 60_exceptions.md R337 says so. -/
structure EffectFits (i : Instr) (s : State) (e : Effect) : Prop where
  inside : ∀ w ∈ e.writes, w.1 + w.2.length ≤ s.dlen
  none : i.usesDest = false → e.writes = []
  mask : i ∉ [Instr.palscan, .maskfin, .sprdec] → e.comp.mask = s.comp.mask
  set : i ∉ [Instr.candrst, .palscan, .tiledec false, .tiledec true, .sprdec] → e.comp.set = s.comp.set
  fixed : i ∉ [Instr.candrst, .palscan, .maskfin, .sprdec] → e.comp.fixed = s.comp.fixed
  rkey : i ∉ [Instr.seed, .decblk, .encblk, .decpay, .encpay] → e.rkey = s.rkey
  warn : i ∉ [Instr.maskfin, .sprdec] → e.warn = false

theorem oneBlock_ok {s : State} {x : Block} (h : s.oneBlock = .ok x) :
    16 ≤ s.slen ∧ 16 ≤ s.dlen ∧ x = bytesBlock (s.source.take 16) := by
  simp only [State.oneBlock, bind_eq_ok, require_eq_ok, pure_eq_ok, srcBlock] at h
  obtain ⟨y, h1, _, h2, h3⟩ := h
  split at h1
  · rename_i h4
    cases h3; cases h1
    exact ⟨by simpa using h4, by simpa using h2, by simp⟩
  · cases h1

theorem oneBlock_error {s : State} {e : ErrCode} (h : s.oneBlock = .error e) :
    e = .truncatedInput ∨ e = .range := by
  simp only [State.oneBlock, bind_eq_error, require_eq_error, pure_eq_ok] at h
  rcases h with h | ⟨_, _, h | ⟨_, _, h⟩⟩
  · exact .inl (srcBlock_error h).1
  · exact .inr h.2.symm
  · cases h

/-- Every successful command fits. -/
theorem effectFits {i : Instr} {s : State} {e : Effect} (h : outcomeOf i s = .ok e) : EffectFits i s e := by
  have hlen := State.source_length s
  cases i <;> simp only [outcomeOf, nop, seed, candrst, cvt555, cvt565, pack555, pack565, l1dec, l1ext, l1enc, isoxy,
    palscan, tiledec, tileenc, maskfin, canvas, blit, sprdec, decblk, encblk, xortail, decpay, encpay, mark, coreenc,
    coredec, keydump, bind_eq_ok, pure_eq_ok, require_eq_ok] at h <;> obtain ⟨_, -, h⟩ := h
  case nop => cases h; constructor <;> simp
  case seed => cases h; constructor <;> simp
  case candrst => cases h; constructor <;> simp
  case cvt555 =>
    obtain ⟨out, h1, h2⟩ := h
    have := convert_ok (fun v => rfl) h1
    cases h2; constructor <;> simp [State.pixelEffect, Instr.usesDest]; omega
  case cvt565 =>
    obtain ⟨out, h1, h2⟩ := h
    have := convert_ok (fun v => rfl) h1
    cases h2; constructor <;> simp [State.pixelEffect, Instr.usesDest]; omega
  case pack555 =>
    obtain ⟨out, h1, h2⟩ := h
    have := pack_ok h1
    cases h2; constructor <;> simp [State.pixelEffect, Instr.usesDest]; omega
  case pack565 =>
    obtain ⟨out, h1, h2⟩ := h
    have := pack_ok h1
    cases h2; constructor <;> simp [State.pixelEffect, Instr.usesDest]; omega
  case l1dec =>
    obtain ⟨l, h1, _, h2, h3⟩ := h
    cases h3
    simp at h2
    constructor <;> simp [L1Stream.effect, Instr.usesDest]
    rw [← Nat.mul_assoc]; exact h2
  case l1ext =>
    obtain ⟨l, h1, h3⟩ := h
    cases h3
    constructor <;> simp [L1Stream.effect]
  case l1enc =>
    obtain ⟨l, h1, _, h2, h3⟩ := h
    cases h3
    constructor <;> simp [Instr.usesDest]; simpa using h2
  case isoxy => cases h; constructor <;> simp
  case palscan =>
    obtain ⟨⟨n, p⟩, h1, h3⟩ := h
    cases h3
    constructor <;> simp
  case tiledec sc _ =>
    obtain ⟨t, h1, h3⟩ := h
    cases sc
    · simp only [Bool.false_eq_true, if_false, bind_eq_ok, require_eq_ok] at h3
      obtain ⟨_, h4, h5⟩ := h3
      cases h5
      constructor <;> simp [Instr.usesDest]; simpa using h4
    · simp only [if_true] at h3
      cases h3
      constructor <;> simp
  case tileenc =>
    obtain ⟨_, h1, out, h2, _, h3, h4⟩ := h
    cases h4
    constructor <;> simp [Instr.usesDest]; simpa using h3
  case maskfin =>
    split at h
    · cases h; constructor <;> simp
    · split at h <;> (cases h; constructor <;> simp)
  case canvas =>
    obtain ⟨_, h1, _, h2, h3⟩ := h
    cases h3
    simp at h2
    constructor <;> simp [Instr.usesDest]
    rw [← Nat.mul_assoc]; exact h2
  case blit =>
    obtain ⟨_, h1, _, h2, _, h3, h4⟩ := h
    cases h4
    constructor <;> simp [Instr.usesDest]
    intro k v j c hw hk hv
    subst hk hv
    have hb := blitWrites_bound hw
    rw [colourBytes_length]
    have h3' : 2 * strideOf s.ops.frameW * s.ops.frameH ≤ s.dlen := by simpa using h3
    rw [Nat.mul_assoc] at h3'
    simp only [Operands.frame] at hb
    omega
  case sprdec =>
    obtain ⟨p, h1, _, h2, h3⟩ := h
    cases h3
    constructor <;> simp [Instr.usesDest, Sprite.output_length]; simpa using h2
  case decblk =>
    obtain ⟨x, h1, h2⟩ := h
    have := oneBlock_ok h1
    cases h2; constructor <;> simp [State.blockEffect, Instr.usesDest]; omega
  case encblk =>
    obtain ⟨x, h1, h2⟩ := h
    have := oneBlock_ok h1
    cases h2; constructor <;> simp [State.blockEffect, Instr.usesDest]; omega
  case xortail =>
    obtain ⟨_, h1, _, h2, h3⟩ := h
    cases h3
    simp at h2
    constructor <;> simp [Instr.usesDest]; omega
  case decpay =>
    obtain ⟨r, h1, h2⟩ := h
    have := payload_ok (fun k bs => decChain_length _ k bs) h1
    cases h2; constructor <;> simp [State.payloadEffect, Instr.usesDest]; omega
  case encpay =>
    obtain ⟨r, h1, h2⟩ := h
    have := payload_ok (fun k bs => encChain_length _ k bs) h1
    cases h2; constructor <;> simp [State.payloadEffect, Instr.usesDest]; omega
  case mark =>
    obtain ⟨b, h1, h2⟩ := h
    cases h2; constructor <;> simp
  case coreenc =>
    obtain ⟨x, h1, h2⟩ := h
    have := oneBlock_ok h1
    cases h2; constructor <;> simp [State.blockEffect, Instr.usesDest]; omega
  case coredec =>
    obtain ⟨x, h1, h2⟩ := h
    have := oneBlock_ok h1
    cases h2; constructor <;> simp [State.blockEffect, Instr.usesDest]; omega
  case keydump =>
    obtain ⟨_, h1, h2⟩ := h
    cases h2
    have h1' : 176 ≤ s.dlen := by simpa using h1
    have h3 : s.roundKeys.toList.length = 11 := by simp
    constructor <;> simp [Instr.usesDest]
    exact h1'

/-- A successful command leaves every byte outside its destination window alone. -/
theorem sameOutside_of_ok {i : Instr} {s : State} {e : Effect} (h : outcomeOf i s = .ok e) :
    sameOutside s.buf (s.completeOk e).buf s.dst s.dlen := by
  intro x hx
  simp only [State.completeOk_buf]
  refine Memory.byteAt_dstWrites_outside _ _ _ _ (fun w hw => ?_)
  have := (effectFits h).inside w hw
  simp only [State.dst] at hx
  omega

end Sys2Proof.Machine
end

