-- ==== Sys2Proof/Laws/PerInstr.lean ====
section
/-! SUPPORT. Per command: the three fields of the word that the encoder writes (30_encoding.md R110, R136). -/

namespace Sys2Proof.Laws

/-- The word of a command has its OP and MODE in their fields and RSV = 0. -/
def EncodeFields.Statement (i : Instr) : Prop :=
  opField (encode i) = i.op ∧ modeField (encode i) = i.mode ∧ rsvField (encode i) = 0#16

theorem EncodeFields.nop : EncodeFields.Statement .nop := by unfold EncodeFields.Statement; decide
theorem EncodeFields.seed : EncodeFields.Statement .seed := by unfold EncodeFields.Statement; decide
theorem EncodeFields.candrst : EncodeFields.Statement .candrst := by unfold EncodeFields.Statement; decide
theorem EncodeFields.cvt555 (tp : BitVec 2) : EncodeFields.Statement (.cvt555 tp) := by unfold EncodeFields.Statement; revert tp; decide
theorem EncodeFields.cvt565 (tp : BitVec 2) : EncodeFields.Statement (.cvt565 tp) := by unfold EncodeFields.Statement; revert tp; decide
theorem EncodeFields.pack555 (tp : BitVec 2) : EncodeFields.Statement (.pack555 tp) := by unfold EncodeFields.Statement; revert tp; decide
theorem EncodeFields.pack565 (tp : BitVec 2) : EncodeFields.Statement (.pack565 tp) := by unfold EncodeFields.Statement; revert tp; decide
theorem EncodeFields.l1dec (b : Bool) : EncodeFields.Statement (.l1dec b) := by unfold EncodeFields.Statement; revert b; decide
theorem EncodeFields.l1ext : EncodeFields.Statement .l1ext := by unfold EncodeFields.Statement; decide
theorem EncodeFields.l1enc (b : Bool) : EncodeFields.Statement (.l1enc b) := by unfold EncodeFields.Statement; revert b; decide
theorem EncodeFields.isoxy : EncodeFields.Statement .isoxy := by unfold EncodeFields.Statement; decide
theorem EncodeFields.palscan : EncodeFields.Statement .palscan := by unfold EncodeFields.Statement; decide
theorem EncodeFields.tiledec (b : Bool) : EncodeFields.Statement (.tiledec b) := by unfold EncodeFields.Statement; revert b; decide
theorem EncodeFields.tileenc : EncodeFields.Statement .tileenc := by unfold EncodeFields.Statement; decide
theorem EncodeFields.maskfin : EncodeFields.Statement .maskfin := by unfold EncodeFields.Statement; decide
theorem EncodeFields.canvas : EncodeFields.Statement .canvas := by unfold EncodeFields.Statement; decide
theorem EncodeFields.blit : EncodeFields.Statement .blit := by unfold EncodeFields.Statement; decide
theorem EncodeFields.sprdec : EncodeFields.Statement .sprdec := by unfold EncodeFields.Statement; decide
theorem EncodeFields.decblk : EncodeFields.Statement .decblk := by unfold EncodeFields.Statement; decide
theorem EncodeFields.encblk : EncodeFields.Statement .encblk := by unfold EncodeFields.Statement; decide
theorem EncodeFields.xortail : EncodeFields.Statement .xortail := by unfold EncodeFields.Statement; decide
theorem EncodeFields.decpay : EncodeFields.Statement .decpay := by unfold EncodeFields.Statement; decide
theorem EncodeFields.encpay : EncodeFields.Statement .encpay := by unfold EncodeFields.Statement; decide
theorem EncodeFields.mark : EncodeFields.Statement .mark := by unfold EncodeFields.Statement; decide
theorem EncodeFields.coreenc : EncodeFields.Statement .coreenc := by unfold EncodeFields.Statement; decide
theorem EncodeFields.coredec : EncodeFields.Statement .coredec := by unfold EncodeFields.Statement; decide
theorem EncodeFields.keydump : EncodeFields.Statement .keydump := by unfold EncodeFields.Statement; decide

end Sys2Proof.Laws
end

