-- ==== Sys2Proof/Tests/Slice0.lean ====
section
/-! SUPPORT. Tests. The ill-formed terms that WellFormed refuses; words written out from the encoding of the spec; one
or two vectors of 95_test_vectors.md for each command; and, for each statement that has hypotheses, a state that meets
them, each clause at an edge of its range. -/

namespace Sys2Proof.Tests

open Sys2Proof Sys2Proof.Machine

-- One theorem at a time: each waiting one would hold a thread and its stack.
set_option Elab.async false

/-! ## Helpers -/

/-- The parameters of the vectors (95_test_vectors.md, Conventions), with the smallest BUF. -/
def params : Config := ⟨0, 0x1000, 0x100000, 0x7C00#16, .floor, 0x0F0E0D0C0B0A09080706050403020100#128, 0#128, .testTI⟩

/-- After power-on. -/
def idle : State := State.powerOn params

/-- Bytes from numbers. -/
def bytes (l : List Nat) : List Byte := l.map (BitVec.ofNat 8)

/-- The windows of the vectors: SRC 0x100, DST 0x4000. -/
def windows (slen dlen : Nat) : State := idle.window 0x100 slen 0x4000 dlen

/-- These bytes as the source, with room for `dlen` bytes of output. -/
def holding (l : List Nat) (dlen : Nat) : State := (windows l.length dlen).withMem 0x100 (bytes l)

/-- A command word is pending. -/
def pending (w : Word) : State := idle.issue w

/-- ERRCODE, the results and the first `n` destination bytes after a command. -/
def outcome (i : Instr) (s : State) (n : Nat) : Byte × Quad × List Byte :=
  let t := runCommand i s
  (t.errcode, t.res, Memory.readBytes t.buf s.dst n)

/-- The destination bytes from offset `o` after a command. -/
def outAt (i : Instr) (s : State) (o n : Nat) : List Byte := Memory.readBytes (runCommand i s).buf (s.dst + o) n

/-- ERRCODE after a command. -/
def errorAfter (i : Instr) (s : State) : Byte := (runCommand i s).errcode

/-- What `holding` puts into the source window. -/
theorem holding_source (l : List Nat) (dlen : Nat) (h : l.length < 2 ^ 32) : (holding l dlen).source = bytes l := by
  have hn : (BitVec.ofNat 32 l.length).toNat = (bytes l).length := by
    rw [BitVec.toNat_ofNat, Nat.mod_eq_of_lt h, bytes, List.length_map]
  unfold State.source holding State.withMem windows State.window
  dsimp only
  rw [hn]
  exact Memory.readBytes_writeBytes _ _ _

/-! ## WellFormed refuses TP = 3 (30_encoding.md R114) -/

theorem test_wellFormed_refuses_cvt555_tp3 : (Instr.cvt555 3#2).wellFormed = false := by decide
theorem test_wellFormed_refuses_cvt565_tp3 : (Instr.cvt565 3#2).wellFormed = false := by decide
theorem test_wellFormed_refuses_pack555_tp3 : (Instr.pack555 3#2).wellFormed = false := by decide
theorem test_wellFormed_refuses_pack565_tp3 : (Instr.pack565 3#2).wellFormed = false := by decide

/-! ## Words from the opcode map (30_encoding.md R112, R113), every constructor and every option -/

theorem test_decode_nop : decode 0x00000000#32 = .ok .nop := by decide
theorem test_decode_seed : decode 0x00000001#32 = .ok .seed := by decide
theorem test_decode_candrst : decode 0x00000002#32 = .ok .candrst := by decide
theorem test_decode_cvt555 : decode 0x00000010#32 = .ok (.cvt555 0#2) ∧ decode 0x00000210#32 = .ok (.cvt555 2#2) := by
  decide
theorem test_decode_cvt565 : decode 0x00000111#32 = .ok (.cvt565 1#2) ∧ decode 0x00000211#32 = .ok (.cvt565 2#2) := by
  decide
theorem test_decode_pack555 : decode 0x00000112#32 = .ok (.pack555 1#2) ∧ decode 0x00000212#32 = .ok (.pack555 2#2) := by
  decide
theorem test_decode_pack565 : decode 0x00000013#32 = .ok (.pack565 0#2) ∧ decode 0x00000113#32 = .ok (.pack565 1#2) := by
  decide
theorem test_decode_l1dec : decode 0x00000014#32 = .ok (.l1dec false) ∧ decode 0x00000114#32 = .ok (.l1dec true) := by
  decide
theorem test_decode_l1ext : decode 0x00000015#32 = .ok .l1ext := by decide
theorem test_decode_l1enc : decode 0x00000016#32 = .ok (.l1enc false) ∧ decode 0x00000116#32 = .ok (.l1enc true) := by
  decide
theorem test_decode_isoxy : decode 0x00000020#32 = .ok .isoxy := by decide
theorem test_decode_palscan : decode 0x00000021#32 = .ok .palscan := by decide
theorem test_decode_tiledec :
    decode 0x00000022#32 = .ok (.tiledec false) ∧ decode 0x00000122#32 = .ok (.tiledec true) := by decide
theorem test_decode_tileenc : decode 0x00000023#32 = .ok .tileenc := by decide
theorem test_decode_maskfin : decode 0x00000024#32 = .ok .maskfin := by decide
theorem test_decode_canvas : decode 0x00000025#32 = .ok .canvas := by decide
theorem test_decode_blit : decode 0x00000026#32 = .ok .blit := by decide
theorem test_decode_sprdec : decode 0x00000027#32 = .ok .sprdec := by decide
theorem test_decode_decblk : decode 0x00000030#32 = .ok .decblk := by decide
theorem test_decode_encblk : decode 0x00000031#32 = .ok .encblk := by decide
theorem test_decode_xortail : decode 0x00000032#32 = .ok .xortail := by decide
theorem test_decode_decpay : decode 0x00000033#32 = .ok .decpay := by decide
theorem test_decode_encpay : decode 0x00000034#32 = .ok .encpay := by decide
theorem test_decode_mark : decode 0x00000035#32 = .ok .mark := by decide
theorem test_decode_coreenc : decode 0x00000036#32 = .ok .coreenc := by decide
theorem test_decode_coredec : decode 0x00000037#32 = .ok .coredec := by decide
theorem test_decode_keydump : decode 0x00000038#32 = .ok .keydump := by decide

/-- V149 to V157 and V31, V42: illegal words, each with the part that makes it so. -/
theorem test_decode_illegal :
    decode 0x00000003#32 = .error .reservedOp ∧ decode 0x000000FF#32 = .error .reservedOp
      ∧ decode 0x00000039#32 = .error .reservedOp ∧ decode 0x00000100#32 = .error .reservedMode
      ∧ decode 0x00010000#32 = .error .reservedBits ∧ decode 0x80000000#32 = .error .reservedBits
      ∧ decode 0x00000310#32 = .error .reservedMode ∧ decode 0x00000414#32 = .error .reservedMode
      ∧ decode 0x00000222#32 = .error .reservedMode ∧ decode 0x00000312#32 = .error .reservedMode
      ∧ decode 0x00000115#32 = .error .reservedMode := by decide

/-! ## Vectors of 95_test_vectors.md -/

/-- V147, with no command before it. -/
theorem test_nop_v147 : outcome .nop idle 0 = (0#8, ⟨0, 0, 0, 0⟩, []) ∧ (runCommand .nop idle).cmdcnt = 1#32 := by
  decide +kernel

/-- V146. -/
theorem test_seed_v146 : (runCommand .seed { idle with rkey := Quad.zero }).rkey
    = ⟨0x03020100, 0x07060504, 0x0B0A0908, 0x0F0E0D0C⟩ := by decide +kernel

/-- V148. -/
theorem test_candrst_v148 :
    (runCommand .candrst { idle with comp := ⟨0x1234, 3, true⟩ }).comp = ⟨0x1234, 0x7F, false⟩ := by decide +kernel

/-- V12. -/
theorem test_cvt555_v12 : outcome (.cvt555 1#2) (holding [0, 0, 0xFF, 0x7F, 0, 0x80] 0x8000) 12
    = (0#8, ⟨3, 0, 0, 12⟩, bytes [0, 0, 0, 0, 0xFF, 0xFF, 0xFF, 0xFF, 0, 0, 0, 0xFF]) := by decide +kernel

/-- V13. -/
theorem test_cvt555_v13 : outcome (.cvt555 2#2) (holding [0, 0x7C, 0x1F, 0] 0x8000) 8
    = (0#8, ⟨2, 0, 0, 8⟩, bytes [0, 0, 0, 0, 0, 0, 0xFF, 0xFF]) := by decide +kernel

/-- V19 and V3. -/
theorem test_cvt565_v19 : outcome (.cvt565 0#2) (holding [0xE0, 7, 0x20, 0, 0x30, 0x84] 0x8000) 12
    = (0#8, ⟨3, 0, 0, 12⟩, bytes [0, 0xFF, 0, 0xFF, 0, 4, 0, 0xFF, 0x84, 0x86, 0x84, 0xFF]) := by decide +kernel

/-- V23. -/
theorem test_pack555_v23 : outcome (.pack555 2#2) (holding [0xFF, 0xFF, 0xFF, 0, 0x12, 0x34, 0x56, 0x80] 0x8000) 4
    = (0#8, ⟨2, 0, 0, 4⟩, bytes [0, 0x7C, 0xCA, 8]) := by decide +kernel

/-- V28, and V30 beside it. -/
theorem test_pack565_v28 : outcome (.pack565 0#2) (holding [0x84, 0x84, 0x84, 0xFF] 0x8000) 2
      = (0#8, ⟨1, 0, 0, 2⟩, bytes [0x30, 0x84])
    ∧ outAt (.pack565 1#2) (holding [0xFF, 0xFF, 0xFF, 0] 0x8000) 0 2 = bytes [0, 0] := by decide +kernel

/-- V36: an odd skip is halved downwards, and the two last bytes are not read. -/
theorem test_l1dec_v36 : outcome (.l1dec false) (holding [0, 0, 3, 1, 1, 3, 1, 0x34, 0x12, 0, 0] 0x8000) 6
    = (0#8, ⟨0x01030000, 3, 1, 9⟩, bytes [0, 0, 0x34, 0x12, 0, 0]) := by decide +kernel

/-- V40. -/
theorem test_l1dec_v40 : outcome (.l1dec true) (holding [0, 0, 2, 1, 1, 4, 1, 0x1F, 0] 0x8000) 6
    = (0#8, ⟨0x01020000, 3, 1, 9⟩, bytes [0, 0, 0, 0, 0x1F, 0]) := by decide +kernel

/-- V39. -/
theorem test_l1ext_v39 : (runCommand .l1ext (holding [0, 0, 2, 1, 1, 4, 1, 0x1F, 0] 0x8000)).res
    = ⟨0x01020000, 3, 1, 9⟩ := by decide +kernel

/-- ARG0 set. -/
def withArg0 (s : State) (v : Word) : State := { s with ops := { s.ops with arg0 := v } }

/-- V44. -/
theorem test_l1enc_v44 :
    outcome (.l1enc false) (withArg0 (holding [0, 0, 0x0A, 0, 0, 0, 0, 0, 0x0B, 0, 0x0B, 0] 0x8000) 0x01060000#32) 15
      = (0#8, ⟨0x01060000, 6, 1, 15⟩, bytes [0, 0, 6, 1, 2, 2, 1, 0x0A, 0, 4, 2, 0x0B, 0, 0x0B, 0]) := by decide +kernel

/-- V45, the row itself: the gap of 150 is split as 127 + 23. -/
theorem test_l1enc_v45 :
    encodeRow (List.replicate 150 0#16 ++ [0x1234#16] ++ List.replicate 49 0#16) 0 0#16
      = .ok (bytes [2, 0xFE, 0, 0x2E, 1, 0x34, 0x12]) := by decide +kernel

/-- ARG3 set. -/
def withArg3 (s : State) (v : Word) : State := { s with ops := { s.ops with arg3 := v } }

/-- V56. -/
theorem test_isoxy_v56 : (runCommand .isoxy (withArg3 idle 0xFFFF80FF#32)).res = ⟨0xFFFFF400, 0xFFFFFA0C, 0, 0⟩ := by
  decide +kernel

/-- V55: the other reading of the parenthesis. -/
theorem test_isoxy_v55 :
    (runCommand .isoxy (withArg3 (State.powerOn { params with isoNegA := .decrementAll }) 0xFF#32)).res
      = ⟨0xFFFFFFE8, 12, 0, 0⟩ := by decide +kernel

/-- V60. -/
theorem test_palscan_v60 :
    (runCommand .palscan (holding [3, 0, 0x7C, 0, 3, 0x34, 0x12] 0)).comp = ⟨0x001F, 0x7C, true⟩
      ∧ (runCommand .palscan (holding [3, 0, 0x7C, 0, 3, 0x34, 0x12] 0)).res = ⟨3, 0x7C, 0x1F, 7⟩ := by decide +kernel

/-- V61: no candidate left, so nothing is fixed. -/
theorem test_palscan_v61 :
    (runCommand .palscan (holding [7, 0, 0x7C, 0, 3, 0x1F, 0, 0xE0, 0x7F, 0xFF, 3, 0x1F, 0x7C, 0xFF, 0x7F] 0)).comp
      = ⟨0x7C00, 0, false⟩ := by decide +kernel

/-- V67: column 3 of row 3, and the two pixels beside it. -/
theorem test_tiledec_v67 :
    outAt (.tiledec false) (holding [2, 3, 0, 1, 1, 2, 1, 0x1F, 0] 0x8000) 148 6 = bytes [0, 0x7C, 0x1F, 0, 0, 0x7C]
      ∧ (runCommand (.tiledec false) (holding [2, 3, 0, 1, 1, 2, 1, 0x1F, 0] 0x8000)).res
        = ⟨0x01000302, 0x7B, 0, 9⟩ := by decide +kernel

/-- V73: a row below the tile is dropped. -/
theorem test_tiledec_v73 :
    outAt (.tiledec false) (holding [0, 0x17, 0, 2, 1, 0, 1, 0x33, 0x33, 1, 0, 1, 0x44, 0x44] 0x8000) 1104 4
      = bytes [0x33, 0x33, 0, 0x7C] := by decide +kernel

/-- The tile of V81. -/
def tileOfV81 : List Nat :=
  List.flatten (List.replicate 53 [0, 0x7C]) ++ [1, 0] ++ List.flatten (List.replicate 49 [0, 0x7C]) ++ [2, 0]
    ++ List.flatten (List.replicate 472 [0, 0x7C])

/-- V81. -/
theorem test_tileenc_v81 : tileenc (holding tileOfV81 0x8000)
    = .ok (((holding tileOfV81 0x8000).finish 0x03000205 0 0 15).withOut
        (bytes [5, 2, 0, 3, 1, 0, 1, 1, 0, 0, 1, 4, 1, 2, 0])) := by
  unfold tileenc
  rw [holding_source _ _ (by decide +kernel)]
  decide +kernel

/-- V82 and V85: the fallback is reported, a candidate is not. -/
theorem test_maskfin_v82 :
    (runCommand .maskfin { idle with comp := ⟨0x7C00, 0, false⟩ }).warncode = 4#8
      ∧ (runCommand .maskfin { idle with comp := ⟨0x7C00, 0, false⟩ }).res = ⟨0x7C00, 1, 0, 0⟩
      ∧ (runCommand .maskfin { idle with comp := ⟨0x7C00, 6, false⟩ }).comp = ⟨0x0300, 6, true⟩ := by decide +kernel

/-- ARG1 and ARG2 set. -/
def withFrame (s : State) (w h : Word) : State := { s with ops := { s.ops with arg1 := w, arg2 := h } }

/-- V88. -/
theorem test_canvas_v88 : outcome .canvas (withFrame (windows 0 0x8000) 3#32 2#32) 16
    = (0#8, ⟨4, 2, 0, 16⟩, bytes (List.flatten (List.replicate 8 [0, 0x7C]))) := by decide +kernel

/-- V99: three pixels of the top row are placed, and the pad column keeps its value. -/
theorem test_blit_v99 :
    blit (withFrame (holding (List.replicate 1152 0x11) 0x8000) 3#32 1#32)
      = .ok { (withFrame (holding (List.replicate 1152 0x11) 0x8000) 3#32 1#32).finish 3 0 0 0 with
          writes := [(0, bytes [0x11, 0x11]), (2, bytes [0x11, 0x11]), (4, bytes [0x11, 0x11])] } := by
  unfold blit
  rw [show (withFrame (holding (List.replicate 1152 0x11) 0x8000) 3#32 1#32).source = bytes (List.replicate 1152 0x11)
    from holding_source _ _ (by decide +kernel)]
  decide +kernel

/-- The container of V107. -/
def spriteOfV107 : List Nat :=
  [0xFF, 2, 0, 0x7C, 0, 3, 1, 0, 0, 0, 0, 1, 0, 0, 0, 0, 0, 0, 0, 1, 0, 0, 0, 0, 0, 0, 1, 0, 0, 0, 0, 0, 0, 0, 0, 0, 0, 1,
    1, 0, 2, 0x12, 0x34, 0x1F, 0]

/-- V107. -/
theorem test_sprdec_v107 :
    (runCommand .sprdec (holding spriteOfV107 0x8000)).res = ⟨1, 1, 0x1F, 0x34⟩
      ∧ (runCommand .sprdec (holding spriteOfV107 0x8000)).comp = ⟨0x001F, 0x78, true⟩
      ∧ outAt .sprdec (holding spriteOfV107 0x8000) 0x30 4 = bytes [0x12, 0x34, 0x1F, 0] := by decide +kernel

/-- V115: a frame without blocks is not checked and has no canvas. -/
theorem test_sprdec_v115 :
    outcome .sprdec (holding [1, 5, 0, 0, 0, 4, 0, 0, 0, 0, 0, 0, 0, 0, 0, 0, 0, 0, 0] 0x8000) 24
      = (0#8, ⟨1, 0, 0x7C00, 0x30⟩, bytes [1, 0, 0, 0x7C, 0, 0, 0, 0, 0, 0, 0, 0, 0x30, 0, 0, 0, 5, 0, 0, 0, 4, 0, 0, 0]) := by
  decide +kernel

/-- V117. -/
theorem test_decblk_v117 :
    outcome .decblk (holding (List.range' 0x10 16) 0x8000) 16
      = (0#8, ⟨0, 0, 0, 16⟩, bytes [0x0F, 0x11, 0x13, 0x11, 0x17, 0x11, 0x13, 0x11, 0x1F, 0x11, 0x13, 0x11, 0x17, 0x11, 0x13, 0x11])
      ∧ (runCommand .decblk (holding (List.range' 0x10 16) 0x8000)).rkey
        = ⟨0x13121110, 0x17161514, 0x1B1A1918, 0x1F1E1D1C⟩ := by decide +kernel

/-- V118. -/
theorem test_encblk_v118 :
    outcome .encblk (holding (List.replicate 16 0) 0x8000) 16 = (0#8, ⟨0, 0, 0, 16⟩, bytes (List.range' 1 16))
      ∧ (runCommand .encblk (holding (List.replicate 16 0) 0x8000)).rkey
        = ⟨0x04030201, 0x08070605, 0x0C0B0A09, 0x100F0E0D⟩ := by decide +kernel

/-- V120. -/
theorem test_xortail_v120 :
    outcome .xortail (holding [0x61, 0x62] 0x8000) 2 = (0#8, ⟨0, 0, 0, 2⟩, bytes [0x61, 0x63]) := by decide +kernel

/-- V124. -/
theorem test_decpay_v124 :
    outcome .decpay (holding [0x58, 0xAA, 0xBB, 0xCC, 0x42, 0x41, 0x44, 0x43, 0x46, 0x45, 0x48, 0x47, 0x4A, 0x49, 0x4C,
        0x4B, 0x4E, 0x4D, 0x50, 0x4F, 0, 2, 0] 0x8000) 23
      = (0#8, ⟨1, 3, 0, 0x17⟩, bytes ([0x3C, 0xAA, 0xBB, 0xCC] ++ List.replicate 16 0x41 ++ [0x42, 0x43, 0x44])) := by
  decide +kernel

/-- V134: the rolling key of a block is the output of the one before. -/
theorem test_encpay_v134 :
    outcome .encpay (holding ([0x3C, 1, 2, 3] ++ List.replicate 32 0) 0x8000) 36
      = (0#8, ⟨2, 0, 0, 0x24⟩, bytes ([0x58, 1, 2, 3] ++ List.range' 1 16 ++ List.range' 2 16)) := by decide +kernel

/-- V135 to V137. -/
theorem test_mark_v135 :
    (runCommand .mark (holding [0x58, 0] 0)).res = ⟨1, 0x58, 0, 0⟩ ∧ (runCommand .mark (holding [0x3C] 0)).res = ⟨2, 0x3C, 0, 0⟩
      ∧ (runCommand .mark (holding [0x41] 0)).res = ⟨0, 0x41, 0, 0⟩ := by decide +kernel

/-- V139. -/
theorem test_coreenc_v139 : outcome .coreenc (holding (List.replicate 16 0xFF) 0x8000) 16
    = (0#8, ⟨0, 0, 0, 16⟩, bytes (List.replicate 16 0)) := by decide +kernel

/-- V140. -/
theorem test_coredec_v140 : outcome .coredec (holding (List.replicate 16 0) 0x8000) 16
    = (0#8, ⟨0, 0, 0, 16⟩, bytes (List.replicate 16 0xFF)) := by decide +kernel

/-- V144. -/
theorem test_keydump_v144 :
    outcome .keydump { windows 0 0x8000 with key := ⟨0x03020100, 0x07060504, 0x0B0A0908, 0x0F0E0D0C⟩ } 176
      = (0#8, ⟨11, 0, 0, 176⟩, bytes (List.flatten (List.replicate 11 (List.range 16)))) := by decide +kernel

/-- V162: an error leaves the results of the command before it. -/
theorem test_error_v162 :
    let t := runCommand (.cvt555 0#2) (holding [0xFF, 0x7F, 0x10, 0x42] 0x4000)
    let u := runCommand (.cvt555 0#2) (t.window 0x100 3 0x4000 0x4000)
    (u.errcode, u.res, u.cmdcnt) = (7#8, ⟨2, 0, 0, 8⟩, 2#32) := by decide +kernel

/-! ## What meets the hypotheses of the statements

`passes cs` says that every check of a list is false, `stopsAt n cs` that check number `n` is the first that is true. -/

/-- Every check is false. -/
def passes : List (Prop × Byte) → Prop
  | [] => True
  | c :: cs => ¬ c.1 ∧ passes cs

/-- Check number `n` is the first that is true. -/
def stopsAt : Nat → List (Prop × Byte) → Prop
  | _, [] => False
  | 0, c :: _ => c.1
  | n + 1, c :: cs => ¬ c.1 ∧ stopsAt n cs

/-- `idle` with these windows. -/
def win (src slen dst dlen : Nat) : State := idle.window src slen dst dlen

/-! ### Decoding -/

theorem witness_DecodeRefusesInOrder :
    (∀ n ∈ [3, 0xF, 0x17, 0x1F, 0x28, 0x2F, 0x39, 0xFF], decode (BitVec.ofNat 32 n) = .error .reservedOp)
      ∧ (∀ n ∈ [0, 2, 0x10, 0x16, 0x20, 0x27, 0x30, 0x38], decode (BitVec.ofNat 32 n) ≠ .error .reservedOp)
      ∧ rsvField 0x10000#32 ≠ 0#16 ∧ rsvField 0xFFFF#32 = 0#16 := by decide

theorem witness_OpcodeRowsDisjoint :
    (∀ r ∈ opTable, r.matches r.matchWord = true) ∧ (∀ r ∈ opTable, r.matches 0x39#32 = false) := by decide

/-! ### Steps -/

theorem witness_StepKeepsInvariant :
    (pending 0x10#32).Inv ∧ ∃ t, step (pending 0x10#32) = .next t :=
  ⟨by unfold State.Inv; decide, _, rfl⟩

theorem witness_StepRunsDecoded :
    (pending 0x110#32).status.busy = true ∧ decode (pending 0x110#32).cmd = .ok (.cvt555 1#2)
      ∧ decodeTableWord 32 0x110 = some (.cvt555 1#2) ∧ decodeTableWord 16 0x110 = some (.cvt555 1#2) := by decide

/-- The completion step is the next event. -/
def engineTurnOf (s : State) : State := { s with agenda := [.engine] }

/-- One word for each clause, and each edge of a range. -/
theorem witness_IllegalWordCompletes :
    (0x10000#32).extractLsb' 16 16 ≠ 0#16 ∧ (0x410#32).extractLsb' 10 6 ≠ 0#6 ∧ (0x310#32).extractLsb' 8 2 = 3#2
      ∧ (0x214#32).extractLsb' 9 7 ≠ 0#7 ∧ (0x100#32).extractLsb' 8 8 ≠ 0#8
      ∧ (∀ n ∈ [3, 0xF, 0x17, 0x1F, 0x28, 0x2F, 0x39, 0xFF],
          (pending (BitVec.ofNat 32 n)).status.busy = true ∧ ((pending (BitVec.ofNat 32 n)).cmd.extractLsb' 0 8).toNat = n)
      ∧ (engineTurnOf (pending 3#32)).completionNext := by
  refine ⟨by decide, by decide, by decide, by decide, by decide, by decide, ⟨_, rfl⟩⟩

theorem witness_IssueAccepts : idle.status.busy = false := rfl

theorem witness_CompletionStep :
    (pending 0x10#32).engineNext ∧ (pending 0x10#32).status.busy = true ∧ State.engineNext { idle with agenda := [.engine] }
      ∧ idle.status.busy = false := ⟨.inl rfl, rfl, .inr ⟨_, rfl⟩, rfl⟩

theorem witness_BusyDropsHostWrites :
    (pending 0#32).status.busy = true ∧ (∀ o ∈ [0x000, 0x008, 0xFFC], o % 4 = 0 ∧ o < 4096 ∧ o ≠ 0x004)
      ∧ ∀ e ∈ [(1, 65535), (2, 65534), (4, 65532), (4, 0)], e.2 % e.1 = 0 ∧ e.2 + e.1 ≤ (pending 0#32).cfg.bufSize := by
  decide

/-- A CVT555 with its destination window across the end of BUF is pending. -/
def pendingCvt : State := (win 0x100 4 65530 8).issue 0x10#32

theorem witness_CtrlWriteResets :
    (1#32).getLsbD 1 = false ∧ (2#32).getLsbD 1 = true ∧ idle.status.busy = false
      ∧ decode (pending 3#32).cmd = .error .reservedOp
      ∧ decode (pending 0#32).cmd = .ok .nop ∧ Instr.nop.usesDest = false
      ∧ pendingCvt.status.busy = true ∧ decode pendingCvt.cmd = .ok (.cvt555 0#2) ∧ (Instr.cvt555 0#2).usesDest = true
      ∧ 5 < pendingCvt.dlen ∧ pendingCvt.dst + 5 < pendingCvt.cfg.bufSize
      ∧ ¬ pendingCvt.dst + 6 < pendingCvt.cfg.bufSize := by decide

theorem witness_AcknowledgeClears : idle.status.busy = false := rfl

theorem witness_RegisterReadback :
    idle.status.busy = false
      ∧ (∀ o ∈ [0x000, 0x04C, 0x01C, 0x05C, 0x080, 0xFFC], o % 4 = 0 ∧ o < 4096) := by decide

theorem witness_HostBufReadback :
    idle.status.busy = false
      ∧ ∀ e ∈ [(1, 65535), (2, 65534), (4, 65532), (4, 0)], e.2 % e.1 = 0 ∧ e.2 + e.1 ≤ idle.cfg.bufSize := by decide

theorem witness_HostReadsChangeNothing :
    (∀ o ∈ [0x000, 0xFFC], o % 4 = 0 ∧ o < 4096)
      ∧ ∀ e ∈ [(1, 65535), (2, 65534), (4, 65532), (4, 0)], e.2 % e.1 = 0 ∧ e.2 + e.1 ≤ idle.cfg.bufSize := by decide

/-- Reads just before, just after and across the start of the pending command's destination window, one under a command
without a window, one under an illegal word, and the edges of the reserved offsets. -/
theorem witness_ReadsWhileBusy :
    let s := (win 0x100 4 0x4000 8).issue 0x10#32
    s.status.busy = true ∧ decode s.cmd = .ok (.cvt555 0#2) ∧ 0x3FFC + 4 ≤ s.dst ∧ s.dst + s.dlen ≤ 0x4008
      ∧ 0x4008 % 4 = 0 ∧ 0x4008 + 4 ≤ s.cfg.bufSize ∧ decode (pending 0#32).cmd = .ok .nop
      ∧ (Instr.cvt555 0#2).usesDest = true ∧ Instr.nop.usesDest = false ∧ decode (pending 3#32).cmd = .error .reservedOp
      ∧ (∀ o ∈ [0x01C, 0x058, 0x05C, 0x080, 0xFFC], o % 4 = 0 ∧ o < 4096)
      ∧ ((win 0x100 4 0x4002 8).issue 0x10#32).dst = 0x4000 + 2 := by decide

/-- The last access inside each space and the first outside, and a bad width and alignment. -/
theorem witness_BadHostAccessStops :
    (∀ e ∈ [(2, 0), (4, 2), (4, 4096)], ¬ (e.1 = 4 ∧ e.2 % 4 = 0 ∧ e.2 < 4096))
      ∧ (∀ e ∈ [(3, 0), (2, 1), (2, 65536), (1, 65536), (0, 0)],
          ¬ ((e.1 = 1 ∨ e.1 = 2 ∨ e.1 = 4) ∧ e.2 % e.1 = 0 ∧ e.2 + e.1 ≤ idle.cfg.bufSize))
      ∧ (∀ t ∈ [HostTxn.regRead 4 4092, .bufRead 1 65535, .busWrite 4 0x1FFC 0, .busRead 4 0x10FFFC, .busRead 3 5],
          t.permitted idle.cfg = true)
      ∧ 4095 < 4096 ∧ 65535 < idle.cfg.bufSize ∧ idle.cfg.regBase + 4096 ≤ idle.cfg.bufBase + 0
      ∧ State.bufAccessOk { idle with cfg := { params with regBase := 0x100800 } } 1 0x7FF = true
      ∧ 0x100000 + 0x7FF < 0x100800
      ∧ (∀ x ∈ [0xFFF, 0x2000, 0xFFFFF, 0x110000], (x < idle.cfg.regBase ∨ idle.cfg.regBase + 4096 ≤ x)
          ∧ (x < idle.cfg.bufBase ∨ idle.cfg.bufBase + idle.cfg.bufSize ≤ x)) := by decide

/-- The host is about to make one transaction. -/
def about (s : State) (t : HostTxn) : State := { s with agenda := [.host t] }

theorem witness_IrqFollowsDone :
    (∃ t, step (engineTurnOf { pending 0#32 with ie := true }) = .next t) ∧ (engineTurnOf idle).completionNext
      ∧ (∃ t, step (about idle (.regWrite 4 0x008 2#32)) = .next t) ∧ (2#32).getLsbD 1 = true
      ∧ (∃ t, step (about { idle with ie := true } (.regWrite 4 0x004 0#32)) = .next t) ∧ (0#32).getLsbD 0 = false
      ∧ (∃ t, step (about { idle with ie := true } (.regWrite 4 0x004 2#32)) = .next t)
      ∧ (∃ t, step (about idle (.regWrite 4 0x00C 0#32)) = .next t) :=
  ⟨⟨_, rfl⟩, ⟨_, rfl⟩, ⟨_, rfl⟩, rfl, ⟨_, rfl⟩, rfl, ⟨_, rfl⟩, ⟨_, rfl⟩⟩

/-- BUSY falls at a completion and at a soft reset, and rises at an issue. -/
theorem witness_BusyUntilCompletionOrReset :
    (∃ t, step (pending 0#32) = .next t ∧ (pending 0#32).status.busy = true ∧ t.status.busy = false)
      ∧ (∃ t, step (about (pending 0#32) (.regWrite 4 0x004 2#32)) = .next t ∧ t.status.busy = false)
      ∧ (∃ t, step (about idle (.regWrite 4 0x00C 0#32)) = .next t ∧ t.status.busy = true) :=
  ⟨⟨_, rfl, rfl, rfl⟩, ⟨_, rfl, rfl⟩, ⟨_, rfl, rfl⟩⟩

theorem witness_CmdcntCounts :
    (∃ t, step (engineTurnOf { pending 0#32 with cmdcnt := 0xFFFFFFFF#32 }) = .next t)
      ∧ (HostTxn.regWrite 4 0x004 2#32).resets idle.cfg ∧ ¬ (HostTxn.regWrite 4 0x004 1#32).resets idle.cfg
      ∧ (HostTxn.busWrite 4 0x1004 3#32).resets idle.cfg ∧ ∃ t, step (about idle (.busWrite 4 0x1004 3#32)) = .next t := by
  refine ⟨⟨_, rfl⟩, ⟨_, rfl, rfl⟩, ?_, ⟨_, rfl, rfl⟩, ⟨_, rfl⟩⟩
  rintro ⟨v, h, hv⟩
  simp [HostTxn.regWritten, regAccessOk] at h
  subst h
  simp at hv

theorem witness_PendingCompletes :
    let s : State := { pending 0x10#32 with agenda := [.host (.regRead 4 0x008), .engine, .host (.regWrite 4 0x00C 0#32)] }
    ∀ x, Event.host x ∈ s.agenda → x.permitted s.cfg = true := by
  intro s x h
  simp [s] at h
  rcases h with rfl | rfl <;> rfl

/-! ### Every command -/

theorem witness_ExecKeeps :
    Instr.mark.usesDest = false ∧ Instr.nop ∉ [Instr.palscan, .maskfin, .sprdec]
      ∧ Instr.nop ∉ [Instr.seed, .decblk, .encblk, .decpay, .encpay] := by decide

theorem witness_ErrorChangesOnly :
    ∃ t, exec .decblk (win 0x100 15 0x4000 16) = .next t ∧ t.status.err = true := ⟨_, rfl, by decide +kernel⟩

theorem witness_ErrorsRaised :
    Instr.maskfin.wellFormed = true ∧ (∃ t, exec .maskfin { idle with comp := ⟨0x7C00, 0, false⟩ } = .next t
      ∧ t.warncode = 4#8) ∧ ∃ t, exec .mark idle = .next t ∧ t.errcode = 1#8 :=
  ⟨rfl, ⟨_, rfl, by decide +kernel⟩, ⟨_, rfl, by decide +kernel⟩⟩

/-- Each window one byte past the end of BUF, and just inside; windows that share one byte, and that only touch. -/
theorem witness_windowChecks :
    stopsAt 0 ((win 65535 2 0 8).windowChecks .tileenc) ∧ stopsAt 1 ((win 65534 2 65535 2).windowChecks .tileenc)
      ∧ stopsAt 2 ((win 0x100 16 0x10F 16).windowChecks .tileenc) ∧ passes ((win 0x100 16 0x110 16).windowChecks .tileenc)
      ∧ stopsAt 2 ((win 0x100 16 0x101 16).windowChecks .decblk) ∧ passes ((win 0x100 16 0x100 16).windowChecks .decblk)
      ∧ stopsAt 2 ((win 0x100 16 0x100 16).windowChecks .blit) ∧ passes ((win 65536 0 65536 0).windowChecks .tileenc)
      ∧ passes ((win 0x100 16 65535 2).windowChecks .l1ext) ∧ stopsAt 1 ((win 65535 2 65535 2).windowChecks .keydump) := by
  refine ⟨?_, ?_, ?_, ?_, ?_, ?_, ?_, ?_, ?_, ?_⟩ <;> simp only [stopsAt, passes, State.windowChecks, overlapping_iff] <;> decide +kernel

theorem witness_GenericChecksFirst :
    ∃ s : State, s.status.busy = true ∧ s.completionNext ∧ decode s.cmd = .ok .tileenc
      ∧ ¬ (s.cfg.bufSize < s.src + s.slen) ∧ ¬ (s.cfg.bufSize < s.dst + s.dlen) ∧ s.overlapping ∧ s.src ≠ s.dst :=
  ⟨engineTurnOf ((win 0x100 16 0x10F 16).issue 0x23#32), rfl, ⟨_, rfl⟩, by decide, by decide, by decide, ⟨0x10F, by decide⟩, by decide⟩

theorem witness_SourceNoninterference :
    let s := holding [0x58, 0] 0
    (∀ x, s.src ≤ x → x < s.src + s.slen →
        Memory.byteAt (Memory.writeBytes s.buf 0x102 [1#8]) x = Memory.byteAt s.buf x)
      ∧ ∃ t, exec .mark s = .next t := by
  refine ⟨fun x h1 h2 => ?_, _, rfl⟩
  have h3 : x < 0x102 := h2
  exact Memory.byteAt_writeBytes_outside _ _ _ _ (.inl h3)

theorem witness_CommandSeesAcceptedState :
    (pending 0#32).status.busy = true
      ∧ ∀ x ∈ [HostTxn.regWrite 4 0x020 5#32, .bufWrite 1 0 1#32, .regRead 4 0x040],
        x.permitted (pending 0#32).cfg = true ∧ ¬ x.resets (pending 0#32).cfg := by
  refine ⟨rfl, fun x h => ⟨?_, ?_⟩⟩
  · revert x; decide
  · rintro ⟨v, hv, -⟩
    simp only [List.mem_cons, List.not_mem_nil, or_false] at h
    rcases h with rfl | rfl | rfl <;> simp [HostTxn.regWritten, regAccessOk] at hv

/-! ### The pixel codec -/

/-- The checks of CVT555. -/
def cvtChecks (s : State) : List (Prop × Byte) :=
  s.windowChecks (.cvt555 0#2) ++ [(s.slen % 2 ≠ 0, 7#8), (s.dlen < 4 * (s.slen / 2), 7#8)]

theorem witness_ConvertPixels :
    (2#2 : BitVec 2) ≠ 3#2 ∧ stopsAt 3 (cvtChecks (windows 3 8)) ∧ stopsAt 4 (cvtChecks (windows 4 7))
      ∧ passes (cvtChecks (windows 4 8)) ∧ cleared 1#2 0x7C00#16 0#16 ∧ cleared 2#2 0x7C00#16 0x7C00#16
      ∧ ¬ cleared 0#2 0#16 0#16 ∧ ¬ cleared 1#2 0x7C00#16 0x7C00#16 := by
  simp only [stopsAt, passes, cvtChecks, State.windowChecks, List.cons_append, List.nil_append, overlapping_iff, cleared]
  decide +kernel

/-- The checks of PACK555. -/
def packChecks (s : State) : List (Prop × Byte) :=
  s.windowChecks (.pack555 0#2) ++ [(s.slen % 4 ≠ 0, 7#8), (s.dlen < 2 * (s.slen / 4), 7#8)]

theorem witness_PackPixels :
    stopsAt 3 (packChecks (windows 6 8)) ∧ stopsAt 4 (packChecks (windows 8 3)) ∧ passes (packChecks (windows 8 4))
      ∧ rgbaAt (holding [1, 2, 3, 0] 2).buf 0x100 1#8 2#8 3#8 0#8 := by
  simp only [stopsAt, passes, packChecks, State.windowChecks, List.cons_append, List.nil_append, overlapping_iff, rgbaAt]
  decide +kernel

/-- The rows of V10. -/
def rowsOfV10 : List Row := [[(4#8, [0x1F#16])]]

theorem rowsOfV10_are (rest : List Byte) : rowsAre 1 (bytes [1, 4, 1, 0x1F, 0] ++ rest) rowsOfV10 rest := by
  refine ⟨rfl, ?_, rfl⟩
  simp [rowsOfV10, Row.legal]

/-- A stream of one row, with a byte behind it, at both widths of the image and with room for it and not. -/
theorem witness_L1decDecodes :
    (holding [0, 0, 2, 1, 1, 4, 1, 0x1F, 0, 9] 6).source
        = 0#8 :: 0#8 :: 2#8 :: 1#8 :: (bytes [1, 4, 1, 0x1F, 0] ++ [9#8])
      ∧ rowsAre 1 (bytes [1, 4, 1, 0x1F, 0] ++ [9#8]) rowsOfV10 [9#8] ∧ extentOf (rowsPlaces 0 0 rowsOfV10) = 3
      ∧ passes ((windows 10 6).windowChecks (.l1dec true) ++ [((windows 10 6).dlen < 2 * max 2 3 * 1, 7#8)])
      ∧ stopsAt 3 ((windows 10 5).windowChecks (.l1dec true) ++ [((windows 10 5).dlen < 2 * max 2 3 * 1, 7#8)])
      ∧ passes ((windows 10 4).windowChecks (.l1dec false) ++ [((windows 10 4).dlen < 2 * 2 * 1, 7#8)])
      ∧ (holding [5, 7, 0, 3] 0).source = 5#8 :: 7#8 :: 0#8 :: 3#8 :: []
      ∧ passes ((holding [5, 7, 0, 3] 0).windowChecks (.l1dec false)) := by
  refine ⟨holding_source _ _ (by decide), rowsOfV10_are _, by decide, ?_, ?_, ?_, holding_source _ _ (by decide), ?_⟩ <;>
    simp only [stopsAt, passes, State.windowChecks, List.cons_append, List.nil_append, overlapping_iff] <;> decide +kernel

/-- A stream of one byte less than its row needs, and one without a whole header. -/
theorem witness_ShortStreamsTruncated :
    (∀ i ∈ [Instr.l1dec false, .l1ext, .tiledec true], (windows 3 0).windowsOk i ∧ (windows 3 0).slen < 4)
      ∧ (holding [0, 0, 2, 1, 1, 4, 1, 0x1F] 0).source = 0#8 :: 0#8 :: 2#8 :: 1#8 :: bytes [1, 4, 1, 0x1F]
      ∧ ∀ rs rest, ¬ rowsAre 1 (bytes [1, 4, 1, 0x1F]) rs rest := by
  refine ⟨?_, holding_source _ _ (by decide), ?_⟩
  · intro i hi
    refine ⟨?_, by decide⟩
    simp only [State.windowsOk, overlapping_iff]
    revert i; decide +kernel
  · intro rs rest h
    have h0 : decodeRows (bytes [1, 4, 1, 0x1F]) 0 1 0 = .error .truncatedInput := by decide +kernel
    have h1 := (decodeRows_eq_ok (bytes [1, 4, 1, 0x1F]) 0 1 0 (rowsBytes rs).length (rowsPlaces 0 0 rs)).mpr
      ⟨rs, h.1, h.2.1, by rw [h.2.2, List.drop_left]; rfl, by omega, rfl⟩
    rw [h0] at h1
    cases h1

theorem witness_L1extMeasures :
    (holding [0, 0, 2, 1, 1, 4, 1, 0x1F, 0] 0).source = 0#8 :: 0#8 :: 2#8 :: 1#8 :: (bytes [1, 4, 1, 0x1F, 0] ++ [])
      ∧ rowsAre 1 (bytes [1, 4, 1, 0x1F, 0] ++ []) rowsOfV10 []
      ∧ passes ((holding [0, 0, 2, 1, 1, 4, 1, 0x1F, 0] 0).windowChecks .l1ext) := by
  refine ⟨holding_source _ _ (by decide), rowsOfV10_are _, ?_⟩
  simp only [passes, State.windowChecks, overlapping_iff]
  decide +kernel

/-- The checks of L1ENC on an image of `w x h` whose stream has `n` bytes. -/
def l1encChecks (s : State) (w h n : Nat) : List (Prop × Byte) :=
  s.windowChecks (.l1enc false) ++ [(w ≠ 0 ∧ h ≠ 0 ∧ s.slen < 2 * w * h, 1#8), (s.dlen < n, 7#8)]

/-- The stream of V44 has 15 bytes. -/
theorem witness_L1encEncodes :
    (State.l1Code (withArg0 (holding [0, 0, 0x0A, 0, 0, 0, 0, 0, 0x0B, 0, 0x0B, 0] 15) 0x01060000#32) 0#16 6 1).length = 15
      ∧ passes (l1encChecks (windows 12 15) 6 1 15) ∧ stopsAt 3 (l1encChecks (windows 11 15) 6 1 15)
      ∧ stopsAt 4 (l1encChecks (windows 12 14) 6 1 15) ∧ passes (l1encChecks (windows 0 4) 5 0 4) := by
  refine ⟨by decide +kernel, ?_⟩
  refine ⟨?_, ?_, ?_, ?_⟩ <;> simp only [stopsAt, passes, l1encChecks, State.windowChecks, List.cons_append, List.nil_append, overlapping_iff] <;> decide +kernel

/-- A row of 255 segments and one of 256. -/
theorem witness_EncodeRowFollowsLoop :
    (encodeRow (List.flatten (List.replicate 255 [1#16, 0#16])) 0 0#16).toBool = true
      ∧ encodeRow (List.flatten (List.replicate 256 [1#16, 0#16])) 0 0#16 = .error .range := by decide +kernel

/-! ### The compositor -/

/-- Both modes, on both sides of `a = 0`. -/
theorem witness_IsoxyTransforms :
    isoIs .floor (-1) 0 0 12 ∧ isoIs .decrementAll (-1) 0 (-24) 12 ∧ isoIs .decrementAll 0 0 0 0
      ∧ isoIs .floor (-128) (-128) (-4608) (-768) := by
  unfold isoIs; decide

/-- Both parities of `a` on both sides of 0, and the corners of the range. -/
theorem witness_IsoGeometry :
    (-128 : Int) % 2 = 0 ∧ (-127 : Int) % 2 = 1 ∧ (127 : Int) % 2 = 1 ∧ (0 : Int) ≤ 0 ∧ (-1 : Int) < 0
      ∧ iso .floor (-128) (-128) = (-4608, -768) ∧ iso .floor 127 127 = (4584, 768)
      ∧ iso .floor (-128) 127 = (1512, 2292) ∧ iso .floor 127 (-128) = (-1536, -2292) := by decide

theorem witness_PalscanScans :
    (win 0x100 0 0 0).windowsOk .palscan ∧ (win 0x100 0 0 0).slen = 0
      ∧ Memory.byteAt (holding [2, 0, 0x7C, 1, 0] 0).buf (holding [2, 0, 0x7C, 1, 0] 0).src = BitVec.ofNat 8 2
      ∧ BitVec.ofNat 8 256 = 0#8
      ∧ passes ((windows 513 0).windowChecks .palscan ++ [((windows 513 0).slen < 1 + 2 * 256, 1#8)])
      ∧ stopsAt 3 ((windows 4 0).windowChecks .palscan ++ [((windows 4 0).slen < 1 + 2 * 2, 1#8)]) := by
  refine ⟨?_, ?_, ?_, ?_, ?_, ?_⟩ <;> (try simp only [stopsAt, passes, State.windowsOk, State.windowChecks, List.cons_append, List.nil_append, overlapping_iff]) <;> decide +kernel

theorem witness_TiledecDecodes :
    (holding [2, 3, 0, 1, 1, 4, 1, 0x1F, 0] 1152).source = 2#8 :: 3#8 :: 0#8 :: 1#8 :: (bytes [1, 4, 1, 0x1F, 0] ++ [])
      ∧ rowsAre 1 (bytes [1, 4, 1, 0x1F, 0] ++ []) rowsOfV10 []
      ∧ passes ((windows 9 1152).windowChecks (.tiledec false) ++ [((windows 9 1152).dlen < 1152, 7#8)])
      ∧ stopsAt 3 ((windows 9 1151).windowChecks (.tiledec false) ++ [((windows 9 1151).dlen < 1152, 7#8)])
      ∧ passes ((windows 9 0).windowChecks (.tiledec true)) := by
  refine ⟨holding_source _ _ (by decide), rowsOfV10_are _, ?_⟩
  simp only [stopsAt, passes, State.windowChecks, List.cons_append, List.nil_append, overlapping_iff]
  decide +kernel

/-- The checks of TILEENC with a stream of `n` bytes. -/
def tileencChecks (s : State) (n : Nat) : List (Prop × Byte) :=
  s.windowChecks .tileenc ++ [(s.slen < 1152, 1#8), (s.dlen < n, 7#8)]

/-- BUF as a tile whose bytes are one repeated `n` times, at 0x100. -/
theorem byteAt_holding (l : List Nat) (dlen k v : Nat) (h : l[k]? = some v) :
    Memory.byteAt (holding l dlen).buf (0x100 + k) = BitVec.ofNat 8 v :=
  Memory.byteAt_writeBytes_inside _ _ _ _ _ (by simp [bytes, h])

/-- A tile of mask pixels; and a tile of other pixels, whose box is the whole tile. -/
theorem witness_TileencEncodes :
    (∀ x y, x < 24 → y < 24 → tileAt (holding (List.replicate 1152 0x11) 4).buf 0x100 x y = 0x1111#16)
      ∧ passes (tileencChecks (windows 1152 4) 4) ∧ stopsAt 3 (tileencChecks (windows 1151 4) 4)
      ∧ stopsAt 4 (tileencChecks (windows 1152 3) 4) := by
  refine ⟨fun x y hx hy => ?_, ?_⟩
  · have hb : ∀ k, k < 1152 → Memory.byteAt (holding (List.replicate 1152 0x11) 4).buf (0x100 + k) = 0x11#8 :=
      fun k hk => byteAt_holding _ _ _ 0x11 (by rw [List.getElem?_replicate]; simp [hk])
    unfold tileAt colourAt
    rw [Nat.add_assoc 0x100 _ 1, hb _ (by omega), hb _ (by omega)]
    rfl
  · simp only [stopsAt, passes, tileencChecks, State.windowChecks, List.cons_append, List.nil_append, overlapping_iff]
    decide +kernel

theorem witness_MaskfinFinalises :
    isFirst 0x7F#7 0x7C00#16 ∧ isFirst 0x40#7 0x7FFF#16 := by
  refine ⟨⟨0, rfl, rfl, by decide⟩, ⟨6, rfl, rfl, by decide⟩⟩

/-- The checks of CANVAS. -/
def canvasChecks (s : State) : List (Prop × Byte) :=
  let w := s.ops.arg1.toNat
  let h := s.ops.arg2.toNat
  s.windowChecks .canvas ++ [(w < 1 ∨ 65536 < w ∨ h < 1 ∨ 65536 < h, 7#8), (s.dlen < 2 * (w + w % 2) * h, 7#8)]

/-- A frame of 16384 by 1 and one pixel; each extent one too small and one too large; one byte short. -/
theorem witness_CanvasFills :
    passes (canvasChecks (withFrame (windows 0 0x8000) 16384#32 1#32)) ∧ passes (canvasChecks (withFrame (windows 0 4) 1#32 1#32))
      ∧ stopsAt 3 (canvasChecks (withFrame (windows 0 4) 0#32 1#32)) ∧ stopsAt 3 (canvasChecks (withFrame (windows 0 4) 65537#32 1#32))
      ∧ stopsAt 3 (canvasChecks (withFrame (windows 0 4) 1#32 0#32)) ∧ stopsAt 3 (canvasChecks (withFrame (windows 0 4) 1#32 65537#32))
      ∧ stopsAt 4 (canvasChecks (withFrame (windows 0 15) 3#32 2#32)) := by
  refine ⟨?_, ?_, ?_, ?_, ?_, ?_, ?_⟩ <;> simp only [stopsAt, passes, canvasChecks, State.windowChecks, List.cons_append, List.nil_append, overlapping_iff] <;> decide +kernel

/-- The checks of BLIT. -/
def blitChecks (s : State) : List (Prop × Byte) :=
  let w := s.ops.arg1.toNat
  let h := s.ops.arg2.toNat
  s.windowChecks .blit ++ [(w < 1 ∨ 65536 < w ∨ h < 1 ∨ 65536 < h, 7#8), (s.slen < 1152, 1#8),
    (s.dlen < 2 * (w + w % 2) * h, 7#8)]

theorem witness_BlitPlaces :
    isoIs params.isoNegA ((0xFF#32).extractLsb' 0 8).toInt ((0xFF#32).extractLsb' 8 8).toInt 0 12
      ∧ passes (blitChecks (withFrame (windows 1152 8) 3#32 1#32)) ∧ stopsAt 3 (blitChecks (withFrame (windows 1151 8) 0#32 1#32))
      ∧ stopsAt 4 (blitChecks (withFrame (windows 1151 8) 3#32 1#32)) ∧ stopsAt 5 (blitChecks (withFrame (windows 1152 7) 3#32 1#32)) := by
  refine ⟨by unfold isoIs; decide, ?_⟩
  refine ⟨?_, ?_, ?_, ?_⟩ <;> simp only [stopsAt, passes, blitChecks, State.windowChecks, List.cons_append, List.nil_append, overlapping_iff] <;> decide +kernel

/-- Two tile buffers of which the first two pixels are written: 0x1111 and 0x2222 in the one, 0x3333 and MASK in the
other. -/
def twoTiles : State :=
  withFrame (((windows 1152 8).withMem 0x100 (bytes [0x11, 0x11, 0x22, 0x22])).withMem 0x800 (bytes [0x33, 0x33, 0, 0x7C])) 2#32 1#32

/-- Two BLITs: at (0, 0) both place a pixel, at (1, 0) the first alone. -/
theorem witness_LaterBlitWins :
    ∃ t u, exec .blit twoTiles = .next t ∧ t.errcode = 0#8
      ∧ exec .blit { t with ops := { t.ops with src := 0x800#32, arg3 := 0#32 } } = .next u ∧ u.errcode = 0#8
      ∧ coveredBy (tileAt twoTiles.buf 0x800) 0x7C00#16 0 0 2 0 0 0 0 = some 0x3333#16
      ∧ coveredBy (tileAt twoTiles.buf 0x800) 0x7C00#16 0 0 2 0 0 1 0 = none
      ∧ coveredBy (tileAt twoTiles.buf 0x100) 0x7C00#16 0 0 2 0 0 1 0 = some 0x2222#16 :=
  ⟨_, _, rfl, by rfl, rfl, by rfl, by decide +kernel, by decide +kernel, by decide +kernel⟩

/-- The container of V107, as data. -/
def containerOfV107 : Container where
  palette := some [0x7C00#16, 0x0300#16]
  frames := [⟨0#16, 0#16, 1#16, 0#16, 0#16, 0#16, 1#16, [⟨0#8, 0#8, 0#8, 0#16⟩]⟩]
  tiles := [(0, ⟨0#8, 0#8, 0#8, [[(0#8, [0x3412#16, 0x001F#16])]]⟩)]

theorem witness_SpriteParseReadsContainer :
    containerOfV107.legal ∧ containerOfV107.spelledBy (bytes spriteOfV107)
      ∧ (∀ t ∈ containerOfV107.tiles, containerOfV107.head.length + t.1 < (bytes spriteOfV107).length)
      ∧ refined 0x7F#7 0x7C#7 (fun v => v ∈ [0x7C00#16, 0x0300#16]) ∧ isFirst 0x7C#7 0x001F#16 := by
  refine ⟨?_, ?_, by decide, ?_, ⟨2, rfl, rfl, by decide⟩⟩
  · simp [Container.legal, frontLegal, FrameHdr.legal, idsInside, containerOfV107, TileData.legal, Row.legal, FrameHdr.width, FrameHdr.height]
  · unfold Container.spelledBy
    decide
  · intro i c h
    have hi : i < 7 := by
      by_contra hc
      rw [List.getElem?_eq_none (by simp [Config.candList]; omega)] at h
      cases h
    interval_cases i <;> simp [Config.candList] at h <;> subst h <;> decide

/-- A frame of one pixel with one block, which names tile `id`. -/
def oneBlock (id : BitVec 16) : FrameHdr := ⟨0#16, 0#16, 0#16, 0#16, 0#16, 0#16, 1#16, [⟨0#8, 0#8, 0#8, id⟩]⟩

theorem frontLegal_oneBlock (id : BitVec 16) : frontLegal none 1 [oneBlock id] := by
  simp [frontLegal, FrameHdr.legal, oneBlock, FrameHdr.width, FrameHdr.height]

/-- Nothing at all; a whole header but for its last offset byte; 13 bytes of a frame header. -/
theorem witness_ContainerRefused_ends :
    ContainerRefused [] .truncatedInput ∧ ContainerRefused (bytes [0, 1, 0, 0, 0, 9, 0, 0]) .truncatedInput
      ∧ ContainerRefused (bytes (1 :: List.replicate 13 0)) .truncatedInput :=
  ⟨.headEnds none [] [] (by simp [frontLegal]) (by decide) (by decide) (by decide),
    .headEnds none [] [9#32] (by simp [frontLegal]) (by decide) (by decide) (by decide),
    .frameEnds none 1 [] (bytes (List.replicate 13 0)) (by simp [frontLegal]) (by decide) (by decide) (by decide)⟩

/-- V114, width 0 with a block; V111, tile_count -1; V110, block_id 1 of 1 tile. -/
theorem witness_ContainerRefused_fields :
    ContainerRefused (bytes [1, 5, 0, 0, 0, 4, 0, 0, 0, 0, 0, 0, 0, 1, 0]) .range
      ∧ ContainerRefused (bytes [0, 0xFF, 0xFF, 0xFF, 0xFF]) .range
      ∧ ContainerRefused (headBytes none [oneBlock 1#16] [0#32] ++ bytes [1, 0, 0, 1, 1, 0, 1, 0x22, 0x22]) .range :=
  ⟨.extent none 1 [] ⟨5#16, 0#16, 4#16, 0#16, 0#16, 0#16, 1#16, []⟩ (by simp [frontLegal]) (by decide) (by decide) (by decide)
      (by decide),
    .tileCount none [] 0xFFFFFFFF#32 (by simp [frontLegal]) (by decide) (by decide),
    .blockId none [oneBlock 1#16] [0#32] (frontLegal_oneBlock _) (by decide) (List.prefix_append _ _)
      (by simp [idsInside, oneBlock])⟩

/-- V112, an offset at the end of the container, and V113, a negative one; a tile behind a whole tile, its header cut. -/
theorem witness_ContainerRefused_tiles :
    ContainerRefused (bytes [0, 1, 0, 0, 0, 9, 0, 0, 0, 1, 0, 0, 1, 1, 0, 1, 0x22, 0x22]) .range
      ∧ ContainerRefused (bytes [0, 1, 0, 0, 0, 0xFF, 0xFF, 0xFF, 0xFF, 1, 0, 0, 1, 1, 0, 1, 0x22, 0x22]) .range
      ∧ ContainerRefused (bytes [0, 2, 0, 0, 0, 0, 0, 0, 0, 4, 0, 0, 0, 1, 2, 3, 0, 1, 2, 3]) .truncatedInput := by
  refine ⟨.tileOffset none [] [] [] 9#32 (by simp [frontLegal]) (by decide) (by decide) (by simp [idsInside]) (by simp)
      (by unfold offsetInside; decide),
    .tileOffset none [] [] [] 0xFFFFFFFF#32 (by simp [frontLegal]) (by decide) (by decide) (by simp [idsInside]) (by simp)
      (by unfold offsetInside; decide),
    .tileEnds none [] [0#32] [] 4#32 (by simp [frontLegal]) (by decide) (by decide) (by simp [idsInside]) ?_
      (by unfold offsetInside; decide) ?_⟩
  · intro w hw
    obtain rfl : w = 0#32 := by simpa using hw
    exact ⟨by unfold offsetInside; decide, ⟨1#8, 2#8, 3#8, []⟩, by simp [TileData.legal], by decide⟩
  · rintro ⟨t, -, h⟩
    have h1 := h.length_le
    have h2 : 4 ≤ t.bytes.length := by simp [TileData.bytes]
    have h3 : (List.drop ((headBytes none [] ([0#32] ++ 4#32 :: [])).length + (4#32 : Word).toNat)
      (bytes [0, 2, 0, 0, 0, 0, 0, 0, 0, 4, 0, 0, 0, 1, 2, 3, 0, 1, 2, 3])).length = 3 := by decide
    omega

theorem witness_SprdecComposes :
    (∃ p, spriteParse 0x7C00#16 (bytes spriteOfV107) = .ok p ∧ p.canvasOffset p.frames.length = 0x34)
      ∧ (holding spriteOfV107 0x34).source = bytes spriteOfV107
      ∧ passes ((windows 45 0x34).windowChecks .sprdec ++ [((windows 45 0x34).dlen < 0x34, 7#8)])
      ∧ stopsAt 3 ((windows 45 0x33).windowChecks .sprdec ++ [((windows 45 0x33).dlen < 0x34, 7#8)])
      ∧ spriteParse 0x7C00#16 [] = .error .truncatedInput ∧ (windows 0 0).windowsOk .sprdec := by
  refine ⟨⟨_, rfl, by decide +kernel⟩, holding_source _ _ (by decide), ?_⟩
  simp only [stopsAt, passes, State.windowsOk, State.windowChecks, List.cons_append, List.nil_append, overlapping_iff]
  decide +kernel

theorem witness_MaskRoutesAgree :
    ∃ t, exec .sprdec (holding spriteOfV107 0x34) = .next t ∧ t.errcode = 0#8
      ∧ tileStarts (holding spriteOfV107 0x34).source = .ok [34]
      ∧ (holding spriteOfV107 0x34).source.head? = some 0xFF#8 :=
  ⟨_, rfl, by decide +kernel, by decide +kernel, by decide +kernel⟩

/-! ### The block cipher -/

/-- The checks of the commands on one block. -/
def blockChecks (i : Instr) (s : State) : List (Prop × Byte) := s.windowChecks i ++ [(s.slen < 16, 1#8), (s.dlen < 16, 7#8)]

theorem witness_ChainBlocks :
    ∀ i ∈ [Instr.decblk, .encblk], passes (blockChecks i (windows 16 16)) ∧ stopsAt 3 (blockChecks i (windows 15 15))
      ∧ stopsAt 4 (blockChecks i (windows 16 15)) ∧ passes (blockChecks i (win 0x100 16 0x100 16)) := by
  intro i hi
  refine ⟨?_, ?_, ?_, ?_⟩ <;>
    simp only [stopsAt, passes, blockChecks, State.windowChecks, List.cons_append, List.nil_append, overlapping_iff] <;>
    revert i <;> decide +kernel

theorem witness_CoreTransforms :
    ∀ i ∈ [Instr.coreenc, .coredec], passes (blockChecks i (windows 16 16)) ∧ stopsAt 3 (blockChecks i (windows 15 15))
      ∧ stopsAt 4 (blockChecks i (windows 16 15)) ∧ passes (blockChecks i (win 0x100 16 0x100 16)) := by
  intro i hi
  refine ⟨?_, ?_, ?_, ?_⟩ <;>
    simp only [stopsAt, passes, blockChecks, State.windowChecks, List.cons_append, List.nil_append, overlapping_iff] <;>
    revert i <;> decide +kernel

/-- The checks of XORTAIL. -/
def tailChecks (s : State) : List (Prop × Byte) := s.windowChecks .xortail ++ [(15 < s.slen, 7#8), (s.dlen < s.slen, 7#8)]

theorem witness_XortailXors :
    passes (tailChecks (windows 15 15)) ∧ passes (tailChecks (windows 0 0)) ∧ stopsAt 3 (tailChecks (windows 16 16))
      ∧ stopsAt 4 (tailChecks (windows 2 1)) := by
  simp only [stopsAt, passes, tailChecks, State.windowChecks, List.cons_append, List.nil_append, overlapping_iff]
  decide +kernel

/-- The checks of DECPAY and ENCPAY, `m` being the marker they want. -/
def payChecks (i : Instr) (m : Byte) (s : State) : List (Prop × Byte) :=
  s.windowChecks i ++ [(s.slen < 4, 1#8), (Memory.byteAt s.buf s.src ≠ m, 5#8), (s.dlen < s.slen, 7#8)]

theorem witness_PayloadChains :
    passes (payChecks .decpay 0x58#8 (holding [0x58, 0, 0, 0] 4)) ∧ stopsAt 3 (payChecks .decpay 0x58#8 (holding [0x3C, 0, 0] 4))
      ∧ stopsAt 4 (payChecks .decpay 0x58#8 (holding [0x3C, 0, 0, 0] 3)) ∧ stopsAt 5 (payChecks .decpay 0x58#8 (holding [0x58, 0, 0, 0] 3))
      ∧ passes (payChecks .encpay 0x3C#8 (holding [0x3C, 0, 0, 0] 4)) ∧ stopsAt 3 (payChecks .encpay 0x3C#8 (holding [0x58, 0, 0] 4))
      ∧ stopsAt 4 (payChecks .encpay 0x3C#8 (holding [0x58, 0, 0, 0] 3)) ∧ stopsAt 5 (payChecks .encpay 0x3C#8 (holding [0x3C, 0, 0, 0] 3)) := by
  refine ⟨?_, ?_, ?_, ?_, ?_, ?_, ?_, ?_⟩ <;> simp only [stopsAt, passes, payChecks, State.windowChecks, List.cons_append, List.nil_append, overlapping_iff] <;> decide +kernel

theorem witness_MarkClassifies :
    passes ((windows 1 0).windowChecks .mark ++ [((windows 1 0).slen = 0, 1#8)])
      ∧ stopsAt 3 ((windows 0 0).windowChecks .mark ++ [((windows 0 0).slen = 0, 1#8)]) := by
  simp only [stopsAt, passes, State.windowChecks, List.cons_append, List.nil_append, overlapping_iff]
  decide +kernel

theorem witness_KeydumpWrites :
    passes ((windows 0 176).windowChecks .keydump ++ [((windows 0 176).dlen < 176, 7#8)])
      ∧ stopsAt 3 ((windows 0 175).windowChecks .keydump ++ [((windows 0 175).dlen < 176, 7#8)])
      ∧ (idle.roundKeys[10]?).isSome = true := by
  simp only [stopsAt, passes, State.windowChecks, List.cons_append, List.nil_append, overlapping_iff]
  decide +kernel

/-! ### Round trips -/

theorem witness_PixelRoundTrip :
    let s := holding [0xFF, 0x7F, 0x10, 0x42] 8
    ∃ t u v w, exec (.cvt555 0#2) s = .next t ∧ t.errcode = 0#8
      ∧ exec (.pack555 0#2) (t.window s.dst (4 * (s.slen / 2)) 0x6000 4) = .next u ∧ u.errcode = 0#8
      ∧ exec (.cvt565 0#2) s = .next v ∧ v.errcode = 0#8
      ∧ exec (.pack565 0#2) (v.window s.dst (4 * (s.slen / 2)) 0x6000 4) = .next w ∧ w.errcode = 0#8
      ∧ 0x6000 + 4 ≤ s.cfg.bufSize :=
  ⟨_, _, _, _, rfl, by decide +kernel, rfl, by decide +kernel, rfl, by decide +kernel, rfl, by decide +kernel, by decide⟩

theorem witness_L1RoundTrip :
    let s := withArg0 (holding [0, 0, 0x0A, 0, 0, 0, 0, 0, 0x0B, 0, 0x0B, 0] 15) 0x01060000#32
    ∃ t, exec (.l1enc false) s = .next t ∧ t.errcode = 0#8 ∧ s.dst + t.res.w3.toNat = 0x400F
      ∧ 0x400F + 12 ≤ s.cfg.bufSize ∧ 1 ≤ s.ops.byte2.toNat ∧ 1 ≤ s.ops.byte3.toNat :=
  ⟨_, rfl, by decide +kernel, by decide +kernel, by decide, by decide, by decide⟩

theorem witness_TileRoundTrip :
    ∃ t, exec .tileenc (holding tileOfV81 0x8000) = .next t ∧ t.errcode = 0#8
      ∧ (holding tileOfV81 0x8000).dst + t.res.w3.toNat = 0x400F ∧ 0x400F + 1152 ≤ (holding tileOfV81 0x8000).cfg.bufSize :=
  ⟨_, exec_of_ok (i := .tileenc) test_tileenc_v81, rfl, by rfl, by decide⟩

theorem witness_PayloadRoundTrip :
    (∃ t, exec .encpay (holding [0x3C, 1, 2, 3, 4] 5) = .next t ∧ t.errcode = 0#8)
      ∧ (∃ t, exec .decpay (holding [0x58, 1, 2, 3, 4] 5) = .next t ∧ t.errcode = 0#8)
      ∧ (holding [0x58, 1, 2, 3, 4] 5).dst + (holding [0x58, 1, 2, 3, 4] 5).slen ≤ 0x4005 :=
  ⟨⟨_, rfl, by decide +kernel⟩, ⟨_, rfl, by decide +kernel⟩, by decide⟩

/-- In place, and not. -/
theorem witness_PayloadDecomposes :
    (∃ t, exec .decpay (((win 0x100 21 0x100 21)).withMem 0x100 (bytes (List.replicate 21 0x58))) = .next t ∧ t.errcode = 0#8)
      ∧ ∃ t, exec .encpay (holding (List.replicate 21 0x3C) 21) = .next t ∧ t.errcode = 0#8 :=
  ⟨⟨_, rfl, by decide +kernel⟩, ⟨_, rfl, by decide +kernel⟩⟩

end Sys2Proof.Tests
end

section
/-! What every step does to BUSY and CMDCNT, what a command keeps, and what the registers read after power-on
(10_state.md): the rules about the register map, the host's accesses and the engine's turn, then the statements. -/

namespace Sys2Proof.Machine

/-! ## The register map (10_state.md R30) -/

theorem Reg.offset_of_mem : ∀ e ∈ regMap, e.2.offset = e.1 := by decide

theorem Reg.atOffset_offset (r : Reg) : Reg.atOffset r.offset = some r := by cases r <;> rfl

/-- The register map is one to one. -/
theorem Reg.atOffset_eq_some (o : Nat) (r : Reg) : Reg.atOffset o = some r ↔ r.offset = o := by
  constructor
  · intro h
    obtain ⟨e, hfind, rfl⟩ := Option.map_eq_some_iff.mp h
    have ho : e.1 = o := by simpa using List.find?_some hfind
    exact (Reg.offset_of_mem e (List.mem_of_find?_eq_some hfind)).trans ho
  · rintro rfl
    exact Reg.atOffset_offset r

theorem Reg.offset_lt (r : Reg) : r.offset < 0x080 := by cases r <;> decide

theorem Reg.offset_eq_ctrl (r : Reg) : r.offset = 0x004 ↔ r = .ctrl := by cases r <;> decide

theorem Reg.offset_eq_cmd (r : Reg) : r.offset = 0x00C ↔ r = .cmd := by cases r <;> decide

/-- Past KEY3 every offset is reserved. -/
theorem Reg.atOffset_eq_none_of_le {o : Nat} (h : 0x080 ≤ o) : Reg.atOffset o = none := by
  rw [Option.eq_none_iff_forall_ne_some]
  intro r hr
  have := (Reg.atOffset_eq_some o r).mp hr
  have := r.offset_lt
  omega

/-! ## Register reads (43_system.md R314) -/

theorem State.hostReadReg_rdata_idle {s : State} {o : Nat} {r : Reg} (hb : s.status.busy = false)
    (h : Reg.atOffset o = some r) : (s.hostReadReg o).rdata = s.readReg r := by
  simp [State.hostReadReg, h, hb]

theorem State.hostReadReg_rdata_reserved {s : State} {o : Nat} (h : Reg.atOffset o = none) :
    (s.hostReadReg o).rdata = 0#32 := by
  simp [State.hostReadReg, h]

/-! ## Register writes (43_system.md R313) -/

theorem State.writeReg_ctrl_reset {s : State} {v : Word} (hv : v.getLsbD 1 = true) :
    s.writeReg .ctrl v = s.softReset := if_pos hv

theorem State.writeReg_ctrl_ie {s : State} {v : Word} (hv : ¬ v.getLsbD 1 = true) :
    s.writeReg .ctrl v = { s with ie := v.getLsbD 0 } := if_neg hv

/-- Of the registers that take a write, only CMD raises BUSY and only CTRL, by a soft reset, clears it. -/
theorem State.writeReg_busy (s : State) (r : Reg) (v : Word) :
    (s.writeReg r v).status.busy
      = if r = .ctrl ∧ v.getLsbD 1 = true then false else if r = .cmd then true else s.status.busy := by
  cases r
  case ctrl =>
    by_cases hv : v.getLsbD 1 = true
    · rw [State.writeReg_ctrl_reset hv, if_pos ⟨rfl, hv⟩]; rfl
    · rw [State.writeReg_ctrl_ie hv, if_neg fun h => hv h.2]; rfl
  all_goals rfl

/-- A register write changes CMDCNT only by a soft reset. -/
theorem State.writeReg_cmdcnt (s : State) (r : Reg) (v : Word) :
    (s.writeReg r v).cmdcnt = if r = .ctrl ∧ v.getLsbD 1 = true then 0#32 else s.cmdcnt := by
  cases r
  case ctrl =>
    by_cases hv : v.getLsbD 1 = true
    · rw [State.writeReg_ctrl_reset hv, if_pos ⟨rfl, hv⟩]; rfl
    · rw [State.writeReg_ctrl_ie hv, if_neg fun h => hv h.2]
  all_goals rfl

/-- A permitted register write collides, or takes effect at its register, or does nothing at a reserved offset. -/
theorem State.hostWriteReg_cases (s : State) (o : Nat) (v : Word) :
    (s.status.busy = true ∧ o ≠ 0x004 ∧ s.hostWriteReg o v = s.collide)
      ∨ ((s.status.busy = false ∨ o = 0x004) ∧ ∃ r, r.offset = o ∧ s.hostWriteReg o v = s.writeReg r v)
      ∨ (Reg.atOffset o = none ∧ s.hostWriteReg o v = s) := by
  by_cases hc : s.status.busy = true ∧ o ≠ 0x004
  · exact .inl ⟨hc.1, hc.2, by simp [State.hostWriteReg, hc]⟩
  · have hidle : s.status.busy = false ∨ o = 0x004 := by
      simpa [or_iff_not_imp_left] using hc
    have htaken : (s.status.busy && o != 0x004) = false := by simpa using hc
    cases hr : Reg.atOffset o with
    | some r =>
      exact .inr (.inl ⟨hidle, r, (Reg.atOffset_eq_some o r).mp hr, by simp [State.hostWriteReg, htaken, hr]⟩)
    | none => exact .inr (.inr ⟨rfl, by simp [State.hostWriteReg, htaken, hr]⟩)

theorem State.hostWriteReg_busy (s : State) (o : Nat) (v : Word) :
    (s.hostWriteReg o v).status.busy
      = if o = 0x004 ∧ v.getLsbD 1 = true then false else if o = 0x00C then true else s.status.busy := by
  obtain ⟨hb, ho, h⟩ | ⟨-, r, rfl, h⟩ | ⟨hr, h⟩ := s.hostWriteReg_cases o v <;> rw [h]
  · simp [ho, hb]
  · simp only [State.writeReg_busy, Reg.offset_eq_ctrl, Reg.offset_eq_cmd]
  · have h4 : o ≠ 0x004 := by rintro rfl; cases hr
    have hC : o ≠ 0x00C := by rintro rfl; cases hr
    simp [h4, hC]

theorem State.hostWriteReg_cmdcnt (s : State) (o : Nat) (v : Word) :
    (s.hostWriteReg o v).cmdcnt = if o = 0x004 ∧ v.getLsbD 1 = true then 0#32 else s.cmdcnt := by
  obtain ⟨-, ho, h⟩ | ⟨-, r, rfl, h⟩ | ⟨hr, h⟩ := s.hostWriteReg_cases o v <;> rw [h]
  · simp [ho]
  · simp only [State.writeReg_cmdcnt, Reg.offset_eq_ctrl]
  · have h4 : o ≠ 0x004 := by rintro rfl; cases hr
    simp [h4]

/-- A write to CMD while idle issues its word (43_system.md R317). -/
theorem State.hostWriteReg_cmd_idle {s : State} (v : Word) (hb : s.status.busy = false) :
    s.hostWriteReg 0x00C v = s.issue v := by
  have hr : Reg.atOffset 0x00C = some .cmd := rfl
  simp [State.hostWriteReg, hb, hr, State.writeReg]

/-! ## Host transactions (43_system.md R313 to R316) -/

/-- `t` differs from `s` at most in STATUS.COLL, BUF, and the model's own `draws` and `rdata`: what a host transaction
that writes no register leaves. -/
def State.keepsRegisters (s t : State) : Prop :=
  t = { s with status := { s.status with coll := t.status.coll }, buf := t.buf, draws := t.draws, rdata := t.rdata }

theorem State.keepsRegisters.busy {s t : State} (h : s.keepsRegisters t) : t.status.busy = s.status.busy := by rw [h]

theorem State.keepsRegisters.cmdcnt {s t : State} (h : s.keepsRegisters t) : t.cmdcnt = s.cmdcnt := by rw [h]

theorem State.keepsRegisters_refl (s : State) : s.keepsRegisters s := rfl

theorem State.keepsRegisters_hostReadReg (s : State) (o : Nat) : s.keepsRegisters (s.hostReadReg o) := by
  unfold State.hostReadReg
  split
  · split <;> rfl
  · rfl

theorem State.keepsRegisters_hostWriteBuf (s : State) (n a : Nat) (v : Word) :
    s.keepsRegisters (s.hostWriteBuf n a v) := by
  unfold State.hostWriteBuf
  split <;> rfl

theorem State.keepsRegisters_hostReadBuf (s : State) (n a : Nat) : s.keepsRegisters (s.hostReadBuf n a) := rfl

/-- An access that the bus permits answers its next state; any other is a fault (20_memory.md R88, R89). -/
theorem guarded_eq_next {c : Bool} {a t : State} {f : Fault} :
    (if c then .next a else .fault f : Host.Outcome State Fault Refusal) = .next t ↔ c = true ∧ t = a := by
  cases c <;> simp [eq_comm]

theorem regWriteStep_eq_next {s t : State} {n o : Nat} {v : Word} :
    regWriteStep s n o v = .next t ↔ regAccessOk n o = true ∧ t = s.hostWriteReg o v :=
  guarded_eq_next

theorem regReadStep_eq_next {s t : State} {n o : Nat} :
    regReadStep s n o = .next t ↔ regAccessOk n o = true ∧ t = s.hostReadReg o :=
  guarded_eq_next

theorem bufWriteStep_eq_next {s t : State} {n a : Nat} {v : Word} :
    bufWriteStep s n a v = .next t ↔ s.bufAccessOk n a = true ∧ t = s.hostWriteBuf n a v :=
  guarded_eq_next

theorem bufReadStep_eq_next {s t : State} {n a : Nat} :
    bufReadStep s n a = .next t ↔ s.bufAccessOk n a = true ∧ t = s.hostReadBuf n a :=
  guarded_eq_next

/-- The two things a host transaction can do, host addresses included (20_memory.md R82). -/
theorem hostStep_cases {x : HostTxn} {s t : State} (h : hostStep x s = .next t) :
    (∃ o v, x.regWritten s.cfg = some (o, v) ∧ t = s.hostWriteReg o v)
      ∨ (x.regWritten s.cfg = none ∧ s.keepsRegisters t) := by
  cases x with
  | regWrite n o v =>
    obtain ⟨hok, rfl⟩ := regWriteStep_eq_next.mp h
    exact .inl ⟨o, v, by simp [HostTxn.regWritten, hok], rfl⟩
  | regRead n o =>
    obtain ⟨-, rfl⟩ := regReadStep_eq_next.mp h
    exact .inr ⟨rfl, s.keepsRegisters_hostReadReg o⟩
  | bufWrite n a v =>
    obtain ⟨-, rfl⟩ := bufWriteStep_eq_next.mp h
    exact .inr ⟨rfl, s.keepsRegisters_hostWriteBuf n a v⟩
  | bufRead n a =>
    obtain ⟨-, rfl⟩ := bufReadStep_eq_next.mp h
    exact .inr ⟨rfl, s.keepsRegisters_hostReadBuf n a⟩
  | busWrite n x v =>
    simp only [hostStep, busWriteStep] at h
    cases ho : Config.regOffset s.cfg x with
    | some o =>
      obtain ⟨hok, rfl⟩ := regWriteStep_eq_next.mp (by simpa only [ho] using h)
      exact .inl ⟨o, v, by simp [HostTxn.regWritten, ho, hok], rfl⟩
    | none =>
      refine .inr ⟨by simp [HostTxn.regWritten, ho], ?_⟩
      cases ha : Config.bufOffset s.cfg x with
      | some a =>
        obtain ⟨-, rfl⟩ := bufWriteStep_eq_next.mp (by simpa only [ho, ha] using h)
        exact s.keepsRegisters_hostWriteBuf n a v
      | none =>
        simp only [ho, ha] at h
        cases h
        exact s.keepsRegisters_refl
  | busRead n x =>
    refine .inr ⟨rfl, ?_⟩
    simp only [hostStep, busReadStep] at h
    cases ho : Config.regOffset s.cfg x with
    | some o =>
      obtain ⟨-, rfl⟩ := regReadStep_eq_next.mp (by simpa only [ho] using h)
      exact s.keepsRegisters_hostReadReg o
    | none =>
      cases ha : Config.bufOffset s.cfg x with
      | some a =>
        obtain ⟨-, rfl⟩ := bufReadStep_eq_next.mp (by simpa only [ho, ha] using h)
        exact s.keepsRegisters_hostReadBuf n a
      | none =>
        simp only [ho, ha] at h
        cases h
        exact s.keepsRegisters_refl

/-- Under a host transaction BUSY falls only by a soft reset. -/
theorem hostStep_busy_falls {x : HostTxn} {s t : State} (h : hostStep x s = .next t) (hs : s.status.busy = true)
    (ht : t.status.busy = false) : x.resets s.cfg := by
  obtain ⟨o, v, hw, rfl⟩ | ⟨-, hk⟩ := hostStep_cases h
  · by_cases hreset : o = 0x004 ∧ v.getLsbD 1 = true
    · obtain ⟨rfl, hv⟩ := hreset
      exact ⟨v, hw, hv⟩
    · rw [State.hostWriteReg_busy, if_neg hreset, hs, ite_self] at ht
      cases ht
  · rw [hk.busy, hs] at ht
    cases ht

/-- Under a host transaction BUSY rises only where it writes CMD, which then holds the word. -/
theorem hostStep_busy_rises {x : HostTxn} {s t : State} (h : hostStep x s = .next t) (hs : s.status.busy = false)
    (ht : t.status.busy = true) : ∃ v, x.regWritten s.cfg = some (0x00C, v) ∧ t.cmd = v := by
  obtain ⟨o, v, hw, rfl⟩ | ⟨-, hk⟩ := hostStep_cases h
  · rw [State.hostWriteReg_busy] at ht
    have ho : o = 0x00C := by
      by_contra ho
      simp [ho, hs] at ht
    subst ho
    exact ⟨v, hw, by rw [State.hostWriteReg_cmd_idle v hs, State.issue_cmd]⟩
  · rw [hk.busy, hs] at ht
    cases ht

/-- A soft reset sets CMDCNT to 0 (43_system.md R319). -/
theorem hostStep_cmdcnt_of_resets {x : HostTxn} {s t : State} (h : hostStep x s = .next t) (hx : x.resets s.cfg) :
    t.cmdcnt = 0#32 := by
  obtain ⟨v, hw, hv⟩ := hx
  obtain ⟨o, v', hw', rfl⟩ | ⟨hn, -⟩ := hostStep_cases h
  · rw [hw] at hw'
    cases hw'
    simp [State.hostWriteReg_cmdcnt, hv]
  · rw [hw] at hn
    cases hn

/-- Every other host transaction leaves CMDCNT. -/
theorem hostStep_cmdcnt_of_not_resets {x : HostTxn} {s t : State} (h : hostStep x s = .next t)
    (hx : ¬ x.resets s.cfg) : t.cmdcnt = s.cmdcnt := by
  obtain ⟨o, v, hw, rfl⟩ | ⟨-, hk⟩ := hostStep_cases h
  · have hreset : ¬ (o = 0x004 ∧ v.getLsbD 1 = true) := by
      rintro ⟨rfl, hv⟩
      exact hx ⟨v, hw, hv⟩
    rw [State.hostWriteReg_cmdcnt, if_neg hreset]
  · exact hk.cmdcnt

/-! ## The engine's turn and the step (43_system.md R318, R320) -/

@[simp] theorem State.complete_busy (s : State) (r : Except ErrCode Effect) : (s.complete r).status.busy = false := by
  cases r <;> rfl

@[simp] theorem State.complete_cmdcnt (s : State) (r : Except ErrCode Effect) :
    (s.complete r).cmdcnt = s.cmdcnt + 1#32 := by
  cases r <;> rfl

/-- The outcome of the pending word: that of its command, or IllegalCommand (30_encoding.md R111). -/
def State.pendingOutcome (s : State) : Except ErrCode Effect :=
  match decode s.cmd with
  | .ok i => outcomeOf i s
  | .error _ => .error .illegalCommand

/-- With a command pending, the engine's turn is its completion. -/
theorem engineTurn_of_busy {s : State} (hb : s.status.busy = true) :
    engineTurn s = .next (s.complete s.pendingOutcome) := by
  unfold engineTurn State.pendingOutcome
  rw [if_pos hb]
  cases decode s.cmd with
  | ok i => exact exec_eq i s
  | error e => rfl

theorem engineTurn_of_idle {s : State} (hb : s.status.busy = false) : engineTurn s = .next s := by
  simp [engineTurn, hb]

/-- After the engine's turn no command is pending. -/
theorem engineTurn_busy {s t : State} (h : engineTurn s = .next t) : t.status.busy = false := by
  cases hb : s.status.busy with
  | true => rw [engineTurn_of_busy hb] at h; cases h; exact State.complete_busy s _
  | false => rw [engineTurn_of_idle hb] at h; cases h; exact hb

theorem step_of_engine {s : State} {rest : List Event} (h : s.agenda = .engine :: rest) :
    step s = engineTurn { s with agenda := rest } := by
  simp [step, h]

theorem step_of_host {s : State} {x : HostTxn} {rest : List Event} (h : s.agenda = .host x :: rest) :
    step s = hostStep x { s with agenda := rest } := by
  simp [step, h]

/-- Who moves in a step: the engine, or the host with the transaction that is next. -/
theorem step_cases {s t : State} (h : step s = .next t) :
    (s.engineNext ∧ engineTurn { s with agenda := s.agenda.tail } = .next t)
      ∨ ∃ x, s.hostNext x ∧ hostStep x { s with agenda := s.agenda.tail } = .next t := by
  cases ha : s.agenda with
  | nil =>
    have hself : { s with agenda := [] } = s := by rw [← ha]
    refine .inl ⟨.inl ha, ?_⟩
    simpa [step, ha, hself] using h
  | cons e rest =>
    cases e with
    | engine => exact .inl ⟨.inr ⟨rest, ha⟩, by rwa [step_of_engine ha] at h⟩
    | host x => exact .inr ⟨x, ⟨rest, ha⟩, by rwa [step_of_host ha] at h⟩

/-! ## The statements -/

/-- Settles O24: an error changes no register of R66, and `effectFits` says what a success writes. -/
theorem execKeeps : Obligations.ExecKeeps := by
  intro i s
  cases h : outcomeOf i s with
  | ok e =>
    have fits := effectFits h
    refine ⟨_, exec_of_ok h, completeOk_kept s e, fits.mask, fits.set, fits.fixed, fits.rkey, fun hd x => ?_,
      sameOutside_of_ok h⟩
    rw [State.completeOk_buf, fits.none hd, Memory.dstWrites_nil]
  | error e =>
    exact ⟨_, exec_of_error h, completeErr_kept s e, fun _ => rfl, fun _ => rfl, fun _ => rfl, fun _ => rfl,
      fun _ _ => rfl, fun _ _ => rfl⟩

/-- Settles O21, by who moves in the step. -/
theorem busyUntilCompletionOrReset : Obligations.BusyUntilCompletionOrReset := by
  intro s t h
  obtain ⟨he, hturn⟩ | ⟨x, hx, hhost⟩ := step_cases h
  · refine ⟨fun _ _ => .inl he, fun _ ht => ?_⟩
    rw [engineTurn_busy hturn] at ht
    cases ht
  · have hfalls := hostStep_busy_falls hhost
    refine ⟨fun hs ht => .inr ⟨x, hx, hfalls hs ht⟩, fun hs ht => ?_⟩
    obtain ⟨v, hw, hcmd⟩ := hostStep_busy_rises hhost hs ht
    exact ⟨x, v, hx, hw, hcmd⟩

/-- Settles O22: a completion, the idle engine's turn, and the host's transactions each by their own rule. -/
theorem cmdcntCounts : Obligations.CmdcntCounts := by
  intro s t h
  refine ⟨?_, ?_, ?_⟩
  · rintro ⟨rest, ha⟩ hb
    have hturn := engineTurn_of_busy (s := { s with agenda := rest }) hb
    rw [step_of_engine ha, hturn] at h
    cases h
    rw [State.complete_cmdcnt]
    exact BitVec.toNat_add _ _
  · rintro ⟨rest, ha⟩ hb
    have hturn := engineTurn_of_idle (s := { s with agenda := rest }) hb
    rw [step_of_engine ha, hturn] at h
    cases h
    rfl
  · rintro x ⟨rest, ha⟩
    rw [step_of_host ha] at h
    have hreset := hostStep_cmdcnt_of_resets h
    have hkept := hostStep_cmdcnt_of_not_resets h
    exact ⟨hreset, hkept⟩

/-- Settles O1: no command is pending after power-on, so a read gives the register itself. -/
theorem powerOnValues : Obligations.PowerOnValues := by
  intro c
  have hcand : Compositor.candWord ⟨0x7C00#16, 0x7F#7, false⟩ = 0x7F#32 := by decide
  have hstatus : Status.word ⟨false, false, false, false, false⟩ = 0#32 := by decide
  have hctrl : 0#31 ++ BitVec.ofBool false = 0#32 := by decide
  have hread : ∀ r : Reg, ((State.powerOn c).hostReadReg r.offset).rdata = (State.powerOn c).readReg r :=
    fun r => State.hostReadReg_rdata_idle rfl r.atOffset_offset
  refine ⟨?_, ?_, ?_, ?_, rfl, rfl, fun a => rfl, rfl⟩
  · simp only [List.forall_mem_cons]
    exact ⟨hread .id, hread .mask, (hread .cand).trans hcand, by simp⟩
  · simp only [List.forall_mem_cons]
    exact ⟨(hread .ctrl).trans hctrl, (hread .status).trans hstatus, hread .cmd, hread .errcode, hread .warncode,
      hread .cmdcnt, hread .src, hread .slen, hread .dst, hread .dlen, hread .arg0, hread .arg1, hread .arg2,
      hread .arg3, hread .res0, hread .res1, hread .res2, hread .res3, by simp⟩
  · intro j hj
    match j, hj with
    | 0, _ => exact ⟨hread .rkey0, hread .key0⟩
    | 1, _ => exact ⟨hread .rkey1, hread .key1⟩
    | 2, _ => exact ⟨hread .rkey2, hread .key2⟩
    | 3, _ => exact ⟨hread .rkey3, hread .key3⟩
  · intro o ho
    apply State.hostReadReg_rdata_reserved
    obtain rfl | rfl | rfl | h := ho
    · rfl
    · rfl
    · rfl
    · exact Reg.atOffset_eq_none_of_le h

end Sys2Proof.Machine
end

section
/-! What a host transaction does and where a host address leads (20_memory.md R82, R88, R89), and that every step keeps
the invariant. -/

namespace Sys2Proof.Machine

/-! ## Host addresses (20_memory.md R82) -/

theorem Config.regOffset_add (c : Config) {o : Nat} (h : o < 4096) : Config.regOffset c (c.regBase + o) = some o := by
  rw [Config.regOffset, if_pos (by omega), Nat.add_sub_cancel_left]

theorem Config.regOffset_outside {c : Config} {x : Nat} (h : x < c.regBase ∨ c.regBase + 4096 ≤ x) :
    Config.regOffset c x = none := if_neg (by omega)

theorem Config.bufOffset_add (c : Config) {a : Nat} (h : a < c.bufSize) :
    Config.bufOffset c (c.bufBase + a) = some a := by
  rw [Config.bufOffset, if_pos (by omega), Nat.add_sub_cancel_left]

theorem Config.bufOffset_outside {c : Config} {x : Nat} (h : x < c.bufBase ∨ c.bufBase + c.bufSize ≤ x) :
    Config.bufOffset c x = none := if_neg (by omega)

section Routing

variable {s : State} {n x : Nat} {v : Word}

theorem hostStep_busWrite_register {o : Nat} (ho : Config.regOffset s.cfg x = some o) :
    hostStep (.busWrite n x v) s = regWriteStep s n o v := by simp only [hostStep, busWriteStep, ho]

theorem hostStep_busRead_register {o : Nat} (ho : Config.regOffset s.cfg x = some o) :
    hostStep (.busRead n x) s = regReadStep s n o := by simp only [hostStep, busReadStep, ho]

theorem hostStep_busWrite_buf {a : Nat} (ho : Config.regOffset s.cfg x = none)
    (ha : Config.bufOffset s.cfg x = some a) :
    hostStep (.busWrite n x v) s = bufWriteStep s n a v := by simp only [hostStep, busWriteStep, ho, ha]

theorem hostStep_busRead_buf {a : Nat} (ho : Config.regOffset s.cfg x = none) (ha : Config.bufOffset s.cfg x = some a) :
    hostStep (.busRead n x) s = bufReadStep s n a := by simp only [hostStep, busReadStep, ho, ha]

theorem hostStep_busWrite_unseen (ho : Config.regOffset s.cfg x = none) (ha : Config.bufOffset s.cfg x = none) :
    hostStep (.busWrite n x v) s = .next s := by simp only [hostStep, busWriteStep, ho, ha]

theorem hostStep_busRead_unseen (ho : Config.regOffset s.cfg x = none) (ha : Config.bufOffset s.cfg x = none) :
    hostStep (.busRead n x) s = .next s := by simp only [hostStep, busReadStep, ho, ha]

end Routing

/-! ## What a host transaction does (43_system.md R313 to R316) -/

theorem regAccessOk_iff (n o : Nat) : regAccessOk n o = true ↔ n = 4 ∧ o % 4 = 0 ∧ o < 4096 := by
  simp [regAccessOk, and_assoc]

theorem State.bufAccessOk_iff (s : State) (n a : Nat) :
    s.bufAccessOk n a = true ↔ (n = 1 ∨ n = 2 ∨ n = 4) ∧ a % n = 0 ∧ a + n ≤ s.cfg.bufSize := by
  simp [State.bufAccessOk, and_assoc, or_assoc]

/-- `t` is what the transaction `x` leaves of `s`: one permitted access of either space, or nothing. -/
inductive HostMove (x : HostTxn) (s : State) : State → Prop
  | regWrite (o : Nat) (v : Word) (hw : x.regWritten s.cfg = some (o, v)) : HostMove x s (s.hostWriteReg o v)
  | regRead (o : Nat) : HostMove x s (s.hostReadReg o)
  | bufWrite (n a : Nat) (v : Word) (hok : s.bufAccessOk n a = true) : HostMove x s (s.hostWriteBuf n a v)
  | bufRead (n a : Nat) : HostMove x s (s.hostReadBuf n a)
  | unseen : HostMove x s s

/-- The inversion of `hostStep`, with what the transaction does to BUF, of which `hostStep_cases` says nothing. -/
theorem HostMove.of_hostStep {x : HostTxn} {s t : State} (h : hostStep x s = .next t) : HostMove x s t := by
  cases x with
  | regWrite n o v =>
    obtain ⟨hok, rfl⟩ := regWriteStep_eq_next.mp h
    exact .regWrite o v (by rw [HostTxn.regWritten, if_pos hok])
  | regRead n o =>
    obtain ⟨-, rfl⟩ := regReadStep_eq_next.mp h
    exact .regRead o
  | bufWrite n a v =>
    obtain ⟨hok, rfl⟩ := bufWriteStep_eq_next.mp h
    exact .bufWrite n a v hok
  | bufRead n a =>
    obtain ⟨-, rfl⟩ := bufReadStep_eq_next.mp h
    exact .bufRead n a
  | busWrite n x v =>
    cases ho : Config.regOffset s.cfg x with
    | some o =>
      rw [hostStep_busWrite_register ho] at h
      obtain ⟨hok, rfl⟩ := regWriteStep_eq_next.mp h
      exact .regWrite o v (by simp only [HostTxn.regWritten, ho, hok, if_true])
    | none =>
      cases ha : Config.bufOffset s.cfg x with
      | some a =>
        rw [hostStep_busWrite_buf ho ha] at h
        obtain ⟨hok, rfl⟩ := bufWriteStep_eq_next.mp h
        exact .bufWrite n a v hok
      | none =>
        rw [hostStep_busWrite_unseen ho ha] at h
        cases h
        exact .unseen
  | busRead n x =>
    cases ho : Config.regOffset s.cfg x with
    | some o =>
      rw [hostStep_busRead_register ho] at h
      obtain ⟨-, rfl⟩ := regReadStep_eq_next.mp h
      exact .regRead o
    | none =>
      cases ha : Config.bufOffset s.cfg x with
      | some a =>
        rw [hostStep_busRead_buf ho ha] at h
        obtain ⟨-, rfl⟩ := bufReadStep_eq_next.mp h
        exact .bufRead n a
      | none =>
        rw [hostStep_busRead_unseen ho ha] at h
        cases h
        exact .unseen

/-- A permitted transaction answers a next state (20_memory.md R88, R89). -/
theorem hostStep_of_permitted {x : HostTxn} {s : State} (h : x.permitted s.cfg = true) :
    ∃ t, hostStep x s = .next t := by
  cases x with
  | regWrite n o v => exact ⟨_, regWriteStep_eq_next.mpr ⟨h, rfl⟩⟩
  | regRead n o => exact ⟨_, regReadStep_eq_next.mpr ⟨h, rfl⟩⟩
  | bufWrite n a v => exact ⟨_, bufWriteStep_eq_next.mpr ⟨h, rfl⟩⟩
  | bufRead n a => exact ⟨_, bufReadStep_eq_next.mpr ⟨h, rfl⟩⟩
  | busWrite n x v =>
    cases ho : Config.regOffset s.cfg x with
    | some o =>
      simp only [HostTxn.permitted, ho] at h
      exact ⟨_, (hostStep_busWrite_register ho).trans (regWriteStep_eq_next.mpr ⟨h, rfl⟩)⟩
    | none =>
      cases ha : Config.bufOffset s.cfg x with
      | some a =>
        simp only [HostTxn.permitted, ho, ha] at h
        exact ⟨_, (hostStep_busWrite_buf ho ha).trans (bufWriteStep_eq_next.mpr ⟨h, rfl⟩)⟩
      | none => exact ⟨s, hostStep_busWrite_unseen ho ha⟩
  | busRead n x =>
    cases ho : Config.regOffset s.cfg x with
    | some o =>
      simp only [HostTxn.permitted, ho] at h
      exact ⟨_, (hostStep_busRead_register ho).trans (regReadStep_eq_next.mpr ⟨h, rfl⟩)⟩
    | none =>
      cases ha : Config.bufOffset s.cfg x with
      | some a =>
        simp only [HostTxn.permitted, ho, ha] at h
        exact ⟨_, (hostStep_busRead_buf ho ha).trans (bufReadStep_eq_next.mpr ⟨h, rfl⟩)⟩
      | none => exact ⟨s, hostStep_busRead_unseen ho ha⟩

/-! ## The two halves of the invariant -/

/-- BUF is in canonical form and inside its first `n` bytes. -/
def Memory.fits (m : Memory) (n : Nat) : Prop := Memory.wf m = true ∧ Memory.below m n = true

theorem Memory.fits.writeBytes {m : Memory} {n a : Nat} {bs : List Byte} (h : m.fits n) (hb : a + bs.length ≤ n) :
    (m.writeBytes a bs).fits n :=
  ⟨Memory.wf_writeBytes m a bs h.1, Memory.below_writeBytes m a n bs h.2 (.inr hb)⟩

theorem Memory.fits.dstWrites {m : Memory} {n dst : Nat} {ws : List (Nat × List Byte)} (h : m.fits n)
    (hb : ∀ w ∈ ws, dst + w.1 + w.2.length ≤ n) : (m.dstWrites dst ws).fits n :=
  ⟨Memory.wf_dstWrites ws m dst h.1, Memory.below_dstWrites ws m dst n h.2 fun w hw => .inr (hb w hw)⟩

/-- STATUS, ERRCODE and WARNCODE agree as the invariant says (10_state.md R35, R36; 60_exceptions.md R330 to R333). -/
structure CodesAgree (f : Status) (errcode warncode : Byte) : Prop where
  pending : f.busy = true → f.done = false ∧ f.err = false ∧ f.warn = false
  err : f.err = true → errcode ≠ 0#8
  warn : f.warn = true → warncode = 4#8
  errRange : errcode = 0#8 ∨ errcode = 1#8 ∨ errcode = 5#8 ∨ errcode = 6#8 ∨ errcode = 7#8 ∨ errcode = 8#8
  warnRange : warncode = 0#8 ∨ warncode = 4#8
  apart : errcode ≠ 0#8 → warncode = 0#8

theorem State.inv_iff (s : State) :
    s.Inv ↔ s.buf.fits s.cfg.bufSize ∧ CodesAgree s.status s.errcode s.warncode := by
  constructor
  · rintro ⟨hwf, hbelow, hp, he, hw, her, hwr, ha⟩
    exact ⟨⟨hwf, hbelow⟩, hp, he, hw, her, hwr, ha⟩
  · rintro ⟨⟨hwf, hbelow⟩, hp, he, hw, her, hwr, ha⟩
    exact ⟨hwf, hbelow, hp, he, hw, her, hwr, ha⟩

section Codes

variable {f : Status} {errcode warncode : Byte}

theorem CodesAgree.collide (h : CodesAgree f errcode warncode) : CodesAgree { f with coll := true } errcode warncode :=
  { h with }

theorem CodesAgree.accept (h : CodesAgree f errcode warncode) : CodesAgree f.accept errcode warncode where
  pending _ := ⟨rfl, rfl, rfl⟩
  err hf := by cases hf
  warn hf := by cases hf
  errRange := h.errRange
  warnRange := h.warnRange
  apart := h.apart

/-- The host's acknowledgement only clears flags. -/
theorem CodesAgree.ack (h : CodesAgree f errcode warncode) (v : Word) : CodesAgree (f.ack v) errcode warncode where
  pending hb := by
    obtain ⟨hd, he, hw⟩ := h.pending hb
    simp [Status.ack, hd, he, hw]
  err he := h.err (Bool.and_elim_left he)
  warn hw := h.warn (Bool.and_elim_left hw)
  errRange := h.errRange
  warnRange := h.warnRange
  apart := h.apart

theorem CodesAgree.completeOk (f : Status) (w : Bool) : CodesAgree (f.complete false w) 0#8 (warnCode w) where
  pending hb := by cases hb
  err he := by cases he
  warn hw := by rw [Status.complete_warn] at hw; rw [hw]; rfl
  errRange := .inl rfl
  warnRange := by cases w <;> simp [warnCode]
  apart h := absurd rfl h

theorem CodesAgree.completeErr (f : Status) (e : ErrCode) : CodesAgree (f.complete true false) e.code 0#8 where
  pending hb := by cases hb
  err _ := code_ne_zero e
  warn hw := by cases hw
  errRange := by cases e <;> simp [ErrCode.code]
  warnRange := .inl rfl
  apart _ := rfl

theorem CodesAgree.reset : CodesAgree ⟨false, false, false, false, false⟩ 0#8 0#8 where
  pending hb := by cases hb
  err he := by cases he
  warn hw := by cases hw
  errRange := .inl rfl
  warnRange := .inl rfl
  apart _ := rfl

end Codes

/-! ## Every step keeps the invariant -/

@[simp] theorem freshBytes_length (d n : Nat) : (freshBytes d n).length = n := by
  induction n generalizing d with
  | zero => rfl
  | succ n ih => rw [freshBytes, List.length_cons, ih]

/-- The destination window of a pending command, as far as it has bytes, lies inside BUF. -/
theorem State.pendingDestLen_inside (s : State) (h : s.pendingDestLen ≠ 0) :
    s.ops.dst.toNat + s.pendingDestLen ≤ s.cfg.bufSize := by
  by_cases hu : s.pendingUsesDest = true
  · simp only [State.pendingDestLen, hu, if_true] at h ⊢
    omega
  · exact absurd (if_neg hu) h

theorem State.Inv.softReset {s : State} (h : s.Inv) : s.softReset.Inv := by
  obtain ⟨hbuf, -⟩ := s.inv_iff.mp h
  refine s.softReset.inv_iff.mpr ⟨?_, CodesAgree.reset⟩
  by_cases h0 : s.pendingDestLen = 0
  · simpa [State.softReset, h0] using hbuf
  · have hwin := s.pendingDestLen_inside h0
    simpa [State.softReset, h0] using hbuf.writeBytes (bs := freshBytes s.draws s.pendingDestLen) (by simpa using hwin)

theorem State.Inv.writeReg {s : State} (h : s.Inv) (r : Reg) (v : Word) : (s.writeReg r v).Inv := by
  obtain ⟨hbuf, hcodes⟩ := s.inv_iff.mp h
  cases r
  case ctrl =>
    by_cases hv : v.getLsbD 1 = true
    · rw [State.writeReg_ctrl_reset hv]; exact h.softReset
    · rw [State.writeReg_ctrl_ie hv]; exact h
  case status => exact (s.ackStatus v).inv_iff.mpr ⟨hbuf, hcodes.ack v⟩
  case cmd => exact (s.issue v).inv_iff.mpr ⟨hbuf, hcodes.accept⟩
  all_goals exact h

theorem State.Inv.collide {s : State} (h : s.Inv) : s.collide.Inv := by
  obtain ⟨hbuf, hcodes⟩ := s.inv_iff.mp h
  exact s.collide.inv_iff.mpr ⟨hbuf, hcodes.collide⟩

theorem State.Inv.hostWriteReg {s : State} (h : s.Inv) (o : Nat) (v : Word) : (s.hostWriteReg o v).Inv := by
  obtain ⟨-, -, heq⟩ | ⟨-, r, -, heq⟩ | ⟨-, heq⟩ := s.hostWriteReg_cases o v <;> rw [heq]
  · exact h.collide
  · exact h.writeReg r v
  · exact h

theorem State.Inv.hostReadReg {s : State} (h : s.Inv) (o : Nat) : (s.hostReadReg o).Inv := by
  unfold State.hostReadReg
  split
  · split <;> exact h
  · exact h

theorem State.hostWriteBuf_busy {s : State} (n a : Nat) (v : Word) (hb : s.status.busy = true) :
    s.hostWriteBuf n a v = s.collide := if_pos hb

theorem State.hostWriteBuf_idle {s : State} (n a : Nat) (v : Word) (hb : s.status.busy = false) :
    s.hostWriteBuf n a v = { s with buf := s.buf.writeBytes a (leBytes n v) } := by
  simp [State.hostWriteBuf, hb]

theorem State.Inv.hostWriteBuf {s : State} (h : s.Inv) {n a : Nat} (v : Word) (hok : s.bufAccessOk n a = true) :
    (s.hostWriteBuf n a v).Inv := by
  cases hb : s.status.busy with
  | true => rw [State.hostWriteBuf_busy n a v hb]; exact h.collide
  | false =>
    obtain ⟨-, -, hin⟩ := (s.bufAccessOk_iff n a).mp hok
    obtain ⟨hbuf, hcodes⟩ := s.inv_iff.mp h
    rw [State.hostWriteBuf_idle n a v hb]
    exact (State.inv_iff _).mpr ⟨hbuf.writeBytes (by simpa using hin), hcodes⟩

theorem State.Inv.hostStep {x : HostTxn} {s t : State} (h : s.Inv) (hx : hostStep x s = .next t) : t.Inv := by
  cases HostMove.of_hostStep hx with
  | regWrite o v => exact h.hostWriteReg o v
  | regRead o => exact h.hostReadReg o
  | bufWrite n a v hok => exact h.hostWriteBuf v hok
  | bufRead n a => exact h
  | unseen => exact h

/-- A successful command writes inside BUF: its windows were checked, and it writes inside its destination window. -/
theorem writes_inside_buf {i : Instr} {s : State} {e : Effect} (h : outcomeOf i s = .ok e) :
    ∀ w ∈ e.writes, s.ops.dst.toNat + w.1 + w.2.length ≤ s.cfg.bufSize := by
  intro w hw
  have fits := effectFits h
  cases hd : i.usesDest with
  | false => rw [fits.none hd] at hw; cases hw
  | true =>
    obtain ⟨-, -, hdest, -⟩ := windowsOk_of_generic (genericChecks_of_ok h)
    have hwin : s.ops.dst.toNat + s.dlen ≤ s.cfg.bufSize := hdest hd
    have hin := fits.inside w hw
    omega

theorem State.Inv.completeErr {s : State} (h : s.Inv) (e : ErrCode) : (s.completeErr e).Inv := by
  obtain ⟨hbuf, -⟩ := s.inv_iff.mp h
  exact (s.completeErr e).inv_iff.mpr ⟨hbuf, CodesAgree.completeErr s.status e⟩

theorem State.Inv.completeOk {s : State} (h : s.Inv) {i : Instr} {e : Effect} (he : outcomeOf i s = .ok e) :
    (s.completeOk e).Inv := by
  obtain ⟨hbuf, -⟩ := s.inv_iff.mp h
  exact (s.completeOk e).inv_iff.mpr ⟨hbuf.dstWrites (writes_inside_buf he), CodesAgree.completeOk s.status e.warn⟩

theorem State.pendingOutcome_ok {s : State} {e : Effect} (h : s.pendingOutcome = .ok e) :
    ∃ i, outcomeOf i s = .ok e := by
  unfold State.pendingOutcome at h
  split at h
  · exact ⟨_, h⟩
  · cases h

theorem State.Inv.engineTurn {s t : State} (h : s.Inv) (ht : engineTurn s = .next t) : t.Inv := by
  cases hb : s.status.busy with
  | false =>
    rw [engineTurn_of_idle hb] at ht
    cases ht
    exact h
  | true =>
    rw [engineTurn_of_busy hb] at ht
    cases ht
    cases ho : s.pendingOutcome with
    | ok e =>
      obtain ⟨i, hi⟩ := State.pendingOutcome_ok ho
      exact h.completeOk hi
    | error e => exact h.completeErr e

/-- Settles O3: the agenda is no part of the invariant, so it is kept by whoever moves. -/
theorem stepKeepsInvariant : Obligations.StepKeepsInvariant := by
  intro s t h hstep
  have hpop : State.Inv { s with agenda := s.agenda.tail } := h
  obtain ⟨-, hturn⟩ | ⟨x, -, hhost⟩ := step_cases hstep
  · exact hpop.engineTurn hturn
  · exact hpop.hostStep hhost

end Sys2Proof.Machine
end

section
/-! What a command's outcome depends on (20_memory.md R90, R91, R100), and so what of the host's doings and of BUF it
cannot see. -/

namespace Sys2Proof.Machine

/-! ## A command reads its inputs only -/

/-- What a command reads is equal in `s` and `t`: the parameters, the operands, MASK and CAND, RKEY, KEY, and the source
window if the command has one (20_memory.md R100). -/
structure SameInputs (i : Instr) (s t : State) : Prop where
  cfg : t.cfg = s.cfg
  ops : t.ops = s.ops
  comp : t.comp = s.comp
  rkey : t.rkey = s.rkey
  key : t.key = s.key
  source : i.usesSource = true → t.source = s.source

/-- A command without a source window never reads BUF; every other one reads it through `State.source` alone. -/
theorem SameInputs.outcomeOf_eq {i : Instr} {s t : State} (h : SameInputs i s t) : outcomeOf i t = outcomeOf i s := by
  obtain ⟨hcfg, hops, hcomp, hrkey, hkey, hsource⟩ := h
  cases s; cases t
  dsimp only at hcfg hops hcomp hrkey hkey
  subst hcfg hops hcomp hrkey hkey
  cases i
  case nop | seed | candrst | isoxy | maskfin | canvas | keydump => rfl
  all_goals
    simp only [outcomeOf, cvt555, cvt565, pack555, pack565, l1dec, l1ext, l1enc, palscan, tiledec, tileenc, blit,
      sprdec, decblk, encblk, xortail, decpay, encpay, mark, coreenc, coredec, State.oneBlock, hsource rfl]
    rfl

/-! ## The writes of a command on two memories -/

theorem Memory.byteAt_writeBytes_congr {m m' : Memory} {x : Nat} (a : Nat) (bs : List Byte)
    (h : Memory.byteAt m' x = Memory.byteAt m x) :
    Memory.byteAt (m'.writeBytes a bs) x = Memory.byteAt (m.writeBytes a bs) x := by
  simp only [Memory.byteAt_writeBytes, h]

theorem Memory.byteAt_dstWrites_congr {m m' : Memory} {x : Nat} (dst : Nat) (ws : List (Nat × List Byte))
    (h : Memory.byteAt m' x = Memory.byteAt m x) :
    Memory.byteAt (m'.dstWrites dst ws) x = Memory.byteAt (m.dstWrites dst ws) x := by
  induction ws generalizing m m' with
  | nil => exact h
  | cons w ws ih => exact ih (Memory.byteAt_writeBytes_congr _ _ h)

/-- A byte is left alone in both memories when no write covers it, and equal in both from the first write that does. -/
theorem Memory.dstWrites_kept_or_equal (ws : List (Nat × List Byte)) (m m' : Memory) (dst x : Nat) :
    (Memory.byteAt (m.dstWrites dst ws) x = Memory.byteAt m x
        ∧ Memory.byteAt (m'.dstWrites dst ws) x = Memory.byteAt m' x)
      ∨ Memory.byteAt (m'.dstWrites dst ws) x = Memory.byteAt (m.dstWrites dst ws) x := by
  induction ws generalizing m m' with
  | nil => exact .inl ⟨rfl, rfl⟩
  | cons w ws ih =>
    simp only [Memory.dstWrites_cons]
    by_cases hx : dst + w.1 ≤ x ∧ x < dst + w.1 + w.2.length
    · refine .inr (Memory.byteAt_dstWrites_congr dst ws ?_)
      rw [Memory.byteAt_writeBytes, Memory.byteAt_writeBytes, if_pos hx, if_pos hx]
    · have hout : x < dst + w.1 ∨ dst + w.1 + w.2.length ≤ x := by omega
      have hrest := ih (m.writeBytes (dst + w.1) w.2) (m'.writeBytes (dst + w.1) w.2)
      rwa [Memory.byteAt_writeBytes_outside m _ _ x hout, Memory.byteAt_writeBytes_outside m' _ _ x hout] at hrest

/-- Settles O28: equal inputs give an equal outcome, whose writes are then applied to both memories. -/
theorem sourceNoninterference : Obligations.SourceNoninterference := by
  intro i s t m hagree hexec
  have hsource : i.usesSource = true → State.source { s with buf := m } = s.source := fun hs =>
    Memory.readBytes_congr _ _ _ _ (hagree hs)
  have hsame : SameInputs i s { s with buf := m } := ⟨rfl, rfl, rfl, rfl, rfl, hsource⟩
  obtain ⟨e, he, rfl⟩ | ⟨e, he, rfl⟩ := exec_cases hexec
  · have he' := hsame.outcomeOf_eq.trans he
    exact ⟨_, exec_of_ok he', rfl, Memory.dstWrites_kept_or_equal e.writes s.buf m _⟩
  · have he' := hsame.outcomeOf_eq.trans he
    exact ⟨_, exec_of_error he', rfl, fun x => .inl ⟨rfl, rfl⟩⟩

/-! ## What the host can do to a pending command -/

/-- `t` differs from `s` at most in CTRL.IE, STATUS.COLL and the model's own `draws` and `rdata`: what the host can move
while a command is pending, a soft reset apart (20_memory.md R91, R92). -/
def State.sameCommand (s t : State) : Prop :=
  t = { s with ie := t.ie, status := { s.status with coll := t.status.coll }, draws := t.draws, rdata := t.rdata }

theorem State.sameCommand_refl (s : State) : s.sameCommand s := rfl

theorem State.sameCommand.trans {s t u : State} (h : s.sameCommand t) (h' : t.sameCommand u) : s.sameCommand u := by
  unfold State.sameCommand at h h' ⊢
  rw [h', h]

theorem State.sameCommand.busy {s t : State} (h : s.sameCommand t) : t.status.busy = s.status.busy := by rw [h]

theorem State.sameCommand.cfg {s t : State} (h : s.sameCommand t) : t.cfg = s.cfg := by rw [h]

theorem State.sameCommand.withAgenda {s t : State} (h : s.sameCommand t) (es : List Event) :
    State.sameCommand { s with agenda := es } { t with agenda := es } := by
  rw [h]; rfl

theorem State.sameCommand.complete {s t : State} (h : s.sameCommand t) (r : Except ErrCode Effect) :
    (s.complete r).sameCommand (t.complete r) := by
  rw [h]; cases r <;> rfl

theorem State.sameCommand.pendingOutcome {s t : State} (h : s.sameCommand t) : t.pendingOutcome = s.pendingOutcome := by
  have hcmd : t.cmd = s.cmd := by rw [h]
  have hsame : ∀ i, SameInputs i s t := fun i => by rw [h]; exact ⟨rfl, rfl, rfl, rfl, rfl, fun _ => rfl⟩
  unfold State.pendingOutcome
  rw [hcmd]
  cases decode s.cmd with
  | ok i => exact (hsame i).outcomeOf_eq
  | error e => rfl

/-- The completions of the same command end alike. -/
theorem State.sameCommand.engineTurn {s t : State} (h : s.sameCommand t) (hb : s.status.busy = true) :
    ∃ s' t', engineTurn s = .next s' ∧ engineTurn t = .next t' ∧ s'.sameCommand t' := by
  refine ⟨_, _, engineTurn_of_busy hb, engineTurn_of_busy (h.busy.trans hb), ?_⟩
  rw [h.pendingOutcome]
  exact h.complete s.pendingOutcome

/-- While a command is pending, of the register writes only one to CTRL takes effect (20_memory.md R91). -/
theorem State.sameCommand_hostWriteReg {s : State} {o : Nat} {v : Word} (hb : s.status.busy = true)
    (hv : ¬ (o = 0x004 ∧ v.getLsbD 1 = true)) : s.sameCommand (s.hostWriteReg o v) := by
  obtain ⟨-, -, heq⟩ | ⟨hidle, r, hr, heq⟩ | ⟨-, heq⟩ := s.hostWriteReg_cases o v <;> rw [heq]
  · rfl
  · obtain rfl : o = 0x004 := hidle.resolve_left (by simp [hb])
    obtain rfl : r = .ctrl := (Reg.offset_eq_ctrl r).mp hr
    rw [State.writeReg_ctrl_ie fun hv1 => hv ⟨rfl, hv1⟩]
    rfl
  · rfl

theorem State.sameCommand_hostReadReg (s : State) (o : Nat) : s.sameCommand (s.hostReadReg o) := by
  unfold State.hostReadReg
  split
  · split <;> rfl
  · rfl

theorem hostStep_sameCommand {x : HostTxn} {s t : State} (h : hostStep x s = .next t) (hb : s.status.busy = true)
    (hx : ¬ x.resets s.cfg) : s.sameCommand t := by
  cases HostMove.of_hostStep h with
  | regWrite o v hw =>
    refine State.sameCommand_hostWriteReg hb ?_
    rintro ⟨rfl, hv⟩
    exact hx ⟨v, hw, hv⟩
  | regRead o => exact s.sameCommand_hostReadReg o
  | bufWrite n a v => rw [State.hostWriteBuf_busy n a v hb]; rfl
  | bufRead n a => rfl
  | unseen => rfl

/-! ## Runs -/

theorem runSteps_succ {s t : State} (h : step s = .next t) (n : Nat) : runSteps (n + 1) s = runSteps n t := by
  rw [runSteps, h]

theorem runSteps_add {s t : State} {m : Nat} (h : runSteps m s = .next t) (n : Nat) :
    runSteps (m + n) s = runSteps n t := by
  induction m generalizing s with
  | zero => cases h; rw [Nat.zero_add]
  | succ m ih =>
    rw [Nat.succ_add]
    rw [runSteps] at h ⊢
    cases hs : step s with
    | next u => rw [hs] at h; exact ih h
    | fault r => rw [hs] at h; cases h
    | refused r => rw [hs] at h; cases h

/-- Permitted transactions without a soft reset all run, and leave the pending command as it was. -/
theorem runSteps_host_sameCommand (xs : List HostTxn) (s : State) (es : List Event) (hb : s.status.busy = true)
    (hxs : ∀ x ∈ xs, x.permitted s.cfg = true ∧ ¬ x.resets s.cfg) :
    ∃ t, runSteps xs.length { s with agenda := xs.map Event.host ++ es } = .next t
      ∧ State.sameCommand { s with agenda := es } t := by
  induction xs generalizing s with
  | nil => exact ⟨_, rfl, State.sameCommand_refl _⟩
  | cons x xs ih =>
    obtain ⟨⟨hperm, hreset⟩, hrest⟩ := List.forall_mem_cons.mp hxs
    obtain ⟨u, hu⟩ := hostStep_of_permitted (s := { s with agenda := xs.map Event.host ++ es }) hperm
    have hstep : step { s with agenda := (x :: xs).map Event.host ++ es } = .next u := (step_of_host rfl).trans hu
    have hsame := hostStep_sameCommand hu hb hreset
    have hself : { u with agenda := xs.map Event.host ++ es } = u := by rw [hsame]
    have hcfg : u.cfg = s.cfg := hsame.cfg
    obtain ⟨t, ht, hsame'⟩ := ih u (hsame.busy.trans hb) (by rwa [hcfg])
    rw [hself] at ht
    exact ⟨t, (runSteps_succ hstep _).trans ht, (hsame.withAgenda es).trans hsame'⟩

/-- Settles O29: the host leaves the pending command as it was, and its completion reads nothing else. -/
theorem commandSeesAcceptedState : Obligations.CommandSeesAcceptedState := by
  intro s xs rest hb hxs
  obtain ⟨w, hrun, hsame⟩ := runSteps_host_sameCommand xs s (.engine :: rest) hb hxs
  have hagenda : w.agenda = .engine :: rest := by rw [hsame]
  obtain ⟨u, t, hu, ht, hend⟩ := (hsame.withAgenda rest).engineTurn hb
  have hstep : step w = .next t := (step_of_engine hagenda).trans ht
  unfold State.sameCommand at hend
  refine ⟨t, u, (runSteps_add hrun 1).trans (runSteps_succ hstep 0), (step_of_engine rfl).trans hu, ?_⟩
  rw [hend]
  exact ⟨rfl, rfl, rfl, rfl, rfl, rfl, rfl, rfl, rfl, rfl, rfl, rfl⟩

end Sys2Proof.Machine
end

section
/-! What the host reads and writes, access by access (20_memory.md R82, R83, R88 to R92; 43_system.md R313 to R316):
values as bytes, the window of a pending command, one rule per permitted access, then the statements. -/

namespace Sys2Proof.Machine

/-! ## Values as bytes (20_memory.md R83) -/

theorem leBytes_byte {k n i : Nat} (v : BitVec k) (h : i < n) : (leBytes n v)[i]? = some (v.extractLsb' (8 * i) 8) := by
  rw [leBytes_getElem? n v i h]
  congr 1
  apply BitVec.eq_of_toNat_eq
  simp

/-- Byte `k` of a little-endian value is byte `k` of the list, 0 past its end. -/
theorem leValue_byte (bs : List Byte) (k : Nat) : leValue bs / 2 ^ (8 * k) % 256 = (bs.getD k 0#8).toNat := by
  induction bs generalizing k with
  | nil => simp [leValue]
  | cons b bs ih =>
    have hb := b.isLt
    cases k with
    | zero => simp [leValue]; omega
    | succ k =>
      rw [List.getD_cons_succ, ← ih k, leValue, show 8 * (k + 1) = 8 + 8 * k by omega, Nat.pow_add,
        ← Nat.div_div_eq_div_mul]
      congr 2
      omega

theorem toNat_leValue32 {bs : List Byte} (h : bs.length ≤ 4) : (BitVec.ofNat 32 (leValue bs)).toNat = leValue bs := by
  have hlt := leValue_lt bs
  have hpow : 2 ^ (8 * bs.length) ≤ 2 ^ 32 := Nat.pow_le_pow_right (by omega) (by omega)
  exact Nat.mod_eq_of_lt (by omega)

theorem extractLsb'_leValue32 {bs : List Byte} (h : bs.length ≤ 4) (k : Nat) :
    (BitVec.ofNat 32 (leValue bs)).extractLsb' (8 * k) 8 = bs.getD k 0#8 := by
  apply BitVec.eq_of_toNat_eq
  rw [BitVec.extractLsb'_toNat, toNat_leValue32 h, Nat.shiftRight_eq_div_pow, ← leValue_byte]

theorem toNat_append_add {v w : Nat} (x : BitVec v) (y : BitVec w) : (x ++ y).toNat = y.toNat + 2 ^ w * x.toNat := by
  rw [BitVec.toNat_append, ← Nat.shiftLeft_add_eq_or_of_lt y.isLt, Nat.shiftLeft_eq]
  ring

theorem toNat_colourAt (m : Memory) (a : Nat) :
    (colourAt m a).toNat = (Memory.byteAt m a).toNat + 256 * (Memory.byteAt m (a + 1)).toNat := toNat_append_add _ _

/-- What a read of 1, 2 or 4 bytes gives is the little-endian value of the bytes there. -/
theorem ofNat_leValue_readBytes {m : Memory} {a n : Nat} (hn : n = 1 ∨ n = 2 ∨ n = 4) :
    BitVec.ofNat 32 (leValue (m.readBytes a n)) = valueAt m a n := by
  apply BitVec.eq_of_toNat_eq
  rw [toNat_leValue32 (by simp; omega)]
  obtain rfl | rfl | rfl := hn
  · have := (Memory.byteAt m a).isLt
    simp [valueAt, Memory.readBytes, leValue]
    omega
  · have := (colourAt m a).isLt
    have := toNat_colourAt m a
    simp [valueAt, Memory.readBytes, leValue]
    omega
  · have hword : (wordAt m a).toNat = (colourAt m a).toNat + 2 ^ 16 * (colourAt m (a + 2)).toNat :=
      toNat_append_add _ _
    simp only [valueAt, hword, toNat_colourAt, Memory.readBytes, leValue, Nat.add_assoc, Nat.reduceAdd]
    omega

/-! ## The window of the pending command (20_memory.md R92) -/

theorem State.pendingUsesDest_idle {s : State} (hb : s.status.busy = false) : s.pendingUsesDest = false := by
  simp [State.pendingUsesDest, hb]

theorem State.pendingUsesDest_of_ok {s : State} {i : Instr} (hb : s.status.busy = true) (hi : decode s.cmd = .ok i) :
    s.pendingUsesDest = i.usesDest := by
  simp [State.pendingUsesDest, hb, hi]

theorem State.pendingUsesDest_of_error {s : State} {e : Illegal} (he : decode s.cmd = .error e) :
    s.pendingUsesDest = false := by
  simp [State.pendingUsesDest, he]

theorem State.inPendingDest_iff (s : State) (a : Nat) :
    s.inPendingDest a = true ↔ s.pendingUsesDest = true ∧ s.dst ≤ a ∧ a < s.dst + s.dlen := by
  simp [State.inPendingDest, State.dst, State.dlen, and_assoc]

/-! ## Reads of BUF (43_system.md R316) -/

@[simp] theorem State.hostBytes_length (s : State) (d a n : Nat) : (s.hostBytes d a n).length = n := by
  induction n generalizing d a with
  | zero => rfl
  | succ n ih => rw [State.hostBytes, List.length_cons, ih]

theorem State.hostBytes_getD (s : State) {n k : Nat} (d a : Nat) (hk : k < n) : (s.hostBytes d a n).getD k 0#8
    = if s.inPendingDest (a + k) = true then Config.freeByte (d + k) else Memory.byteAt s.buf (a + k) := by
  induction n generalizing d a k with
  | zero => omega
  | succ n ih =>
    cases k with
    | zero => rfl
    | succ k =>
      rw [State.hostBytes, List.getD_cons_succ, ih _ _ (by omega), Nat.add_right_comm a, Nat.add_right_comm d]
      rfl

/-- Outside the window a read gives the bytes of BUF. -/
theorem State.hostBytes_outside {s : State} {n a : Nat} (d : Nat)
    (h : ∀ x, a ≤ x → x < a + n → s.inPendingDest x = false) : s.hostBytes d a n = Memory.readBytes s.buf a n := by
  induction n generalizing d a with
  | zero => rfl
  | succ n ih =>
    rw [State.hostBytes, Memory.readBytes, h a (by omega) (by omega), ih _ fun x h1 h2 => h x (by omega) (by omega)]
    rfl

theorem State.hostReadBuf_rdata_outside {s : State} {n a : Nat} (hn : n = 1 ∨ n = 2 ∨ n = 4)
    (h : ∀ x, a ≤ x → x < a + n → s.inPendingDest x = false) : (s.hostReadBuf n a).rdata = valueAt s.buf a n := by
  rw [← ofNat_leValue_readBytes hn, ← State.hostBytes_outside s.draws h]
  rfl

theorem State.hostReadBuf_rdata_byte {s : State} {n a k : Nat} (hn : n ≤ 4) (hk : k < n) :
    (s.hostReadBuf n a).rdata.extractLsb' (8 * k) 8
      = if s.inPendingDest (a + k) = true then Config.freeByte (s.draws + k) else Memory.byteAt s.buf (a + k) :=
  (extractLsb'_leValue32 (by simpa using hn) k).trans (s.hostBytes_getD s.draws a hk)

theorem State.hostReadBuf_rdata_upper {s : State} {n a k : Nat} (hn : n ≤ 4) (hk : n ≤ k) :
    (s.hostReadBuf n a).rdata.extractLsb' (8 * k) 8 = 0#8 :=
  (extractLsb'_leValue32 (by simpa using hn) k).trans (List.getD_eq_default _ _ (by simpa using hk))

/-- Without a window a read gives what BUF holds and draws nothing. -/
theorem State.hostReadBuf_of_no_window {s : State} {n a : Nat} (hn : n = 1 ∨ n = 2 ∨ n = 4)
    (h : s.pendingUsesDest = false) : s.hostReadBuf n a = { s with rdata := valueAt s.buf a n } := by
  have hout : ∀ x, a ≤ x → x < a + n → s.inPendingDest x = false := fun x _ _ => by simp [State.inPendingDest, h]
  rw [← State.hostReadBuf_rdata_outside hn hout]
  simp [State.hostReadBuf, h]

/-! ## Reads of registers (43_system.md R314) -/

theorem Reg.offset_aligned (r : Reg) : r.offset % 4 = 0 := by cases r <;> rfl

/-- The reserved offsets of the register map (10_state.md R56). -/
theorem Reg.atOffset_reserved {o : Nat} (h : o = 0x01C ∨ o = 0x058 ∨ o = 0x05C ∨ 0x080 ≤ o) :
    Reg.atOffset o = none := by
  obtain rfl | rfl | rfl | h := h
  · rfl
  · rfl
  · rfl
  · exact Reg.atOffset_eq_none_of_le h

theorem State.readReg_withAgenda (s : State) (es : List Event) (r : Reg) :
    State.readReg { s with agenda := es } r = s.readReg r := by cases r <;> rfl

theorem State.hostReadReg_definite (s : State) {r : Reg} (h : r.openWhileBusy = false) :
    s.hostReadReg r.offset = { s with rdata := s.readReg r } := by
  simp [State.hostReadReg, r.atOffset_offset, h]

theorem State.hostReadReg_open {s : State} {r : Reg} (hb : s.status.busy = true) (h : r.openWhileBusy = true) :
    s.hostReadReg r.offset = { s with rdata := Config.freeWord s.draws, draws := s.draws + 1 } := by
  simp [State.hostReadReg, r.atOffset_offset, hb, h]

theorem State.hostReadReg_reserved (s : State) {o : Nat} (h : Reg.atOffset o = none) :
    s.hostReadReg o = { s with rdata := 0#32 } := by
  simp [State.hostReadReg, h]

/-! ## Dropped writes (20_memory.md R91) -/

theorem State.hostWriteReg_busy_dropped {s : State} {o : Nat} (v : Word) (hb : s.status.busy = true) (ho : o ≠ 0x004) :
    s.hostWriteReg o v = s.collide := by
  simp [State.hostWriteReg, hb, ho]

/-! ## The step of a permitted access (20_memory.md R88, R89) -/

section Access

variable {n a o : Nat}

theorem step_regWrite (s : State) (rest : List Event) (v : Word) (ho : o % 4 = 0) (hlt : o < 4096) :
    step { s with agenda := .host (.regWrite 4 o v) :: rest }
      = .next (State.hostWriteReg { s with agenda := rest } o v) :=
  (regWriteStep_eq_next (s := { s with agenda := rest })).mpr ⟨(regAccessOk_iff 4 o).mpr ⟨rfl, ho, hlt⟩, rfl⟩

theorem step_regRead (s : State) (rest : List Event) (ho : o % 4 = 0) (hlt : o < 4096) :
    step { s with agenda := .host (.regRead 4 o) :: rest } = .next (State.hostReadReg { s with agenda := rest } o) :=
  (regReadStep_eq_next (s := { s with agenda := rest })).mpr ⟨(regAccessOk_iff 4 o).mpr ⟨rfl, ho, hlt⟩, rfl⟩

theorem step_readEvent (s : State) (rest : List Event) (r : Reg) :
    step { s with agenda := readEvent r :: rest } = .next (State.hostReadReg { s with agenda := rest } r.offset) :=
  step_regRead s rest r.offset_aligned (Nat.lt_trans r.offset_lt (by decide))

theorem step_bufWrite (s : State) (rest : List Event) (v : Word) (hn : n = 1 ∨ n = 2 ∨ n = 4) (ha : a % n = 0)
    (hin : a + n ≤ s.cfg.bufSize) : step { s with agenda := .host (.bufWrite n a v) :: rest }
      = .next (State.hostWriteBuf { s with agenda := rest } n a v) :=
  (bufWriteStep_eq_next (s := { s with agenda := rest })).mpr ⟨(State.bufAccessOk_iff _ n a).mpr ⟨hn, ha, hin⟩, rfl⟩

theorem step_bufRead (s : State) (rest : List Event) (hn : n = 1 ∨ n = 2 ∨ n = 4) (ha : a % n = 0)
    (hin : a + n ≤ s.cfg.bufSize) : step { s with agenda := .host (.bufRead n a) :: rest }
      = .next (State.hostReadBuf { s with agenda := rest } n a) :=
  (bufReadStep_eq_next (s := { s with agenda := rest })).mpr ⟨(State.bufAccessOk_iff _ n a).mpr ⟨hn, ha, hin⟩, rfl⟩

end Access

/-- A host access that is not permitted stops with its fault. -/
theorem guarded_eq_fault {c : Bool} {p : Prop} {a : State} {f : Fault} (hc : c = true ↔ p) (hp : ¬ p) :
    (if c then .next a else .fault f : Host.Outcome State Fault Refusal) = .fault f :=
  if_neg fun h => hp (hc.mp h)

/-! ## The statements -/

/-- Settles O12: each write steps, and its effect is the collision alone. -/
theorem busyDropsHostWrites : Obligations.BusyDropsHostWrites := by
  intro s rest v hb
  refine ⟨fun o ho hlt hne => ?_, fun n a hn ha hin => ?_⟩
  · have hdrop := State.hostWriteReg_busy_dropped (s := { s with agenda := rest }) v hb hne
    exact (step_regWrite s rest v ho hlt).trans (congrArg _ hdrop)
  · have hdrop := State.hostWriteBuf_busy (s := { s with agenda := rest }) n a v hb
    exact (step_bufWrite s rest v hn ha hin).trans (congrArg _ hdrop)

/-- Settles O16: the law of a write to BUF, and a read with no command pending. -/
theorem hostBufReadback : Obligations.HostBufReadback := by
  intro s n a v rest hb hn ha hin
  constructor
  · have hstore := State.hostWriteBuf_idle (s := { s with agenda := rest }) n a v hb
    refine ⟨_, (step_bufWrite s rest v hn ha hin).trans (congrArg _ hstore), rfl, fun x hx => ?_, fun k hk => ?_⟩
    · exact Memory.byteAt_writeBytes_outside s.buf a _ x (by simpa using hx)
    · exact Memory.byteAt_writeBytes_inside s.buf a _ k _ (leBytes_byte v hk)
  · have hwin : State.pendingUsesDest { s with agenda := rest } = false := State.pendingUsesDest_idle hb
    rw [step_bufRead s rest hn ha hin, State.hostReadBuf_of_no_window hn hwin]

/-- Settles O18: the registers by whether their read is open, BUF by whether the pending word has a destination
window. -/
theorem readsWhileBusy : Obligations.ReadsWhileBusy := by
  intro s rest hb
  refine ⟨fun r hr => ?_, fun r hr => ?_, fun o ho hlt hres => ?_,
    fun n a hn ha hin => ⟨fun hnone => ?_, fun i hi hd => ?_⟩⟩
  · have hdef : r.openWhileBusy = false := by revert r; decide
    rw [step_readEvent, State.hostReadReg_definite _ hdef, State.readReg_withAgenda]
  · have hopen : r.openWhileBusy = true := by revert r; decide
    have hread := State.hostReadReg_open (s := { s with agenda := rest }) hb hopen
    exact (step_readEvent s rest r).trans (congrArg _ hread)
  · rw [step_regRead s rest ho hlt, State.hostReadReg_reserved _ (Reg.atOffset_reserved hres)]
  · have hwin : State.pendingUsesDest { s with agenda := rest } = false := by
      obtain ⟨e, he⟩ | ⟨i, hi, hd⟩ := hnone
      · exact State.pendingUsesDest_of_error he
      · exact (State.pendingUsesDest_of_ok hb hi).trans hd
    rw [step_bufRead s rest hn ha hin, State.hostReadBuf_of_no_window hn hwin]
  · have hn4 : n ≤ 4 := by omega
    have hwin : State.pendingUsesDest { s with agenda := rest } = true := (State.pendingUsesDest_of_ok hb hi).trans hd
    have hiff : ∀ x, State.inPendingDest { s with agenda := rest } x = true ↔ s.dst ≤ x ∧ x < s.dst + s.dlen :=
      fun x => (State.inPendingDest_iff _ x).trans (and_iff_right hwin)
    refine ⟨_, step_bufRead s rest hn ha hin, ?_, fun hout => ?_, fun k hk => ?_, fun k hk _ => ?_⟩
    · simp [State.hostReadBuf, hwin]
    · refine State.hostReadBuf_rdata_outside hn fun x h1 h2 => ?_
      rw [Bool.eq_false_iff, ne_eq, hiff]
      omega
    · rw [State.hostReadBuf_rdata_byte hn4 hk]
      simp only [hiff]
    · exact State.hostReadBuf_rdata_upper hn4 hk

/-- Settles O19: the guard of each access, and the route of each host address. -/
theorem badHostAccessStops : Obligations.BadHostAccessStops := by
  intro s n a v rest
  refine ⟨fun hbad => ?_, fun hbad => ?_, fun x hx => ?_, fun ha => ?_, fun ha hapart => ?_, fun x hreg hbuf => ?_⟩
  · exact ⟨guarded_eq_fault (regAccessOk_iff n a) hbad, guarded_eq_fault (regAccessOk_iff n a) hbad⟩
  · have hok := State.bufAccessOk_iff { s with agenda := rest } n a
    exact ⟨guarded_eq_fault hok hbad, guarded_eq_fault hok hbad⟩
  · exact hostStep_of_permitted (s := { s with agenda := rest }) hx
  · have ho := Config.regOffset_add s.cfg ha
    exact ⟨hostStep_busWrite_register (s := { s with agenda := rest }) ho,
      hostStep_busRead_register (s := { s with agenda := rest }) ho⟩
  · have ho := Config.regOffset_outside hapart
    have hb := Config.bufOffset_add s.cfg ha
    exact ⟨hostStep_busWrite_buf (s := { s with agenda := rest }) ho hb,
      hostStep_busRead_buf (s := { s with agenda := rest }) ho hb⟩
  · have ho := Config.regOffset_outside hreg
    have hb := Config.bufOffset_outside hbuf
    exact ⟨hostStep_busWrite_unseen (s := { s with agenda := rest }) ho hb,
      hostStep_busRead_unseen (s := { s with agenda := rest }) ho hb⟩

end Sys2Proof.Machine
end

section
/-! The command word: the decoder and the encoder, the opcode map as rows, and the completion of an illegal word
(30_encoding.md R110 to R115). The decoder is inverted once, in `decodeOp_eq_ok_iff`; what a word that names a command looks
like then follows from the encoder. -/

namespace Sys2Proof

/-! ## The fields of a command word (30_encoding.md R110) -/

/-- A word is the append of three parts exactly when they are its RSV, MODE and OP. -/
theorem append_eq_word_iff (w : BitVec 32) (rsv : BitVec 16) (mode op : BitVec 8) :
    rsv ++ mode ++ op = w ↔ rsv = rsvField w ∧ mode = modeField w ∧ op = opField w := by
  have hw := w.isLt
  have hr := rsv.isLt
  have hm := mode.isLt
  have ho := op.isLt
  simp only [BitVec.toNat_eq, Machine.toNat_append_add, rsvField, modeField, opField, BitVec.extractLsb'_toNat,
    Nat.shiftRight_eq_div_pow]
  omega

theorem rsvField_and (v w : BitVec 32) : rsvField (v &&& w) = rsvField v &&& rsvField w := BitVec.extractLsb'_and

theorem modeField_and (v w : BitVec 32) : modeField (v &&& w) = modeField v &&& modeField w := BitVec.extractLsb'_and

theorem opField_and (v w : BitVec 32) : opField (v &&& w) = opField v &&& opField w := BitVec.extractLsb'_and

/-- A command's word has RSV 0 and the command's MODE and OP (30_encoding.md R136). -/
theorem encode_eq_iff (i : Instr) (w : BitVec 32) :
    encode i = w ↔ rsvField w = 0#16 ∧ i.mode = modeField w ∧ i.op = opField w := by
  rw [encode, append_eq_word_iff, eq_comm (a := 0#16)]

/-- A command is decoded from a word whose RSV is 0, by its OP and MODE (30_encoding.md R111). -/
theorem decode_eq_ok_iff (w : BitVec 32) (i : Instr) :
    decode w = .ok i ↔ rsvField w = 0#16 ∧ decodeOp (opField w) (modeField w) = .ok i := by
  unfold decode
  split <;> simp_all

/-! ## MODE (30_encoding.md R113) -/

theorem modeNone_eq_ok {mode : BitVec 8} {i j : Instr} : modeNone mode j = .ok i ↔ mode = 0#8 ∧ j = i := by
  unfold modeNone
  split <;> simp_all

/-- TP and nothing above it, in MODE. -/
theorem setWidth_tp_eq_iff : ∀ (mode : BitVec 8) (tp : BitVec 2),
    tp.setWidth 8 = mode ↔ mode.extractLsb' 2 6 = 0#6 ∧ mode.extractLsb' 0 2 = tp := by decide

theorem modeTp_eq_ok {mode : BitVec 8} {i : Instr} {f : BitVec 2 → Instr} :
    modeTp mode f = .ok i ↔ ∃ tp, legalTp tp = true ∧ tp.setWidth 8 = mode ∧ f tp = i := by
  simp only [setWidth_tp_eq_iff]
  unfold modeTp
  split
  · simp_all
  · rename_i hbad
    refine iff_of_false (by simp) ?_
    rintro ⟨tp, hlegal, ⟨hzero, rfl⟩, -⟩
    exact hbad ⟨hzero, hlegal⟩

/-- EXT, TM or SCAN and nothing above it, in MODE. -/
theorem setWidth_bit_eq_iff : ∀ (mode : BitVec 8) (x : Bool),
    (BitVec.ofBool x).setWidth 8 = mode ↔ mode.extractLsb' 1 7 = 0#7 ∧ mode.getLsbD 0 = x := by decide

theorem modeBit_eq_ok {mode : BitVec 8} {i : Instr} {f : Bool → Instr} :
    modeBit mode f = .ok i ↔ ∃ x, (BitVec.ofBool x).setWidth 8 = mode ∧ f x = i := by
  simp only [setWidth_bit_eq_iff]
  unfold modeBit
  split <;> simp_all

theorem modeNone_ne_reservedOp (mode : BitVec 8) (j : Instr) : modeNone mode j ≠ .error .reservedOp := by
  unfold modeNone
  split <;> simp

theorem modeTp_ne_reservedOp (mode : BitVec 8) (f : BitVec 2 → Instr) : modeTp mode f ≠ .error .reservedOp := by
  unfold modeTp
  split <;> simp

theorem modeBit_ne_reservedOp (mode : BitVec 8) (f : Bool → Instr) : modeBit mode f ≠ .error .reservedOp := by
  unfold modeBit
  split <;> simp

/-! ## OP (30_encoding.md R112, R115) -/

/-- The command has an encoding, and OP and MODE are its own. -/
def Instr.hasFields (i : Instr) (op mode : BitVec 8) : Prop := i.wellFormed = true ∧ i.op = op ∧ i.mode = mode

section Opcode
variable {op mode : BitVec 8} {i : Instr} {n : Nat}

theorem hasFields_of_modeNone {j : Instr} (h : modeNone mode j = .ok i) (hop : op.toNat = n)
    (hj : j.hasFields (BitVec.ofNat 8 n) 0#8) : i.hasFields op mode := by
  obtain ⟨rfl, rfl⟩ := modeNone_eq_ok.mp h
  subst hop
  simpa using hj

theorem hasFields_of_modeTp {f : BitVec 2 → Instr} (h : modeTp mode f = .ok i) (hop : op.toNat = n)
    (hf : ∀ tp, legalTp tp = true → (f tp).hasFields (BitVec.ofNat 8 n) (tp.setWidth 8)) : i.hasFields op mode := by
  obtain ⟨tp, htp, rfl, rfl⟩ := modeTp_eq_ok.mp h
  subst hop
  simpa using hf tp htp

theorem hasFields_of_modeBit {f : Bool → Instr} (h : modeBit mode f = .ok i) (hop : op.toNat = n)
    (hf : ∀ x, (f x).hasFields (BitVec.ofNat 8 n) ((BitVec.ofBool x).setWidth 8)) : i.hasFields op mode := by
  obtain ⟨x, rfl, rfl⟩ := modeBit_eq_ok.mp h
  subst hop
  simpa using hf x

/-- OP and MODE name exactly the command whose fields they are: row by row of the opcode map. -/
theorem decodeOp_eq_ok_iff : decodeOp op mode = .ok i ↔ i.hasFields op mode := by
  constructor
  · intro h
    unfold decodeOp at h
    split at h
    any_goals exact hasFields_of_modeNone h ‹_› ⟨rfl, rfl, rfl⟩
    any_goals exact hasFields_of_modeTp h ‹_› fun _ htp => ⟨htp, rfl, rfl⟩
    any_goals exact hasFields_of_modeBit h ‹_› fun _ => ⟨rfl, rfl, rfl⟩
    cases h
  · rintro ⟨hwf, rfl, rfl⟩
    cases i with
    | cvt555 tp | cvt565 tp | pack555 tp | pack565 tp => exact modeTp_eq_ok.mpr ⟨tp, hwf, rfl, rfl⟩
    | l1dec x | l1enc x | tiledec x => exact modeBit_eq_ok.mpr ⟨x, rfl, rfl⟩
    | _ => exact modeNone_eq_ok.mpr ⟨rfl, rfl⟩

/-- OP is refused exactly in the ranges of R115. -/
theorem decodeOp_eq_reservedOp_iff : decodeOp op mode = .error .reservedOp ↔
    (3 ≤ op.toNat ∧ op.toNat ≤ 0x0F) ∨ (0x17 ≤ op.toNat ∧ op.toNat ≤ 0x1F) ∨ (0x28 ≤ op.toNat ∧ op.toNat ≤ 0x2F)
      ∨ 0x39 ≤ op.toNat := by
  unfold decodeOp
  split
  case h_28 => exact iff_of_true rfl (by simp only [imp_false] at *; omega)
  all_goals
    simp only [modeNone_ne_reservedOp, modeTp_ne_reservedOp, modeBit_ne_reservedOp, false_iff]
    omega

end Opcode

/-! ## Words that name a command -/

/-- Settles O4: RSV, OP and MODE of the word are the command's. -/
theorem decodeEncodeAgree : Obligations.DecodeEncodeAgree := by
  intro w i
  rw [decode_eq_ok_iff, decodeOp_eq_ok_iff, encode_eq_iff, Instr.hasFields]
  tauto

/-- Settles O5. -/
theorem decodeRefusesInOrder : Obligations.DecodeRefusesInOrder := by
  intro w
  refine ⟨fun hrsv => if_neg hrsv, fun hrsv => ?_⟩
  have hdecode : decode w = decodeOp (opField w) (modeField w) := if_pos hrsv
  rw [hdecode]
  exact decodeOp_eq_reservedOp_iff.symm

/-- Settles O7. -/
theorem sampleWordsDecode : Obligations.SampleWordsDecode := by
  refine ⟨?_, ?_, ?_, ?_, ?_, ?_, ?_, rfl, rfl, rfl⟩ <;> exact (decodeEncodeAgree _ _).mpr ⟨rfl, rfl⟩

/-! ## The rows of the opcode map (30_encoding.md R110, R113) -/

/-- The four words with TP = 3 (30_encoding.md R113). -/
def tp3Words : List (BitVec 32) := [0x310#32, 0x311#32, 0x312#32, 0x313#32]

/-- A command is without an encoding exactly when its word has TP = 3. -/
theorem encode_mem_tp3Words_iff (i : Instr) : encode i ∈ tp3Words ↔ i.wellFormed = false := by
  cases i with
  | cvt555 tp | cvt565 tp | pack555 tp | pack565 tp => revert tp; decide
  | l1dec x | l1enc x | tiledec x => revert x; decide
  | _ => decide

theorem OpRow.matches_iff (r : OpRow) (w : BitVec 32) : r.matches w = true ↔ w &&& r.maskWord = r.matchWord := beq_iff_eq

/-- Every row fixes OP. -/
theorem maskWord_op : ∀ r ∈ opTable, r.maskWord &&& 0xFF#32 = 0xFF#32 := by decide

theorem opTable_op_injective :
    ∀ r ∈ opTable, ∀ r' ∈ opTable, r.matchWord &&& 0xFF#32 = r'.matchWord &&& 0xFF#32 → r = r' := by decide

/-- The row that matches a word has the word's OP. -/
theorem matchWord_op {r : OpRow} {w : BitVec 32} (hr : r ∈ opTable) (h : r.matches w = true) :
    r.matchWord &&& 0xFF#32 = w &&& 0xFF#32 := by
  rw [← (r.matches_iff w).mp h, BitVec.and_assoc, maskWord_op r hr]

/-- The bits of MODE that a command's row leaves free: TP; EXT, TM or SCAN; none. -/
def Instr.freeMode : Instr → BitVec 8
  | .cvt555 _ | .cvt565 _ | .pack555 _ | .pack565 _ => 3#8
  | .l1dec _ | .l1enc _ | .tiledec _ => 1#8
  | _ => 0#8

/-- The command of the same row whose options are those of MODE. -/
def Instr.withMode (mode : BitVec 8) : Instr → Instr
  | .cvt555 _ => .cvt555 (mode.setWidth 2)
  | .cvt565 _ => .cvt565 (mode.setWidth 2)
  | .pack555 _ => .pack555 (mode.setWidth 2)
  | .pack565 _ => .pack565 (mode.setWidth 2)
  | .l1dec _ => .l1dec (mode.getLsbD 0)
  | .l1enc _ => .l1enc (mode.getLsbD 0)
  | .tiledec _ => .tiledec (mode.getLsbD 0)
  | i => i

/-- The mask of a command's row. -/
def Instr.rowMask (i : Instr) : BitVec 32 := BitVec.allOnes 16 ++ ~~~i.freeMode ++ BitVec.allOnes 8

/-- The commands whose words the rows of the map give, in the map's order: every option is 0. -/
def tableCommands : List Instr :=
  [.nop, .seed, .candrst, .cvt555 0, .cvt565 0, .pack555 0, .pack565 0, .l1dec false, .l1ext, .l1enc false, .isoxy,
   .palscan, .tiledec false, .tileenc, .maskfin, .canvas, .blit, .sprdec, .decblk, .encblk, .xortail, .decpay, .encpay,
   .mark, .coreenc, .coredec, .keydump]

theorem opTable_eq_tableCommands :
    opTable.map (fun r => (r.matchWord, r.maskWord)) = tableCommands.map (fun i => (encode i, i.rowMask)) := by decide

theorem mode_of_mem_tableCommands : ∀ i ∈ tableCommands, i.mode = 0#8 := by decide

theorem op_withMode (i : Instr) (mode : BitVec 8) : (i.withMode mode).op = i.op := by cases i <;> rfl

/-- MODE with no bit beside the free ones is the MODE of the command it gives the options of. -/
theorem mode_withMode {i : Instr} {mode : BitVec 8} (h : mode &&& ~~~i.freeMode = 0#8) : (i.withMode mode).mode = mode := by
  have htp : ∀ m : BitVec 8, m &&& ~~~3#8 = 0#8 → (m.setWidth 2).setWidth 8 = m := by decide
  have hbit : ∀ m : BitVec 8, m &&& ~~~1#8 = 0#8 → (BitVec.ofBool (m.getLsbD 0)).setWidth 8 = m := by decide
  have hnone : ∀ m : BitVec 8, m &&& ~~~0#8 = 0#8 → 0#8 = m := by decide
  cases i with
  | cvt555 tp | cvt565 tp | pack555 tp | pack565 tp => exact htp mode h
  | l1dec x | l1enc x | tiledec x => exact hbit mode h
  | _ => exact hnone mode h

/-- A word that a row matches is the word of the row's command with some options. -/
theorem exists_encode_of_matches {r : OpRow} {w : BitVec 32} (hr : r ∈ opTable) (h : r.matches w = true) :
    ∃ i, encode i = w := by
  have hmem : (r.matchWord, r.maskWord) ∈ tableCommands.map (fun i => (encode i, i.rowMask)) :=
    opTable_eq_tableCommands ▸ List.mem_map_of_mem hr
  obtain ⟨i, hi, hrow⟩ := List.mem_map.mp hmem
  obtain ⟨hmatch, hmask⟩ := Prod.mk.inj hrow
  have hw : encode i = w &&& i.rowMask := by rw [hmatch, hmask, (r.matches_iff w).mp h]
  obtain ⟨hrsvMask, hmodeMask, hopMask⟩ := (append_eq_word_iff i.rowMask _ _ _).mp rfl
  obtain ⟨hrsv, hmode, hop⟩ := (encode_eq_iff i _).mp hw
  refine ⟨i.withMode (modeField w), (encode_eq_iff _ _).mpr ⟨?_, ?_, ?_⟩⟩
  · rwa [rsvField_and, ← hrsvMask, BitVec.and_allOnes] at hrsv
  · rw [mode_of_mem_tableCommands i hi, modeField_and, ← hmodeMask] at hmode
    exact mode_withMode hmode.symm
  · rw [opField_and, ← hopMask, BitVec.and_allOnes] at hop
    exact (op_withMode i _).trans hop

theorem exists_row_of_encode (i : Instr) : ∃ r ∈ opTable, r.matches (encode i) = true := by
  cases i with
  | cvt555 tp | cvt565 tp | pack555 tp | pack565 tp => revert tp; decide
  | l1dec x | l1enc x | tiledec x => revert x; decide
  | _ => decide

/-- Settles O6: a row is told by its OP, and the words of the rows are those of the commands, TP = 3 apart. -/
theorem opcodeRowsDisjoint : Obligations.OpcodeRowsDisjoint := by
  intro w
  have htp3 : (w ≠ 0x310#32 ∧ w ≠ 0x311#32 ∧ w ≠ 0x312#32 ∧ w ≠ 0x313#32) ↔ w ∉ tp3Words := by simp [tp3Words]
  rw [htp3]
  refine ⟨fun r hr r' hr' h h' => ?_, ?_, ?_⟩
  · exact opTable_op_injective r hr r' hr' ((matchWord_op hr h).trans (matchWord_op hr' h').symm)
  · rintro ⟨i, hi⟩
    obtain ⟨hwf, rfl⟩ := (decodeEncodeAgree _ _).mp hi
    refine ⟨exists_row_of_encode i, fun hmem => ?_⟩
    rw [encode_mem_tp3Words_iff, hwf] at hmem
    cases hmem
  · rintro ⟨⟨r, hr, h⟩, hw⟩
    obtain ⟨i, rfl⟩ := exists_encode_of_matches hr h
    rw [encode_mem_tp3Words_iff, Bool.not_eq_false] at hw
    exact ⟨i, (decodeEncodeAgree _ _).mpr ⟨hw, rfl⟩⟩

/-! ## Illegal words (30_encoding.md R114) -/

/-- The encodings that R114 calls illegal: RSV, a MODE bit that OP does not define, TP = 3, a reserved OP. -/
def IllegalFields (w : BitVec 32) : Prop :=
  w.extractLsb' 16 16 ≠ 0#16
    ∨ ((w.extractLsb' 0 8).toNat ∈ [0x10, 0x11, 0x12, 0x13] ∧ (w.extractLsb' 10 6 ≠ 0#6 ∨ w.extractLsb' 8 2 = 3#2))
    ∨ ((w.extractLsb' 0 8).toNat ∈ [0x14, 0x16, 0x22] ∧ w.extractLsb' 9 7 ≠ 0#7)
    ∨ ((w.extractLsb' 0 8).toNat ∉ [0x10, 0x11, 0x12, 0x13, 0x14, 0x16, 0x22] ∧ w.extractLsb' 8 8 ≠ 0#8)
    ∨ (3 ≤ (w.extractLsb' 0 8).toNat ∧ (w.extractLsb' 0 8).toNat ≤ 0x0F)
    ∨ (0x17 ≤ (w.extractLsb' 0 8).toNat ∧ (w.extractLsb' 0 8).toNat ≤ 0x1F)
    ∨ (0x28 ≤ (w.extractLsb' 0 8).toNat ∧ (w.extractLsb' 0 8).toNat ≤ 0x2F)
    ∨ 0x39 ≤ (w.extractLsb' 0 8).toNat

theorem encode_not_illegalFields {i : Instr} (h : i.wellFormed = true) : ¬ IllegalFields (encode i) := by
  unfold IllegalFields
  cases i with
  | cvt555 tp | cvt565 tp | pack555 tp | pack565 tp => revert tp; decide
  | l1dec x | l1enc x | tiledec x => revert x; decide
  | _ => decide

/-- No illegal encoding is the word of a command, so each is refused. -/
theorem decode_of_illegalFields {w : BitVec 32} (h : IllegalFields w) : ∃ e, decode w = .error e := by
  cases hd : decode w with
  | error e => exact ⟨e, rfl⟩
  | ok i =>
    obtain ⟨hwf, rfl⟩ := (decodeEncodeAgree _ _).mp hd
    exact absurd h (encode_not_illegalFields hwf)

/-- Settles O9: the engine's turn completes a refused word with IllegalCommand. -/
theorem illegalWordCompletes : Obligations.IllegalWordCompletes := by
  rintro s hbusy ⟨rest, hnext⟩ hillegal
  obtain ⟨e, he⟩ := decode_of_illegalFields hillegal
  refine ⟨Machine.State.completeErr { s with agenda := rest } .illegalCommand, ?_, ?_⟩
  · rw [Machine.step_of_engine hnext, Machine.engineTurn_of_busy (s := { s with agenda := rest }) hbusy]
    simp [Machine.State.pendingOutcome, he]
  · rw [hnext]
    exact Machine.completeErr_failed _ _

end Sys2Proof
end

section
/-! Candidates (10_state.md R55): what a scan leaves of the candidate set, and which candidate is the first left, in the
terms of `refined` and `isFirst`. -/

namespace Sys2Proof.Machine

/-- A candidate's number is a bit of the set. -/
theorem candList_index_lt {i : Nat} {c : Colour} (h : Config.candList[i]? = some c) : i < 7 :=
  (List.getElem?_eq_some_iff.mp h).1

theorem candList_getElem?_of_lt {i : Nat} (h : i < 7) : ∃ c, Config.candList[i]? = some c :=
  ⟨_, List.getElem?_eq_getElem (l := Config.candList) h⟩

/-- One colour's turn in `hits` sets its bit and keeps the others. -/
theorem getLsbD_hit {acc : BitVec 7} {i k : Nat} {p : Bool} (hi : i < 7) :
    (if p then acc ||| (1#7 <<< k) else acc).getLsbD i = (acc.getLsbD i || (decide (i = k) && p)) := by
  have hbit : (1#7 <<< k).getLsbD i = decide (i = k) := by
    rw [BitVec.getLsbD_shiftLeft, BitVec.getLsbD_one]
    rw [Bool.eq_iff_iff]
    simp only [Bool.and_eq_true, Bool.not_eq_true', decide_eq_true_eq, decide_eq_false_iff_not]
    omega
  cases p <;> simp [hbit]

/-- The fold of `hits` over the colours `cs`, the first being candidate number `k`. -/
theorem getLsbD_hits_fold (l cs : List Colour) (k : Nat) (acc : BitVec 7) {i : Nat} (hi : i < 7) :
    ((cs.zipIdx k).foldl (fun acc c => if l.contains c.1 then acc ||| (1#7 <<< c.2) else acc) acc).getLsbD i
      = (acc.getLsbD i || (decide (k ≤ i) && (cs[i - k]?).any (l.contains ·))) := by
  induction cs generalizing k acc with
  | nil => simp
  | cons c cs ih =>
    rw [List.zipIdx_cons, List.foldl_cons, ih, getLsbD_hit hi]
    rcases Nat.lt_trichotomy i k with h | rfl | h
    · simp [show ¬ k + 1 ≤ i by omega, show ¬ k ≤ i by omega, show i ≠ k by omega]
    · simp
    · rw [show i - k = (i - (k + 1)) + 1 by omega]
      simp [show k + 1 ≤ i by omega, show k ≤ i by omega, show i ≠ k by omega]

theorem getLsbD_hits (l : List Colour) {i : Nat} {c : Colour} (h : Config.candList[i]? = some c) :
    (hits l).getLsbD i = l.contains c := by
  rw [hits, getLsbD_hits_fold l _ 0 _ (candList_index_lt h)]
  simp [h]

/-- A scan strikes exactly the candidates among the colours. -/
theorem refined_scan (set : BitVec 7) (l : List Colour) : refined set (scan set l) (fun v => v ∈ l) := by
  intro i c h
  rw [scan, BitVec.getLsbD_and, BitVec.getLsbD_not, getLsbD_hits l h]
  simp [candList_index_lt h]

theorem refined_congr {set set' : BitVec 7} {p q : Colour → Prop} (h : refined set set' p) (hpq : ∀ v, p v ↔ q v) :
    refined set set' q := fun i c hc => by rw [h i c hc, hpq c]

theorem refined_refl (set : BitVec 7) : refined set set (fun _ => False) := fun _ _ _ => by simp

theorem refined_trans {set set' set'' : BitVec 7} {p q : Colour → Prop} (h : refined set set' p)
    (h' : refined set' set'' q) : refined set set'' (fun v => p v ∨ q v) := fun i c hc => by
  rw [h' i c hc, h i c hc, and_assoc, not_or]

/-- What is struck determines what is left. -/
theorem refined_unique {set s t : BitVec 7} {p : Colour → Prop} (hs : refined set s p) (ht : refined set t p) : s = t := by
  refine BitVec.eq_of_getLsbD_eq fun i hi => ?_
  obtain ⟨c, hc⟩ := candList_getElem?_of_lt hi
  rw [Bool.eq_iff_iff, hs i c hc, ht i c hc]

/-- Scans one after another strike the colours of them all. -/
theorem refined_foldl_scan {α : Type} (f : α → List Colour) (ts : List α) (set : BitVec 7) :
    refined set (ts.foldl (fun s t => scan s (f t)) set) (fun v => ∃ t ∈ ts, v ∈ f t) := by
  induction ts generalizing set with
  | nil => simpa using refined_refl set
  | cons t ts ih => exact refined_congr (refined_trans (refined_scan set (f t)) (ih _)) (by simp)

theorem firstCandidate_eq_some (set : BitVec 7) (m : Colour) : firstCandidate set = some m ↔ isFirst set m := by
  rw [firstCandidate, Option.map_eq_some_iff]
  simp only [List.find?_eq_some_iff_getElem, isFirst]
  constructor
  · rintro ⟨-, ⟨hset, i, hi, rfl, hbefore⟩, rfl⟩
    simp only [List.getElem_zipIdx, Nat.zero_add, Bool.not_eq_true'] at hset hbefore ⊢
    exact ⟨i, List.getElem?_eq_getElem _, hset, hbefore⟩
  · rintro ⟨i, hc, hset, hbefore⟩
    obtain ⟨hi, rfl⟩ := List.getElem?_eq_some_iff.mp hc
    exact ⟨(Config.candList[i], i), ⟨hset, i, by simpa using hi, by simp, fun j hj => by simp [hbefore j hj]⟩, rfl⟩

/-- No candidate is left exactly when the set is empty. -/
theorem firstCandidate_eq_none (set : BitVec 7) : firstCandidate set = none ↔ set = 0#7 := by
  constructor
  · intro h
    rw [firstCandidate, Option.map_eq_none_iff, List.find?_eq_none] at h
    refine BitVec.eq_of_getLsbD_eq fun i hi => ?_
    obtain ⟨c, hc⟩ := candList_getElem?_of_lt hi
    simpa using h (c, i) (List.mem_zipIdx_iff_getElem?.mpr hc)
  · rintro rfl
    rfl

end Sys2Proof.Machine
end

section
/-! Readers of the source window (00_scope.md R14): a parser reads a byte string at an offset when it gives its value
wherever the string stands there, and TruncatedInput wherever the source ends inside it. The law composes along `>>=`, so
that the law of each part of a sprite container is put together from those of its fields. -/

namespace Sys2Proof.Machine

/-- `p` reads `bs` at offset `o` as `x`. -/
def Reads {α : Type} (p : List Byte → Except ErrCode α) (o : Nat) (bs : List Byte) (x : α) : Prop :=
  ∀ b, (bs <+: b.drop o → p b = .ok x)
    ∧ (b.drop o <+: bs → (b.drop o).length < bs.length → p b = .error .truncatedInput)

section Rules
variable {α β : Type} {p : List Byte → Except ErrCode α} {q : α → List Byte → Except ErrCode β} {o o' : Nat}
  {bs cs b : List Byte} {x : α} {y : β}

theorem Reads.ok (h : Reads p o bs x) (hb : bs <+: b.drop o) : p b = .ok x := (h b).1 hb

theorem Reads.truncated (h : Reads p o bs x) (hb : b.drop o <+: bs) (hlen : (b.drop o).length < bs.length) :
    p b = .error .truncatedInput := (h b).2 hb hlen

/-- What stands behind a string that stands at `o`. -/
theorem prefix_drop_of_append_prefix (h : bs ++ cs <+: b.drop o) : cs <+: b.drop (o + bs.length) := by
  obtain ⟨rest, hrest⟩ := h
  exact ⟨rest, by rw [← List.drop_drop, ← hrest, List.append_assoc, List.drop_left]⟩

theorem Reads.pure (x : α) (o : Nat) : Reads (fun _ => .ok x) o [] x :=
  fun _ => ⟨fun _ => rfl, fun _ h => absurd h (Nat.not_lt_zero _)⟩

/-- One reader after another reads the one string after the other. -/
theorem Reads.bind (hp : Reads p o bs x) (hq : Reads (q x) o' cs y) (ho : o' = o + bs.length) :
    Reads (fun b => p b >>= fun x => q x b) o (bs ++ cs) y := by
  subst ho
  refine fun b => ⟨fun h => ?_, fun h hlen => ?_⟩ <;> beta_reduce
  · rw [hp.ok ((List.prefix_append bs cs).trans h), ok_bind, hq.ok (prefix_drop_of_append_prefix h)]
  · rcases Nat.lt_or_ge (b.drop o).length bs.length with hshort | hlong
    · rw [hp.truncated (List.prefix_of_prefix_length_le h (List.prefix_append bs cs) hshort.le) hshort, error_bind]
    · obtain ⟨rest, hrest⟩ := List.prefix_of_prefix_length_le (List.prefix_append bs cs) h hlong
      have hdrop : b.drop (o + bs.length) = rest := by rw [← List.drop_drop, ← hrest, List.drop_left]
      rw [← hrest] at h hlen
      rw [hp.ok ⟨rest, hrest⟩, ok_bind]
      refine hq.truncated ?_ ?_
      · rwa [hdrop, ← List.prefix_append_right_inj bs]
      · rw [hdrop]; simpa using hlen

/-- A computation behind a reader reads nothing more. -/
theorem Reads.bind_ok (hp : Reads p o bs x) (hq : ∀ b, q x b = .ok y) : Reads (fun b => p b >>= fun x => q x b) o bs y := by
  have hread : Reads (q x) (o + bs.length) [] y := fun b => ⟨fun _ => hq b, fun _ h => absurd h (Nat.not_lt_zero _)⟩
  simpa using hp.bind hread rfl

/-- A check that passes reads nothing. -/
theorem Reads.require {c : Bool} {e : ErrCode} (hc : c = true) (hp : Reads p o bs x) :
    Reads (fun b => require c e >>= fun _ => p b) o bs x := by
  subst hc
  exact hp

end Rules

/-! ## Numbers -/

theorem reads_src8 (o : Nat) (v : Byte) : Reads (src8 · o) o [v] v := by
  refine fun b => ⟨fun ⟨rest, h⟩ => (src8_of_drop h.symm).1, fun h hlen => ?_⟩
  have hend : b[o]? = none := by
    simp only [List.length_drop, List.length_singleton] at hlen
    exact List.getElem?_eq_none (by omega)
  simp [src8, hend]

theorem reads_src16 (o : Nat) (v : BitVec 16) : Reads (src16 · o) o (colourBytes v) v := by
  rw [colourBytes_eq]
  exact (reads_src8 o (v.extractLsb' 0 8)).bind ((reads_src8 (o + 1) (v.extractLsb' 8 8)).bind_ok
    fun _ => congrArg Except.ok (colour_of_bytes v)) rfl

theorem extractLsb'_of_extractLsb' {n : Nat} (v : BitVec n) {j k s m : Nat} (h : j + k ≤ m) :
    (v.extractLsb' s m).extractLsb' j k = v.extractLsb' (s + j) k := by
  ext i hi
  simp [show j + i < m by omega, Nat.add_assoc]

/-- The four bytes of a word are those of its halves. -/
theorem leBytes_word (v : Word) :
    leBytes 4 v = colourBytes (v.extractLsb' 0 16) ++ colourBytes (v.extractLsb' 16 16) := by
  refine List.ext_getElem? fun i => ?_
  rw [colourBytes_eq, colourBytes_eq, extractLsb'_of_extractLsb' v (by decide), extractLsb'_of_extractLsb' v (by decide),
    extractLsb'_of_extractLsb' v (by decide), extractLsb'_of_extractLsb' v (by decide)]
  rcases Nat.lt_or_ge i 4 with h | h
  · rw [leBytes_byte v h]
    interval_cases i <;> rfl
  · rw [List.getElem?_eq_none (by simpa using h), List.getElem?_eq_none (by simpa using h)]

theorem word_of_halves (v : Word) : v.extractLsb' 16 16 ++ v.extractLsb' 0 16 = v := by
  apply BitVec.eq_of_toNat_eq
  have := v.isLt
  simp only [toNat_append_add, BitVec.extractLsb'_toNat, Nat.shiftRight_eq_div_pow]
  omega

theorem reads_src32 (o : Nat) (v : Word) : Reads (src32 · o) o (leBytes 4 v) v := by
  rw [leBytes_word]
  exact (reads_src16 o (v.extractLsb' 0 16)).bind ((reads_src16 (o + 2) (v.extractLsb' 16 16)).bind_ok
    fun _ => congrArg Except.ok (word_of_halves v)) rfl

/-! ## The fields of a container (30_encoding.md R128, R130) -/

theorem reads_colourList (o : Nat) (l : List Colour) : Reads (colourList · o l.length) o (pixelBytes l) l := by
  induction l generalizing o with
  | nil => exact Reads.pure [] o
  | cons c l ih => exact (reads_src16 o c).bind ((ih (o + 2)).bind_ok fun _ => rfl) rfl

/-- A palette of 1 to 256 colours: its count byte, 0 for 256, and its colours. -/
theorem reads_paletteAt (o : Nat) {l : List Colour} (h : 1 ≤ l.length ∧ l.length ≤ 256) :
    Reads (paletteAt · o) o (BitVec.ofNat 8 l.length :: pixelBytes l) (l.length, l) := by
  have hcount : (if BitVec.ofNat 8 l.length == 0#8 then 256 else (BitVec.ofNat 8 l.length).toNat) = l.length := by
    simp only [beq_iff_eq, BitVec.toNat_eq, BitVec.toNat_ofNat]
    split <;> omega
  unfold paletteAt
  refine (reads_src8 o _).bind (o' := o + 1) (cs := pixelBytes l) (y := (l.length, l)) ?_ rfl
  rw [hcount]
  exact (reads_colourList (o + 1) l).bind_ok fun _ => rfl

theorem reads_blocksAt (o : Nat) (ds : List BlockDef) :
    Reads (blocksAt · o ds.length) o (ds.flatMap BlockDef.bytes) ds := by
  induction ds generalizing o with
  | nil => exact Reads.pure [] o
  | cons d ds ih =>
    rw [List.flatMap_cons, BlockDef.bytes, List.append_assoc]
    exact (reads_src8 o d.a).bind ((reads_src8 (o + 1) d.b).bind ((reads_src8 (o + 2) d.frameType).bind
      ((reads_src16 (o + 3) d.id).bind ((ih (o + 5)).bind_ok fun _ => rfl) rfl) rfl) rfl) rfl

theorem reads_offsetsAt (o : Nat) (offs : List Word) : Reads (offsetsAt · o offs.length) o (offs.flatMap (leBytes 4)) offs := by
  induction offs generalizing o with
  | nil => exact Reads.pure [] o
  | cons v offs ih => exact (reads_src32 o v).bind ((ih (o + 4)).bind_ok fun _ => rfl) rfl

/-! ### Frames -/

/-- The first seven fields of a frame header, as bytes. -/
def FrameHdr.headerBytes (f : FrameHdr) : List Byte :=
  colourBytes f.x1 ++ (colourBytes f.y1 ++ (colourBytes f.x2 ++ (colourBytes f.y2 ++ (colourBytes f.unk1
    ++ (colourBytes f.unk2 ++ colourBytes f.blockCount)))))

theorem FrameHdr.bytes_eq (f : FrameHdr) : f.bytes = f.headerBytes ++ f.blocks.flatMap BlockDef.bytes := by
  simp [FrameHdr.bytes, FrameHdr.headerBytes]

theorem FrameHdr.headerBytes_length (f : FrameHdr) : f.headerBytes.length = 14 := by simp [FrameHdr.headerBytes]

theorem FrameHdr.bytes_length (f : FrameHdr) : f.bytes.length = 14 + 5 * f.blocks.length := by
  have hblocks : (f.blocks.flatMap BlockDef.bytes).length = 5 * f.blocks.length := by
    induction f.blocks with
    | nil => rfl
    | cons d ds ih => simp [BlockDef.bytes, ih]; omega
  rw [f.bytes_eq, List.length_append, hblocks, f.headerBytes_length]

/-- The part of `frameAt` before its extent check. -/
def frameHeaderAt (b : List Byte) (o : Nat) : Except ErrCode FrameHdr := do
  let x1 ← src16 b o
  let y1 ← src16 b (o + 2)
  let x2 ← src16 b (o + 4)
  let y2 ← src16 b (o + 6)
  let u1 ← src16 b (o + 8)
  let u2 ← src16 b (o + 10)
  let bc ← src16 b (o + 12)
  return ⟨x1, y1, x2, y2, u1, u2, bc, []⟩

/-- The extent check (41_sprite_compositor.md R211). -/
def FrameHdr.extentOk (f : FrameHdr) : Bool := f.blockCount == 0#16 || (decide (0 < f.width) && decide (0 < f.height))

theorem frameAt_eq (b : List Byte) (o : Nat) : frameAt b o = frameHeaderAt b o >>= fun f =>
    require f.extentOk .range >>= fun _ => blocksAt b (o + 14) f.blockCount.toNat >>= fun bs =>
      .ok { f with blocks := bs } := by
  simp only [frameAt, frameHeaderAt, bind_assoc, pure_eq_ok, ok_bind]
  rfl

theorem reads_frameHeaderAt (o : Nat) (f : FrameHdr) :
    Reads (frameHeaderAt · o) o f.headerBytes { f with blocks := [] } :=
  (reads_src16 o f.x1).bind ((reads_src16 (o + 2) f.y1).bind ((reads_src16 (o + 4) f.x2).bind
    ((reads_src16 (o + 6) f.y2).bind ((reads_src16 (o + 8) f.unk1).bind ((reads_src16 (o + 10) f.unk2).bind
      ((reads_src16 (o + 12) f.blockCount).bind_ok fun _ => rfl) rfl) rfl) rfl) rfl) rfl) rfl

theorem FrameHdr.legal.blockCount_toNat {f : FrameHdr} (h : f.legal) : f.blockCount.toNat = f.blocks.length := by
  obtain ⟨hcount, hlt, -⟩ := h
  rw [hcount, BitVec.toNat_ofNat, Nat.mod_eq_of_lt hlt]

theorem FrameHdr.legal.extentOk {f : FrameHdr} (h : f.legal) : f.extentOk = true := by
  obtain ⟨hcount, -, hextent⟩ := h
  rcases eq_or_ne f.blocks [] with hnil | hne
  · simp [FrameHdr.extentOk, hcount, hnil]
  · simp [FrameHdr.extentOk, hextent hne]

theorem reads_frameAt (o : Nat) {f : FrameHdr} (h : f.legal) : Reads (frameAt · o) o f.bytes f := by
  have hblocks := reads_blocksAt (o + 14) f.blocks
  rw [← h.blockCount_toNat] at hblocks
  simp only [frameAt_eq, f.bytes_eq]
  exact (reads_frameHeaderAt o f).bind (.require h.extentOk (hblocks.bind_ok fun _ => rfl)) rfl

/-- A frame with blocks and a width or height that is not positive (41_sprite_compositor.md R211). -/
theorem frameAt_of_bad_extent {b : List Byte} {o : Nat} {f : FrameHdr} (hb : f.bytes <+: b.drop o)
    (hcount : f.blockCount ≠ 0#16) (hextent : f.width ≤ 0 ∨ f.height ≤ 0) : frameAt b o = .error .range := by
  have hheader : frameHeaderAt b o = .ok { f with blocks := [] } :=
    (reads_frameHeaderAt o f).ok ((f.bytes_eq ▸ List.prefix_append _ _ : f.headerBytes <+: f.bytes).trans hb)
  have hbad : FrameHdr.extentOk { f with blocks := [] } = false := by
    show f.extentOk = false
    simp only [FrameHdr.extentOk, Bool.or_eq_false_iff, beq_eq_false_iff_ne, Bool.and_eq_false_iff, decide_eq_false_iff_not]
    exact ⟨hcount, by omega⟩
  rw [frameAt_eq, hheader, ok_bind, hbad, require_false, error_bind]

/-- Whatever the first part gives, the bytes end in the rest. -/
theorem bind_truncated {α β : Type} {p : Except ErrCode α} {f : α → Except ErrCode β}
    (hp : ∀ e, p = .error e → e = .truncatedInput) (hf : ∀ x, f x = .error .truncatedInput) :
    p >>= f = .error .truncatedInput := by
  cases p with
  | ok x => exact hf x
  | error e => rw [hp e rfl]; rfl

/-- The bytes end inside the header of a frame. -/
theorem frameAt_of_short {b : List Byte} {o : Nat} (h : b.length < o + 14) : frameAt b o = .error .truncatedInput := by
  have hlast : src16 b (o + 12) = .error .truncatedInput := by
    have hhigh : b[o + 12 + 1]? = none := List.getElem?_eq_none (by omega)
    cases hv : src16 b (o + 12) with
    | ok v =>
      obtain ⟨lo, hi, -, hhi, -⟩ := (src16_eq_ok _ _ _).mp hv
      rw [hhigh] at hhi
      cases hhi
    | error e => rw [(src16_error hv).1]
  unfold frameAt
  iterate 6 refine bind_truncated (fun _ he => (src16_error he).1) fun _ => ?_
  rw [hlast, error_bind]

/-- Frames follow one another. -/
theorem reads_framesAt (o : Nat) {fs : List FrameHdr} (h : ∀ f ∈ fs, f.legal) :
    Reads (framesAt · o fs.length) o (fs.flatMap FrameHdr.bytes) (o + (fs.flatMap FrameHdr.bytes).length, fs) := by
  induction fs generalizing o with
  | nil => exact Reads.pure (o, []) o
  | cons f fs ih =>
    obtain ⟨hf, hfs⟩ := List.forall_mem_cons.mp h
    have hnext : o + 14 + 5 * f.blockCount.toNat = o + f.bytes.length := by
      rw [hf.blockCount_toNat, f.bytes_length, Nat.add_assoc]
    rw [List.flatMap_cons, List.length_append, ← Nat.add_assoc, ← hnext]
    exact (reads_frameAt o hf).bind ((ih (o + 14 + 5 * f.blockCount.toNat) hfs).bind_ok fun _ => rfl) hnext

/-- An error in what follows legal frames is the error of the whole. -/
theorem framesAt_error_behind {b : List Byte} {o n : Nat} {fs : List FrameHdr} {e : ErrCode} (h : ∀ f ∈ fs, f.legal)
    (hb : fs.flatMap FrameHdr.bytes <+: b.drop o)
    (he : framesAt b (o + (fs.flatMap FrameHdr.bytes).length) n = .error e) :
    framesAt b o (fs.length + n) = .error e := by
  induction fs generalizing o with
  | nil => simpa using he
  | cons f fs ih =>
    obtain ⟨hf, hfs⟩ := List.forall_mem_cons.mp h
    rw [List.flatMap_cons] at hb he
    have hframe : frameAt b o = .ok f := (reads_frameAt o hf).ok ((List.prefix_append _ _).trans hb)
    have hnext : o + 14 + 5 * f.blockCount.toNat = o + f.bytes.length := by
      rw [hf.blockCount_toNat, f.bytes_length, Nat.add_assoc]
    have hrest := ih hfs (prefix_drop_of_append_prefix hb) (by rwa [List.length_append, ← Nat.add_assoc] at he)
    rw [List.length_cons, Nat.add_right_comm, framesAt, hframe, ok_bind, hnext, hrest, error_bind]

/-! ### Palette and frame count -/

/-- What the palette step of SpriteParse gives: present, its count, the set behind it, the mask if it is fixed, the offset
of the frame count. -/
def paletteRead : Option (List Colour) → Bool × Nat × BitVec 7 × Option Colour × Nat
  | none => (false, 0, 0x7F#7, none, 0)
  | some l => (true, l.length, scan 0x7F#7 l, firstCandidate (scan 0x7F#7 l), 2 + 2 * l.length)

theorem paletteRead_offset (palette : Option (List Colour)) :
    (paletteRead palette).2.2.2.2 = (paletteBytes palette).length := by
  cases palette with
  | none => rfl
  | some l => simp [paletteRead, paletteBytes]; omega

/-- SpriteParse up to the frame count. -/
def spriteStart (b : List Byte) : Except ErrCode ((Bool × Nat × BitVec 7 × Option Colour × Nat) × Byte) := do
  let r ← spritePalette b
  let fc ← src8 b r.2.2.2.2
  return (r, fc)

/-- Without a palette the frame count is the first byte, read once as a marker that it is not. -/
theorem reads_spriteStart_none {fc : Byte} (h : fc ≠ 0xFF#8) : Reads spriteStart 0 [fc] (paletteRead none, fc) := by
  refine fun b => ⟨fun hb => ?_, fun hb hlen => ?_⟩
  · have hfirst := (reads_src8 0 fc).ok hb
    simp [spriteStart, spritePalette, hfirst, h, paletteRead]
  · have hfirst := (reads_src8 0 fc).truncated hb hlen
    simp [spriteStart, spritePalette, hfirst]

theorem reads_spritePalette_some {l : List Colour} (h : 1 ≤ l.length ∧ l.length ≤ 256) :
    Reads spritePalette 0 (paletteBytes (some l)) (paletteRead (some l)) :=
  (reads_src8 0 0xFF#8).bind ((reads_paletteAt 1 h).bind_ok fun _ => rfl) rfl

theorem reads_spriteStart {palette : Option (List Colour)} {n : Nat} {frames : List FrameHdr}
    (h : frontLegal palette n frames) :
    Reads spriteStart 0 (paletteBytes palette ++ [BitVec.ofNat 8 n]) (paletteRead palette, BitVec.ofNat 8 n) := by
  obtain ⟨hpalette, hn, hmarker, -⟩ := h
  cases palette with
  | none =>
    refine reads_spriteStart_none fun hff => hmarker rfl ?_
    have := congrArg BitVec.toNat hff
    rwa [ofNat8_toNat hn] at this
  | some l =>
    exact (reads_spritePalette_some (hpalette l rfl)).bind ((reads_src8 _ _).bind_ok fun _ => rfl)
      ((paletteRead_offset (some l)).trans (Nat.zero_add _).symm)

end Sys2Proof.Machine
end

section
/-! SpriteParse on a sprite container (41_sprite_compositor.md R211): the head of a container with its law as a reader, the
tiles behind it, and the containers that are refused. -/

namespace Sys2Proof.Machine

/-! ## The head: palette, frames, tile count and offsets -/

/-- What SpriteParse reads before it looks at the tiles; `base` is the table base. -/
structure HeadRead where
  palette : Bool × Nat × BitVec 7 × Option Colour × Nat
  frames : List FrameHdr
  tileCount : Nat
  offs : List Word
  base : Nat

/-- SpriteParse up to the tile count. -/
def spriteFrames (b : List Byte) : Except ErrCode ((Bool × Nat × BitVec 7 × Option Colour × Nat) × Nat × List FrameHdr) := do
  let (r, fc) ← spriteStart b
  let (o, frames) ← framesAt b (r.2.2.2.2 + 1) fc.toNat
  return (r, o, frames)

/-- SpriteParse up to the tile table's end. -/
def spriteHead (b : List Byte) : Except ErrCode HeadRead := do
  let (r, o, frames) ← spriteFrames b
  let tc ← src32 b o
  require (decide (0 ≤ tc.toInt)) .range
  let offs ← offsetsAt b (o + 4) tc.toNat
  return ⟨r, frames, tc.toNat, offs, o + 4 + 4 * tc.toNat⟩

/-- The final mask and whether the candidates are exhausted: the mask fixed at the palette, else the first candidate left,
else the fallback (41_sprite_compositor.md R211). -/
def settledMask (fallback : Colour) (fixed : Option Colour) (set : BitVec 7) : Colour × Bool :=
  match fixed.or (firstCandidate set) with
  | some m => (m, false)
  | none => (fallback, true)

/-- What SpriteParse gives for a head and the tiles behind it. -/
def HeadRead.sprite (h : HeadRead) (fallback : Colour) (tiles : List TileStream) : Sprite where
  pal := h.palette.1
  palCount := h.palette.2.1
  frames := h.frames
  tiles := tiles
  set := tiles.foldl (fun st t => scan st t.colours) h.palette.2.2.1
  mask := (settledMask fallback h.palette.2.2.2.1 (tiles.foldl (fun st t => scan st t.colours) h.palette.2.2.1)).1
  exhausted := (settledMask fallback h.palette.2.2.2.1 (tiles.foldl (fun st t => scan st t.colours) h.palette.2.2.1)).2

/-- SpriteParse is its head, the check of the block ids, and the tiles. -/
theorem spriteParse_eq (fallback : Colour) (b : List Byte) : spriteParse fallback b = spriteHead b >>= fun h =>
    require (idsBelow h.frames h.tileCount) .range >>= fun _ => tilesAt b h.base h.offs >>= fun tiles =>
      .ok (h.sprite fallback tiles) := by
  simp only [spriteParse, spriteHead, spriteFrames, spriteStart, bind_assoc, pure_eq_ok, ok_bind]
  refine bind_congr fun r => bind_congr fun fc => bind_congr fun fs => bind_congr fun tc => bind_congr fun _ =>
    bind_congr fun offs => bind_congr fun _ => bind_congr fun tiles => ?_
  simp only [HeadRead.sprite, settledMask]
  cases r.2.2.2.1 with
  | some m => rfl
  | none => cases firstCandidate (tiles.foldl (fun st t => scan st t.colours) r.2.2.1) <;> rfl

theorem spriteParse_of_head_error {fallback : Colour} {b : List Byte} {e : ErrCode} (h : spriteHead b = .error e) :
    spriteParse fallback b = .error e := by
  rw [spriteParse_eq, h, error_bind]

section Head
variable {palette : Option (List Colour)} {frames : List FrameHdr} {offs : List Word} {b : List Byte} {n : Nat}

/-- The bytes of palette, frame count and frames. -/
theorem frontBytes_eq (palette : Option (List Colour)) (n : Nat) (frames : List FrameHdr) :
    frontBytes palette n frames = (paletteBytes palette ++ [BitVec.ofNat 8 n]) ++ frames.flatMap FrameHdr.bytes := rfl

theorem frontBytes_append_frame (palette : Option (List Colour)) (n : Nat) (frames : List FrameHdr) (f : FrameHdr) :
    frontBytes palette n (frames ++ [f]) = frontBytes palette n frames ++ f.bytes := by
  simp [frontBytes]

theorem frontBytes_offset (palette : Option (List Colour)) (n : Nat) :
    (paletteRead palette).2.2.2.2 + 1 = 0 + (paletteBytes palette ++ [BitVec.ofNat 8 n]).length := by
  rw [paletteRead_offset]
  simp

theorem reads_spriteFrames (h : frontLegal palette frames.length frames) : Reads spriteFrames 0
    (frontBytes palette frames.length frames)
    (paletteRead palette, (frontBytes palette frames.length frames).length, frames) := by
  have hstart := reads_spriteStart h
  have hoffset := frontBytes_offset palette frames.length
  obtain ⟨-, hn, -, hlegal⟩ := h
  have hframes := reads_framesAt ((paletteRead palette).2.2.2.2 + 1) hlegal
  rw [← ofNat8_toNat hn] at hframes
  refine hstart.bind (hframes.bind_ok fun _ => ?_) hoffset
  simp only [hoffset, frontBytes_eq, List.length_append, pure_eq_ok, Nat.zero_add]

theorem headBytes_eq (palette : Option (List Colour)) (frames : List FrameHdr) (offs : List Word) :
    headBytes palette frames offs = frontBytes palette frames.length frames
      ++ (leBytes 4 (BitVec.ofNat 32 offs.length) ++ offs.flatMap (leBytes 4)) := by
  simp [headBytes]

theorem offsBytes_length (offs : List Word) : (offs.flatMap (leBytes 4)).length = 4 * offs.length := by
  simp [List.length_flatMap, Nat.mul_comm]

theorem headBytes_length (palette : Option (List Colour)) (frames : List FrameHdr) (offs : List Word) :
    (headBytes palette frames offs).length = (frontBytes palette frames.length frames).length + 4 + 4 * offs.length := by
  rw [headBytes_eq, List.length_append, List.length_append, leBytes_length, offsBytes_length, Nat.add_assoc]

/-- What the head of a container is read as. -/
def headRead (palette : Option (List Colour)) (frames : List FrameHdr) (offs : List Word) : HeadRead where
  palette := paletteRead palette
  frames := frames
  tileCount := offs.length
  offs := offs
  base := (headBytes palette frames offs).length

theorem toNat_ofNat32 {m : Nat} (h : m < 2 ^ 31) : (BitVec.ofNat 32 m).toNat = m := by
  rw [BitVec.toNat_ofNat, Nat.mod_eq_of_lt (by omega)]

/-- A number below `2 ^ 31` is not negative as a signed word. -/
theorem toInt_ofNat32_nonneg {m : Nat} (h : m < 2 ^ 31) : 0 ≤ (BitVec.ofNat 32 m).toInt := by
  rw [BitVec.toInt_eq_toNat_cond, toNat_ofNat32 h]
  split <;> omega

/-- The whole law of the head: a legal one is read as its data, and TruncatedInput answers the bytes that end inside it. -/
theorem reads_spriteHead (h : frontLegal palette frames.length frames) (hlen : offs.length < 2 ^ 31) :
    Reads spriteHead 0 (headBytes palette frames offs) (headRead palette frames offs) := by
  have hoffs := reads_offsetsAt ((frontBytes palette frames.length frames).length + 4) offs
  rw [← toNat_ofNat32 hlen] at hoffs
  rw [headBytes_eq]
  refine (reads_spriteFrames h).bind ((reads_src32 _ (BitVec.ofNat 32 offs.length)).bind
    (.require (decide_eq_true (toInt_ofNat32_nonneg hlen)) (hoffs.bind_ok fun _ => ?_)) rfl) (Nat.zero_add _).symm
  rw [headRead, headBytes_length, toNat_ofNat32 hlen]
  rfl

theorem spriteHead_of_prefix (h : frontLegal palette frames.length frames) (hlen : offs.length < 2 ^ 31)
    (hb : headBytes palette frames offs <+: b) : spriteHead b = .ok (headRead palette frames offs) :=
  (reads_spriteHead h hlen).ok hb

/-- Behind legal frames, the error of the next frame is the container's. -/
theorem spriteHead_of_bad_frame {e : ErrCode} (h : frontLegal palette n frames) (hlt : frames.length < n)
    (hb : frontBytes palette n frames <+: b)
    (he : frameAt b (frontBytes palette n frames).length = .error e) : spriteHead b = .error e := by
  have hstart := (reads_spriteStart h).ok ((List.prefix_append _ _).trans hb)
  have hoffset := frontBytes_offset palette n
  obtain ⟨-, hn, -, hlegal⟩ := h
  obtain ⟨k, rfl⟩ : ∃ k, n = frames.length + (k + 1) := ⟨n - frames.length - 1, by omega⟩
  have hrest : framesAt b (0 + (paletteBytes palette ++ [BitVec.ofNat 8 (frames.length + (k + 1))]).length
      + (frames.flatMap FrameHdr.bytes).length) (k + 1) = .error e := by
    rw [frontBytes_eq, List.length_append] at he
    rw [Nat.zero_add, framesAt, he, error_bind]
  have hframes := framesAt_error_behind hlegal (prefix_drop_of_append_prefix (o := 0) hb) hrest
  simp only [spriteHead, spriteFrames, hstart, ok_bind, ofNat8_toNat hn, hoffset, hframes, error_bind]

theorem spriteHead_of_negative_count {tc : Word} (h : frontLegal palette frames.length frames)
    (hb : frontBytes palette frames.length frames ++ leBytes 4 tc <+: b) (htc : tc.toInt < 0) :
    spriteHead b = .error .range := by
  have hfront := (reads_spriteFrames h).ok ((List.prefix_append _ _).trans hb)
  have hcount := (reads_src32 _ tc).ok (prefix_drop_of_append_prefix (o := 0) hb)
  rw [Nat.zero_add] at hcount
  have hneg : decide (0 ≤ tc.toInt) = false := decide_eq_false (by omega)
  simp only [spriteHead, hfront, ok_bind, hcount, hneg, require_false, error_bind]

end Head

theorem idsBelow_iff (frames : List FrameHdr) (tc : Nat) : idsBelow frames tc = true ↔ idsInside frames tc := by
  simp [idsBelow, idsInside]

/-! ## Tiles (30_encoding.md R127; 41_sprite_compositor.md R202) -/

/-- What a tile that stands at offset `o` is parsed to. -/
def TileData.stream (t : TileData) (o : Nat) : TileStream where
  x0 := t.x0
  y0 := t.y0
  unused := t.unused
  nrows := BitVec.ofNat 8 t.rows.length
  next := o + t.bytes.length
  places := t.places

theorem TileData.bytes_eq (t : TileData) :
    t.bytes = t.x0 :: t.y0 :: t.unused :: BitVec.ofNat 8 t.rows.length :: rowsBytes t.rows := rfl

/-- The whole law of the tile parser: it answers exactly where a tile stands. -/
theorem tileParse_eq_ok (b : List Byte) (o : Nat) (s : TileStream) :
    tileParse b o = .ok s ↔ ∃ t : TileData, t.legal ∧ t.bytes <+: b.drop o ∧ s = t.stream o := by
  simp only [tileParse, bind_eq_ok, src8_eq_ok]
  constructor
  · rintro ⟨x0, h0, y0, h1, u, h2, nr, h3, ⟨next, places⟩, hrows, hs⟩
    cases hs
    obtain ⟨rs, hlen, hlegal, hdrop, rfl, rfl⟩ := (decodeRows_eq_ok _ _ _ _ _ _).mp hrows
    have hnr : BitVec.ofNat 8 rs.length = nr := by rw [hlen, ofNat8_self]
    refine ⟨⟨x0, y0, u, rs⟩, ⟨?_, hlegal⟩, ⟨b.drop (o + 4 + (rowsBytes rs).length), ?_⟩, ?_⟩
    · have := nr.isLt
      show rs.length ≤ 255
      omega
    · rw [drop_of_getElem? h0, drop_of_getElem? h1, drop_of_getElem? h2, drop_of_getElem? h3, hdrop, TileData.bytes_eq, hnr]
      rfl
    · simp only [TileData.stream, TileData.bytes_eq, TileData.places, hnr, List.length_cons, TileStream.mk.injEq, true_and,
        and_true]
      omega
  · rintro ⟨t, ⟨hcount, hlegal⟩, ⟨rest, hrest⟩, rfl⟩
    simp only [TileData.bytes_eq, List.cons_append] at hrest
    obtain ⟨h0, d0⟩ := src8_of_drop hrest.symm
    obtain ⟨h1, d1⟩ := src8_of_drop d0
    obtain ⟨h2, d2⟩ := src8_of_drop d1
    obtain ⟨h3, d3⟩ := src8_of_drop d2
    rw [src8_eq_ok] at h0 h1 h2 h3
    have hbehind : b.drop (o + 4 + (rowsBytes t.rows).length) = rest := by
      rw [← List.drop_drop, d3, List.drop_left]
    refine ⟨_, h0, _, h1, _, h2, _, h3, (o + 4 + (rowsBytes t.rows).length, t.places), ?_, ?_⟩
    · rw [ofNat8_toNat hcount, decodeRows_eq_ok]
      exact ⟨t.rows, rfl, hlegal, by rw [d3, hbehind], rfl, rfl⟩
    · simp only [TileData.stream, TileData.bytes_eq, List.length_cons, pure_eq_ok, Except.ok.injEq, TileStream.mk.injEq,
        true_and, and_true]
      omega

theorem tileParse_error {b : List Byte} {o : Nat} {e : ErrCode} (h : tileParse b o = .error e) : e = .truncatedInput := by
  simp only [tileParse, bind_eq_error] at h
  rcases h with h | ⟨_, _, h | ⟨_, _, h | ⟨_, _, h | ⟨_, _, h | ⟨⟨_, _⟩, _, h⟩⟩⟩⟩⟩
  · exact (src8_error h).1
  · exact (src8_error h).1
  · exact (src8_error h).1
  · exact (src8_error h).1
  · exact decodeRows_error h
  · cases h

/-- Where no tile stands, the bytes end. -/
theorem tileParse_of_not_stands {b : List Byte} {o : Nat} (h : ¬ tileStands b o) :
    tileParse b o = .error .truncatedInput := by
  cases hp : tileParse b o with
  | ok s =>
    obtain ⟨t, hlegal, hstands, -⟩ := (tileParse_eq_ok b o s).mp hp
    exact absurd ⟨t, hlegal, hstands⟩ h
  | error e => rw [tileParse_error hp]

section Tiles
variable {b : List Byte} {tb : Nat} {v : Word} {vs ws : List Word}

theorem offsetCheck_iff (b : List Byte) (tb : Nat) (v : Word) :
    (decide (0 ≤ v.toInt) && decide (tb + v.toNat < b.length)) = true ↔ offsetInside b tb v := by
  simp [offsetInside]

/-- One tile of the table, its offset inside the container. -/
theorem tilesAt_cons (h : offsetInside b tb v) : tilesAt b tb (v :: vs) = tileParse b (tb + v.toNat) >>= fun t =>
    tilesAt b tb vs >>= fun rest => .ok (t :: rest) := by
  rw [tilesAt, (offsetCheck_iff b tb v).mpr h]
  rfl

theorem tilesAt_of_not_inside (h : ¬ offsetInside b tb v) : tilesAt b tb (v :: vs) = .error .range := by
  rw [← offsetCheck_iff, Bool.not_eq_true] at h
  rw [tilesAt, h]
  rfl

/-- Behind whole tiles, an error is the error of the table. -/
theorem tilesAt_error_behind {e : ErrCode} (h : ∀ w ∈ ws, offsetInside b tb w ∧ tileStands b (tb + w.toNat))
    (he : tilesAt b tb vs = .error e) : tilesAt b tb (ws ++ vs) = .error e := by
  induction ws with
  | nil => exact he
  | cons w ws ih =>
    obtain ⟨⟨hinside, t, hlegal, hstands⟩, hws⟩ := List.forall_mem_cons.mp h
    have htile := (tileParse_eq_ok _ _ _).mpr ⟨t, hlegal, hstands, rfl⟩
    rw [List.cons_append, tilesAt_cons hinside, htile, ok_bind, ih hws, error_bind]

/-- Every tile of a container at its offset from the table base. -/
theorem tilesAt_of_stand {ts : List (Nat × TileData)} (h : ∀ t ∈ ts, t.1 < 2 ^ 31 ∧ t.2.legal)
    (hstands : ∀ t ∈ ts, t.2.bytes <+: b.drop (tb + t.1)) (hinside : ∀ t ∈ ts, tb + t.1 < b.length) :
    tilesAt b tb (ts.map (fun t => BitVec.ofNat 32 t.1)) = .ok (ts.map (fun t => t.2.stream (tb + t.1))) := by
  induction ts with
  | nil => rfl
  | cons t ts ih =>
    obtain ⟨⟨hoff, hlegal⟩, hts⟩ := List.forall_mem_cons.mp h
    obtain ⟨hstand, hstands'⟩ := List.forall_mem_cons.mp hstands
    obtain ⟨hin, hinside'⟩ := List.forall_mem_cons.mp hinside
    have hto := toNat_ofNat32 hoff
    have hcheck : offsetInside b tb (BitVec.ofNat 32 t.1) := ⟨toInt_ofNat32_nonneg hoff, by rwa [hto]⟩
    have htile : tileParse b (tb + (BitVec.ofNat 32 t.1).toNat) = .ok (t.2.stream (tb + t.1)) := by
      rw [hto]
      exact (tileParse_eq_ok _ _ _).mpr ⟨t.2, hlegal, hstand, rfl⟩
    rw [List.map_cons, tilesAt_cons hcheck, htile, ok_bind, ih hts hstands' hinside']
    rfl

end Tiles

/-! ## The containers that are refused -/

section Refused
variable {palette : Option (List Colour)} {frames : List FrameHdr} {offs : List Word} {b : List Byte} {fallback : Colour}

theorem spriteParse_of_bad_ids (h : frontLegal palette frames.length frames) (hlen : offs.length < 2 ^ 31)
    (hb : headBytes palette frames offs <+: b) (hids : ¬ idsInside frames offs.length) :
    spriteParse fallback b = .error .range := by
  rw [← idsBelow_iff, Bool.not_eq_true] at hids
  rw [spriteParse_eq, spriteHead_of_prefix h hlen hb]
  simp only [ok_bind, headRead, hids, require_false, error_bind]

/-- Behind a legal head the tiles decide. -/
theorem spriteParse_of_head (h : frontLegal palette frames.length frames) (hlen : offs.length < 2 ^ 31)
    (hb : headBytes palette frames offs <+: b) (hids : idsInside frames offs.length) :
    spriteParse fallback b = tilesAt b (headBytes palette frames offs).length offs >>= fun tiles =>
      .ok ((headRead palette frames offs).sprite fallback tiles) := by
  rw [← idsBelow_iff] at hids
  rw [spriteParse_eq, spriteHead_of_prefix h hlen hb]
  simp only [ok_bind, headRead, hids, require_true]

/-- Each faulty container is refused with its error. -/
theorem spriteParse_of_refused {e : ErrCode} (h : ContainerRefused b e) : spriteParse fallback b = .error e := by
  cases h with
  | headEnds palette frames offs hfront hlen hpre hshort =>
    exact spriteParse_of_head_error ((reads_spriteHead hfront hlen).truncated hpre hshort)
  | frameEnds palette n done part hfront hlt hb hpart =>
    refine spriteParse_of_head_error (spriteHead_of_bad_frame hfront hlt ⟨part, hb.symm⟩ (frameAt_of_short ?_))
    rw [hb, List.length_append]
    omega
  | extent palette n done f hfront hlt hb hcount hextent =>
    rw [frontBytes_append_frame] at hb
    have hframe := prefix_drop_of_append_prefix (o := 0) hb
    rw [Nat.zero_add] at hframe
    exact spriteParse_of_head_error (spriteHead_of_bad_frame hfront hlt ((List.prefix_append _ _).trans hb)
      (frameAt_of_bad_extent hframe hcount hextent))
  | tileCount palette frames tc hfront hb htc =>
    exact spriteParse_of_head_error (spriteHead_of_negative_count hfront hb htc)
  | blockId palette frames offs hfront hlen hb hids => exact spriteParse_of_bad_ids hfront hlen hb hids
  | tileOffset palette frames before after v hfront hlen hb hids hbefore hv =>
    rw [spriteParse_of_head hfront hlen hb hids, tilesAt_error_behind hbefore (tilesAt_of_not_inside hv), error_bind]
  | tileEnds palette frames before after v hfront hlen hb hids hbefore hv hends =>
    have htile := tileParse_of_not_stands hends
    rw [spriteParse_of_head hfront hlen hb hids, tilesAt_error_behind hbefore, error_bind]
    rw [tilesAt_cons hv, htile, error_bind]

end Refused

/-! ## The containers that are read -/

section Settled
variable {fallback m : Colour} {set : BitVec 7}

theorem settledMask_fixed : settledMask fallback (some m) set = (m, false) := rfl

theorem settledMask_of_isFirst (h : isFirst set m) : settledMask fallback none set = (m, false) := by
  simp [settledMask, (firstCandidate_eq_some set m).mpr h]

theorem settledMask_exhausted (h : set = 0#7) : settledMask fallback none set = (fallback, true) := by
  simp [settledMask, (firstCandidate_eq_none set).mpr h]

end Settled

theorem paletteRead_refined (palette : Option (List Colour)) :
    refined 0x7F#7 (paletteRead palette).2.2.1 (fun v => ∃ l, palette = some l ∧ v ∈ l) := by
  cases palette with
  | none => exact refined_congr (refined_refl _) (by simp)
  | some l => exact refined_congr (refined_scan _ l) (by simp)

/-- The palette fixes the first candidate it leaves. -/
theorem paletteRead_fixed {l : List Colour} {first : BitVec 7} {m : Colour} (hl : refined 0x7F#7 first (fun v => v ∈ l))
    (hm : isFirst first m) : (paletteRead (some l)).2.2.2.1 = some m := by
  have hscan : scan 0x7F#7 l = first := refined_unique (refined_scan _ l) hl
  simp only [paletteRead, hscan, (firstCandidate_eq_some first m).mpr hm]

/-- A palette that leaves no candidate fixes nothing; nor does no palette. -/
theorem paletteRead_not_fixed {palette : Option (List Colour)}
    (h : ∀ l first, palette = some l → refined 0x7F#7 first (fun v => v ∈ l) → first = 0#7) :
    (paletteRead palette).2.2.2.1 = none := by
  cases palette with
  | none => rfl
  | some l => exact (firstCandidate_eq_none _).mpr (h l _ rfl (refined_scan _ l))

/-- The offsets of a container's tiles, as they stand in its table. -/
def Container.offs (c : Container) : List Word := c.tiles.map (fun t => BitVec.ofNat 32 t.1)

/-- The tiles of a container, as they are parsed. -/
def Container.streams (c : Container) : List TileStream := c.tiles.map (fun t => t.2.stream (c.head.length + t.1))

/-- What SpriteParse makes of a container. -/
def Container.sprite (c : Container) (fallback : Colour) : Sprite :=
  (headRead c.palette c.frames c.offs).sprite fallback c.streams

section Container
variable {c : Container} {fallback : Colour} {b : List Byte}

/-- A legal container is read as what its data say. -/
theorem spriteParse_of_spelled (h : c.legal) (hb : c.spelledBy b) (hinside : ∀ t ∈ c.tiles, c.head.length + t.1 < b.length) :
    spriteParse fallback b = .ok (c.sprite fallback) := by
  obtain ⟨hfront, hlen, hids, htiles⟩ := h
  obtain ⟨hhead, hstands⟩ := hb
  have hcount : c.offs.length = c.tiles.length := List.length_map _
  have htable : tilesAt b c.head.length c.offs = .ok c.streams := tilesAt_of_stand htiles hstands hinside
  rw [spriteParse_of_head hfront (hcount ▸ hlen) hhead (hcount ▸ hids)]
  show (tilesAt b c.head.length c.offs >>= _) = _
  rw [htable, ok_bind]
  rfl

theorem Container.mem_streams_colours (c : Container) (v : Colour) : (∃ t ∈ c.streams, v ∈ t.colours) ↔ c.tileColour v := by
  simp [Container.streams, Container.tileColour, TileStream.colours, TileData.stream]

theorem Container.sprite_tiles (h : c.legal) :
    (c.sprite fallback).tiles.map (fun t => (t.x0, t.y0, t.unused, t.nrows.toNat, t.places))
      = c.tiles.map (fun t => (t.2.x0, t.2.y0, t.2.unused, t.2.rows.length, t.2.places)) := by
  obtain ⟨-, -, -, htiles⟩ := h
  show c.streams.map _ = _
  rw [Container.streams, List.map_map]
  refine List.map_congr_left fun t ht => ?_
  obtain ⟨-, hrows, -⟩ := htiles t ht
  simp [TileData.stream, ofNat8_toNat hrows]

theorem Container.sprite_set (c : Container) (fallback : Colour) :
    refined 0x7F#7 (c.sprite fallback).set (fun v => (∃ l, c.palette = some l ∧ v ∈ l) ∨ c.tileColour v) :=
  refined_congr (refined_trans (paletteRead_refined c.palette) (refined_foldl_scan TileStream.colours c.streams _))
    fun v => or_congr_right (c.mem_streams_colours v)

/-- The mask and whether the candidates are exhausted, from the mask the palette fixes and the set left. -/
theorem Container.sprite_settled {fixed : Option Colour} {m : Colour} {exhausted : Bool}
    (hfixed : (paletteRead c.palette).2.2.2.1 = fixed)
    (h : settledMask fallback fixed (c.sprite fallback).set = (m, exhausted)) :
    (c.sprite fallback).mask = m ∧ (c.sprite fallback).exhausted = exhausted := by
  subst hfixed
  exact ⟨congrArg Prod.fst h, congrArg Prod.snd h⟩

end Container

/-- Settles O47: a refused container by the law of the part its fault is in, a legal one by the law of the head and the
tiles' places. -/
theorem spriteParseReadsContainer : Obligations.SpriteParseReadsContainer := by
  refine ⟨fun fallback b e h => spriteParse_of_refused h, fun c fallback b hlegal hb hinside => ?_⟩
  refine ⟨c.sprite fallback, spriteParse_of_spelled hlegal hb hinside, rfl, ?_, ?_, Container.sprite_tiles hlegal,
    c.sprite_set fallback, fun l m first hpal hfirst hm => ?_, fun hnone => ?_⟩
  · show (paletteRead c.palette).1 = _
    cases c.palette <;> rfl
  · show (paletteRead c.palette).2.1 = _
    cases c.palette <;> rfl
  · exact Container.sprite_settled (hpal ▸ paletteRead_fixed hfirst hm) settledMask_fixed
  · have hfixed := paletteRead_not_fixed hnone
    exact ⟨fun m hm => Container.sprite_settled hfixed (settledMask_of_isFirst hm),
      fun hset => Container.sprite_settled hfixed (settledMask_exhausted hset)⟩

end Sys2Proof.Machine
end

section
/-! How a command ends, check by check: the rules that build `endsAs` from an outcome and take it apart again, and what BUF
holds after a command that writes one string of bytes (43_system.md R318; 60_exceptions.md R335, R336). -/

namespace Sys2Proof.Machine

/-! ## Building the list of checks -/

section Checks
variable {i : Instr} {s t : State} {cs : List (Prop × Byte)} {ok : State → Prop}

/-- A check that fails ends the command with its error. -/
theorem endsAs_check {c : Prop} (e : ErrCode) (hfail : c → outcomeOf i s = .error e) (hpass : ¬ c → endsAs i s cs ok) :
    endsAs i s ((c, e.code) :: cs) ok :=
  ⟨fun hc => failsWith_of_error (hfail hc), hpass⟩

theorem endsAs_done {e : Effect} (h : outcomeOf i s = .ok e) (hok : ok (s.completeOk e)) : endsAs i s [] ok :=
  ⟨_, exec_of_ok h, hok⟩

/-- Past the window checks of a well-formed command its own checks are left. -/
theorem endsAs_windows (hw : i.wellFormed = true) (h : s.windowsOk i → endsAs i s cs ok) :
    endsAs i s (s.windowChecks i ++ cs) ok :=
  endsAs_windowChecks (fun _ => outcomeOf_generic) hw h

/-! ## Taking it apart -/

theorem endsAs_passed (h : endsAs i s cs ok) (hcs : ∀ c ∈ cs, ¬ c.1) : ∃ t, exec i s = .next t ∧ ok t := by
  induction cs with
  | nil => exact h
  | cons c cs ih => exact ih (h.2 (hcs c (by simp))) fun d hd => hcs d (by simp [hd])

/-- A command that ends with error code 0 has passed its checks. -/
theorem endsAs_success (h : endsAs i s cs ok) (hcodes : ∀ c ∈ cs, c.2 ≠ 0#8) (hexec : exec i s = .next t)
    (hcode : t.errcode = 0#8) : (∀ c ∈ cs, ¬ c.1) ∧ ok t := by
  induction cs with
  | nil =>
    obtain ⟨u, hu, hok⟩ := h
    rw [hexec] at hu
    cases hu
    exact ⟨by simp, hok⟩
  | cons c cs ih =>
    obtain ⟨hfail, hpass⟩ := h
    have hc : ¬ c.1 := fun hc => by
      obtain ⟨u, hu, hfailed⟩ := hfail hc
      rw [hexec] at hu
      cases hu
      rw [hfailed] at hcode
      exact hcodes c (by simp) hcode
    obtain ⟨hrest, hok⟩ := ih (hpass hc) fun d hd => hcodes d (by simp [hd])
    exact ⟨List.forall_mem_cons.mpr ⟨hc, hrest⟩, hok⟩

theorem windowChecks_pass (h : s.windowsOk i) : ∀ c ∈ s.windowChecks i, ¬ c.1 := by
  obtain ⟨hsrc, hdst, hboth⟩ := h
  simp only [State.windowChecks, List.mem_cons, List.not_mem_nil, or_false]
  rintro c (rfl | rfl | rfl)
  · rintro ⟨hs, hlt⟩
    exact absurd (hsrc hs) (by omega)
  · rintro ⟨hd, hlt⟩
    exact absurd (hdst hd) (by omega)
  · rintro ⟨hs, hd, hmeet, hnot⟩
    exact hnot (hboth hs hd hmeet)

/-- A command that ends with error code 0 has passed its own checks. -/
theorem endsAs_windows_success (h : endsAs i s (s.windowChecks i ++ cs) ok) (hcodes : ∀ c ∈ cs, c.2 ≠ 0#8)
    (hexec : exec i s = .next t) (hcode : t.errcode = 0#8) : (∀ c ∈ cs, ¬ c.1) ∧ ok t := by
  have hwindow : ∀ c ∈ s.windowChecks i, c.2 ≠ 0#8 := by simp [State.windowChecks]
  obtain ⟨hpassed, hok⟩ := endsAs_success h
    (fun c hc => (List.mem_append.mp hc).elim (hwindow c) (hcodes c)) hexec hcode
  exact ⟨fun c hc => hpassed c (List.mem_append_right _ hc), hok⟩

/-- A command whose windows are right and whose own checks pass ends without error. -/
theorem endsAs_windows_passed (h : endsAs i s (s.windowChecks i ++ cs) ok) (hwin : s.windowsOk i) (hcs : ∀ c ∈ cs, ¬ c.1) :
    ∃ t, exec i s = .next t ∧ ok t :=
  endsAs_passed h fun c hc => (List.mem_append.mp hc).elim (windowChecks_pass hwin c) (hcs c)

/-- A command that ended without error had its windows right. -/
theorem windowsOk_of_success (hexec : exec i s = .next t) (hcode : t.errcode = 0#8) : s.windowsOk i := by
  obtain ⟨e, he, rfl⟩ | ⟨e, -, rfl⟩ := exec_cases hexec
  · exact (windowsOk_of_generic (genericChecks_of_ok he)).2
  · exact absurd hcode (code_ne_zero e)

theorem windowsOk_of_apart (hsrc : s.src + s.slen ≤ s.cfg.bufSize) (hdst : s.dst + s.dlen ≤ s.cfg.bufSize)
    (hapart : s.src + s.slen ≤ s.dst ∨ s.dst + s.dlen ≤ s.src) : s.windowsOk i := by
  refine ⟨fun _ => hsrc, fun _ => hdst, fun _ _ hmeet => ?_⟩
  obtain ⟨x, hx⟩ := hmeet
  omega

end Checks

/-! ## One string of bytes written -/

section Output
variable (s : State) (e : Effect) (out : List Byte)

theorem holdsAt_withOut : holdsAt (s.completeOk (e.withOut out)).buf s.dst out := fun k b hb =>
  Memory.byteAt_writeBytes_inside s.buf s.dst out k b hb

theorem sameOutside_withOut : sameOutside s.buf (s.completeOk (e.withOut out)).buf s.dst out.length := fun x hx =>
  Memory.byteAt_writeBytes_outside s.buf s.dst out x hx

theorem keptCodec_withOut {r0 r1 r2 r3 : Word} :
    s.keptCodec (s.completeOk ((s.finish r0 r1 r2 r3).withOut out)) := ⟨rfl, rfl⟩

theorem completes_withOut (r0 r1 r2 r3 : Word) :
    s.completes (s.completeOk ((s.finish r0 r1 r2 r3).withOut out)) r0 r1 r2 r3 false := completeOk_completes s _ rfl rfl

end Output

/-! ## Strings of pixels of equal length -/

/-- Byte `j` of piece `k`, where every piece has `n` bytes. -/
theorem getElem?_flatMap_of_length {α β : Type} {f : α → List β} {n : Nat} (hf : ∀ a, (f a).length = n) (l : List α)
    (k : Nat) {j : Nat} (hj : j < n) : (l.flatMap f)[n * k + j]? = l[k]?.bind fun a => (f a)[j]? := by
  induction l generalizing k with
  | nil => simp
  | cons a l ih =>
    rw [List.flatMap_cons]
    cases k with
    | zero => rw [List.getElem?_append_left (by rw [hf]; omega)]; simp
    | succ k =>
      rw [List.getElem?_append_right (by rw [hf, Nat.mul_succ]; omega), hf, List.getElem?_cons_succ, ← ih k]
      congr 1
      rw [Nat.mul_succ]
      omega

/-- The source window holds the bytes that stand there. -/
theorem source_of_holdsAt {s : State} {bs : List Byte} (h : holdsAt s.buf s.src bs) (hlen : s.slen = bs.length) :
    s.source = bs := by
  change Memory.readBytes s.buf s.src s.slen = bs
  rw [hlen]
  refine List.ext_getElem? fun k => ?_
  rw [Memory.readBytes_getElem?]
  split
  · rename_i hk
    rw [List.getElem?_eq_getElem hk, h k _ (List.getElem?_eq_getElem hk)]
  · rename_i hk
    rw [List.getElem?_eq_none (by omega)]

/-- A pixel buffer in BUF, colour by colour. -/
theorem colourAt_of_holdsAt {m : Memory} {a k : Nat} {cs : List Colour} {c : Colour} (h : holdsAt m a (pixelBytes cs))
    (hc : cs[k]? = some c) : colourAt m (a + 2 * k) = c := by
  have hbyte : ∀ j < 2, (pixelBytes cs)[2 * k + j]? = (colourBytes c)[j]? := fun j hj => by
    rw [pixelBytes, getElem?_flatMap_of_length colourBytes_length cs k hj, hc, Option.bind_some]
  rw [colourBytes_eq] at hbyte
  have hlow : Memory.byteAt m (a + 2 * k) = c.extractLsb' 0 8 := h _ _ (hbyte 0 (by decide))
  rw [colourAt, Nat.add_assoc, h _ _ (hbyte 1 (by decide)), hlow, colour_of_bytes]

/-- The colours of the source window. -/
theorem bytesColours_source (s : State) {k : Nat} (hk : k < s.slen / 2) :
    (bytesColours s.source)[k]? = some (colourAt s.buf (s.src + 2 * k)) := by
  simp only [State.slen] at hk
  refine bytesColours_getElem? _ _ _ _ ?_ ?_
  · rw [State.source, Memory.readBytes_getElem?, if_pos (by omega), State.src]
  · rw [State.source, Memory.readBytes_getElem?, if_pos (by omega), State.src, Nat.add_assoc]

/-! ## Windows that the host sets -/

section Window
variable (s : State) {src slen dst dlen : Nat}

theorem State.window_src (h : src < 2 ^ 32) : (s.window src slen dst dlen).src = src := Nat.mod_eq_of_lt h

theorem State.window_slen (h : slen < 2 ^ 32) : (s.window src slen dst dlen).slen = slen := Nat.mod_eq_of_lt h

theorem State.window_dst (h : dst < 2 ^ 32) : (s.window src slen dst dlen).dst = dst := Nat.mod_eq_of_lt h

theorem State.window_dlen (h : dlen < 2 ^ 32) : (s.window src slen dst dlen).dlen = dlen := Nat.mod_eq_of_lt h

end Window

theorem Config.bufSize_lt (c : Config) : c.bufSize < 2 ^ 32 := Nat.pow_lt_pow_right (by decide) (by omega)

end Sys2Proof.Machine
end

section
/-! Pixel conversion and packing (40_pixel_codec.md R150 to R156): the channels, what the two commands of each kind have in
common, then the statements and the round trip of R162 law 1. -/

namespace Sys2Proof.Machine

/-! ## Channels (40_pixel_codec.md R151, R154) -/

theorem e5_eq_wide5 : ∀ c : BitVec 5, e5 c = wide5 c.toNat := by decide

theorem e6_eq_wide6 : ∀ c : BitVec 6, e6 c = wide6 c.toNat := by decide

theorem rgba555_eq (v : Colour) :
    rgba555 v = [wide5 (v.toNat / 1024 % 32), wide5 (v.toNat / 32 % 32), wide5 (v.toNat % 32), 255#8] := by
  simp [rgba555, e5_eq_wide5, Nat.shiftRight_eq_div_pow]

theorem rgba565_eq (v : Colour) :
    rgba565 v = [wide5 (v.toNat / 2048), wide6 (v.toNat / 32 % 64), wide5 (v.toNat % 32), 255#8] := by
  have hred : v.toNat / 2048 % 32 = v.toNat / 2048 := by have := v.isLt; omega
  simp [rgba565, e5_eq_wide5, e6_eq_wide6, Nat.shiftRight_eq_div_pow, hred]

theorem toNat_r5 (q : Byte) : (r5 q).toNat = q.toNat / 8 := by
  have := q.isLt
  simp only [r5, BitVec.extractLsb'_toNat, Nat.shiftRight_eq_div_pow]
  omega

theorem toNat_r6 (q : Byte) : (r6 q).toNat = q.toNat / 4 := by
  have := q.isLt
  simp only [r6, BitVec.extractLsb'_toNat, Nat.shiftRight_eq_div_pow]
  omega

theorem toNat_pack555Colour (r g b : Byte) :
    (pack555Colour r g b).toNat = r.toNat / 8 * 1024 + g.toNat / 8 * 32 + b.toNat / 8 := by
  simp only [pack555Colour, toNat_append_add, toNat_r5, BitVec.toNat_ofNat]
  omega

theorem toNat_pack565Colour (r g b : Byte) :
    (pack565Colour r g b).toNat = r.toNat / 8 * 2048 + g.toNat / 4 * 32 + b.toNat / 8 := by
  simp only [pack565Colour, toNat_append_add, toNat_r5, toNat_r6]
  omega

theorem toNat_wide5_div {c : Nat} (h : c < 32) : (wide5 c).toNat / 8 = c := by
  rw [wide5, BitVec.toNat_ofNat, Nat.mod_eq_of_lt (by omega)]
  omega

theorem toNat_wide6_div {c : Nat} (h : c < 64) : (wide6 c).toNat / 4 = c := by
  rw [wide6, BitVec.toNat_ofNat, Nat.mod_eq_of_lt (by omega)]
  omega

/-! ## The four commands as two -/

theorem transparent_iff (tp : BitVec 2) (mask v : Colour) : transparent tp mask v = true ↔ cleared tp mask v := by
  simp [transparent, cleared]

section Convert
variable {i : Instr} {s : State} {tp : BitVec 2} {rgba : Colour → List Byte} {red green blue : Colour → Byte}

theorem convertPixel_length (hrgba : ∀ v, rgba v = [red v, green v, blue v, 255#8]) (mask v : Colour) :
    (convertPixel rgba tp mask v).length = 4 := by
  unfold convertPixel
  split <;> simp [hrgba]

/-- CVT555 and CVT565 from how they expand a colour (40_pixel_codec.md R152, R153). -/
theorem endsAs_convert (hrgba : ∀ v, rgba v = [red v, green v, blue v, 255#8]) (hw : i.wellFormed = true)
    (hi : outcomeOf i s = s.genericChecks i >>= fun _ =>
      convert rgba tp s.comp.mask s.source s.dlen >>= fun out => .ok (s.pixelEffect 2 4 out)) :
    endsAs i s (s.windowChecks i ++ [(s.slen % 2 ≠ 0, 7#8), (s.dlen < 4 * (s.slen / 2), 7#8)])
      (fun t => s.completes t (BitVec.ofNat 32 (s.slen / 2)) 0 0 (BitVec.ofNat 32 (4 * (s.slen / 2))) false
        ∧ s.keptCodec t ∧ sameOutside s.buf t.buf s.dst (4 * (s.slen / 2))
        ∧ ∀ k v, k < s.slen / 2 → v = colourAt s.buf (s.src + 2 * k) →
          (cleared tp s.comp.mask v → rgbaAt t.buf (s.dst + 4 * k) 0#8 0#8 0#8 0#8)
          ∧ (¬ cleared tp s.comp.mask v → rgbaAt t.buf (s.dst + 4 * k) (red v) (green v) (blue v) 255#8)) := by
  refine endsAs_windows hw fun hwin => ?_
  rw [genericChecks_ok hw hwin, ok_bind, convert, State.source_length] at hi
  refine endsAs_check .range (fun hodd => ?_) fun heven => endsAs_check .range (fun hlong => ?_) fun hfits => ?_
  · rw [hi, beq_eq_false_iff_ne.mpr hodd]; rfl
  · rw [hi, beq_iff_eq.mpr (not_not.mp heven), decide_eq_false (by omega)]; rfl
  rw [beq_iff_eq.mpr (not_not.mp heven), decide_eq_true (by omega)] at hi
  set out := (bytesColours s.source).flatMap (convertPixel rgba tp s.comp.mask) with hout
  have hlen := convertPixel_length (tp := tp) hrgba s.comp.mask
  have houtlen : out.length = 4 * (s.slen / 2) := by
    rw [hout, List.length_flatMap, List.map_congr_left fun v _ => hlen v, List.map_const', List.sum_replicate,
      bytesColours_length, State.source_length, smul_eq_mul, Nat.mul_comm]
  refine endsAs_done hi ⟨completes_withOut s out _ _ _ _, keptCodec_withOut s out, houtlen ▸ sameOutside_withOut s _ out,
    fun k v hk hv => ?_⟩
  have hbyte : ∀ j < 4, out[4 * k + j]? = (convertPixel rgba tp s.comp.mask v)[j]? := fun j hj => by
    rw [hout, getElem?_flatMap_of_length hlen _ k hj, bytesColours_source s hk, Option.bind_some, hv]
  have hat : ∀ r g b a, convertPixel rgba tp s.comp.mask v = [r, g, b, a] →
      rgbaAt (s.completeOk (s.pixelEffect 2 4 out)).buf (s.dst + 4 * k) r g b a := fun r g b a hpix => by
    rw [hpix] at hbyte
    have hold := holdsAt_withOut s (s.finish (BitVec.ofNat 32 (s.slen / 2)) 0 0 (BitVec.ofNat 32 (4 * (s.slen / 2)))) out
    simp only [rgbaAt, Nat.add_assoc]
    exact ⟨hold _ _ (hbyte 0 (by decide)), hold _ _ (hbyte 1 (by decide)), hold _ _ (hbyte 2 (by decide)),
      hold _ _ (hbyte 3 (by decide))⟩
  rw [← transparent_iff]
  exact ⟨fun h => hat _ _ _ _ (if_pos h), fun h => hat _ _ _ _ ((if_neg h).trans (hrgba v))⟩

end Convert

/-- Pixel `k` of a packing is made of bytes `4k` to `4k + 3`. -/
theorem packPixels_getElem? {rgb : Byte → Byte → Byte → Colour} {tp : BitVec 2} {mask : Colour} {bs : List Byte} {k : Nat}
    {r g b a : Byte} (hr : bs[4 * k]? = some r) (hg : bs[4 * k + 1]? = some g) (hb : bs[4 * k + 2]? = some b)
    (ha : bs[4 * k + 3]? = some a) : (packPixels rgb tp mask bs)[k]? = some (packPixel rgb tp mask r g b a) := by
  induction k generalizing bs with
  | zero =>
    match bs, hr, hg, hb, ha with
    | r' :: g' :: b' :: a' :: rest, hr, hg, hb, ha => simp_all [packPixels]
  | succ k ih =>
    match bs, ha with
    | r' :: g' :: b' :: a' :: rest, ha =>
      rw [Nat.mul_succ] at hr hg hb ha
      rw [packPixels, List.getElem?_cons_succ]
      exact ih (by simpa using hr) (by simpa using hg) (by simpa using hb) (by simpa using ha)

section Pack
variable {i : Instr} {s : State} {tp : BitVec 2} {rgb : Byte → Byte → Byte → Colour} {value : Byte → Byte → Byte → Nat}

/-- PACK555 and PACK565 from how they put channels together (40_pixel_codec.md R155, R156). -/
theorem endsAs_pack (hrgb : ∀ r g b, (rgb r g b).toNat = value r g b) (hw : i.wellFormed = true)
    (hi : outcomeOf i s = s.genericChecks i >>= fun _ =>
      pack rgb tp s.comp.mask s.source s.dlen >>= fun out => .ok (s.pixelEffect 4 2 out)) :
    endsAs i s (s.windowChecks i ++ [(s.slen % 4 ≠ 0, 7#8), (s.dlen < 2 * (s.slen / 4), 7#8)])
      (fun t => s.completes t (BitVec.ofNat 32 (s.slen / 4)) 0 0 (BitVec.ofNat 32 (2 * (s.slen / 4))) false
        ∧ s.keptCodec t ∧ sameOutside s.buf t.buf s.dst (2 * (s.slen / 4))
        ∧ ∀ k r g b al, k < s.slen / 4 → rgbaAt s.buf (s.src + 4 * k) r g b al →
          (tp = 1#2 → al = 0#8 → colourAt t.buf (s.dst + 2 * k) = 0#16)
          ∧ (tp = 2#2 → al = 0#8 → colourAt t.buf (s.dst + 2 * k) = s.comp.mask)
          ∧ (tp = 0#2 ∨ al ≠ 0#8 → (colourAt t.buf (s.dst + 2 * k)).toNat = value r g b)) := by
  refine endsAs_windows hw fun hwin => ?_
  rw [genericChecks_ok hw hwin, ok_bind, pack, State.source_length] at hi
  refine endsAs_check .range (fun hpart => ?_) fun hwhole => endsAs_check .range (fun hlong => ?_) fun hfits => ?_
  · rw [hi, beq_eq_false_iff_ne.mpr hpart]; rfl
  · rw [hi, beq_iff_eq.mpr (not_not.mp hwhole), decide_eq_false (by omega)]; rfl
  rw [beq_iff_eq.mpr (not_not.mp hwhole), decide_eq_true (by omega)] at hi
  set cs := packPixels rgb tp s.comp.mask s.source with hcs
  have houtlen : (pixelBytes cs).length = 2 * (s.slen / 4) := by simp [hcs, packPixels_length]
  refine endsAs_done hi ⟨completes_withOut s _ _ _ _ _, keptCodec_withOut s _, houtlen ▸ sameOutside_withOut s _ _,
    fun k r g b al hk hrgba => ?_⟩
  have hsource : ∀ j < 4, s.source[4 * k + j]? = some (Memory.byteAt s.buf (s.src + 4 * k + j)) := fun j hj => by
    simp only [State.slen] at hk
    rw [State.source, Memory.readBytes_getElem?, if_pos (by omega), State.src, Nat.add_assoc]
  obtain ⟨hr, hg, hb, hal⟩ := hrgba
  have hpix : cs[k]? = some (packPixel rgb tp s.comp.mask r g b al) :=
    packPixels_getElem? ((hsource 0 (by decide)).trans (congrArg some hr)) ((hsource 1 (by decide)).trans (congrArg some hg))
      ((hsource 2 (by decide)).trans (congrArg some hb)) ((hsource 3 (by decide)).trans (congrArg some hal))
  have hat : colourAt (s.completeOk (s.pixelEffect 4 2 (pixelBytes cs))).buf (s.dst + 2 * k)
      = packPixel rgb tp s.comp.mask r g b al := colourAt_of_holdsAt (holdsAt_withOut s _ _) hpix
  rw [hat]
  refine ⟨?_, ?_, ?_⟩
  · rintro rfl rfl; rfl
  · rintro rfl rfl; rfl
  · rintro (rfl | hal')
    · exact hrgb r g b
    · rw [packPixel, beq_eq_false_iff_ne.mpr hal', Bool.and_false, Bool.and_false]; exact hrgb r g b

end Pack

/-! ## One command after the other (40_pixel_codec.md R162) -/

section RoundTrip
variable {i j : Instr} {s t u : State} {rgba : Colour → List Byte} {red green blue : Colour → Byte}
  {rgb : Byte → Byte → Byte → Colour} {value : Byte → Byte → Byte → Nat}

/-- What is packed from a converted buffer is put together from the expanded channels. -/
theorem toNat_packed_of_converted (hrgba : ∀ v, rgba v = [red v, green v, blue v, 255#8]) (hwi : i.wellFormed = true)
    (hi : outcomeOf i s = s.genericChecks i >>= fun _ =>
      convert rgba 0#2 s.comp.mask s.source s.dlen >>= fun out => .ok (s.pixelEffect 2 4 out))
    (hrgb : ∀ r g b, (rgb r g b).toNat = value r g b) (hwj : j.wellFormed = true)
    (hj : ∀ s, outcomeOf j s = s.genericChecks j >>= fun _ =>
      pack rgb 0#2 s.comp.mask s.source s.dlen >>= fun out => .ok (s.pixelEffect 4 2 out))
    {d2 l2 : Nat} (hd2 : d2 < 2 ^ 32) (ht : exec i s = .next t) (htcode : t.errcode = 0#8)
    (hu : exec j (t.window s.dst (4 * (s.slen / 2)) d2 l2) = .next u) (hucode : u.errcode = 0#8)
    {k : Nat} (hk : k < s.slen / 2) {v : Colour} (hv : v = colourAt s.buf (s.src + 2 * k)) :
    (colourAt u.buf (d2 + 2 * k)).toNat = value (red v) (green v) (blue v) := by
  obtain ⟨hchecks, -, -, -, hconverted⟩ :=
    endsAs_windows_success (endsAs_convert hrgba hwi hi) (by simp) ht htcode
  obtain ⟨-, -, -, -, hpacked⟩ := endsAs_windows_success (endsAs_pack hrgb hwj (hj _)) (by simp) hu hucode
  have hfits : 4 * (s.slen / 2) ≤ s.dlen := by simpa using hchecks (s.dlen < 4 * (s.slen / 2), 7#8) (by simp)
  have hdlen : s.dlen < 2 ^ 32 := s.ops.dlen.isLt
  have hsrc : (t.window s.dst (4 * (s.slen / 2)) d2 l2).src = s.dst := t.window_src s.ops.dst.isLt
  have hslen : (t.window s.dst (4 * (s.slen / 2)) d2 l2).slen = 4 * (s.slen / 2) := t.window_slen (by omega)
  have hdst : (t.window s.dst (4 * (s.slen / 2)) d2 l2).dst = d2 := t.window_dst hd2
  obtain ⟨-, hrgbaAt⟩ := hconverted k v hk hv
  rw [hsrc, hslen, hdst] at hpacked
  obtain ⟨-, -, hvalue⟩ := hpacked k _ _ _ _ (by omega) (hrgbaAt (by simp [cleared]))
  exact hvalue (.inl rfl)

end RoundTrip

theorem toNat_and_low15 (v : Colour) : (v &&& 0x7FFF#16).toNat = v.toNat % 32768 := by
  rw [BitVec.toNat_and]
  exact Nat.and_two_pow_sub_one_eq_mod v.toNat 15

end Sys2Proof.Machine

/-! ## The statements -/

namespace Sys2Proof
open Machine

/-- Settles O31. -/
theorem convertPixels : Obligations.ConvertPixels := by
  refine ⟨by decide, by decide, by decide, fun tp s htp => ?_⟩
  have hlegal : legalTp tp = true := bne_iff_ne.mpr htp
  exact ⟨endsAs_convert rgba555_eq hlegal rfl, endsAs_convert rgba565_eq hlegal rfl⟩

/-- Settles O32. -/
theorem packPixels : Obligations.PackPixels := by
  refine ⟨by decide, by decide, by decide, fun tp s htp => ?_⟩
  have hlegal : legalTp tp = true := bne_iff_ne.mpr htp
  exact ⟨endsAs_pack toNat_pack555Colour hlegal rfl, endsAs_pack toNat_pack565Colour hlegal rfl⟩

/-- Settles O56: what the second command reads is what the first one wrote, and R154's reductions undo R151. -/
theorem pixelRoundTrip : Obligations.PixelRoundTrip := by
  intro s t u v w d2 l2 hroom
  have hd2 : d2 < 2 ^ 32 := by have := Config.bufSize_lt s.cfg; omega
  refine ⟨fun ht htcode hu hucode k hk => BitVec.eq_of_toNat_eq ?_,
    fun hv hvcode hw hwcode k hk => BitVec.eq_of_toNat_eq ?_⟩
  · rw [toNat_packed_of_converted rgba555_eq rfl rfl toNat_pack555Colour rfl (fun _ => rfl) hd2 ht htcode hu hucode hk rfl,
      toNat_and_low15, toNat_wide5_div (by omega), toNat_wide5_div (by omega), toNat_wide5_div (by omega)]
    omega
  · have hlt := (colourAt s.buf (s.src + 2 * k)).isLt
    rw [toNat_packed_of_converted rgba565_eq rfl rfl toNat_pack565Colour rfl (fun _ => rfl) hd2 hv hvcode hw hwcode hk rfl,
      toNat_wide5_div (by omega), toNat_wide6_div (by omega), toNat_wide5_div (by omega)]
    omega

end Sys2Proof
end

section
/-! Placements in a pixel buffer (40_pixel_codec.md R157, R158): the placements of rows share no position, so the order in
which they are painted does not matter, and a painted buffer holds at each position the colour placed there. -/

namespace Sys2Proof.Machine

/-! ## The placements of rows -/

/-- Placements at one position have one colour. -/
def Placement.agree (l : List Placement) : Prop := ∀ p ∈ l, ∀ q ∈ l, p.x = q.x → p.r = q.r → p.c = q.c

/-- The cursor of a row only grows. -/
theorem Row.places_bounds {y x : Nat} {row : Row} {p : Placement} (h : p ∈ Row.places y x row) : p.r = y ∧ x ≤ p.x := by
  induction row generalizing x with
  | nil => cases h
  | cons g gs ih =>
    rw [Row.places, List.mem_append, List.mem_map] at h
    rcases h with ⟨c, -, rfl⟩ | h
    · exact ⟨rfl, by simp only; omega⟩
    · obtain ⟨hr, hx⟩ := ih h
      exact ⟨hr, by omega⟩

theorem Row.places_agree (y x : Nat) (row : Row) : Placement.agree (Row.places y x row) := by
  induction row generalizing x with
  | nil => simp [Placement.agree, Row.places]
  | cons g gs ih =>
    have hlt : ∀ c ∈ g.2.zipIdx, c.2 < g.2.length := fun c hc => by
      have := List.snd_lt_add_of_mem_zipIdx hc; omega
    intro p hp q hq hx hr
    rw [Row.places, List.mem_append, List.mem_map] at hp hq
    rcases hp with ⟨c, hc, rfl⟩ | hp <;> rcases hq with ⟨d, hd, rfl⟩ | hq
    · have hcd : c.2 = d.2 := by simp only at hx; omega
      rw [List.mem_zipIdx_iff_getElem?] at hc hd
      rw [hcd, hd] at hc
      exact (Option.some.inj hc).symm
    · have := (Row.places_bounds hq).2
      have := hlt c hc
      simp only at hx
      omega
    · have := (Row.places_bounds hp).2
      have := hlt d hd
      simp only at hx
      omega
    · exact ih _ p hp q hq hx hr

/-- A placement of rows belongs to the row that its number names. -/
theorem mem_rowsPlaces {xs y : Nat} {rs : List Row} {p : Placement} :
    p ∈ rowsPlaces xs y rs ↔ ∃ k row, rs[k]? = some row ∧ p ∈ Row.places (y + k) xs row := by
  induction rs generalizing y with
  | nil => simp [rowsPlaces]
  | cons r rs ih =>
    rw [rowsPlaces, List.mem_append, ih]
    constructor
    · rintro (h | ⟨k, row, hrow, h⟩)
      · exact ⟨0, r, rfl, h⟩
      · exact ⟨k + 1, row, hrow, by rwa [show y + (k + 1) = y + 1 + k by omega]⟩
    · rintro ⟨k, row, hrow, h⟩
      cases k with
      | zero => cases hrow; exact .inl h
      | succ k => exact .inr ⟨k, row, hrow, by rwa [show y + 1 + k = y + (k + 1) by omega]⟩

theorem rowsPlaces_agree (xs y : Nat) (rs : List Row) : Placement.agree (rowsPlaces xs y rs) := by
  intro p hp q hq hx hr
  obtain ⟨k, row, hrow, hp⟩ := mem_rowsPlaces.mp hp
  obtain ⟨k', row', hrow', hq⟩ := mem_rowsPlaces.mp hq
  have hk : k = k' := by
    have := (Row.places_bounds hp).1
    have := (Row.places_bounds hq).1
    omega
  subst hk
  rw [hrow] at hrow'
  cases hrow'
  exact Row.places_agree _ _ _ p hp q hq hx hr

/-- The two spellings of the extent. -/
theorem maxExtent_eq_extentOf (l : List Placement) : maxExtent l = extentOf l := by
  have hacc : ∀ (l : List Placement) (m : Nat), l.foldl (fun m p => max m (p.x + 1)) m = max m (extentOf l) := by
    intro l
    induction l with
    | nil => simp [extentOf]
    | cons p l ih => intro m; rw [List.foldl_cons, ih, Nat.max_assoc]; rfl
  simpa [maxExtent] using hacc l 0

/-! ## The colour placed at a position -/

theorem placedAt_of_mem {l : List Placement} {p : Placement} (hl : Placement.agree l) (hp : p ∈ l) (fill : Colour) :
    placedAt l fill p.x p.r = p.c := by
  unfold placedAt
  split
  · rename_i q hq
    have hpos := List.find?_some hq
    simp only [Bool.and_eq_true, beq_iff_eq] at hpos
    exact hl q (List.mem_of_find?_eq_some hq) p hp hpos.1 hpos.2
  · rename_i hnone
    exact absurd (List.find?_eq_none.mp hnone p hp) (by simp)

theorem placedAt_of_not_mem {l : List Placement} {x y : Nat} (h : ∀ p ∈ l, ¬ (p.x = x ∧ p.r = y)) (fill : Colour) :
    placedAt l fill x y = fill := by
  have hnone : l.find? (fun p => p.x == x && p.r == y) = none :=
    List.find?_eq_none.mpr fun p hp => by simpa using h p hp
  rw [placedAt, hnone]

/-! ## Painting -/

theorem paint_of_not_mem {buf : List Colour} {ps : List (Nat × Colour)} {i : Nat} (h : ∀ p ∈ ps, p.1 ≠ i) :
    (paint buf ps)[i]? = buf[i]? := by
  induction ps generalizing buf with
  | nil => rfl
  | cons p ps ih =>
    have hrest := ih (buf := buf.set p.1 p.2) fun q hq => h q (by simp [hq])
    rw [List.getElem?_set_ne (h p (by simp))] at hrest
    exact hrest

/-- A position to which one colour only is written holds it in the end. -/
theorem paint_of_mem {buf : List Colour} {ps : List (Nat × Colour)} {i : Nat} {c : Colour} (hmem : (i, c) ∈ ps)
    (honly : ∀ q ∈ ps, q.1 = i → q.2 = c) (hi : i < buf.length) : (paint buf ps)[i]? = some c := by
  induction ps generalizing buf with
  | nil => cases hmem
  | cons p ps ih =>
    have honly' : ∀ q ∈ ps, q.1 = i → q.2 = c := fun q hq => honly q (by simp [hq])
    by_cases hin : (i, c) ∈ ps
    · exact ih (buf := buf.set p.1 p.2) hin honly' (by simpa using hi)
    · obtain rfl : (i, c) = p := (List.mem_cons.mp hmem).resolve_right hin
      have hnot : ∀ q ∈ ps, q.1 ≠ i := fun q hq hqi => hin (by
        have hqc := honly' q hq hqi
        rwa [← hqi, ← hqc])
      have hset : (buf.set i c)[i]? = some c := by simp [hi]
      exact (paint_of_not_mem hnot).trans hset

theorem mem_placed {w h y0 : Nat} {l : List Placement} {q : Nat × Colour} :
    q ∈ placed w h y0 l ↔ ∃ p ∈ l, (p.x < w ∧ y0 + p.r < h) ∧ ((y0 + p.r) * w + p.x, p.c) = q := by
  simp [placed, List.mem_filterMap]

/-- A column inside the stride and a row are told from their position. -/
theorem position_injective {w x y x' y' : Nat} (hx : x < w) (hx' : x' < w) (h : y * w + x = y' * w + x') :
    x = x' ∧ y = y' := by
  have hcol := congrArg (· % w) h
  have hrow := congrArg (· / w) h
  simp only [Nat.mul_add_mod_self_right, Nat.mod_eq_of_lt hx, Nat.mod_eq_of_lt hx'] at hcol
  simp only [Nat.mul_comm _ w, Nat.mul_add_div (Nat.zero_lt_of_lt hx), Nat.div_eq_of_lt hx, Nat.div_eq_of_lt hx'] at hrow
  exact ⟨hcol, by omega⟩

theorem position_lt {w h x y : Nat} (hx : x < w) (hy : y < h) : y * w + x < w * h := by
  calc y * w + x < y * w + w := by omega
    _ = (y + 1) * w := by ring
    _ ≤ h * w := Nat.mul_le_mul_right w hy
    _ = w * h := Nat.mul_comm h w

/-- A painted buffer holds at each position of the rows that were placed the colour placed there, else the fill. -/
theorem getElem?_paint_placed {w h y0 x y : Nat} {l : List Placement} (hl : Placement.agree l) (fill : Colour) (hx : x < w)
    (hy : y0 + y < h) :
    (paint (List.replicate (w * h) fill) (placed w h y0 l))[(y0 + y) * w + x]? = some (placedAt l fill x y) := by
  have hlt := position_lt hx hy
  by_cases hmem : ∃ p ∈ l, p.x = x ∧ p.r = y
  · obtain ⟨p, hp, rfl, rfl⟩ := hmem
    rw [placedAt_of_mem hl hp]
    refine paint_of_mem (mem_placed.mpr ⟨p, hp, ⟨hx, hy⟩, rfl⟩) (fun q hq hpos => ?_) (by simpa using hlt)
    obtain ⟨p', hp', hin, rfl⟩ := mem_placed.mp hq
    obtain ⟨hx', hy'⟩ := position_injective hin.1 hx hpos
    exact hl p' hp' p hp hx' (by omega)
  · rw [placedAt_of_not_mem fun p hp hpos => hmem ⟨p, hp, hpos⟩, paint_of_not_mem fun q hq hpos => ?_]
    · simp [hlt]
    · obtain ⟨p', hp', hin, rfl⟩ := mem_placed.mp hq
      obtain ⟨hx', hy'⟩ := position_injective hin.1 hx hpos
      exact hmem ⟨p', hp', hx', by omega⟩

end Sys2Proof.Machine
end

section
/-! The decoding of L1 images (40_pixel_codec.md R157 to R159): what the parse gives for a stream with its rows, for an empty
image and for a stream that ends early, then the statements about L1DEC, L1EXT and short streams. -/

namespace Sys2Proof.Machine

/-! ## Rows behind a header -/

section Rows
variable {b body rest : List Byte} {o n xs : Nat} {rs : List Row}

theorem decodeRows_of_rowsAre (hb : b.drop o = body) (h : rowsAre n body rs rest) :
    decodeRows b o n xs = .ok (o + (rowsBytes rs).length, rowsPlaces xs 0 rs) := by
  obtain ⟨hcount, hlegal, rfl⟩ := h
  refine (decodeRows_eq_ok _ _ _ _ _ _).mpr ⟨rs, hcount, hlegal, ?_, rfl, rfl⟩
  rw [← List.drop_drop, hb, List.drop_left]

theorem decodeRows_of_no_rows (hb : b.drop o = body) (h : ∀ rs rest, ¬ rowsAre n body rs rest) :
    decodeRows b o n xs = .error .truncatedInput := by
  cases hd : decodeRows b o n xs with
  | error e => rw [decodeRows_error hd]
  | ok r =>
    obtain ⟨rs, hcount, hlegal, hdrop, -, -⟩ := (decodeRows_eq_ok b o n xs r.1 r.2).mp hd
    exact absurd ⟨hcount, hlegal, hb ▸ hdrop⟩ (h rs _)

end Rows

/-! ## The parse of a stream -/

section Parse
variable {xo yo w h : Byte} {body rest : List Byte} {rs : List Row}

theorem l1Parse_header (xo yo w h : Byte) (body : List Byte) : l1Parse (xo :: yo :: w :: h :: body) =
    if w == 0#8 || h == 0#8 then .ok ⟨h ++ w ++ yo ++ xo, 0, 0, 4, []⟩
    else decodeRows (xo :: yo :: w :: h :: body) 4 h.toNat 0 >>= fun r =>
      .ok ⟨h ++ w ++ yo ++ xo, w.toNat, h.toNat, r.1, r.2⟩ := rfl

theorem l1Parse_of_empty (hempty : w = 0#8 ∨ h = 0#8) :
    l1Parse (xo :: yo :: w :: h :: body) = .ok ⟨h ++ w ++ yo ++ xo, 0, 0, 4, []⟩ := by
  rw [l1Parse_header, if_pos (by simpa using hempty)]

theorem l1Parse_of_rows (hw : w ≠ 0#8) (hh : h ≠ 0#8) (hrows : rowsAre h.toNat body rs rest) :
    l1Parse (xo :: yo :: w :: h :: body)
      = .ok ⟨h ++ w ++ yo ++ xo, w.toNat, h.toNat, 4 + (rowsBytes rs).length, rowsPlaces 0 0 rs⟩ := by
  rw [l1Parse_header, if_neg (by simpa using ⟨hw, hh⟩), decodeRows_of_rowsAre rfl hrows, ok_bind]

theorem l1Parse_of_no_rows (hw : w ≠ 0#8) (hh : h ≠ 0#8) (hrows : ∀ rs rest, ¬ rowsAre h.toNat body rs rest) :
    l1Parse (xo :: yo :: w :: h :: body) = .error .truncatedInput := by
  rw [l1Parse_header, if_neg (by simpa using ⟨hw, hh⟩), decodeRows_of_no_rows rfl hrows, error_bind]

theorem tileParse_of_no_rows {x0 y0 u nr : Byte} (hrows : ∀ rs rest, ¬ rowsAre nr.toNat body rs rest) :
    tileParse (x0 :: y0 :: u :: nr :: body) 0 = .error .truncatedInput := by
  have hparse : tileParse (x0 :: y0 :: u :: nr :: body) 0
      = decodeRows (x0 :: y0 :: u :: nr :: body) 4 nr.toNat x0.toNat >>= fun r => .ok ⟨x0, y0, u, nr, r.1, r.2⟩ := rfl
  rw [hparse, decodeRows_of_no_rows rfl hrows, error_bind]

/-- Both parsers read the four header bytes first. -/
theorem parse_of_short {b : List Byte} (hb : b.length < 4) :
    l1Parse b = .error .truncatedInput ∧ tileParse b 0 = .error .truncatedInput :=
  match b, hb with
  | [], _ => ⟨rfl, rfl⟩
  | [_], _ => ⟨rfl, rfl⟩
  | [_, _], _ => ⟨rfl, rfl⟩
  | [_, _, _], _ => ⟨rfl, rfl⟩

end Parse

/-! ## The commands past the parse -/

section Commands
variable {ext scanOnly : Bool} {s : State} {l : L1Stream}

theorem outcomeOf_l1dec (hwin : s.windowsOk (.l1dec ext)) : outcomeOf (.l1dec ext) s = l1Parse s.source >>= fun l =>
    require (decide (2 * l.outWidth ext * l.height ≤ s.dlen)) .range >>= fun _ =>
      .ok ((l.effect ext s).withOut (pixelBytes (l.pixels ext))) := by
  rw [outcomeOf, l1dec, genericChecks_ok rfl hwin]
  rfl

theorem outcomeOf_l1ext (hwin : s.windowsOk .l1ext) :
    outcomeOf .l1ext s = l1Parse s.source >>= fun l => .ok (l.effect true s) := by
  rw [outcomeOf, l1ext, genericChecks_ok rfl hwin]
  rfl

theorem failsWith_l1dec (hwin : s.windowsOk (.l1dec ext)) (hparse : l1Parse s.source = .error .truncatedInput) :
    failsWith (.l1dec ext) s 1#8 :=
  failsWith_of_error (e := .truncatedInput) (by rw [outcomeOf_l1dec hwin, hparse, error_bind])

theorem failsWith_l1ext (hwin : s.windowsOk .l1ext) (hparse : l1Parse s.source = .error .truncatedInput) :
    failsWith .l1ext s 1#8 :=
  failsWith_of_error (e := .truncatedInput) (by rw [outcomeOf_l1ext hwin, hparse, error_bind])

theorem failsWith_tiledec (hwin : s.windowsOk (.tiledec scanOnly))
    (hparse : tileParse s.source 0 = .error .truncatedInput) : failsWith (.tiledec scanOnly) s 1#8 :=
  failsWith_of_error (e := .truncatedInput) (by
    rw [outcomeOf, tiledec, genericChecks_ok rfl hwin, ok_bind, hparse, error_bind])

theorem L1Stream.getElem?_pixels (hagree : Placement.agree l.places) {x y : Nat} (hx : x < l.outWidth ext)
    (hy : y < l.height) : (l.pixels ext)[y * l.outWidth ext + x]? = some (placedAt l.places 0#16 x y) := by
  simpa [L1Stream.pixels] using getElem?_paint_placed (y0 := 0) hagree 0#16 hx (by simpa using hy)

/-- Range when the pixel buffer does not fit, else the colours placed are written. -/
theorem endsAs_l1dec {ow : Nat} {r0 r1 r2 r3 : Word} (hparse : l1Parse s.source = .ok l)
    (hagree : Placement.agree l.places) (how : l.outWidth ext = ow) (heffect : l.effect ext s = s.finish r0 r1 r2 r3) :
    endsAs (.l1dec ext) s (s.windowChecks (.l1dec ext) ++ [(s.dlen < 2 * ow * l.height, 7#8)])
      (fun t => s.completes t r0 r1 r2 r3 false ∧ s.keptCodec t ∧ sameOutside s.buf t.buf s.dst (2 * ow * l.height)
        ∧ ∀ x y, x < ow → y < l.height → colourAt t.buf (s.dst + 2 * (y * ow + x)) = placedAt l.places 0#16 x y) := by
  subst how
  refine endsAs_windows rfl fun hwin => endsAs_check .range (fun hlong => ?_) fun hfits => ?_
  · rw [outcomeOf_l1dec hwin, hparse, ok_bind, decide_eq_false (by omega)]; rfl
  · have hout : outcomeOf (.l1dec ext) s = .ok ((s.finish r0 r1 r2 r3).withOut (pixelBytes (l.pixels ext))) := by
      rw [outcomeOf_l1dec hwin, hparse, ok_bind, decide_eq_true (by omega), require_true, ok_bind, heffect]
    have hlen : (pixelBytes (l.pixels ext)).length = 2 * l.outWidth ext * l.height := by
      rw [pixelBytes_length, L1Stream.pixels_length, Nat.mul_assoc]
    exact endsAs_done hout ⟨completes_withOut s _ _ _ _ _, keptCodec_withOut s _, hlen ▸ sameOutside_withOut s _ _,
      fun x y hx hy => colourAt_of_holdsAt (holdsAt_withOut s _ _) (l.getElem?_pixels hagree hx hy)⟩

/-- Nothing is written. -/
theorem endsAs_l1ext {r0 r1 r2 r3 : Word} (hparse : l1Parse s.source = .ok l)
    (heffect : l.effect true s = s.finish r0 r1 r2 r3) :
    endsAs .l1ext s (s.windowChecks .l1ext)
      (fun t => s.completes t r0 r1 r2 r3 false ∧ s.keptCodec t ∧ sameBytes s.buf t.buf) := by
  rw [← List.append_nil (s.windowChecks .l1ext)]
  refine endsAs_windows rfl fun hwin => endsAs_done (e := s.finish r0 r1 r2 r3) ?_
    ⟨completeOk_completes s _ rfl rfl, ⟨rfl, rfl⟩, fun _ => rfl⟩
  rw [outcomeOf_l1ext hwin, hparse, ok_bind, heffect]

end Commands

/-! ## The statements -/

/-- Settles O33: the parse is the law of the row decoder, and the painted buffer holds the colours placed. -/
theorem l1decDecodes : Obligations.L1decDecodes := by
  intro ext s xo yo w h body hsource
  refine ⟨fun hempty => ?_, fun hw hh rs rest hrows => ?_⟩
  · rw [← List.append_nil (s.windowChecks (.l1dec ext))]
    refine endsAs_windows rfl fun hwin => ?_
    have hparse := hsource ▸ l1Parse_of_empty (xo := xo) (yo := yo) (body := body) hempty
    have hout : outcomeOf (.l1dec ext) s = .ok ((s.finish (h ++ w ++ yo ++ xo) 0 0 4).withOut []) := by
      rw [outcomeOf_l1dec hwin, hparse]
      cases ext <;> rfl
    exact endsAs_done hout ⟨completes_withOut s _ _ _ _ _, keptCodec_withOut s _, fun x => Memory.writeBytes_nil _ _ x⟩
  · intro places ow
    have how : L1Stream.outWidth ⟨h ++ w ++ yo ++ xo, w.toNat, h.toNat, 4 + (rowsBytes rs).length, places⟩ ext = ow := by
      simp only [L1Stream.outWidth, maxExtent_eq_extentOf, ow]
    refine endsAs_l1dec (hsource ▸ l1Parse_of_rows hw hh hrows) (rowsPlaces_agree 0 0 rs) how ?_
    rw [L1Stream.effect, how, BitVec.ofNat_toNat]

/-- Settles O34: both parsers read the header bytes and then the rows, and a read past the end is their only error. -/
theorem shortStreamsTruncated : Obligations.ShortStreamsTruncated := by
  intro i s hi hwin
  refine ⟨fun hshort => ?_, fun b0 b1 b2 b3 body hsource hrows hkind => ?_⟩
  · obtain ⟨hl1, htile⟩ := parse_of_short (b := s.source) (by simpa using hshort)
    obtain ⟨b, rfl⟩ | rfl | ⟨b, rfl⟩ := hi
    · exact failsWith_l1dec hwin hl1
    · exact failsWith_l1ext hwin hl1
    · exact failsWith_tiledec hwin htile
  · obtain ⟨b, rfl⟩ | rfl | ⟨b, rfl⟩ := hi
    · obtain ⟨hw, hh⟩ := hkind.resolve_left (by simp)
      exact failsWith_l1dec hwin (hsource ▸ l1Parse_of_no_rows hw hh hrows)
    · obtain ⟨hw, hh⟩ := hkind.resolve_left (by simp)
      exact failsWith_l1ext hwin (hsource ▸ l1Parse_of_no_rows hw hh hrows)
    · exact failsWith_tiledec hwin (hsource ▸ tileParse_of_no_rows hrows)

/-- Settles O35. -/
theorem l1extMeasures : Obligations.L1extMeasures := by
  intro s xo yo w h body hsource
  refine ⟨fun hempty => ?_, fun hw hh rs rest hrows => ?_⟩
  · exact endsAs_l1ext (hsource ▸ l1Parse_of_empty hempty) rfl
  · refine endsAs_l1ext (hsource ▸ l1Parse_of_rows hw hh hrows) ?_
    rw [L1Stream.effect, L1Stream.outWidth, if_pos rfl, maxExtent_eq_extentOf, BitVec.ofNat_toNat]

end Sys2Proof.Machine
end

section
/-! The encoding of a row (40_pixel_codec.md R160): what one turn of the encoder takes from a row, and that its segments are
those of the loop as the rule spells it (log entry 18). -/

namespace Sys2Proof.Machine

/-! ## One turn of the encoder -/

/-- What a turn takes from a row that is not all transparent: `gap` transparent pixels and the longest run of other colours,
at most 255 of them, before the tail. -/
structure RowTurn (t : Colour) (row : List Colour) (gap : Nat) (run tail : List Colour) : Prop where
  split : row = List.replicate gap t ++ (run ++ tail)
  maximal : ((run ++ tail).takeWhile (· != t)).take 255 = run
  nonempty : run ≠ []

section Turn
variable {t : Colour} {row run tail : List Colour} {gap : Nat}

theorem RowTurn.mem_ne (h : RowTurn t row gap run tail) : ∀ c ∈ run, c ≠ t := by
  intro c hc
  rw [← h.maximal] at hc
  simpa using List.mem_takeWhile_imp (List.mem_of_mem_take hc)

theorem RowTurn.run_length_le (h : RowTurn t row gap run tail) : run.length ≤ 255 := by
  rw [← h.maximal]
  exact List.length_take_le 255 _

theorem RowTurn.length (h : RowTurn t row gap run tail) : row.length = gap + (run.length + tail.length) := by
  rw [h.split, List.length_append, List.length_replicate, List.length_append]

theorem RowTurn.run_length_pos (h : RowTurn t row gap run tail) : 0 < run.length := List.length_pos_iff.mpr h.nonempty

end Turn

/-- The two things a turn of the encoder can find. -/
theorem encodeSegs_cases (t : Colour) (row : List Colour) :
    ((∀ c ∈ row, c = t) ∧ ∀ fuel, encodeSegs t (fuel + 1) row = [])
      ∨ ∃ gap run tail, RowTurn t row gap run tail
        ∧ ∀ fuel, encodeSegs t (fuel + 1) row = gapSegs gap run ++ encodeSegs t fuel tail := by
  have hgap : row.takeWhile (· == t) = List.replicate (row.takeWhile (· == t)).length t :=
    List.eq_replicate_of_mem fun c hc => by simpa using List.mem_takeWhile_imp hc
  cases hrest : row.dropWhile (· == t) with
  | nil => exact .inl ⟨by simpa using hrest, fun fuel => by simp [encodeSegs, hrest]⟩
  | cons c cs =>
    have hc : c ≠ t := by simpa [hrest] using List.head?_dropWhile_not (· == t) row
    set run := ((c :: cs).takeWhile (· != t)).take 255 with hrun
    have htail : run ++ (c :: cs).drop run.length = c :: cs :=
      (List.prefix_append_drop ((List.take_prefix _ _).trans (List.takeWhile_prefix _))).symm
    refine .inr ⟨(row.takeWhile (· == t)).length, run, (c :: cs).drop run.length, ⟨?_, by rw [htail], ?_⟩,
      fun fuel => by simp [encodeSegs, hrest, hrun]⟩
    · rw [htail, ← hgap, ← hrest, List.takeWhile_append_dropWhile]
    · simp [hrun, hc]

/-- A row has at most as many segments as pixels. -/
theorem encodeSegs_length_le (t : Colour) (fuel : Nat) (row : List Colour) :
    (encodeSegs t fuel row).length ≤ row.length := by
  induction fuel generalizing row with
  | zero => simp [encodeSegs]
  | succ fuel ih =>
    obtain ⟨-, hnil⟩ | ⟨gap, run, tail, hturn, hcons⟩ := encodeSegs_cases t row
    · simp [hnil]
    · have hpos := hturn.run_length_pos
      have htail := ih tail
      rw [hcons, hturn.length, gapSegs]
      simp only [List.length_append, List.length_replicate, List.length_singleton]
      omega

/-! ## Segments as a row of the format -/

/-- The segments of the encoder as a row. -/
def segmentsRow (segs : List Segment) : Row := segs.map fun g => (g.skip, g.cols)

@[simp] theorem segmentsRow_length (segs : List Segment) : (segmentsRow segs).length = segs.length := List.length_map _

@[simp] theorem segmentsRow_append (segs segs' : List Segment) :
    segmentsRow (segs ++ segs') = segmentsRow segs ++ segmentsRow segs' := List.map_append

theorem segmentsRow_bytes (segs : List Segment) :
    Row.bytes (segmentsRow segs) = BitVec.ofNat 8 segs.length :: segs.flatMap Segment.bytes := by
  rw [Row.bytes, segmentsRow_length, segmentsRow, List.flatMap_map]
  rfl

/-- The row of a gap and the run behind it. -/
theorem segmentsRow_gapSegs (gap : Nat) (run : List Colour) : segmentsRow (gapSegs gap run)
    = List.replicate ((gap - 1) / 127) (254#8, []) ++ [(BitVec.ofNat 8 (2 * (gap - 127 * ((gap - 1) / 127))), run)] := by
  simp [segmentsRow, gapSegs]

theorem segmentsRow_encodeSegs_runs (t : Colour) (fuel : Nat) (row : List Colour) :
    ∀ g ∈ segmentsRow (encodeSegs t fuel row), g.2.length ≤ 255 := by
  induction fuel generalizing row with
  | zero => simp [encodeSegs, segmentsRow]
  | succ fuel ih =>
    obtain ⟨-, hnil⟩ | ⟨gap, run, tail, hturn, hcons⟩ := encodeSegs_cases t row
    · simp [hnil, segmentsRow]
    · intro g hg
      rw [hcons, segmentsRow_append, segmentsRow_gapSegs, List.mem_append, List.mem_append] at hg
      rcases hg with (hg | hg) | hg
      · rw [List.eq_of_mem_replicate hg]; simp
      · rw [List.mem_singleton.mp hg]; exact hturn.run_length_le
      · exact ih tail g hg

/-! ## The loop of R160 -/

/-- The inner loop on the gap, in closed form. -/
theorem splitGap_eq {fuel gap : Nat} (h : gap ≤ fuel) : splitGap fuel gap
    = (List.replicate ((gap - 1) / 127) (254#8, []), gap - 127 * ((gap - 1) / 127)) := by
  induction fuel generalizing gap with
  | zero =>
    obtain rfl : gap = 0 := by omega
    rfl
  | succ fuel ih =>
    rw [splitGap]
    split
    · have hturns : (gap - 1) / 127 = (gap - 127 - 1) / 127 + 1 := by omega
      rw [ih (by omega), hturns, List.replicate_succ]
      exact Prod.ext rfl (by simp only; omega)
    · have hturns : (gap - 1) / 127 = 0 := by omega
      simp [hturns]

/-- The inner loop on the run. -/
theorem takeRun_eq {p : List Colour} {t : Colour} {fuel len e : Nat} (h : p.length ≤ e + fuel) :
    takeRun p t fuel len e = ((p.drop e).takeWhile (· != t)).take (255 - len) := by
  induction fuel generalizing len e with
  | zero => rw [List.drop_of_length_le (by omega)]; simp [takeRun]
  | succ fuel ih =>
    rw [takeRun]
    split
    · rename_i c hc
      obtain ⟨he, rfl⟩ := List.getElem?_eq_some_iff.mp hc
      rw [List.drop_eq_getElem_cons he]
      split
      · rename_i hin
        rw [List.takeWhile_cons_of_pos (by simpa using hin.1), show 255 - len = (255 - (len + 1)) + 1 by omega,
          List.take_succ_cons, ih (by omega)]
      · rename_i hout
        by_cases hc : p[e] = t
        · simp [hc]
        · rw [show 255 - len = 0 by simp only [ne_eq, hc, not_false_eq_true, true_and] at hout; omega, List.take_zero]
    · rename_i hend
      rw [List.drop_of_length_le (by simpa using hend)]; simp

section Find
variable {p : List Colour} {t : Colour} {x gap : Nat} {run tail : List Colour}

theorem find?_opaque_none (h : ∀ c ∈ p.drop x, c = t) :
    (List.range p.length).find? (fun i => decide (x ≤ i) && p[i]? != some t) = none := by
  refine List.find?_range_eq_none.mpr fun i hi => ?_
  by_cases hx : x ≤ i
  · have hmem : p[i] ∈ p.drop x := List.mem_drop_iff_getElem.mpr ⟨i - x, by omega, by congr 1; omega⟩
    simp [hi, h _ hmem]
  · simp [hx]

/-- The first column from `x` on that is not transparent lies behind the gap. -/
theorem find?_opaque_some (h : RowTurn t (p.drop x) gap run tail) :
    (List.range p.length).find? (fun i => decide (x ≤ i) && p[i]? != some t) = some (x + gap) := by
  have hlen := h.length
  have hpos := h.run_length_pos
  rw [List.length_drop] at hlen
  have hat : ∀ i, p[x + i]? = (List.replicate gap t ++ (run ++ tail))[i]? := fun i => by rw [← h.split, List.getElem?_drop]
  refine List.find?_range_eq_some.mpr ⟨?_, List.mem_range.mpr (by omega), fun j hj => ?_⟩
  · have hfirst : p[x + gap]? = some run[0] := by
      rw [hat, List.getElem?_append_right (by simp), List.length_replicate, Nat.sub_self, List.getElem?_append_left hpos,
        List.getElem?_eq_getElem hpos]
    simpa [hfirst] using h.mem_ne run[0] (List.getElem_mem hpos)
  · by_cases hx : x ≤ j
    · have hgap : p[j]? = some t := by
        rw [show j = x + (j - x) by omega, hat, List.getElem?_append_left (by simp; omega),
          List.getElem?_replicate_of_lt (by omega)]
      simp [hgap]
    · simp [hx]

end Find

/-- The encoder's segments are those of the loop, turn by turn. -/
theorem rowLoop_eq (p : List Colour) (t : Colour) (fuel x : Nat) :
    rowLoop p t fuel x = segmentsRow (encodeSegs t fuel (p.drop x)) := by
  induction fuel generalizing x with
  | zero => rfl
  | succ fuel ih =>
    rw [rowLoop]
    obtain ⟨hall, hnil⟩ | ⟨gap, run, tail, hturn, hcons⟩ := encodeSegs_cases t (p.drop x)
    · rw [find?_opaque_none hall, hnil]; rfl
    · have hrest : p.drop (x + gap) = run ++ tail := by
        rw [← List.drop_drop, hturn.split, List.drop_left' (by simp)]
      have hrun : takeRun p t p.length 0 (x + gap) = run := by
        rw [takeRun_eq (by omega), hrest, hturn.maximal]
      have htail : p.drop (x + gap + run.length) = tail := by
        rw [← List.drop_drop, hrest, List.drop_left]
      rw [find?_opaque_some hturn, hcons, segmentsRow_append, segmentsRow_gapSegs]
      simp only [Nat.add_sub_cancel_left, hrun, splitGap_eq (Nat.le_refl gap), ih, htail, List.append_assoc,
        List.singleton_append]

theorem rowSegments_eq (p : List Colour) (xs : Nat) (t : Colour) :
    rowSegments p xs t = segmentsRow (encodeSegs t p.length (p.drop xs)) := rowLoop_eq p t p.length xs

/-- Settles O37: the loop's segments are the encoder's, and both count and write them alike. -/
theorem encodeRowFollowsLoop : Obligations.EncodeRowFollowsLoop := by
  intro p xs t
  rw [rowSegments_eq, segmentsRow_bytes, segmentsRow_length]
  by_cases hcount : (encodeSegs t p.length (p.drop xs)).length ≤ 255
  · rw [if_pos hcount, encodeRow, decide_eq_true hcount]; rfl
  · rw [if_neg hcount, encodeRow, decide_eq_false hcount]; rfl

end Sys2Proof.Machine
end

section
/-! L1ENC and the round trip through L1DEC (40_pixel_codec.md R161, R162): the stream of a pixel buffer, where the colours of
an encoded row are placed when it is decoded, then the statements. -/

namespace Sys2Proof.Machine

/-! ## The stream of a pixel buffer (40_pixel_codec.md R161) -/

/-- EncodeRow's Range cannot happen in a row of at most 255 pixels. -/
theorem rowSegments_length_le (p : List Colour) (xs : Nat) (t : Colour) : (rowSegments p xs t).length ≤ p.length := by
  have hsegs := encodeSegs_length_le t p.length (p.drop xs)
  rw [List.length_drop] at hsegs
  rw [rowSegments_eq, segmentsRow_length]
  omega

theorem rowSegments_legal {p : List Colour} (hp : p.length ≤ 255) (xs : Nat) (t : Colour) :
    Row.legal (rowSegments p xs t) :=
  ⟨(rowSegments_length_le p xs t).trans hp, by rw [rowSegments_eq]; exact segmentsRow_encodeSegs_runs t _ _⟩

/-- Encoded rows are rows of the format, with nothing behind them. -/
theorem rowsAre_rowSegments {rows : List (List Colour)} (h : ∀ p ∈ rows, p.length ≤ 255) (xs : Nat) (t : Colour) :
    rowsAre rows.length (rowsBytes (rows.map fun p => rowSegments p xs t)) (rows.map fun p => rowSegments p xs t) [] := by
  refine ⟨List.length_map _, fun r hr => ?_, (List.append_nil _).symm⟩
  obtain ⟨p, hp, rfl⟩ := List.mem_map.mp hr
  exact rowSegments_legal (h p hp) xs t

theorem encodeRow_of_short {p : List Colour} (hp : p.length ≤ 255) (xs : Nat) (t : Colour) :
    encodeRow p xs t = .ok (Row.bytes (rowSegments p xs t)) := by
  rw [encodeRowFollowsLoop, if_pos ((rowSegments_length_le p xs t).trans hp)]

theorem encodeRows_of_short {rows : List (List Colour)} (h : ∀ p ∈ rows, p.length ≤ 255) (xs : Nat) (t : Colour) :
    encodeRows xs t rows = .ok (rowsBytes (rows.map fun p => rowSegments p xs t)) := by
  induction rows with
  | nil => rfl
  | cons p rows ih =>
    rw [encodeRows, encodeRow_of_short (h p (by simp)), ih fun q hq => h q (by simp [hq])]
    rfl

theorem rowsOf_eq (w h : Nat) (p : List Colour) : rowsOf w h p = (List.range h).map fun y => (p.drop (y * w)).take w := by
  induction h generalizing p with
  | zero => rfl
  | succ h ih =>
    rw [rowsOf, ih, List.range_succ_eq_map, List.map_cons, List.map_map, Nat.zero_mul, List.drop_zero]
    congr 1
    refine List.map_congr_left fun y _ => ?_
    rw [List.drop_drop, Function.comp_apply, Nat.succ_mul, Nat.add_comm]

@[simp] theorem State.sourceRow_length (s : State) (w y : Nat) : (s.sourceRow w y).length = w := by
  simp [State.sourceRow]

theorem State.sourceRow_getElem? (s : State) {w y x : Nat} (hx : x < w) :
    (s.sourceRow w y)[x]? = some (colourAt s.buf (s.src + 2 * (y * w + x))) := by
  simp [State.sourceRow, hx]

/-- The rows of the source window, when it holds the whole pixel buffer. -/
theorem rowsOf_source {s : State} {w h : Nat} (hlong : 2 * w * h ≤ s.slen) :
    rowsOf w h (bytesColours s.source) = (List.range h).map fun y => s.sourceRow w y := by
  rw [rowsOf_eq]
  refine List.map_congr_left fun y hy => List.ext_getElem? fun x => ?_
  rw [List.getElem?_take]
  split
  · rename_i hx
    have hpos := position_lt hx (List.mem_range.mp hy)
    rw [Nat.mul_assoc] at hlong
    rw [List.getElem?_drop, bytesColours_source s (by omega), s.sourceRow_getElem? hx]
  · rename_i hx
    rw [List.getElem?_eq_none (by simpa using hx)]

theorem leBytes_arg0 (o : Operands) : leBytes 4 o.arg0 = [o.byte0, o.byte1, o.byte2, o.byte3] := by
  rw [leBytes_word, colourBytes_eq, colourBytes_eq]
  simp only [extractLsb'_of_extractLsb' o.arg0 (show 0 + 8 ≤ 16 by decide),
    extractLsb'_of_extractLsb' o.arg0 (show 8 + 8 ≤ 16 by decide)]
  rfl

theorem arg0_of_bytes (o : Operands) : o.byte3 ++ o.byte2 ++ o.byte1 ++ o.byte0 = o.arg0 := by
  apply BitVec.eq_of_toNat_eq
  have := o.arg0.isLt
  simp only [Operands.byte0, Operands.byte1, Operands.byte2, Operands.byte3, toNat_append_add, BitVec.extractLsb'_toNat,
    Nat.shiftRight_eq_div_pow]
  omega

/-- The whole law of L1ENC's stream: TruncatedInput for a short source of an image that is not empty, else the code. -/
theorem l1Stream_eq (s : State) (t : Colour) : l1Stream s.ops t s.source =
    if s.ops.byte2.toNat ≠ 0 ∧ s.ops.byte3.toNat ≠ 0 ∧ s.slen < 2 * s.ops.byte2.toNat * s.ops.byte3.toNat then
      .error .truncatedInput
    else .ok (s.l1Code t s.ops.byte2.toNat s.ops.byte3.toNat) := by
  rw [l1Stream, State.l1Code, leBytes_arg0, State.source_length]
  by_cases hempty : s.ops.byte2.toNat = 0 ∨ s.ops.byte3.toNat = 0
  · rw [if_pos (by simpa using hempty), if_neg (by tauto), if_pos hempty, List.append_nil]; rfl
  · rw [if_neg (by simpa using hempty), if_neg hempty]
    by_cases hshort : s.slen < 2 * s.ops.byte2.toNat * s.ops.byte3.toNat
    · rw [if_pos ⟨by tauto, by tauto, hshort⟩, decide_eq_false (by omega)]; rfl
    · have hwidth : ∀ p ∈ (List.range s.ops.byte3.toNat).map fun y => s.sourceRow s.ops.byte2.toNat y, p.length ≤ 255 := by
        have := s.ops.byte2.isLt
        simp; omega
      rw [if_neg (by tauto), decide_eq_true (by omega), require_true, ok_bind, rowsOf_source (by omega),
        encodeRows_of_short hwidth, List.map_map]
      rfl

/-- Settles O36. -/
theorem l1encEncodes : Obligations.L1encEncodes := by
  refine ⟨by decide, by decide, fun tm s => ?_⟩
  intro w h out
  refine endsAs_windows rfl fun hwin => ?_
  have houtcome : outcomeOf (.l1enc tm) s =
      (if w ≠ 0 ∧ h ≠ 0 ∧ s.slen < 2 * w * h then .error .truncatedInput else .ok out) >>= fun out =>
        require (decide (out.length ≤ s.dlen)) .range >>= fun _ => .ok ((s.finish s.ops.arg0 (s.ops.byte2.setWidth 32)
          (s.ops.byte3.setWidth 32) (BitVec.ofNat 32 out.length)).withOut out) := by
    rw [outcomeOf, l1enc, genericChecks_ok rfl hwin, ok_bind, l1Stream_eq]
    rfl
  refine endsAs_check .truncatedInput (fun hshort => ?_) fun hlong => endsAs_check .range (fun hroom => ?_) fun hfits => ?_
  · rw [houtcome, if_pos hshort]; rfl
  · rw [houtcome, if_neg hlong, ok_bind, decide_eq_false (by omega)]; rfl
  · rw [if_neg hlong, ok_bind, decide_eq_true (by omega), require_true, ok_bind, ← BitVec.ofNat_toNat,
      ← BitVec.ofNat_toNat] at houtcome
    exact endsAs_done houtcome ⟨completes_withOut s out _ _ _ _, keptCodec_withOut s out, sameOutside_withOut s _ out,
      holdsAt_withOut s _ out⟩

/-! ## Where the colours of an encoded row are placed -/

/-- The pixels of a row that are not transparent, its first pixel standing at column `x` of row `y`. -/
def opaquePlaces (t : Colour) (y x : Nat) (row : List Colour) : List Placement :=
  (row.zipIdx x).filterMap fun c => if c.1 = t then none else some ⟨c.2, y, c.1⟩

section Opaque
variable {t : Colour} {y x : Nat} {row run : List Colour}

theorem opaquePlaces_append (t : Colour) (y x : Nat) (l l' : List Colour) :
    opaquePlaces t y x (l ++ l') = opaquePlaces t y x l ++ opaquePlaces t y (x + l.length) l' := by
  rw [opaquePlaces, List.zipIdx_append, List.filterMap_append]
  rfl

theorem opaquePlaces_transparent (h : ∀ c ∈ row, c = t) : opaquePlaces t y x row = [] :=
  List.filterMap_eq_nil_iff.mpr fun c hc => if_pos (h c.1 (List.fst_mem_of_mem_zipIdx hc))

theorem opaquePlaces_opaque (h : ∀ c ∈ run, c ≠ t) :
    opaquePlaces t y x run = run.zipIdx.map fun c => ⟨x + c.2, y, c.1⟩ := by
  rw [opaquePlaces, List.zipIdx_eq_map_add, List.filterMap_map, ← List.filterMap_eq_map]
  exact List.filterMap_congr fun c hc => if_neg (h c.1 (List.fst_mem_of_mem_zipIdx hc))

theorem mem_opaquePlaces {p : Placement} :
    p ∈ opaquePlaces t y x row ↔ p.r = y ∧ x ≤ p.x ∧ row[p.x - x]? = some p.c ∧ p.c ≠ t := by
  simp only [opaquePlaces, List.mem_filterMap, List.mem_zipIdx_iff_le_and_getElem?_sub]
  constructor
  · rintro ⟨c, ⟨hle, hat⟩, hp⟩
    split at hp
    · cases hp
    · rename_i hne; cases hp; exact ⟨rfl, hle, hat, hne⟩
  · rintro ⟨rfl, hle, hat, hne⟩
    exact ⟨(p.c, p.x), ⟨hle, hat⟩, if_neg hne⟩

end Opaque

/-- Bare segments move the cursor. -/
theorem Row.places_bare (y x n : Nat) (row : Row) :
    Row.places y x (List.replicate n (254#8, []) ++ row) = Row.places y (x + 127 * n) row := by
  induction n generalizing x with
  | zero => rfl
  | succ n ih =>
    rw [List.replicate_succ, List.cons_append]
    exact (ih (x + 127)).trans (by congr 1; omega)

/-- A gap and the run behind it. -/
theorem Row.places_gapSegs (y x gap : Nat) (run : List Colour) (row : Row) :
    Row.places y x (segmentsRow (gapSegs gap run) ++ row)
      = run.zipIdx.map (fun c => ⟨x + gap + c.2, y, c.1⟩) ++ Row.places y (x + gap + run.length) row := by
  have hskip : (BitVec.ofNat 8 (2 * (gap - 127 * ((gap - 1) / 127)))).toNat / 2 = gap - 127 * ((gap - 1) / 127) := by
    rw [ofNat8_toNat (by omega)]; omega
  have hcursor : x + 127 * ((gap - 1) / 127) + (gap - 127 * ((gap - 1) / 127)) = x + gap := by omega
  rw [segmentsRow_gapSegs, List.append_assoc, Row.places_bare, List.singleton_append, Row.places, hskip, hcursor]

/-- The segments of a row place exactly its pixels that are not transparent. -/
theorem places_encodeSegs {t : Colour} {fuel : Nat} {row : List Colour} (y x : Nat) (h : row.length ≤ fuel) :
    Row.places y x (segmentsRow (encodeSegs t fuel row)) = opaquePlaces t y x row := by
  induction fuel generalizing x row with
  | zero => rw [List.length_eq_zero_iff.mp (Nat.le_zero.mp h)]; rfl
  | succ fuel ih =>
    obtain ⟨hall, hnil⟩ | ⟨gap, run, tail, hturn, hcons⟩ := encodeSegs_cases t row
    · rw [hnil, opaquePlaces_transparent hall]; rfl
    · have hpos := hturn.run_length_pos
      have hlen := hturn.length
      rw [hcons, segmentsRow_append, Row.places_gapSegs, ih _ (by omega), hturn.split, opaquePlaces_append,
        opaquePlaces_append, opaquePlaces_transparent fun c hc => List.eq_of_mem_replicate hc,
        opaquePlaces_opaque hturn.mem_ne, List.length_replicate, List.nil_append]

theorem mem_places_rowSegments {row : List Colour} {xs y : Nat} {t : Colour} {p : Placement} :
    p ∈ Row.places y xs (rowSegments row xs t) ↔ p.r = y ∧ xs ≤ p.x ∧ row[p.x]? = some p.c ∧ p.c ≠ t := by
  rw [rowSegments_eq, places_encodeSegs y xs (by simp), mem_opaquePlaces, List.getElem?_drop]
  refine and_congr_right fun _ => and_congr_right fun hle => ?_
  rw [Nat.add_sub_cancel' hle]

/-- Decoding encoded rows gives each pixel back, transparent ones as the fill. -/
theorem placedAt_encoded {rows : List (List Colour)} {row : List Colour} {t c : Colour} {xs x y : Nat}
    (hrow : rows[y]? = some row) (hxs : xs ≤ x) (hc : row[x]? = some c) :
    placedAt (rowsPlaces xs 0 (rows.map fun p => rowSegments p xs t)) t x y = c := by
  have hmem : ∀ p : Placement, p.r = y → (p ∈ rowsPlaces xs 0 (rows.map fun p => rowSegments p xs t)
      ↔ xs ≤ p.x ∧ row[p.x]? = some p.c ∧ p.c ≠ t) := fun p hp => by
    rw [mem_rowsPlaces]
    constructor
    · rintro ⟨k, r, hr, hplace⟩
      obtain ⟨p', hp', rfl⟩ := Option.map_eq_some_iff.mp ((List.getElem?_map ..).symm.trans hr)
      obtain ⟨hk, hrest⟩ := mem_places_rowSegments.mp hplace
      rw [show k = y by omega, hrow] at hp'
      cases hp'
      exact hrest
    · intro h
      exact ⟨y, rowSegments row xs t, by rw [List.getElem?_map, hrow]; rfl,
        mem_places_rowSegments.mpr ⟨by omega, h⟩⟩
  by_cases hct : c = t
  · subst hct
    refine placedAt_of_not_mem (fun p hp hpos => ?_) c
    obtain ⟨-, hat, hne⟩ := (hmem p hpos.2).mp hp
    rw [hpos.1, hc] at hat
    exact hne (Option.some.inj hat).symm
  · exact placedAt_of_mem (rowsPlaces_agree _ _ _) ((hmem ⟨x, y, c⟩ rfl).mpr ⟨hxs, hc, hct⟩) t

/-! ## The round trip (40_pixel_codec.md R162) -/

/-- What L1ENC leaves when it ends without error: its code in the destination window, and in RES3 the code's length. -/
theorem l1enc_leaves_code {s t : State} (ht : exec (.l1enc false) s = .next t) (htcode : t.errcode = 0#8) {out : List Byte}
    (hout : out = s.l1Code 0#16 s.ops.byte2.toNat s.ops.byte3.toNat) :
    t.cfg = s.cfg ∧ out.length ≤ s.dlen ∧ t.res.w3.toNat = out.length ∧ holdsAt t.buf s.dst out := by
  subst hout
  obtain ⟨-, -, hencode⟩ := l1encEncodes
  obtain ⟨hchecks, ⟨-, ⟨hcfg, -⟩, hres⟩, -, -, hholds⟩ := endsAs_windows_success (hencode false s) (by simp) ht htcode
  have hfits := Nat.not_lt.mp (hchecks _ (List.mem_cons_of_mem _ (List.mem_singleton.mpr rfl)))
  exact ⟨hcfg, hfits, by rw [hres]; exact Nat.mod_eq_of_lt (hfits.trans_lt s.ops.dlen.isLt), hholds⟩

/-- The code of an image that is not empty is a header with its rows. -/
theorem l1Code_of_nonempty {s : State} {t : Colour} {w h : Nat} (hw : w ≠ 0) (hh : h ≠ 0) : s.l1Code t w h =
    s.ops.byte0 :: s.ops.byte1 :: s.ops.byte2 :: s.ops.byte3 ::
      rowsBytes (((List.range h).map (s.sourceRow w)).map fun p => rowSegments p 0 t) := by
  rw [State.l1Code, leBytes_arg0, if_neg (by tauto), List.map_map]
  rfl

/-- Settles O57: L1ENC leaves its code in the window that L1DEC reads, the code's rows place the pixels that are not 0x0000,
and L1DEC fills the rest with 0x0000. -/
theorem l1RoundTrip : Obligations.L1RoundTrip := by
  intro s t d2 l2 w h hw hh ht htcode hroom hsize hapart
  set rows := (List.range h).map (s.sourceRow w) with hrows
  set rs := rows.map fun p => rowSegments p 0 0#16
  have hcode := l1Code_of_nonempty (s := s) (t := 0#16) (Nat.ne_of_gt hw) (Nat.ne_of_gt hh)
  set out := s.l1Code 0#16 w h with hout
  obtain ⟨hcfg, hfits, hw3, hholds⟩ := l1enc_leaves_code ht htcode hout
  obtain ⟨-, hdest, -⟩ := windowsOk_of_success ht htcode
  have hdest : s.dst + s.dlen ≤ s.cfg.bufSize := hdest rfl
  have hbuf := Config.bufSize_lt s.cfg
  rw [hw3] at hapart ⊢
  set s2 := t.window s.dst out.length d2 l2
  have hsrc : s2.src = s.dst := t.window_src s.ops.dst.isLt
  have hslen : s2.slen = out.length := t.window_slen (by omega)
  have hdst : s2.dst = d2 := t.window_dst (by omega)
  have hdlen : s2.dlen = l2 := t.window_dlen (by omega)
  have hsize2 : s2.cfg.bufSize = s.cfg.bufSize := congrArg Config.bufSize hcfg
  have hwin : s2.windowsOk (.l1dec false) :=
    windowsOk_of_apart (by rw [hsrc, hslen, hsize2]; omega) (by rw [hdst, hdlen, hsize2]; exact hsize)
      (by rw [hsrc, hslen, hdst, hdlen]; exact hapart)
  have hsource : s2.source = s.ops.byte0 :: s.ops.byte1 :: s.ops.byte2 :: s.ops.byte3 :: rowsBytes rs :=
    hcode ▸ source_of_holdsAt (by rw [hsrc]; exact hholds) hslen
  have hare : rowsAre h (rowsBytes rs) rs [] := by
    have hwidth : ∀ p ∈ rows, p.length ≤ 255 := by
      have := s.ops.byte2.isLt
      simp [hrows]; omega
    have hcount : rows.length = h := by simp [hrows]
    exact hcount ▸ rowsAre_rowSegments hwidth 0 0#16
  have hw0 : s.ops.byte2 ≠ 0#8 := fun hzero => by simp [w, hzero] at hw
  have hh0 : s.ops.byte3 ≠ 0#8 := fun hzero => by simp [h, hzero] at hh
  obtain ⟨u, hu, ⟨⟨-, hucode, -⟩, -, hures⟩, -, -, hpixels⟩ := endsAs_windows_passed
    ((l1decDecodes false s2 _ _ _ _ _ hsource).2 hw0 hh0 rs [] hare) hwin (by simp [hdlen]; omega)
  refine ⟨u, hu, hucode, by rw [hures, arg0_of_bytes], fun x y hx hy => ?_⟩
  rw [← hdst]
  refine (hpixels x y hx hy).trans (placedAt_encoded (row := s.sourceRow w y) ?_ (Nat.zero_le x) (s.sourceRow_getElem? hx))
  simp [hrows, hy]

end Sys2Proof.Machine
end

section
/-! Tiles (41_sprite_compositor.md R202, R205): what the parse of a tile stream gives and which pixel the placed tile holds
where, then the statement about TILEDEC. -/

namespace Sys2Proof.Machine

/-! ## The parse and the placed tile -/

/-- A source that starts with a tile stream is parsed to it. -/
theorem tileParse_of_rows {x0 y0 u nr : Byte} {body rest : List Byte} {rs : List Row} (hrows : rowsAre nr.toNat body rs rest) :
    tileParse (x0 :: y0 :: u :: nr :: body) 0
      = .ok ⟨x0, y0, u, nr, 4 + (rowsBytes rs).length, rowsPlaces x0.toNat 0 rs⟩ := by
  have hparse : tileParse (x0 :: y0 :: u :: nr :: body) 0
      = decodeRows (x0 :: y0 :: u :: nr :: body) 4 nr.toNat x0.toNat >>= fun r => .ok ⟨x0, y0, u, nr, r.1, r.2⟩ := rfl
  rw [hparse, decodeRows_of_rowsAre rfl hrows, ok_bind]

/-- A placed tile holds at each position what the stream places there, else the fill. -/
theorem TileStream.getElem?_place {t : TileStream} (hagree : Placement.agree t.places) (fill : Colour) {tx ty : Nat}
    (hx : tx < 24) (hy : ty < 24) : (t.place fill)[24 * ty + tx]? = some (t.pixelAt fill tx ty) := by
  rw [Nat.mul_comm, TileStream.pixelAt, TileStream.place]
  split
  · rename_i hle
    have hrow : t.y0.toNat + (ty - t.y0.toNat) = ty := by omega
    simpa only [hrow] using getElem?_paint_placed hagree fill hx (by omega : t.y0.toNat + (ty - t.y0.toNat) < 24)
  · rename_i hlt
    rw [paint_of_not_mem fun q hq hpos => ?_]
    · exact List.getElem?_replicate_of_lt (by omega)
    · obtain ⟨p, -, hin, rfl⟩ := mem_placed.mp hq
      have := (position_injective hin.1 hx hpos).2
      omega

/-! ## TILEDEC (41_sprite_compositor.md R205) -/

/-- What TILEDEC does to the registers: results, and SET without the colours of the stream. -/
def State.tileEffect (s : State) (t : TileStream) : Effect :=
  { s.finish t.hdr ((scan s.comp.set t.colours).setWidth 32) 0 (BitVec.ofNat 32 t.next) with
    comp := { s.comp with set := scan s.comp.set t.colours } }

section Tiledec
variable {s : State} {t : TileStream} {ok : State → Prop}

theorem outcomeOf_tiledec_scan (hwin : s.windowsOk (.tiledec true)) :
    outcomeOf (.tiledec true) s = tileParse s.source 0 >>= fun t => .ok (s.tileEffect t) := by
  rw [outcomeOf, tiledec, genericChecks_ok rfl hwin]
  rfl

theorem outcomeOf_tiledec (hwin : s.windowsOk (.tiledec false)) :
    outcomeOf (.tiledec false) s = tileParse s.source 0 >>= fun t => require (decide (1152 ≤ s.dlen)) .range >>= fun _ =>
      .ok ((s.tileEffect t).withOut (pixelBytes (t.place s.comp.mask))) := by
  rw [outcomeOf, tiledec, genericChecks_ok rfl hwin]
  rfl

/-- With SCAN nothing is checked but the windows. -/
theorem endsAs_tiledec_scan (hparse : tileParse s.source 0 = .ok t) (hok : ok (s.completeOk (s.tileEffect t))) :
    endsAs (.tiledec true) s (s.windowChecks (.tiledec true)) ok := by
  rw [← List.append_nil (s.windowChecks _)]
  refine endsAs_windows rfl fun hwin => endsAs_done ?_ hok
  rw [outcomeOf_tiledec_scan hwin, hparse, ok_bind]

/-- Without SCAN the tile has to fit. -/
theorem endsAs_tiledec (hparse : tileParse s.source 0 = .ok t)
    (hok : ok (s.completeOk ((s.tileEffect t).withOut (pixelBytes (t.place s.comp.mask))))) :
    endsAs (.tiledec false) s (s.windowChecks (.tiledec false) ++ [(s.dlen < 1152, 7#8)]) ok := by
  refine endsAs_windows rfl fun hwin => endsAs_check .range (fun hlong => ?_) fun hfits => endsAs_done ?_ hok
  · rw [outcomeOf_tiledec hwin, hparse, ok_bind, decide_eq_false (by omega)]; rfl
  · rw [outcomeOf_tiledec hwin, hparse, ok_bind, decide_eq_true (by omega), require_true, ok_bind]

end Tiledec

/-- The pixel of a tile buffer that was written. -/
theorem tileAt_of_holdsAt {m : Memory} {a tx ty : Nat} {cs : List Colour} {c : Colour} (h : holdsAt m a (pixelBytes cs))
    (hc : cs[24 * ty + tx]? = some c) : tileAt m a tx ty = c := colourAt_of_holdsAt h hc

/-- Settles O41: the parse is the law of the row decoder, and the placed tile holds the colours placed. -/
theorem tiledecDecodes : Obligations.TiledecDecodes := by
  intro s x0 y0 u nr body rs rest hsource hrows places common
  set t : TileStream := ⟨x0, y0, u, nr, 4 + (rowsBytes rs).length, places⟩ with ht
  have hparse : tileParse s.source 0 = .ok t := hsource ▸ tileParse_of_rows hrows
  have hrefined : refined s.comp.set (scan s.comp.set t.colours) (fun v => ∃ p ∈ places, p.c = v) :=
    refined_congr (refined_scan _ _) fun v => by simp [TileStream.colours, ht]
  refine ⟨endsAs_tiledec_scan hparse ⟨?_, fun x => rfl⟩, endsAs_tiledec hparse ⟨?_, ?_, fun x y hx hy => ?_⟩⟩
  · exact ⟨completeOk_completes s _ rfl rfl, rfl, rfl, rfl, hrefined⟩
  · exact ⟨completeOk_completes s _ rfl rfl, rfl, rfl, rfl, hrefined⟩
  · have hlen : (pixelBytes (t.place s.comp.mask)).length = 1152 := by rw [pixelBytes_length, t.place_length]
    exact hlen ▸ sameOutside_withOut s _ _
  · exact tileAt_of_holdsAt (holdsAt_withOut s _ _) (t.getElem?_place (rowsPlaces_agree _ _ _) s.comp.mask hx hy)

end Sys2Proof.Machine
end

section
/-! TILEENC and the round trip through TILEDEC (41_sprite_compositor.md R206, R215): the smallest box of a tile, the stream of
a tile, what that stream decodes to, then the statements. -/

namespace Sys2Proof.Machine

/-! ## The box of a tile -/

/-- The columns from `x0` on and the rows `y0` to `y1` are the smallest such box that holds the pixels of a tile that are not
mask pixels (41_sprite_compositor.md R206). -/
structure IsBox (tile : Nat → Nat → Colour) (mk : Colour) (x0 y0 y1 : Nat) : Prop where
  col : x0 < 24
  rows : y0 ≤ y1
  row : y1 < 24
  inside : ∀ x y, x < 24 → y < 24 → tile x y ≠ mk → x0 ≤ x ∧ y0 ≤ y ∧ y ≤ y1
  left : ∃ y, y < 24 ∧ tile x0 y ≠ mk
  top : ∃ x, x < 24 ∧ tile x y0 ≠ mk
  bottom : ∃ x, x < 24 ∧ tile x y1 ≠ mk

/-- What holds of a number below `n` holds of a least and a greatest one. -/
theorem exists_least_greatest {P : Nat → Prop} {n k : Nat} (hk : k < n) (h : P k) :
    ∃ lo hi, P lo ∧ P hi ∧ hi < n ∧ ∀ j, j < n → P j → lo ≤ j ∧ j ≤ hi := by
  classical
  have hex : ∃ j, P j := ⟨k, h⟩
  have hlast : ∀ j, j < n → P j → j ≤ Nat.findGreatest P (n - 1) := fun j hj hP => Nat.le_findGreatest (by omega) hP
  exact ⟨Nat.find hex, Nat.findGreatest P (n - 1), Nat.find_spec hex, Nat.findGreatest_spec (by omega : k ≤ n - 1) h,
    by have := Nat.findGreatest_le (P := P) (n - 1); omega, fun j hj hP => ⟨Nat.find_min' hex hP, hlast j hj hP⟩⟩

/-- Every tile but that of mask pixels only has a box. -/
theorem exists_isBox {tile : Nat → Nat → Colour} {mk : Colour} (h : ¬ ∀ x y, x < 24 → y < 24 → tile x y = mk) :
    ∃ x0 y0 y1, IsBox tile mk x0 y0 y1 := by
  push Not at h
  obtain ⟨x, y, hx, hy, hne⟩ := h
  obtain ⟨x0, x1, hleft, -, -, hcol⟩ := exists_least_greatest (P := fun x => ∃ y, y < 24 ∧ tile x y ≠ mk) hx ⟨y, hy, hne⟩
  obtain ⟨y0, y1, htop, hbottom, hy1, hrow⟩ :=
    exists_least_greatest (P := fun y => ∃ x, x < 24 ∧ tile x y ≠ mk) hy ⟨x, hx, hne⟩
  obtain ⟨hx0, -⟩ := hcol x hx ⟨y, hy, hne⟩
  exact ⟨x0, y0, y1, by omega, (hrow y1 hy1 hbottom).1, hy1,
    fun x y hx hy hne => ⟨(hcol x hx ⟨y, hy, hne⟩).1, hrow y hy ⟨x, hx, hne⟩⟩, hleft, htop, hbottom⟩

/-- The rows of the tile in the source window. -/
def State.tileRows (s : State) : List (List Colour) := (List.range 24).map (s.sourceRow 24)

theorem State.tileRows_getElem? (s : State) {y : Nat} (hy : y < 24) : s.tileRows[y]? = some (s.sourceRow 24 y) := by
  simp [State.tileRows, hy]

section Box
variable {s : State} {mk : Colour} {x y x0 y0 y1 : Nat}

theorem sourceRow_tileAt (hx : x < 24) : (s.sourceRow 24 y)[x]? = some (tileAt s.buf s.src x y) := by
  rw [s.sourceRow_getElem? hx, tileAt, Nat.mul_comm 24]

theorem rowUsed_iff : (s.sourceRow 24 y).any (· != mk) = true ↔ ∃ x, x < 24 ∧ tileAt s.buf s.src x y ≠ mk := by
  simp [State.sourceRow, tileAt, Nat.mul_comm 24]

theorem colUsed_iff (hx : x < 24) :
    s.tileRows.any (fun row => (row[x]?).any (· != mk)) = true ↔ ∃ y, y < 24 ∧ tileAt s.buf s.src x y ≠ mk := by
  simp [State.tileRows, sourceRow_tileAt hx]

theorem tileBox_of_masked (h : ∀ x y, x < 24 → y < 24 → tileAt s.buf s.src x y = mk) : tileBox mk s.tileRows = none := by
  have hnone : s.tileRows.findIdx? (fun row => row.any (· != mk)) = none := by
    refine List.findIdx?_eq_none_iff.mpr fun row hrow => ?_
    obtain ⟨y, hy, rfl⟩ := List.mem_map.mp hrow
    rw [← Bool.not_eq_true, rowUsed_iff]
    rintro ⟨x, hx, hne⟩
    exact hne (h x y hx (List.mem_range.mp hy))
  rw [tileBox, hnone]

/-- The three searches of TILEENC find the box. -/
theorem tileBox_of_isBox (h : IsBox (tileAt s.buf s.src) mk x0 y0 y1) : tileBox mk s.tileRows = some (x0, y0, y1) := by
  obtain ⟨hx0, hle, hy1, hinside, hleft, htop, hbottom⟩ := h
  have hlen : s.tileRows.length = 24 := by simp [State.tileRows]
  have hfirst : s.tileRows.findIdx? (fun row => row.any (· != mk)) = some y0 := by
    refine List.findIdx?_eq_some_iff_getElem.mpr ⟨by omega, ?_, fun j hj => ?_⟩ <;>
      simp only [State.tileRows, List.getElem_map, List.getElem_range, rowUsed_iff]
    · exact htop
    · rintro ⟨x, hx, hne⟩
      have := hinside x j hx (by omega) hne
      omega
  have hlast : s.tileRows.reverse.findIdx? (fun row => row.any (· != mk)) = some (23 - y1) := by
    refine List.findIdx?_eq_some_iff_getElem.mpr ⟨by simp [hlen]; omega, ?_, fun j hj => ?_⟩ <;>
      simp only [List.getElem_reverse, State.tileRows, List.getElem_map, List.getElem_range, rowUsed_iff, List.length_map,
        List.length_range]
    · rwa [show 24 - 1 - (23 - y1) = y1 by omega]
    · rintro ⟨x, hx, hne⟩
      have := hinside x _ hx (by omega) hne
      omega
  have hcol : (List.range 24).find? (fun x => s.tileRows.any (fun row => (row[x]?).any (· != mk))) = some x0 := by
    refine List.find?_range_eq_some.mpr ⟨(colUsed_iff hx0).mpr hleft, List.mem_range.mpr hx0, fun j hj => ?_⟩
    rw [Bool.not_eq_true', ← Bool.not_eq_true, colUsed_iff (by omega)]
    rintro ⟨y, hy, hne⟩
    have := hinside j y (by omega) hy hne
    omega
  simp only [tileBox, hfirst, hlast, hcol, hlen, Option.some.injEq, Prod.mk.injEq, true_and]
  omega

end Box

/-! ## The stream of a tile -/

/-- The bytes of a box: its header, then its rows from its first column on. -/
def State.boxCode (s : State) (x0 y0 y1 : Nat) : List Byte :=
  [BitVec.ofNat 8 x0, BitVec.ofNat 8 y0, s.ops.byte0, BitVec.ofNat 8 (y1 - y0 + 1)]
    ++ rowsBytes ((List.range (y1 - y0 + 1)).map (fun k => rowSegments (s.sourceRow 24 (y0 + k)) x0 s.comp.mask))

/-- `out` is the stream of the tile in the source window (41_sprite_compositor.md R206). -/
inductive State.TileCode (s : State) : List Byte → Prop where
  | masked : (∀ x y, x < 24 → y < 24 → tileAt s.buf s.src x y = s.comp.mask) → s.TileCode [0#8, 0#8, s.ops.byte0, 0#8]
  | boxed {x0 y0 y1 : Nat} : IsBox (tileAt s.buf s.src) s.comp.mask x0 y0 y1 → s.TileCode (s.boxCode x0 y0 y1)

theorem State.exists_tileCode (s : State) : ∃ out, s.TileCode out := by
  by_cases h : ∀ x y, x < 24 → y < 24 → tileAt s.buf s.src x y = s.comp.mask
  · exact ⟨_, .masked h⟩
  · obtain ⟨x0, y0, y1, hbox⟩ := exists_isBox h
    exact ⟨_, .boxed hbox⟩

/-- The rows of a box. -/
def State.boxRows (s : State) (y0 y1 : Nat) : List (List Colour) :=
  (List.range (y1 - y0 + 1)).map (fun k => s.sourceRow 24 (y0 + k))

theorem State.boxRows_short (s : State) (y0 y1 : Nat) : ∀ p ∈ s.boxRows y0 y1, p.length ≤ 255 := by simp [State.boxRows]

theorem State.tileRows_box (s : State) {y0 y1 : Nat} (hle : y0 ≤ y1) (hy1 : y1 < 24) :
    (s.tileRows.drop y0).take (y1 - y0 + 1) = s.boxRows y0 y1 := by
  refine List.ext_getElem? fun k => ?_
  rw [List.getElem?_take, List.getElem?_drop]
  split
  · rename_i hk
    rw [s.tileRows_getElem? (by omega)]
    simp [State.boxRows, hk]
  · rename_i hk
    simp [State.boxRows, hk]

theorem State.boxCode_eq (s : State) (x0 y0 y1 : Nat) : s.boxCode x0 y0 y1
    = BitVec.ofNat 8 x0 :: BitVec.ofNat 8 y0 :: s.ops.byte0 :: BitVec.ofNat 8 (y1 - y0 + 1)
      :: rowsBytes ((s.boxRows y0 y1).map fun p => rowSegments p x0 s.comp.mask) := by
  rw [State.boxRows, List.map_map]
  rfl

/-- TILEENC's stream is the tile's, whatever pixels the tile has. -/
theorem tileStream_of_tileCode {s : State} {out : List Byte} (h : s.TileCode out) :
    tileStream s.comp.mask s.ops.byte0 s.tileRows = .ok out := by
  cases h with
  | masked h => rw [tileStream, tileBox_of_masked h]
  | boxed hbox =>
    rw [tileStream, tileBox_of_isBox hbox, s.boxCode_eq]
    dsimp only
    rw [s.tileRows_box hbox.rows hbox.row, encodeRows_of_short (s.boxRows_short _ _)]
    rfl

/-- TILEENC of a tile whose stream is `out`. -/
theorem endsAs_tileenc {s : State} {out : List Byte} (h : s.TileCode out) :
    endsAs .tileenc s (s.windowChecks .tileenc ++ [(s.slen < 1152, 1#8), (s.dlen < out.length, 7#8)])
      (fun t => s.completes t (BitVec.ofNat 32 (leValue (out.take 4))) 0 0 (BitVec.ofNat 32 out.length) false
        ∧ s.keptCodec t ∧ sameOutside s.buf t.buf s.dst out.length ∧ holdsAt t.buf s.dst out) := by
  refine endsAs_windows rfl fun hwin => ?_
  have houtcome : outcomeOf .tileenc s = require (decide (1152 ≤ s.slen)) .truncatedInput >>= fun _ =>
      tileStream s.comp.mask s.ops.byte0 (rowsOf 24 24 (bytesColours s.source)) >>= fun out =>
        require (decide (out.length ≤ s.dlen)) .range >>= fun _ =>
          .ok ((s.finish (BitVec.ofNat 32 (leValue (out.take 4))) 0 0 (BitVec.ofNat 32 out.length)).withOut out) := by
    rw [outcomeOf, tileenc, genericChecks_ok rfl hwin]
    rfl
  refine endsAs_check .truncatedInput (fun hshort => ?_) fun hlong => ?_
  · rw [houtcome, decide_eq_false (by omega)]; rfl
  have hrows : rowsOf 24 24 (bytesColours s.source) = s.tileRows := rowsOf_source (by omega)
  rw [decide_eq_true (by omega), require_true, ok_bind, hrows, tileStream_of_tileCode h, ok_bind] at houtcome
  refine endsAs_check .range (fun hroom => ?_) fun hfits => ?_
  · rw [houtcome, decide_eq_false (by omega)]; rfl
  · rw [decide_eq_true (by omega), require_true, ok_bind] at houtcome
    exact endsAs_done houtcome ⟨completes_withOut s out _ _ _ _, keptCodec_withOut s out, sameOutside_withOut s _ out,
      holdsAt_withOut s _ out⟩

/-- Settles O42: the statement's two cases are the two kinds of stream. -/
theorem tileencEncodes : Obligations.TileencEncodes := by
  refine ⟨by decide, fun s out hout => endsAs_tileenc ?_⟩
  obtain ⟨hmasked, rfl⟩ | ⟨x0, y0, y1, hx0, hle, hy1, hinside, hleft, htop, hbottom, rfl⟩ := hout
  · exact .masked hmasked
  · exact .boxed ⟨hx0, hle, hy1, hinside, hleft, htop, hbottom⟩

/-! ## The round trip (41_sprite_compositor.md R215) -/

/-- The rows of a box placed again give every pixel of the tile. -/
theorem placed_boxRows {s : State} {x0 y0 y1 x y : Nat} (hbox : IsBox (tileAt s.buf s.src) s.comp.mask x0 y0 y1)
    (hx : x < 24) (hy : y < 24) :
    (if y0 ≤ y then placedAt (rowsPlaces x0 0 ((s.boxRows y0 y1).map fun p => rowSegments p x0 s.comp.mask)) s.comp.mask
      x (y - y0) else s.comp.mask) = tileAt s.buf s.src x y := by
  have hmasked : ¬ (x0 ≤ x ∧ y0 ≤ y ∧ y ≤ y1) → tileAt s.buf s.src x y = s.comp.mask := fun h =>
    not_not.mp fun hne => h (hbox.inside x y hx hy hne)
  by_cases hin : x0 ≤ x ∧ y0 ≤ y ∧ y ≤ y1
  · obtain ⟨hx0, hy0, hy1⟩ := hin
    rw [if_pos hy0]
    refine placedAt_encoded (row := s.sourceRow 24 y) ?_ hx0 (sourceRow_tileAt hx)
    simp [State.boxRows, show y - y0 < y1 - y0 + 1 by omega, Nat.add_sub_cancel' hy0]
  · rw [hmasked hin]
    split
    · refine placedAt_of_not_mem (fun p hp hpos => ?_) _
      obtain ⟨k, r, hr, hplace⟩ := mem_rowsPlaces.mp hp
      obtain ⟨hrow, hcol⟩ := Row.places_bounds hplace
      have hk := (List.getElem?_eq_some_iff.mp hr).1
      have := hbox.rows
      simp only [State.boxRows, List.length_map, List.length_range] at hk
      omega
    · rfl

/-- The stream of a tile is a header with its rows, and decodes to the tile. -/
theorem State.TileCode.decodes {s : State} {out : List Byte} (h : s.TileCode out) :
    ∃ x0 y0 nr rs, out = x0 :: y0 :: s.ops.byte0 :: nr :: rowsBytes rs ∧ rowsAre nr.toNat (rowsBytes rs) rs []
      ∧ ∀ x y, x < 24 → y < 24 → (if y0.toNat ≤ y then placedAt (rowsPlaces x0.toNat 0 rs) s.comp.mask x (y - y0.toNat)
          else s.comp.mask) = tileAt s.buf s.src x y := by
  cases h with
  | masked h =>
    refine ⟨0#8, 0#8, 0#8, [], rfl, ⟨rfl, by simp, rfl⟩, fun x y hx hy => ?_⟩
    rw [h x y hx hy]
    split <;> rfl
  | @boxed x0 y0 y1 hbox =>
    have hx0 := ofNat8_toNat (show x0 ≤ 255 by have := hbox.col; omega)
    have hy0 := ofNat8_toNat (show y0 ≤ 255 by have := hbox.rows; have := hbox.row; omega)
    have hnr := ofNat8_toNat (show y1 - y0 + 1 ≤ 255 by have := hbox.row; omega)
    refine ⟨_, _, _, _, s.boxCode_eq x0 y0 y1, ?_, fun x y hx hy => ?_⟩
    · have hcount : (s.boxRows y0 y1).length = y1 - y0 + 1 := by simp [State.boxRows]
      rw [hnr, ← hcount]
      exact rowsAre_rowSegments (s.boxRows_short _ _) _ _
    · rw [hx0, hy0]
      exact placed_boxRows hbox hx hy

/-- The value of four bytes is the word they spell. -/
theorem ofNat_leValue_four (a b c d : Byte) : BitVec.ofNat 32 (leValue [a, b, c, d]) = d ++ c ++ b ++ a := by
  apply BitVec.eq_of_toNat_eq
  have := a.isLt
  have := b.isLt
  have := c.isLt
  have := d.isLt
  simp only [leValue, toNat_append_add, BitVec.toNat_ofNat]
  omega

/-- A second command whose source is the bytes the first one wrote, its destination apart from them, has its windows right
and those bytes as its source. -/
theorem windows_of_written {s t : State} {i : Instr} {out : List Byte} {d2 l2 : Nat} (hcfg : t.cfg = s.cfg)
    (hfits : out.length ≤ s.dlen) (hdest : s.dst + s.dlen ≤ s.cfg.bufSize) (hholds : holdsAt t.buf s.dst out)
    (hroom : d2 + l2 ≤ s.cfg.bufSize) (hapart : s.dst + out.length ≤ d2 ∨ d2 + l2 ≤ s.dst) :
    (t.window s.dst out.length d2 l2).windowsOk i ∧ (t.window s.dst out.length d2 l2).source = out
      ∧ (t.window s.dst out.length d2 l2).dst = d2 ∧ (t.window s.dst out.length d2 l2).dlen = l2 := by
  have hbuf := Config.bufSize_lt s.cfg
  have hsrc : (t.window s.dst out.length d2 l2).src = s.dst := t.window_src s.ops.dst.isLt
  have hslen : (t.window s.dst out.length d2 l2).slen = out.length := t.window_slen (by omega)
  have hdst : (t.window s.dst out.length d2 l2).dst = d2 := t.window_dst (by omega)
  have hdlen : (t.window s.dst out.length d2 l2).dlen = l2 := t.window_dlen (by omega)
  have hsize : (t.window s.dst out.length d2 l2).cfg.bufSize = s.cfg.bufSize := congrArg Config.bufSize hcfg
  exact ⟨windowsOk_of_apart (by omega) (by omega) (by omega), source_of_holdsAt (by rw [hsrc]; exact hholds) hslen, hdst,
    hdlen⟩

/-- Settles O58: TILEENC leaves the tile's stream in the window that TILEDEC reads, and that stream decodes to the tile. -/
theorem tileRoundTrip : Obligations.TileRoundTrip := by
  intro s t d2 l2 ht htcode hlong hroom hapart
  obtain ⟨out, hcode⟩ := s.exists_tileCode
  obtain ⟨hchecks, ⟨-, ⟨hcfg, -⟩, hres⟩, ⟨hcomp, -⟩, -, hholds⟩ :=
    endsAs_windows_success (endsAs_tileenc hcode) (by simp) ht htcode
  have hfits := Nat.not_lt.mp (hchecks _ (List.mem_cons_of_mem _ (List.mem_singleton.mpr rfl)))
  have hdest : s.dst + s.dlen ≤ s.cfg.bufSize := (windowsOk_of_success ht htcode).2.1 rfl
  have hw3 : t.res.w3.toNat = out.length := by
    rw [hres]; exact Nat.mod_eq_of_lt (hfits.trans_lt s.ops.dlen.isLt)
  rw [hw3] at hapart ⊢
  obtain ⟨hwin, hsource, hdst, hdlen⟩ :=
    windows_of_written (i := .tiledec false) hcfg hfits hdest hholds hroom hapart
  obtain ⟨x0, y0, nr, rs, rfl, hrows, hpixels⟩ := hcode.decodes
  obtain ⟨u, hu, ⟨⟨⟨-, hucode, -⟩, -, hures⟩, -⟩, -, htile⟩ := endsAs_windows_passed
    (tiledecDecodes _ x0 y0 _ nr _ rs [] hsource hrows).2 hwin
    (List.forall_mem_singleton.mpr (Nat.not_lt.mpr (hlong.trans_eq hdlen.symm)))
  have hmask : (t.window s.dst (x0 :: y0 :: s.ops.byte0 :: nr :: rowsBytes rs).length d2 l2).comp.mask = s.comp.mask :=
    congrArg Compositor.mask hcomp
  refine ⟨u, hu, hucode, ?_, ?_, fun x y hx hy => ?_⟩
  · rw [hures, hres, List.length_cons, List.length_cons, List.length_cons, List.length_cons, Nat.add_comm 4]
  · rw [hures, hres, ← ofNat_leValue_four]
    rfl
  · rw [← hpixels x y hx hy, ← hmask, ← htile x y hx hy, hdst]

end Sys2Proof.Machine
end

section
/-! The diamond grid and the candidates' commands (41_sprite_compositor.md R200, R201, R203, R207): the transform in the terms
of `isoIs`, what a palette does to MASK and CAND, then the statements about ISOXY, PALSCAN and MASKFIN. -/

namespace Sys2Proof.Machine

/-! ## The diamond grid (41_sprite_compositor.md R200) -/

section Iso
variable {m : IsoMode} {a b px py : Int}

theorem iso_of_floor_or_nonneg (h : m = .floor ∨ 0 ≤ a) : iso m a b = (24 * (b + a - a / 2), 12 * (b - a / 2)) := by
  rw [iso, if_pos h, Int.fdiv_eq_ediv_of_nonneg a (by decide)]

theorem iso_floor (a b : Int) : iso .floor a b = (24 * (b + a - a / 2), 12 * (b - a / 2)) :=
  iso_of_floor_or_nonneg (.inl rfl)

/-- Rounding `(a - 1) / 2` towards zero is rounding `a / 2` down, for a negative `a`. -/
theorem tdiv_pred_two (h : a < 0) : Int.tdiv (a - 1) 2 = a / 2 := by
  rw [show a - 1 = -(1 - a) by ring, Int.neg_tdiv, Int.tdiv_eq_ediv_of_nonneg (by omega)]
  omega

theorem iso_decrementAll_of_neg (h : a < 0) :
    iso .decrementAll a b = (24 * (b + (a - 1) - a / 2), 12 * (b - a / 2)) := by
  rw [iso, if_neg (by simpa using h), tdiv_pred_two h]

theorem isoIs_iff : isoIs m a b px py ↔ (px, py) = iso m a b := by
  unfold isoIs
  by_cases hfloor : m = .floor ∨ 0 ≤ a
  · have hexcl : m = .decrementAll → ¬ a < 0 := by
      rintro rfl
      simpa using hfloor
    rw [iso_of_floor_or_nonneg hfloor, Prod.mk.injEq]
    exact ⟨fun h => h.1 hfloor, fun h => ⟨fun _ => h, fun hm ha => absurd ha (hexcl hm)⟩⟩
  · have hdec : m = .decrementAll := by cases m <;> simp_all
    have hneg : a < 0 := by omega
    subst hdec
    rw [iso_decrementAll_of_neg hneg, Prod.mk.injEq]
    exact ⟨fun h => h.2 rfl hneg, fun h => ⟨fun h' => absurd h' hfloor, fun _ _ => h⟩⟩

end Iso

/-- Settles O39. -/
theorem isoGeometry : Obligations.IsoGeometry := by
  intro a b
  simp only [iso_floor, Prod.mk.injEq]
  refine ⟨⟨by ring, by ring⟩, by omega, fun h => by omega, fun h => by omega, by decide, fun h => ?_, fun h => ?_,
    fun h1 h2 h3 h4 => by omega⟩
  · exact iso_of_floor_or_nonneg (.inr h)
  · rw [iso_decrementAll_of_neg h, Prod.mk.injEq]
    exact ⟨by ring, rfl⟩

/-- A command without windows has nothing to check. -/
theorem windowsOk_of_no_windows {i : Instr} (s : State) (hsrc : i.usesSource = false) (hdst : i.usesDest = false) :
    s.windowsOk i := ⟨by simp [hsrc], by simp [hdst], by simp [hsrc]⟩

/-- Settles O38. -/
theorem isoxyTransforms : Obligations.IsoxyTransforms := by
  refine ⟨by decide, fun s px py h => ?_⟩
  have hargs : s.isoArgs = (px, py) := (isoIs_iff.mp h).symm
  have houtcome : outcomeOf .isoxy s = .ok (s.finish (BitVec.ofInt 32 px) (BitVec.ofInt 32 py) 0 0) := by
    rw [outcomeOf, isoxy, genericChecks_ok rfl (windowsOk_of_no_windows s rfl rfl), hargs]
    rfl
  exact ⟨_, exec_of_ok houtcome, completeOk_completes s _ rfl rfl, ⟨rfl, rfl⟩, fun _ => rfl⟩

/-! ## Palettes (41_sprite_compositor.md R203) -/

section Palette
variable {c : Compositor} {p : List Colour} {m : Colour}

theorem paletteComp_of_fixed (h : c.fixed = true) : paletteComp c p = { c with set := scan c.set p } := by
  rw [paletteComp, h]

theorem paletteComp_of_none (h : firstCandidate (scan c.set p) = none) :
    paletteComp c p = { c with set := scan c.set p } := by
  rw [paletteComp, h]
  cases c.fixed <;> rfl

theorem paletteComp_of_first (hfixed : c.fixed = false) (h : firstCandidate (scan c.set p) = some m) :
    paletteComp c p = ⟨m, scan c.set p, true⟩ := by
  rw [paletteComp, hfixed, h]

theorem paletteComp_set (c : Compositor) (p : List Colour) : (paletteComp c p).set = scan c.set p := by
  unfold paletteComp
  split <;> rfl

theorem paletteComp_keeps (h : c.fixed = true ∨ (paletteComp c p).set = 0#7) :
    (paletteComp c p).mask = c.mask ∧ (paletteComp c p).fixed = c.fixed := by
  rw [paletteComp_set] at h
  rcases h with h | h
  · rw [paletteComp_of_fixed h]; exact ⟨rfl, rfl⟩
  · rw [paletteComp_of_none ((firstCandidate_eq_none _).mpr h)]; exact ⟨rfl, rfl⟩

theorem paletteComp_fixes (hfixed : c.fixed = false) (h : (paletteComp c p).set ≠ 0#7) :
    isFirst (paletteComp c p).set (paletteComp c p).mask ∧ (paletteComp c p).fixed = true := by
  rw [paletteComp_set] at h
  cases hfirst : firstCandidate (scan c.set p) with
  | none => exact absurd ((firstCandidate_eq_none _).mp hfirst) h
  | some m =>
    rw [paletteComp_of_first hfixed hfirst]
    exact ⟨(firstCandidate_eq_some _ _).mp hfirst, rfl⟩

end Palette

theorem colourBytes_append (hi lo : Byte) : colourBytes (hi ++ lo) = [lo, hi] := by
  rw [colourBytes_eq, List.cons.injEq, List.cons.injEq]
  refine ⟨BitVec.eq_of_getLsbD_eq fun i hi' => ?_, BitVec.eq_of_getLsbD_eq fun i hi' => ?_, rfl⟩ <;>
    (simp only [BitVec.getLsbD_extractLsb', BitVec.getLsbD_append]; simp [hi'])

/-- The colours that stand from an address on, as bytes. -/
theorem readBytes_colours (m : Memory) (a n : Nat) :
    Memory.readBytes m a (2 * n) = pixelBytes ((List.range n).map fun k => colourAt m (a + 2 * k)) := by
  induction n generalizing a with
  | zero => rfl
  | succ n ih =>
    have htail : (List.range n).map ((fun k => colourAt m (a + 2 * k)) ∘ Nat.succ)
        = (List.range n).map fun k => colourAt m (a + 2 + 2 * k) :=
      List.map_congr_left fun k _ => by rw [Function.comp_apply, Nat.succ_eq_add_one]; congr 1; ring
    rw [List.range_succ_eq_map, List.map_cons, List.map_map, htail, pixelBytes, List.flatMap_cons, colourAt,
      colourBytes_append, Nat.mul_succ, Memory.readBytes, Memory.readBytes, ih (a + 2)]
    rfl

theorem readBytes_prefix (m : Memory) (a : Nat) {n k : Nat} (h : n ≤ k) :
    Memory.readBytes m a n <+: Memory.readBytes m a k := by
  have htake := Memory.readBytes_take m a k n
  rw [Nat.min_eq_left h] at htake
  exact htake ▸ List.take_prefix _ _

/-- The `n` colours behind the count byte of a palette body in the source window. -/
def State.paletteColours (s : State) (n : Nat) : List Colour :=
  (List.range n).map fun k => colourAt s.buf (s.src + 1 + 2 * k)

@[simp] theorem State.paletteColours_length (s : State) (n : Nat) : (s.paletteColours n).length = n := by
  simp [State.paletteColours]

section Palscan
variable {s : State} {n : Nat}

/-- A palette body of `n` colours in the source window is read as such, or ends early. -/
theorem paletteAt_source (hn : 1 ≤ n ∧ n ≤ 256) (hcount : Memory.byteAt s.buf s.src = BitVec.ofNat 8 n) :
    paletteAt s.source 0 = if s.slen < 1 + 2 * n then .error .truncatedInput else .ok (n, s.paletteColours n) := by
  have hread := reads_paletteAt 0 (l := s.paletteColours n) (by simpa using hn)
  have hbody : Memory.readBytes s.buf s.src (1 + 2 * n)
      = BitVec.ofNat 8 (s.paletteColours n).length :: pixelBytes (s.paletteColours n) := by
    rw [Nat.add_comm, Memory.readBytes, readBytes_colours, hcount, s.paletteColours_length]
    rfl
  rw [← hbody, s.paletteColours_length] at hread
  split
  · rename_i hshort
    exact hread.truncated (readBytes_prefix _ _ hshort.le) (by simpa using hshort)
  · rename_i hlong
    exact hread.ok (readBytes_prefix _ _ (Nat.not_lt.mp hlong))

/-- What PALSCAN leaves for a palette of `n` colours. -/
def State.paletteEffect (s : State) (n : Nat) (p : List Colour) : Effect :=
  { s.finish (BitVec.ofNat 32 n) ((paletteComp s.comp p).set.setWidth 32) ((paletteComp s.comp p).mask.setWidth 32)
      (BitVec.ofNat 32 (1 + 2 * n)) with comp := paletteComp s.comp p }

theorem outcomeOf_palscan (hwin : s.windowsOk .palscan) :
    outcomeOf .palscan s = paletteAt s.source 0 >>= fun r => .ok (s.paletteEffect r.1 r.2) := by
  rw [outcomeOf, palscan, genericChecks_ok rfl hwin]
  rfl

end Palscan

/-- Settles O40: the source is read as a palette or ends early, and the palette does what it does to MASK and CAND. -/
theorem palscanScans : Obligations.PalscanScans := by
  refine ⟨by decide, fun s => ⟨fun hwin hempty => ?_, fun n h1 h256 hcount hlen => ?_⟩⟩
  · have hnil : s.source = [] := List.length_eq_zero_iff.mp (by rw [State.source_length, hempty])
    exact failsWith_of_error (e := .truncatedInput) (by rw [outcomeOf_palscan hwin, hnil]; rfl)
  refine endsAs_windows rfl fun hwin => ?_
  have houtcome := outcomeOf_palscan hwin
  rw [paletteAt_source ⟨h1, h256⟩ hcount] at houtcome
  refine endsAs_check .truncatedInput (fun hshort => ?_) fun hlong => ?_
  · rw [houtcome, if_pos hshort, error_bind]
  rw [if_neg hlong, ok_bind] at houtcome
  refine endsAs_done houtcome ⟨completeOk_completes s _ rfl rfl, rfl, fun _ => rfl, ?_, fun h => paletteComp_keeps h,
    fun hfixed hset => paletteComp_fixes hfixed hset⟩
  have hset : (s.completeOk (s.paletteEffect n (s.paletteColours n))).comp.set = scan s.comp.set (s.paletteColours n) :=
    paletteComp_set _ _
  rw [hset]
  exact refined_congr (refined_scan _ _) fun v => by simp [State.paletteColours]

/-! ## MASKFIN (41_sprite_compositor.md R207) -/

section Maskfin
variable {s : State} {m : Colour}

theorem outcomeOf_maskfin_fixed (h : s.comp.fixed = true) :
    outcomeOf .maskfin s = .ok (s.finish (s.comp.mask.setWidth 32) 0 0 0) := by
  rw [outcomeOf, maskfin, genericChecks_ok rfl (windowsOk_of_no_windows s rfl rfl), h]
  rfl

theorem outcomeOf_maskfin_first (hfixed : s.comp.fixed = false) (h : firstCandidate s.comp.set = some m) :
    outcomeOf .maskfin s = .ok { s.finish (m.setWidth 32) 0 0 0 with comp := ⟨m, s.comp.set, true⟩ } := by
  rw [outcomeOf, maskfin, genericChecks_ok rfl (windowsOk_of_no_windows s rfl rfl), hfixed, h]
  rfl

theorem outcomeOf_maskfin_exhausted (hfixed : s.comp.fixed = false) (h : firstCandidate s.comp.set = none) :
    outcomeOf .maskfin s = .ok { s.finish (s.cfg.maskFallback.setWidth 32) 1 0 0 with
      comp := ⟨s.cfg.maskFallback, s.comp.set, true⟩
      warn := true } := by
  rw [outcomeOf, maskfin, genericChecks_ok rfl (windowsOk_of_no_windows s rfl rfl), hfixed, h]
  rfl

end Maskfin

/-- Settles O43. -/
theorem maskfinFinalises : Obligations.MaskfinFinalises := by
  refine ⟨by decide, fun s => ⟨fun hfixed => ?_, fun hfixed m hm => ?_, fun hfixed hset => ?_⟩⟩
  · exact ⟨_, exec_of_ok (outcomeOf_maskfin_fixed hfixed), completeOk_completes s _ rfl rfl, ⟨rfl, rfl⟩, fun _ => rfl⟩
  · have hfirst := (firstCandidate_eq_some _ _).mpr hm
    exact ⟨_, exec_of_ok (outcomeOf_maskfin_first hfixed hfirst), completeOk_completes s _ rfl rfl, rfl, rfl, fun _ => rfl⟩
  · have hnone := (firstCandidate_eq_none _).mpr hset
    refine ⟨_, exec_of_ok (outcomeOf_maskfin_exhausted hfixed hnone), completeOk_completes s _ rfl rfl, ?_, rfl, fun _ => rfl⟩
    rw [← hset]
    rfl

end Sys2Proof.Machine
end

section
/-! Canvases (41_sprite_compositor.md R208 to R210, R214): colours written one after another, of which the last one at a
position stays; where a block's pixels land in a canvas; then the statements about CANVAS and BLIT. -/

namespace Sys2Proof.Machine

/-! ## Colours written one after another -/

/-- What position `i` holds in the end when colours are written in order and it held `c` before. -/
def lastWrite (ws : List (Nat × Colour)) (i : Nat) (c : Colour) : Colour := ws.foldl (fun c w => if w.1 = i then w.2 else c) c

section LastWrite
variable {ws : List (Nat × Colour)} {i : Nat} {c d : Colour}

theorem lastWrite_cons (w : Nat × Colour) :
    lastWrite (w :: ws) i c = lastWrite ws i (if w.1 = i then w.2 else c) := rfl

theorem lastWrite_of_not_mem (h : ∀ w ∈ ws, w.1 ≠ i) : lastWrite ws i c = c := by
  induction ws with
  | nil => rfl
  | cons w ws ih =>
    obtain ⟨hw, hws⟩ := List.forall_mem_cons.mp h
    rw [lastWrite_cons, if_neg hw, ih hws]

/-- A position to which one colour only is written holds it in the end. -/
theorem lastWrite_of_mem (hmem : (i, d) ∈ ws) (honly : ∀ w ∈ ws, w.1 = i → w.2 = d) : lastWrite ws i c = d := by
  induction ws generalizing c with
  | nil => cases hmem
  | cons w ws ih =>
    obtain ⟨hw, hws⟩ := List.forall_mem_cons.mp honly
    rw [lastWrite_cons]
    by_cases hin : (i, d) ∈ ws
    · exact ih hin hws
    · obtain rfl : (i, d) = w := (List.mem_cons.mp hmem).resolve_right hin
      rw [if_pos rfl]
      refine lastWrite_of_not_mem fun v hv hvi => hin ?_
      rwa [← hvi, ← hws v hv hvi]

theorem lastWrite_flatMap {α : Type} (f : α → List (Nat × Colour)) (l : List α) :
    lastWrite (l.flatMap f) i c = l.foldl (fun c a => lastWrite (f a) i c) c := List.foldl_flatMap

theorem getElem?_paint (buf : List Colour) : (paint buf ws)[i]? = buf[i]?.map (lastWrite ws i) := by
  induction ws generalizing buf with
  | nil =>
    change buf[i]? = _
    cases buf[i]? <;> rfl
  | cons w ws ih =>
    refine (ih (buf.set w.1 w.2)).trans ?_
    rw [List.getElem?_set]
    by_cases hi : w.1 = i
    · by_cases hlt : i < buf.length <;> simp [hi, hlt, lastWrite_cons]
    · rw [if_neg hi]
      exact Option.map_congr fun c _ => by rw [lastWrite_cons, if_neg hi]

end LastWrite

theorem colourAt_writeBytes_same (m : Memory) (a : Nat) (c : Colour) :
    colourAt (m.writeBytes a (colourBytes c)) a = c := by
  have h : holdsAt (m.writeBytes a (colourBytes c)) a (pixelBytes [c]) := fun k b hb =>
    Memory.byteAt_writeBytes_inside m a _ k b (by simpa [colourBytes_eq] using hb)
  exact colourAt_of_holdsAt (k := 0) h rfl

theorem colourAt_writeBytes_apart (m : Memory) {a b : Nat} (c : Colour) (h : b + 2 ≤ a ∨ a + 2 ≤ b) :
    colourAt (m.writeBytes a (colourBytes c)) b = colourAt m b := by
  rw [colourAt, Memory.byteAt_writeBytes_outside _ _ _ _ (by rw [colourBytes_length]; omega),
    Memory.byteAt_writeBytes_outside _ _ _ _ (by rw [colourBytes_length]; omega), colourAt]

/-- Pixels written one by one into a canvas in the destination window. -/
theorem colourAt_dstWrites (m : Memory) (dst i : Nat) (ws : List (Nat × Colour)) :
    colourAt (m.dstWrites dst (ws.map fun w => (2 * w.1, colourBytes w.2))) (dst + 2 * i)
      = lastWrite ws i (colourAt m (dst + 2 * i)) := by
  induction ws generalizing m with
  | nil => rfl
  | cons w ws ih =>
    rw [List.map_cons, Memory.dstWrites_cons, ih, lastWrite_cons]
    congr 1
    by_cases hi : w.1 = i
    · rw [if_pos hi, ← hi, colourAt_writeBytes_same]
    · rw [if_neg hi, colourAt_writeBytes_apart m w.2 (by dsimp only; omega)]

/-! ## Where a block's pixels land (41_sprite_compositor.md R209) -/

section Land
variable {f : Frame} {mk c : Colour} {px py : Int} {tile : List Colour} {pixel : Nat → Nat → Colour} {x y : Nat}

theorem land_eq_some {tx ty i : Nat} {v : Colour} : f.land mk px py tx ty v = some (i, c) ↔
    ∃ x y : Nat, x < f.w ∧ y < f.h ∧ px + tx = f.x1 + x ∧ py + ty = f.y1 + y ∧ v ≠ mk ∧ i = y * strideOf f.w + x ∧ c = v := by
  simp only [Frame.land]
  constructor
  · intro h
    split at h
    · rename_i hc
      obtain ⟨hv, hx0, hx, hy0, hy⟩ := hc
      cases h
      exact ⟨(px + tx - f.x1).toNat, (py + ty - f.y1).toNat, by omega, by omega, by omega, by omega, hv, rfl, rfl⟩
    · cases h
  · rintro ⟨x, y, hx, hy, hpx, hpy, hv, rfl, rfl⟩
    rw [show px + tx - f.x1 = x by omega, show py + ty - f.y1 = y by omega]
    simp [hv, hx, hy]

theorem coveredBy_eq_some {x1 y1 : Int} {w : Nat} : coveredBy pixel mk x1 y1 w px py x y = some c ↔
    x < w ∧ ∃ tx ty : Nat, tx < 24 ∧ ty < 24 ∧ px + tx = x1 + x ∧ py + ty = y1 + y ∧ pixel tx ty ≠ mk ∧ c = pixel tx ty := by
  simp only [coveredBy]
  constructor
  · intro h
    split at h
    · rename_i hc
      obtain ⟨hx, hx0, hx24, hy0, hy24, hne⟩ := hc
      cases h
      exact ⟨hx, (x + x1 - px).toNat, (y + y1 - py).toNat, by omega, by omega, by omega, by omega, hne, rfl⟩
    · cases h
  · rintro ⟨hx, tx, ty, htx, hty, hpx, hpy, hne, rfl⟩
    rw [show x + x1 - px = tx by omega, show y + y1 - py = ty by omega]
    simp [hx, htx, hty, hne]

/-- The column and the row of a tile position. -/
theorem tile_position {tx ty : Nat} (hx : tx < 24) : (24 * ty + tx) % 24 = tx ∧ (24 * ty + tx) / 24 = ty := by omega

theorem strideOf_ge (w : Nat) : w ≤ strideOf w := Nat.le_add_right _ _

/-- What `Blit` writes at a canvas pixel is what covers it. -/
theorem mem_blitWrites (hlen : tile.length = 576)
    (hpixel : ∀ tx ty, tx < 24 → ty < 24 → tile[24 * ty + tx]? = some (pixel tx ty)) (hx : x < strideOf f.w) (hy : y < f.h) :
    (y * strideOf f.w + x, c) ∈ blitWrites f mk px py tile ↔ coveredBy pixel mk f.x1 f.y1 f.w px py x y = some c := by
  simp only [blitWrites, List.mem_filterMap, land_eq_some, coveredBy_eq_some, Prod.exists, List.mem_zipIdx_iff_getElem?]
  constructor
  · rintro ⟨v, k, hk, x', y', hx', hy', hpx, hpy, hne, hpos, rfl⟩
    obtain ⟨rfl, rfl⟩ := position_injective hx (hx'.trans_le (strideOf_ge f.w)) hpos
    have hlt := (List.getElem?_eq_some_iff.mp hk).1
    have hat := hpixel (k % 24) (k / 24) (by omega) (by omega)
    rw [Nat.div_add_mod, hk] at hat
    cases hat
    exact ⟨hx', k % 24, k / 24, by omega, by omega, hpx, hpy, hne, rfl⟩
  · rintro ⟨hxw, tx, ty, htx, hty, hpx, hpy, hne, rfl⟩
    obtain ⟨hcol, hrow⟩ := tile_position htx (ty := ty)
    exact ⟨_, _, hpixel tx ty htx hty, x, y, hxw, hy, by rwa [hcol], by rwa [hrow], hne, rfl, rfl⟩

/-- A canvas pixel after a block: the pixel that covers it, else what it was. -/
theorem lastWrite_blitWrites (hlen : tile.length = 576)
    (hpixel : ∀ tx ty, tx < 24 → ty < 24 → tile[24 * ty + tx]? = some (pixel tx ty)) (hx : x < strideOf f.w) (hy : y < f.h)
    (d : Colour) : lastWrite (blitWrites f mk px py tile) (y * strideOf f.w + x) d
      = (coveredBy pixel mk f.x1 f.y1 f.w px py x y).getD d := by
  have hmem := fun c => mem_blitWrites (c := c) (mk := mk) (px := px) (py := py) hlen hpixel hx hy
  cases hcov : coveredBy pixel mk f.x1 f.y1 f.w px py x y with
  | none =>
    refine lastWrite_of_not_mem fun w hw hpos => ?_
    have hsome := (hmem w.2).mp (by rwa [← hpos])
    rw [hcov] at hsome
    cases hsome
  | some c =>
    refine lastWrite_of_mem ((hmem c).mpr hcov) fun w hw hpos => ?_
    have hsome := (hmem w.2).mp (by rwa [← hpos])
    rw [hcov] at hsome
    exact (Option.some.inj hsome).symm

end Land

/-! ## CANVAS (41_sprite_compositor.md R208) -/

section FrameOk
variable {o : Operands}

theorem frameOk_iff :
    o.frameOk = true ↔ ¬ (o.arg1.toNat < 1 ∨ 65536 < o.arg1.toNat ∨ o.arg2.toNat < 1 ∨ 65536 < o.arg2.toNat) := by
  simp only [Operands.frameOk, Bool.and_eq_true, decide_eq_true_eq]
  simp only [Operands.frameW, Operands.frameH]
  omega

theorem frameOk_eq_false (h : o.arg1.toNat < 1 ∨ 65536 < o.arg1.toNat ∨ o.arg2.toNat < 1 ∨ 65536 < o.arg2.toNat) :
    o.frameOk = false := Bool.eq_false_iff.mpr fun hok => frameOk_iff.mp hok h

end FrameOk

/-- Settles O44. -/
theorem canvasFills : Obligations.CanvasFills := by
  refine ⟨by decide, fun s => ?_⟩
  intro w h size
  refine endsAs_windows rfl fun hwin => ?_
  have houtcome : outcomeOf .canvas s = require s.ops.frameOk .range >>= fun _ =>
      require (decide (size ≤ s.dlen)) .range >>= fun _ =>
        .ok ((s.finish (BitVec.ofNat 32 (w + w % 2)) (BitVec.ofNat 32 h) 0 (BitVec.ofNat 32 size)).withOut
          (pixelBytes (List.replicate ((w + w % 2) * h) s.comp.mask))) := by
    rw [outcomeOf, canvas, genericChecks_ok rfl hwin]
    rfl
  refine endsAs_check .range (fun hbad => ?_) fun hgood => endsAs_check .range (fun hlong => ?_) fun hfits => ?_
  · rw [houtcome, frameOk_eq_false hbad]; rfl
  · rw [houtcome, frameOk_iff.mpr hgood, decide_eq_false (by omega)]; rfl
  rw [frameOk_iff.mpr hgood, decide_eq_true (by omega), require_true, ok_bind, ok_bind] at houtcome
  have hlen : (pixelBytes (List.replicate ((w + w % 2) * h) s.comp.mask)).length = size := by
    rw [pixelBytes_length, List.length_replicate, ← Nat.mul_assoc]
  exact endsAs_done houtcome ⟨completes_withOut s _ _ _ _ _, keptCodec_withOut s _, hlen ▸ sameOutside_withOut s _ _,
    fun k hk => colourAt_of_holdsAt (holdsAt_withOut s _ _) (List.getElem?_replicate_of_lt hk)⟩

/-! ## BLIT (41_sprite_compositor.md R210) -/

/-- The tile in the source window, as BLIT reads it. -/
def State.blitTile (s : State) : List Colour := (bytesColours s.source).take 576

section Blit
variable {s : State}

theorem blitTile_eq (hlong : 1152 ≤ s.slen) :
    s.blitTile = (List.range 576).map fun k => tileAt s.buf s.src (k % 24) (k / 24) := by
  refine List.ext_getElem? fun k => ?_
  rw [State.blitTile, List.getElem?_take, List.getElem?_map]
  split
  · rename_i hk
    rw [bytesColours_source s (by omega), List.getElem?_range hk, Option.map_some, tileAt, Nat.div_add_mod]
  · rename_i hk
    rw [List.getElem?_eq_none (by simpa using hk)]
    rfl

theorem blitTile_length (hlong : 1152 ≤ s.slen) : s.blitTile.length = 576 := by
  rw [blitTile_eq hlong, List.length_map, List.length_range]

theorem blitTile_getElem? (hlong : 1152 ≤ s.slen) {tx ty : Nat} (hx : tx < 24) (hy : ty < 24) :
    s.blitTile[24 * ty + tx]? = some (tileAt s.buf s.src tx ty) := by
  obtain ⟨hcol, hrow⟩ := tile_position hx (ty := ty)
  rw [blitTile_eq hlong, List.getElem?_map, List.getElem?_range (by omega), Option.map_some, hcol, hrow]

/-- The pixels that BLIT places are counted by their tile position. -/
theorem blitWrites_length {f : Frame} {mk : Colour} {px py : Int} (hlong : 1152 ≤ s.slen) :
    (blitWrites f mk px py s.blitTile).length = (List.range 576).countP fun k =>
      decide (tileAt s.buf s.src (k % 24) (k / 24) ≠ mk ∧ f.x1 ≤ px + (k % 24 : Nat) ∧ px + (k % 24 : Nat) < f.x1 + f.w
        ∧ f.y1 ≤ py + (k / 24 : Nat) ∧ py + (k / 24 : Nat) < f.y1 + f.h) := by
  have hzip : s.blitTile.zipIdx = (List.range 576).map fun k => (tileAt s.buf s.src (k % 24) (k / 24), k) := by
    rw [blitTile_eq hlong]
    refine List.ext_getElem? fun k => ?_
    by_cases hk : k < 576 <;> simp [hk]
  rw [blitWrites, List.length_filterMap_eq_countP, hzip, List.countP_map]
  refine List.countP_congr fun k _ => ?_
  simp only [Function.comp_apply, Frame.land, Option.isSome_ite, decide_eq_true_eq]
  exact and_congr_right fun _ => by omega

/-- What BLIT writes. -/
def State.blitEffect (s : State) : Effect :=
  let ws := blitWrites s.ops.frame s.comp.mask s.isoArgs.1 s.isoArgs.2 s.blitTile
  { s.finish (BitVec.ofNat 32 ws.length) (BitVec.ofInt 32 s.isoArgs.1) (BitVec.ofInt 32 s.isoArgs.2) 0 with
    writes := ws.map (fun w => (2 * w.1, colourBytes w.2)) }

theorem outcomeOf_blit (hwin : s.windowsOk .blit) : outcomeOf .blit s = require s.ops.frameOk .range >>= fun _ =>
    require (decide (1152 ≤ s.slen)) .truncatedInput >>= fun _ =>
      require (decide (2 * strideOf s.ops.frameW * s.ops.frameH ≤ s.dlen)) .range >>= fun _ => .ok s.blitEffect := by
  rw [outcomeOf, blit, genericChecks_ok rfl hwin]
  rfl

/-- BLIT writes inside its canvas. -/
theorem sameOutside_blit (s : State) :
    sameOutside s.buf (s.completeOk s.blitEffect).buf s.dst (2 * strideOf s.ops.frameW * s.ops.frameH) := by
  intro x hx
  refine Memory.byteAt_dstWrites_outside _ _ _ _ fun w hw => ?_
  obtain ⟨v, hv, rfl⟩ := List.mem_map.mp hw
  have hbound : v.1 < strideOf s.ops.frameW * s.ops.frameH := blitWrites_bound hv
  rw [Nat.mul_assoc] at hx
  rw [colourBytes_length]
  simp only [State.dst] at hx
  omega

end Blit

/-- Settles O45: a canvas pixel ends with what covers it, else with what it was. -/
theorem blitPlaces : Obligations.BlitPlaces := by
  refine ⟨by decide, fun s px py hiso => ?_⟩
  intro w h x1 y1 stride tile placed
  have hargs : (px, py) = s.isoArgs := isoIs_iff.mp hiso
  refine endsAs_windows rfl fun hwin => ?_
  have houtcome := outcomeOf_blit hwin
  have hsize : 2 * strideOf s.ops.frameW * s.ops.frameH = 2 * stride * h := rfl
  refine endsAs_check .range (fun hbad => ?_) fun hgood => endsAs_check .truncatedInput (fun hshort => ?_) fun hlong =>
    endsAs_check .range (fun hroom => ?_) fun hfits => ?_
  · rw [houtcome, frameOk_eq_false hbad]; rfl
  · rw [houtcome, frameOk_iff.mpr hgood, decide_eq_false (by omega)]; rfl
  · rw [houtcome, frameOk_iff.mpr hgood, decide_eq_true (by omega), hsize, decide_eq_false (by omega)]; rfl
  rw [frameOk_iff.mpr hgood, decide_eq_true (by omega), hsize, decide_eq_true (by omega), require_true, ok_bind,
    require_true, ok_bind, ok_bind] at houtcome
  have hlong : 1152 ≤ s.slen := Nat.not_lt.mp hlong
  refine endsAs_done houtcome ⟨completeOk_completes s _ ?_ rfl, ⟨rfl, rfl⟩, sameOutside_blit s, fun x y hx hy => ?_⟩
  · have hcount : (blitWrites s.ops.frame s.comp.mask s.isoArgs.1 s.isoArgs.2 s.blitTile).length
        = (List.range 576).countP placed := by
      rw [← hargs]
      exact blitWrites_length hlong
    rw [State.blitEffect, hcount, ← hargs]
    rfl
  · refine (colourAt_dstWrites _ _ _ _).trans ?_
    rw [← hargs]
    exact lastWrite_blitWrites (f := s.ops.frame) (blitTile_length hlong) (fun tx ty => blitTile_getElem? hlong) hx hy _

/-- The canvas after a BLIT that ends without error. -/
theorem blit_canvas {s t : State} (ht : exec .blit s = .next t) (htcode : t.errcode = 0#8) :
    t.cfg = s.cfg ∧ t.ops = s.ops ∧ t.comp = s.comp ∧ ∀ x y, x < strideOf s.ops.frameW → y < s.ops.frameH →
      colourAt t.buf (s.dst + 2 * (y * strideOf s.ops.frameW + x))
        = (coveredBy (tileAt s.buf s.src) s.comp.mask s.ops.originX s.ops.originY s.ops.frameW s.isoArgs.1 s.isoArgs.2 x y).getD
            (colourAt s.buf (s.dst + 2 * (y * strideOf s.ops.frameW + x))) := by
  obtain ⟨-, ⟨-, ⟨hcfg, -, -, hops, -⟩, -⟩, ⟨hcomp, -⟩, -, hpixels⟩ :=
    endsAs_windows_success (blitPlaces.2 s s.isoArgs.1 s.isoArgs.2 (isoIs_iff.mpr rfl)) (by simp) ht htcode
  exact ⟨hcfg, hops, hcomp, hpixels⟩

/-- Settles O46: the second BLIT starts from the canvas that the first one left. -/
theorem laterBlitWins : Obligations.LaterBlitWins := by
  intro s t u src2 arg3 ht htcode hu hucode w stride x1 y1 first second x y hx hy
  obtain ⟨hcfg, hops, hcomp, hfirst⟩ := blit_canvas ht htcode
  obtain ⟨-, -, -, hsecond⟩ := blit_canvas hu hucode
  simp only [hops, hcfg, hcomp] at hsecond
  have hcanvas : colourAt u.buf (s.dst + 2 * (y * stride + x)) = (second x y).getD _ := hsecond x y hx hy
  refine ⟨fun c hc => by rw [hcanvas, hc]; rfl, fun c hnone hc => ?_⟩
  have hbefore : colourAt t.buf (s.dst + 2 * (y * stride + x)) = (first x y).getD _ := hfirst x y hx hy
  rw [hcanvas, hnone, Option.getD_none]
  refine hbefore.trans ?_
  rw [hc]
  rfl

end Sys2Proof.Machine
end

section
/-! SPRDEC (41_sprite_compositor.md R211, R212; 30_encoding.md R131 to R133): what a parse that succeeds promises of its frames
and tiles, where the parts of the output stand, which pixel a canvas holds where, then the statement. -/

namespace Sys2Proof.Machine

/-! ## What a parse promises -/

theorem blocksAt_length {b : List Byte} {o n : Nat} {ds : List BlockDef} (h : blocksAt b o n = .ok ds) : ds.length = n := by
  induction n generalizing o ds with
  | zero => cases h; rfl
  | succ n ih =>
    simp only [blocksAt, bind_eq_ok] at h
    obtain ⟨_, -, _, -, _, -, _, -, rest, hrest, hds⟩ := h
    cases hds
    rw [List.length_cons, ih hrest]

/-- A frame with blocks that was read has a positive extent. -/
theorem frameAt_extent {b : List Byte} {o : Nat} {f : FrameHdr} (h : frameAt b o = .ok f) (hblocks : f.blocks ≠ []) :
    0 < f.width ∧ 0 < f.height := by
  rw [frameAt_eq] at h
  simp only [bind_eq_ok, require_eq_ok] at h
  obtain ⟨g, -, _, hextent, ds, hds, hf⟩ := h
  cases hf
  have hcount : g.blockCount ≠ 0#16 := fun hzero => hblocks (List.length_eq_zero_iff.mp (by
    have hlen := blocksAt_length hds
    rwa [hzero] at hlen))
  have hpos : 0 < g.width ∧ 0 < g.height := by simpa [FrameHdr.extentOk, hcount] using hextent
  exact hpos

theorem framesAt_extent {b : List Byte} {o o' n : Nat} {fs : List FrameHdr} (h : framesAt b o n = .ok (o', fs)) :
    ∀ f ∈ fs, f.blocks ≠ [] → 0 < f.width ∧ 0 < f.height := by
  induction n generalizing o o' fs with
  | zero => cases h; simp
  | succ n ih =>
    simp only [framesAt, bind_eq_ok] at h
    obtain ⟨f, hf, ⟨o'', rest⟩, hrest, hfs⟩ := h
    cases hfs
    exact List.forall_mem_cons.mpr ⟨frameAt_extent hf, ih hrest⟩

theorem tileParse_agree {b : List Byte} {o : Nat} {t : TileStream} (h : tileParse b o = .ok t) :
    Placement.agree t.places := by
  obtain ⟨d, -, -, rfl⟩ := (tileParse_eq_ok _ _ _).mp h
  exact rowsPlaces_agree _ _ _

theorem tilesAt_agree {b : List Byte} {tb : Nat} {vs : List Word} {ts : List TileStream} (h : tilesAt b tb vs = .ok ts) :
    ∀ t ∈ ts, Placement.agree t.places := by
  induction vs generalizing ts with
  | nil => cases h; simp
  | cons v vs ih =>
    simp only [tilesAt, bind_eq_ok] at h
    obtain ⟨_, -, t, ht, rest, hrest, hts⟩ := h
    cases hts
    exact List.forall_mem_cons.mpr ⟨tileParse_agree ht, ih hrest⟩

/-- The parts of a parse that succeeds: its head, its tiles, and what they give. -/
theorem spriteParse_eq_ok {fallback : Colour} {b : List Byte} {p : Sprite} (h : spriteParse fallback b = .ok p) :
    ∃ hd tiles, spriteHead b = .ok hd ∧ tilesAt b hd.base hd.offs = .ok tiles ∧ p = hd.sprite fallback tiles := by
  rw [spriteParse_eq] at h
  simp only [bind_eq_ok] at h
  obtain ⟨hd, hhd, _, -, tiles, htiles, hp⟩ := h
  cases hp
  exact ⟨hd, tiles, hhd, htiles, rfl⟩

theorem spriteHead_extent {b : List Byte} {hd : HeadRead} (h : spriteHead b = .ok hd) :
    ∀ f ∈ hd.frames, f.blocks ≠ [] → 0 < f.width ∧ 0 < f.height := by
  simp only [spriteHead, spriteFrames, bind_eq_ok] at h
  obtain ⟨r, ⟨_, -, ⟨_, frames⟩, hframes, hr⟩, _, -, _, -, _, -, hhd⟩ := h
  cases hr
  cases hhd
  exact framesAt_extent hframes

/-! ## The layout of the output (30_encoding.md R131 to R133) -/

section Holds
variable {m : Memory} {a : Nat}

theorem holdsAt_append {l l' : List Byte} : holdsAt m a (l ++ l') ↔ holdsAt m a l ∧ holdsAt m (a + l.length) l' := by
  constructor
  · refine fun h => ⟨fun k b hb => h k b ?_, fun k b hb => ?_⟩
    · rw [List.getElem?_append_left (List.getElem?_eq_some_iff.mp hb).1, hb]
    · rw [Nat.add_assoc]
      exact h _ b (by rw [List.getElem?_append_right (Nat.le_add_right _ _), Nat.add_sub_cancel_left, hb])
  · rintro ⟨hl, hl'⟩ k b hb
    rcases Nat.lt_or_ge k l.length with hk | hk
    · exact hl k b (by rwa [List.getElem?_append_left hk] at hb)
    · have hat := hl' (k - l.length) b (by rwa [List.getElem?_append_right hk] at hb)
      rwa [Nat.add_assoc, Nat.add_sub_cancel' hk] at hat

theorem colourAt_of_holdsAt_leBytes {c : Colour} (h : holdsAt m a (leBytes 2 c)) : colourAt m a = c := by
  have hpix : pixelBytes [c] = leBytes 2 c := List.append_nil _
  exact colourAt_of_holdsAt (k := 0) (hpix ▸ h) rfl

theorem wordAt_of_holdsAt {v : Word} (h : holdsAt m a (leBytes 4 v)) : wordAt m a = v := by
  rw [leBytes_word, holdsAt_append, colourBytes_length] at h
  obtain ⟨hlow, hhigh⟩ := h
  rw [wordAt, colourAt_of_holdsAt_leBytes hlow, colourAt_of_holdsAt_leBytes hhigh, word_of_halves]

theorem byteAt_of_holdsAt_cons {v : Byte} {l : List Byte} (h : holdsAt m a (v :: l)) : Memory.byteAt m a = v := h 0 v rfl

end Holds

section Layout
variable {m : Memory} {a po k : Nat} {f : FrameHdr} {fs : List FrameHdr}

/-- A positive extent as a word. -/
theorem ofNat_toNat_eq_ofInt {v : Int} (h : 0 < v) : BitVec.ofNat 32 v.toNat = BitVec.ofInt 32 v := by
  rw [← BitVec.ofInt_natCast, Int.toNat_of_nonneg h.le]

theorem recordAt_of_holdsAt (h : holdsAt m a (f.record po)) (hextent : f.blocks ≠ [] → 0 < f.width ∧ 0 < f.height) :
    recordAt m a po f := by
  simp only [FrameHdr.record, holdsAt_append, List.length_append, leBytes_length] at h
  obtain ⟨⟨⟨⟨⟨⟨⟨hx1, hy1⟩, hx2⟩, hy2⟩, hu1⟩, hu2⟩, hcount⟩, hrest⟩ := h
  refine ⟨colourAt_of_holdsAt_leBytes hx1, colourAt_of_holdsAt_leBytes hy1, colourAt_of_holdsAt_leBytes hx2,
    colourAt_of_holdsAt_leBytes hy2, colourAt_of_holdsAt_leBytes hu1, colourAt_of_holdsAt_leBytes hu2,
    colourAt_of_holdsAt_leBytes hcount, fun hnil => ?_, fun d ds hcons => ?_⟩
  · have hzero : [0#8, 0#8] ++ List.replicate 16 0#8
        = leBytes 2 0#16 ++ leBytes 4 0#32 ++ leBytes 4 0#32 ++ leBytes 4 0#32 ++ leBytes 4 0#32 := by decide
    rw [hnil, hzero] at hrest
    simp only [holdsAt_append, List.length_append, leBytes_length] at hrest
    obtain ⟨⟨⟨⟨hflags, hw⟩, hh⟩, hstride⟩, hoff⟩ := hrest
    exact ⟨colourAt_of_holdsAt_leBytes hflags, wordAt_of_holdsAt hw, wordAt_of_holdsAt hh, wordAt_of_holdsAt hstride,
      wordAt_of_holdsAt hoff⟩
  · obtain ⟨hwidth, hheight⟩ := hextent (by simp [hcons])
    rw [hcons] at hrest
    simp only [holdsAt_append, List.length_append, leBytes_length] at hrest
    obtain ⟨⟨⟨⟨hkind, hw⟩, hh⟩, hstride⟩, hoff⟩ := hrest
    rw [← List.singleton_append, holdsAt_append] at hkind
    obtain ⟨htype, hone⟩ := hkind
    exact ⟨byteAt_of_holdsAt_cons htype, byteAt_of_holdsAt_cons hone,
      (wordAt_of_holdsAt hw).trans (ofNat_toNat_eq_ofInt hwidth), (wordAt_of_holdsAt hh).trans (ofNat_toNat_eq_ofInt hheight),
      wordAt_of_holdsAt hstride, wordAt_of_holdsAt hoff⟩

/-- Record number `k`. -/
theorem holdsAt_record (h : holdsAt m a (frameRecords po fs)) (hf : fs[k]? = some f) :
    holdsAt m (a + 32 * k) (f.record (po + ((fs.take k).map FrameHdr.canvasSize).sum)) := by
  induction fs generalizing a po k with
  | nil => cases hf
  | cons g fs ih =>
    rw [frameRecords, holdsAt_append, FrameHdr.record_length] at h
    obtain ⟨hhere, hrest⟩ := h
    cases k with
    | zero => cases hf; exact hhere
    | succ k =>
      have hat := ih hrest hf
      rw [List.take_succ_cons, List.map_cons, List.sum_cons, ← Nat.add_assoc]
      rwa [show a + 32 + 32 * k = a + 32 * (k + 1) by ring] at hat

/-- The canvas of frame number `k`, if it has one. -/
theorem holdsAt_canvas {g : FrameHdr → List Byte} (hlen : ∀ f, f.blocks ≠ [] → (g f).length = f.canvasSize)
    (h : holdsAt m a ((fs.filter (fun f => !f.blocks.isEmpty)).flatMap g)) (hf : fs[k]? = some f) (hblocks : f.blocks ≠ []) :
    holdsAt m (a + ((fs.take k).map FrameHdr.canvasSize).sum) (g f) := by
  induction fs generalizing a k with
  | nil => cases hf
  | cons e fs ih =>
    have hsplit : holdsAt m (a + e.canvasSize) ((fs.filter (fun f => !f.blocks.isEmpty)).flatMap g)
        ∧ (e.blocks ≠ [] → holdsAt m a (g e)) := by
      by_cases he : e.blocks = []
      · rw [List.filter_cons_of_neg (by simp [he])] at h
        exact ⟨by simpa [FrameHdr.canvasSize, he] using h, fun hne => absurd he hne⟩
      · rw [List.filter_cons_of_pos (by simp [he]), List.flatMap_cons, holdsAt_append, hlen e he] at h
        exact ⟨h.2, fun _ => h.1⟩
    obtain ⟨hrest, hhere⟩ := hsplit
    cases k with
    | zero => cases hf; exact hhere hblocks
    | succ k =>
      rw [List.take_succ_cons, List.map_cons, List.sum_cons, ← Nat.add_assoc]
      exact ih hrest hf

theorem FrameHdr.canvasSize_eq (f : FrameHdr) :
    f.canvasSize = if f.blocks = [] then 0 else 2 * strideOf f.width.toNat * f.height.toNat := by
  rw [FrameHdr.canvasSize]
  cases f.blocks <;> rfl

theorem Sprite.canvasOffset_eq (p : Sprite) (k : Nat) :
    p.canvasOffset k = p.canvasBase + ((p.frames.take k).map FrameHdr.canvasSize).sum := by
  rw [Sprite.canvasOffset, Sprite.canvasBase, funext FrameHdr.canvasSize_eq]

theorem Sprite.canvasOffset_all (p : Sprite) : p.canvasOffset p.frames.length = p.total := by
  rw [p.canvasOffset_eq, List.take_length, Sprite.total]

end Layout

/-! ## The pixels of a canvas -/

theorem getLast?_filterMap_getD {α β : Type} (g : α → Option β) (l : List α) (c : β) :
    ((l.filterMap g).getLast?).getD c = l.foldl (fun c a => (g a).getD c) c := by
  induction l generalizing c with
  | nil => rfl
  | cons a l ih =>
    rw [List.foldl_cons, ← ih]
    cases h : g a with
    | none => rw [List.filterMap_cons_none h]; rfl
    | some b => rw [List.filterMap_cons_some h, List.getLast?_cons]; rfl

/-- A block's turn at a canvas pixel. -/
theorem lastWrite_blockWrites {mode : IsoMode} {mk : Colour} {tiles : List TileStream} {f : FrameHdr} (d : BlockDef) {x y : Nat}
    (hagree : ∀ t ∈ tiles, Placement.agree t.places) (hx : x < f.stride) (hy : y < f.frame.h) (c : Colour) :
    lastWrite (blockWrites mode mk tiles f d) (y * f.stride + x) c
      = ((tiles[d.id.toNat]?).bind fun t => coveredBy (t.pixelAt mk) mk f.x1.toInt f.y1.toInt f.width.toNat
          (iso mode d.a.toInt d.b.toInt).1 (iso mode d.a.toInt d.b.toInt).2 x y).getD c := by
  rw [blockWrites]
  cases ht : tiles[d.id.toNat]? with
  | none => rfl
  | some t =>
    exact lastWrite_blitWrites (f := f.frame) (t.place_length mk)
      (fun tx ty => t.getElem?_place (hagree t (List.mem_of_getElem? ht)) mk) hx hy c

/-- A canvas pixel is that of the last block that places one, else the mask (41_sprite_compositor.md R214). -/
theorem Sprite.getElem?_canvas {p : Sprite} (mode : IsoMode) {f : FrameHdr} {x y : Nat}
    (hagree : ∀ t ∈ p.tiles, Placement.agree t.places) (hx : x < f.stride) (hy : y < f.frame.h) :
    (f.canvas mode p.mask p.tiles)[y * f.stride + x]? = some (p.pixelAt mode f x y) := by
  rw [FrameHdr.canvas, getElem?_paint, List.getElem?_replicate_of_lt (position_lt hx hy), Option.map_some, lastWrite_flatMap,
    Sprite.pixelAt, getLast?_filterMap_getD]
  exact congrArg (fun g => some (List.foldl g p.mask f.blocks))
    (funext fun c => funext fun d => lastWrite_blockWrites d hagree hx hy c)

/-! ## The statement -/

/-- What SPRDEC leaves for a container that was read as `p`. -/
def State.spriteEffect (s : State) (p : Sprite) : Effect :=
  { (s.finish (BitVec.ofNat 32 p.frames.length) (BitVec.ofNat 32 p.tiles.length) (p.mask.setWidth 32)
      (BitVec.ofNat 32 p.total)).withOut (p.output s.cfg.isoNegA) with
    comp := ⟨p.mask, p.set, true⟩
    warn := p.exhausted }

theorem outcomeOf_sprdec {s : State} (hwin : s.windowsOk .sprdec) : outcomeOf .sprdec s =
    spriteParse s.cfg.maskFallback s.source >>= fun p => require (decide (p.total ≤ s.dlen)) .range >>= fun _ =>
      .ok (s.spriteEffect p) := by
  rw [outcomeOf, sprdec, genericChecks_ok rfl hwin]
  rfl

theorem Sprite.flags_toNat (p : Sprite) : p.flags.toNat = p.pal.toNat + 2 * p.exhausted.toNat := by
  rw [Sprite.flags]
  cases p.pal <;> cases p.exhausted <;> rfl

/-- Settles O48: the output is its parts one after another, each at its place, and a canvas holds what its blocks write. -/
theorem sprdecComposes : Obligations.SprdecComposes := by
  intro s
  refine ⟨fun e hparse hwin => failsWith_of_error (by rw [outcomeOf_sprdec hwin, hparse, error_bind]), fun p hparse => ?_⟩
  obtain ⟨hd, tiles, hhead, htiles, rfl⟩ := spriteParse_eq_ok hparse
  set p := hd.sprite s.cfg.maskFallback tiles
  have hagree : ∀ t ∈ p.tiles, Placement.agree t.places := tilesAt_agree htiles
  have hextent : ∀ f ∈ p.frames, f.blocks ≠ [] → 0 < f.width ∧ 0 < f.height := spriteHead_extent hhead
  intro total
  have htotal : total = p.total := p.canvasOffset_all
  rw [htotal]
  refine endsAs_windows rfl fun hwin => ?_
  have houtcome := outcomeOf_sprdec hwin
  rw [hparse, ok_bind] at houtcome
  refine endsAs_check .range (fun hlong => ?_) fun hfits => ?_
  · rw [houtcome, decide_eq_false (by omega)]; rfl
  rw [decide_eq_true (by omega), require_true, ok_bind] at houtcome
  set t := s.completeOk (s.spriteEffect p)
  have hwritten : holdsAt t.buf s.dst (p.output s.cfg.isoNegA) := fun k b hb =>
    Memory.byteAt_writeBytes_inside s.buf s.dst _ k b hb
  have houtside : sameOutside s.buf t.buf s.dst p.total := fun x hx =>
    Memory.byteAt_writeBytes_outside s.buf s.dst _ x (by rwa [p.output_length])
  simp only [Sprite.output, Sprite.header, holdsAt_append, List.length_append, leBytes_length, frameRecords_length] at hwritten
  obtain ⟨⟨⟨⟨⟨⟨⟨hcount, hmask⟩, hflags⟩, hpal⟩, hntiles⟩, hsize⟩, hrecords⟩, hcanvases⟩ := hwritten
  refine endsAs_done houtcome ⟨completeOk_completes s _ rfl rfl, rfl, rfl, houtside, colourAt_of_holdsAt_leBytes hcount,
    colourAt_of_holdsAt_leBytes hmask, ?_, colourAt_of_holdsAt_leBytes hpal, wordAt_of_holdsAt hntiles, wordAt_of_holdsAt hsize,
    fun k f hf => ⟨?_, fun hblocks x y hx hy => ?_⟩⟩
  · rw [← p.flags_toNat]
    exact congrArg BitVec.toNat (colourAt_of_holdsAt_leBytes hflags)
  · rw [p.canvasOffset_eq]
    exact recordAt_of_holdsAt (holdsAt_record hrecords hf) (hextent f (List.mem_of_getElem? hf))
  · have hlen : ∀ f : FrameHdr, f.blocks ≠ [] → (pixelBytes (f.canvas s.cfg.isoNegA p.mask p.tiles)).length = f.canvasSize := by
      intro f hne
      rw [pixelBytes_length, FrameHdr.canvas_length, FrameHdr.canvasSize, if_neg (by simpa using hne), Nat.mul_assoc]
    have hcanvas := holdsAt_canvas hlen hcanvases hf hblocks
    rw [p.canvasOffset_eq, Sprite.canvasBase, ← Nat.add_assoc]
    exact colourAt_of_holdsAt hcanvas (p.getElem?_canvas s.cfg.isoNegA hagree hx hy)

end Sys2Proof.Machine
end

section
/-! The two routes to the mask (41_sprite_compositor.md R213): the commands of the step-by-step route, each on a part of the
container, leave the MASK and CAND that SpriteParse computes. -/

namespace Sys2Proof.Machine

/-! ## Parsing a part of the source -/

theorem src8_drop (b : List Byte) (k o : Nat) : src8 (b.drop k) o = src8 b (k + o) := by
  rw [src8, List.getElem?_drop, src8]

theorem src16_drop (b : List Byte) (k o : Nat) : src16 (b.drop k) o = src16 b (k + o) := by
  simp only [src16, src8_drop, Nat.add_assoc]

theorem colourList_drop (b : List Byte) (k o n : Nat) : colourList (b.drop k) o n = colourList b (k + o) n := by
  induction n generalizing o with
  | zero => rfl
  | succ n ih => simp only [colourList, src16_drop, ih, Nat.add_assoc]

theorem paletteAt_drop (b : List Byte) (k o : Nat) : paletteAt (b.drop k) o = paletteAt b (k + o) := by
  simp only [paletteAt, src8_drop, colourList_drop, Nat.add_assoc]

/-- A tile is parsed alike wherever it stands, its end apart. -/
theorem tileParse_drop {b : List Byte} {o : Nat} {t : TileStream} (h : tileParse b o = .ok t) :
    ∃ t', tileParse (b.drop o) 0 = .ok t' ∧ t'.colours = t.colours := by
  obtain ⟨d, hlegal, hstands, rfl⟩ := (tileParse_eq_ok _ _ _).mp h
  exact ⟨d.stream 0, (tileParse_eq_ok _ _ _).mpr ⟨d, hlegal, hstands, rfl⟩, rfl⟩

/-- The tiles start at their offsets from the table base. -/
theorem tileStarts_of_head {b : List Byte} {hd : HeadRead} (h : spriteHead b = .ok hd) :
    tileStarts b = .ok (hd.offs.map fun v => hd.base + v.toNat) := by
  simp only [spriteHead, spriteFrames, spriteStart, bind_eq_ok] at h
  obtain ⟨_, ⟨_, ⟨r, hr, fc, hfc, hstart⟩, ⟨o, frames⟩, hframes, hfront⟩, tc, htc, _, -, offs, hoffs, hhd⟩ := h
  cases hstart
  cases hfront
  cases hhd
  obtain ⟨pal, n, set, fixed, o⟩ := r
  simp only [tileStarts, hr, hfc, hframes, htc, hoffs, ok_bind, pure_eq_ok]

/-! ## MASK and CAND along the route -/

/-- MASK and CAND with a candidate fixed or not, `mk` standing in MASK if not. -/
def routeComp (mk : Colour) (fixed : Option Colour) (set : BitVec 7) : Compositor := ⟨fixed.getD mk, set, fixed.isSome⟩

theorem paletteComp_routeComp (mk : Colour) (set : BitVec 7) (l : List Colour) :
    paletteComp (routeComp mk none set) l = routeComp mk (firstCandidate (scan set l)) (scan set l) := by
  cases h : firstCandidate (scan set l) with
  | none => exact paletteComp_of_none h
  | some m => exact paletteComp_of_first rfl h

/-- A state of the route that starts from `s`: nothing but MASK and CAND, which are `c`, matters to what follows. -/
structure OnRoute (s v : State) (c : Compositor) : Prop where
  cfg : v.cfg = s.cfg
  buf : v.buf = s.buf
  comp : v.comp = c

theorem runCommand_of_ok {i : Instr} {s : State} {e : Effect} (h : outcomeOf i s = .ok e) : runCommand i s = s.completeOk e := by
  rw [runCommand, exec_of_ok h]

section Route
variable {s v : State} {c : Compositor} {o : Nat}

/-- A command without a destination window on the source from offset `o` on. -/
theorem windows_of_rest {i : Instr} (h : OnRoute s v c) (hsrc : s.src + s.slen ≤ s.cfg.bufSize) (ho : o ≤ s.slen)
    (hi : i.usesDest = false) :
    (v.window (s.src + o) (s.slen - o) 0 0).windowsOk i ∧ (v.window (s.src + o) (s.slen - o) 0 0).source = s.source.drop o := by
  have hbuf := Config.bufSize_lt s.cfg
  have hsrc' : (v.window (s.src + o) (s.slen - o) 0 0).src = s.src + o := v.window_src (by omega)
  have hslen' : (v.window (s.src + o) (s.slen - o) 0 0).slen = s.slen - o := v.window_slen (by omega)
  have hsize : (v.window (s.src + o) (s.slen - o) 0 0).cfg.bufSize = s.cfg.bufSize := congrArg Config.bufSize h.cfg
  refine ⟨⟨fun _ => by omega, by simp [hi], by simp [hi]⟩, ?_⟩
  change Memory.readBytes v.buf (State.src _) (State.slen _) = List.drop o (Memory.readBytes s.buf s.src s.slen)
  rw [hsrc', hslen', Memory.readBytes_drop, h.buf]

theorem OnRoute.candrst (s : State) : OnRoute s (runCommand .candrst s) (routeComp s.comp.mask none 0x7F#7) := by
  have houtcome : outcomeOf .candrst s
      = .ok { s.finish 0 0 0 0 with comp := { s.comp with set := 0x7F#7, fixed := false } } := by
    rw [outcomeOf, Machine.candrst, genericChecks_ok rfl (windowsOk_of_no_windows s rfl rfl)]
    rfl
  rw [runCommand_of_ok houtcome]
  exact ⟨rfl, rfl, rfl⟩

/-- PALSCAN on the palette body at offset `o`. -/
theorem OnRoute.palscan {n : Nat} {l : List Colour} (h : OnRoute s v c) (hsrc : s.src + s.slen ≤ s.cfg.bufSize)
    (ho : o ≤ s.slen) (hpal : paletteAt s.source o = .ok (n, l)) :
    OnRoute s (runCommand .palscan (v.window (s.src + o) (s.slen - o) 0 0)) (paletteComp c l) := by
  obtain ⟨hwin, hsource⟩ := windows_of_rest (i := .palscan) h hsrc ho rfl
  have houtcome := outcomeOf_palscan hwin
  rw [hsource, paletteAt_drop, Nat.add_zero, hpal, ok_bind] at houtcome
  rw [runCommand_of_ok houtcome]
  exact ⟨h.cfg, h.buf, congrArg (paletteComp · l) h.comp⟩

/-- TILEDEC with SCAN on the tile at offset `o`. -/
theorem OnRoute.tiledec {t : TileStream} (h : OnRoute s v c) (hsrc : s.src + s.slen ≤ s.cfg.bufSize) (ho : o ≤ s.slen)
    (ht : tileParse s.source o = .ok t) :
    OnRoute s (runCommand (.tiledec true) (v.window (s.src + o) (s.slen - o) 0 0)) { c with set := scan c.set t.colours } := by
  obtain ⟨hwin, hsource⟩ := windows_of_rest (i := .tiledec true) h hsrc ho rfl
  obtain ⟨t', ht', hcolours⟩ := tileParse_drop ht
  have houtcome := outcomeOf_tiledec_scan hwin
  rw [hsource, ht', ok_bind] at houtcome
  rw [runCommand_of_ok houtcome, ← hcolours]
  exact ⟨h.cfg, h.buf, congrArg (fun c : Compositor => { c with set := scan c.set t'.colours }) h.comp⟩

/-- TILEDEC with SCAN on every tile of the table. -/
theorem OnRoute.tiles {mk : Colour} {fixed : Option Colour} {set : BitVec 7} {tb : Nat} {vs : List Word} {ts : List TileStream}
    (hsrc : s.src + s.slen ≤ s.cfg.bufSize) (hts : tilesAt s.source tb vs = .ok ts) (h : OnRoute s v (routeComp mk fixed set)) :
    OnRoute s ((vs.map fun w => tb + w.toNat).foldl
        (fun v o => runCommand (.tiledec true) (v.window (s.src + o) (s.slen - o) 0 0)) v)
      (routeComp mk fixed (ts.foldl (fun st t => scan st t.colours) set)) := by
  induction vs generalizing v set ts with
  | nil => cases hts; exact h
  | cons w vs ih =>
    simp only [tilesAt, bind_eq_ok, require_eq_ok, offsetCheck_iff] at hts
    obtain ⟨_, ⟨-, hin⟩, t, ht, rest, hrest, hcons⟩ := hts
    cases hcons
    have ho : tb + w.toNat ≤ s.slen := s.source_length ▸ hin.le
    exact ih (ts := rest) (set := scan set t.colours) hrest (h.tiledec hsrc ho ht)

/-- CANDRST and, when the container has a palette, PALSCAN leave what the palette step of SpriteParse gives. -/
theorem OnRoute.palette {pal : Bool} {n o : Nat} {set : BitVec 7} {fixed : Option Colour}
    (hsrc : s.src + s.slen ≤ s.cfg.bufSize) (hpal : spritePalette s.source = .ok (pal, n, set, fixed, o)) :
    OnRoute s (if s.source.head? = some 0xFF#8 then
        runCommand .palscan ((runCommand .candrst s).window (s.src + 1) (s.slen - 1) 0 0) else runCommand .candrst s)
      (routeComp s.comp.mask fixed set) := by
  simp only [spritePalette, bind_eq_ok, src8_eq_ok] at hpal
  obtain ⟨first, hfirst, hpal⟩ := hpal
  have hhead : s.source.head? = some first := by rw [List.head?_eq_getElem?, hfirst]
  rw [hhead]
  by_cases hmarker : first = 0xFF#8
  · rw [if_pos (by simpa using hmarker), bind_eq_ok] at hpal
    obtain ⟨⟨n, l⟩, hbody, hread⟩ := hpal
    cases hread
    have hlen : 1 ≤ s.slen := by
      have := (List.getElem?_eq_some_iff.mp hfirst).1
      rwa [State.source_length] at this
    rw [if_pos (congrArg some hmarker), ← paletteComp_routeComp]
    exact (OnRoute.candrst s).palscan hsrc hlen hbody
  · rw [if_neg (by simpa using hmarker)] at hpal
    cases hpal
    rw [if_neg (by simpa using hmarker)]
    exact OnRoute.candrst s

/-- MASKFIN settles the mask as SpriteParse does. -/
theorem OnRoute.maskfin {mk : Colour} {fixed : Option Colour} {set : BitVec 7} (h : OnRoute s v (routeComp mk fixed set)) :
    (runCommand .maskfin v).comp = ⟨(settledMask s.cfg.maskFallback fixed set).1, set, true⟩
      ∧ (runCommand .maskfin v).status.warn = (settledMask s.cfg.maskFallback fixed set).2
      ∧ (runCommand .maskfin v).status.err = false := by
  obtain ⟨hcfg, -, hcomp⟩ := h
  have hset : v.comp.set = set := congrArg Compositor.set hcomp
  cases fixed with
  | some m =>
    rw [runCommand_of_ok (outcomeOf_maskfin_fixed (congrArg Compositor.fixed hcomp))]
    exact ⟨hcomp, rfl, rfl⟩
  | none =>
    have hfixed : v.comp.fixed = false := congrArg Compositor.fixed hcomp
    cases hfirst : firstCandidate set with
    | some m =>
      rw [runCommand_of_ok (outcomeOf_maskfin_first hfixed (hset ▸ hfirst)),
        settledMask_of_isFirst ((firstCandidate_eq_some _ _).mp hfirst), ← hset]
      exact ⟨rfl, rfl, rfl⟩
    | none =>
      rw [runCommand_of_ok (outcomeOf_maskfin_exhausted hfixed (hset ▸ hfirst)),
        settledMask_exhausted ((firstCandidate_eq_none _).mp hfirst), ← hset, ← hcfg]
      exact ⟨rfl, rfl, rfl⟩

end Route

/-- The palette step of a head that was read. -/
theorem spritePalette_of_head {b : List Byte} {hd : HeadRead} (h : spriteHead b = .ok hd) :
    spritePalette b = .ok hd.palette := by
  simp only [spriteHead, spriteFrames, spriteStart, bind_eq_ok] at h
  obtain ⟨_, ⟨_, ⟨r, hr, _, -, hstart⟩, _, -, hfront⟩, _, -, _, -, _, -, hhd⟩ := h
  cases hstart
  cases hfront
  cases hhd
  exact hr

/-- Settles O49: command by command the route does to MASK and CAND what SpriteParse computes. -/
theorem maskRoutesAgree : Obligations.MaskRoutesAgree := by
  intro s t starts ht htcode hstarts fresh scanned tiled final
  have hwin := windowsOk_of_success ht htcode
  have hsrc : s.src + s.slen ≤ s.cfg.bufSize := hwin.1 rfl
  obtain ⟨p, hparse⟩ : ∃ p, spriteParse s.cfg.maskFallback s.source = .ok p := by
    cases hparse : spriteParse s.cfg.maskFallback s.source with
    | ok p => exact ⟨p, rfl⟩
    | error e =>
      obtain ⟨u, hu, hfailed⟩ := (sprdecComposes s).1 e hparse hwin
      cases ht.symm.trans hu
      rw [hfailed] at htcode
      exact absurd htcode (code_ne_zero e)
  obtain ⟨-, ⟨⟨hstatus, -⟩, -⟩, hcomp, -⟩ := endsAs_windows_success ((sprdecComposes s).2 p hparse) (by simp) ht htcode
  obtain ⟨hd, tiles, hhead, htiles, rfl⟩ := spriteParse_eq_ok hparse
  rw [tileStarts_of_head hhead] at hstarts
  cases hstarts
  obtain ⟨hfinal, hwarn, herr⟩ :=
    ((OnRoute.palette hsrc (spritePalette_of_head hhead)).tiles hsrc htiles).maskfin
  rw [hcomp, hstatus]
  exact ⟨hfinal, hwarn, herr⟩

end Sys2Proof.Machine
end

section
/-! Blocks in BUF and the commands on one block, on a tail, on the marker and on the key schedule (00_scope.md R12;
42_block_cipher.md R262 to R265, R268 to R271). -/

namespace Sys2Proof.Machine

/-! ## Blocks as bytes -/

section Blocks
variable {m m' : Memory} {a b n k : Nat} {x : Block}

theorem blockBytes_getElem? (x : Block) (hk : k < 16) : (blockBytes x)[k]? = some (blockByte x k) := leBytes_byte x hk

/-- A block of BUF is determined by its 16 bytes. -/
theorem blockAt_eq_iff : blockAt m a = x ↔ ∀ k < 16, Memory.byteAt m (a + k) = blockByte x k := by
  have hbytes : blockAt m a = x ↔ Memory.readBytes m a 16 = blockBytes x := by
    constructor
    · rintro rfl
      exact (blockBytes_bytesBlock _ (Memory.readBytes_length m a 16)).symm
    · intro h
      rw [blockAt, h, bytesBlock_blockBytes]
  rw [hbytes]
  constructor
  · intro h k hk
    have hread := Memory.readBytes_getElem? m a 16 k
    rw [h, blockBytes_getElem? x hk, if_pos hk] at hread
    exact (Option.some.inj hread).symm
  · intro h
    refine List.ext_getElem? fun k => ?_
    rw [Memory.readBytes_getElem?]
    split
    · rename_i hk
      rw [h k hk, blockBytes_getElem? x hk]
    · rename_i hk
      rw [List.getElem?_eq_none (by rw [blockBytes_length]; omega)]

theorem blockByte_blockAt (m : Memory) (a : Nat) (hk : k < 16) : blockByte (blockAt m a) k = Memory.byteAt m (a + k) :=
  (blockAt_eq_iff.mp rfl k hk).symm

theorem blockAt_congr (h : ∀ k < 16, Memory.byteAt m (a + k) = Memory.byteAt m' (b + k)) : blockAt m a = blockAt m' b :=
  blockAt_eq_iff.mpr fun k hk => (h k hk).trans (blockByte_blockAt m' b hk).symm

/-- Equal blocks have equal bytes. -/
theorem byteAt_of_blockAt (h : blockAt m a = blockAt m' b) (hk : k < 16) :
    Memory.byteAt m (a + k) = Memory.byteAt m' (b + k) :=
  (blockAt_eq_iff.mp h k hk).trans (blockByte_blockAt m' b hk)

/-- Blocks written one after another, block by block. -/
theorem blockAt_of_holdsAt {xs : List Block} {j : Nat} (h : holdsAt m a (xs.flatMap blockBytes)) (hx : xs[j]? = some x) :
    blockAt m (a + 16 * j) = x := by
  refine blockAt_eq_iff.mpr fun k hk => ?_
  rw [Nat.add_assoc]
  refine h _ _ ?_
  rw [getElem?_flatMap_of_length blockBytes_length xs j hk, hx, Option.bind_some, blockBytes_getElem? x hk]

theorem blockAt_of_holdsAt_single (h : holdsAt m a (blockBytes x)) : blockAt m a = x :=
  blockAt_eq_iff.mpr fun k hk => h k _ (blockBytes_getElem? x hk)

/-- A tail that was XORed with a rolling key, byte by byte. -/
theorem byteAt_of_xorTail {r : Block} (h : holdsAt m a (xorTail r (Memory.readBytes m' b n))) (hn : n ≤ 15) (hk : k < n) :
    Memory.byteAt m (a + k) = Memory.byteAt m' (b + k) ^^^ blockByte r k := by
  refine h k _ ?_
  rw [xorTail, List.getElem?_zipWith, Memory.readBytes_getElem?, if_pos hk, blockBytes_getElem? r (by omega)]

end Blocks

theorem State.source_eq (s : State) : s.source = Memory.readBytes s.buf s.src s.slen := rfl

theorem State.source_getElem? (s : State) {k : Nat} (hk : k < s.slen) :
    s.source[k]? = some (Memory.byteAt s.buf (s.src + k)) := by
  rw [s.source_eq, Memory.readBytes_getElem?, if_pos hk]

/-! ## The transform and its inverse (42_block_cipher.md R262, R273) -/

/-- TI's two transforms undo each other since their maps on bytes do. -/
theorem bytesBlock_map_map {f g : Byte → Byte} (h : ∀ b, g (f b) = b) (x : Block) :
    bytesBlock ((blockBytes (bytesBlock ((blockBytes x).map f))).map g) = x := by
  have hid : g ∘ f = id := funext h
  rw [blockBytes_bytesBlock _ (by simp), List.map_map, hid, List.map_id, bytesBlock_blockBytes]

@[simp] theorem State.decCore_encCore (s : State) (x : Block) : s.decCore (s.encCore x) = x := by
  unfold State.decCore State.encCore coreDec coreEnc
  cases s.cfg.core with
  | device => exact Equiv.symm_apply_apply _ x
  | testTI => exact bytesBlock_map_map (fun b => by simp) x

@[simp] theorem State.encCore_decCore (s : State) (y : Block) : s.encCore (s.decCore y) = y := by
  unfold State.decCore State.encCore coreDec coreEnc
  cases s.cfg.core with
  | device => exact Equiv.apply_symm_apply _ y
  | testTI => exact bytesBlock_map_map (fun b => by simp) y

/-! ## Commands on one block (42_block_cipher.md R263, R264, R269, R270) -/

theorem endsAs_mono {i : Instr} {s : State} {cs : List (Prop × Byte)} {ok ok' : State → Prop} (h : endsAs i s cs ok)
    (himp : ∀ t, ok t → ok' t) : endsAs i s cs ok' := by
  induction cs with
  | nil =>
    obtain ⟨t, ht, hok⟩ := h
    exact ⟨t, ht, himp t hok⟩
  | cons c cs ih => exact ⟨h.1, fun hc => ih (h.2 hc)⟩

theorem State.oneBlock_eq (s : State) : s.oneBlock = require (decide (16 ≤ s.slen)) .truncatedInput >>= fun _ =>
    require (decide (16 ≤ s.dlen)) .range >>= fun _ => .ok (blockAt s.buf s.src) := by
  rw [State.oneBlock, srcBlock, State.source_length]
  by_cases h : 16 ≤ s.slen
  · have htake : s.source.take 16 = Memory.readBytes s.buf s.src 16 := by
      rw [s.source_eq, Memory.readBytes_take, Nat.min_eq_left h]
    rw [if_pos (by omega), decide_eq_true h, List.drop_zero, htake]
    rfl
  · rw [if_neg (by omega), decide_eq_false h]
    rfl

/-- A command that reads one block `x`, writes `out x` and leaves `key x` in RKEY. -/
theorem endsAs_oneBlock {i : Instr} {s : State} {out : Block → Block} {key : Block → Quad} (hw : i.wellFormed = true)
    (hi : outcomeOf i s = s.genericChecks i >>= fun _ => s.oneBlock >>= fun x =>
      .ok { s.blockEffect (out x) with rkey := key x }) :
    endsAs i s (s.windowChecks i ++ [(s.slen < 16, 1#8), (s.dlen < 16, 7#8)])
      (fun t => s.completes t 0 0 0 16 false ∧ t.comp = s.comp ∧ t.rkey = key (blockAt s.buf s.src)
        ∧ sameOutside s.buf t.buf s.dst 16 ∧ blockAt t.buf s.dst = out (blockAt s.buf s.src)) := by
  refine endsAs_windows hw fun hwin => ?_
  rw [genericChecks_ok hw hwin, ok_bind, s.oneBlock_eq] at hi
  refine endsAs_check .truncatedInput (fun hshort => ?_) fun hlong => endsAs_check .range (fun hroom => ?_) fun hfits => ?_
  · rw [hi, decide_eq_false (by omega)]; rfl
  · rw [hi, decide_eq_true (by omega), decide_eq_false (by omega)]; rfl
  rw [decide_eq_true (by omega), decide_eq_true (by omega)] at hi
  set x := blockAt s.buf s.src
  have hout := sameOutside_withOut s { s.finish 0 0 0 16 with rkey := key x } (blockBytes (out x))
  rw [blockBytes_length] at hout
  exact endsAs_done hi ⟨completeOk_completes s _ rfl rfl, rfl, rfl, hout,
    blockAt_of_holdsAt_single (holdsAt_withOut s { s.finish 0 0 0 16 with rkey := key x } _)⟩

/-- Settles O54: the laws of the transform, then both commands as commands on one block that keep the rolling key. -/
theorem coreTransforms : Obligations.CoreTransforms := by
  refine ⟨by decide, by decide, fun s => ⟨fun x => ⟨s.decCore_encCore x, s.encCore_decCore x⟩,
    endsAs_mono (endsAs_oneBlock (out := s.encCore) (key := fun _ => s.rkey) rfl rfl) ?_,
    endsAs_mono (endsAs_oneBlock (out := s.decCore) (key := fun _ => s.rkey) rfl rfl) ?_⟩⟩
  all_goals
    rintro t ⟨hcompletes, hcomp, hrkey, hout, hblock⟩
    exact ⟨hcompletes, ⟨hcomp, hrkey⟩, hout, hblock⟩

/-! ## XORTAIL, MARK and KEYDUMP (42_block_cipher.md R265, R268, R271) -/

/-- Settles O51. -/
theorem xortailXors : Obligations.XortailXors := by
  refine ⟨by decide, fun s => endsAs_windows rfl fun hwin => ?_⟩
  have hi : outcomeOf .xortail s = require (decide (s.slen ≤ 15)) .range >>= fun _ =>
      require (decide (s.slen ≤ s.dlen)) .range >>= fun _ =>
        .ok ((s.finish 0 0 0 s.ops.slen).withOut (xorTail s.rkey.block s.source)) := by
    rw [outcomeOf, xortail, genericChecks_ok rfl hwin]
    rfl
  refine endsAs_check .range (fun hlong => ?_) fun hshort => endsAs_check .range (fun hroom => ?_) fun hfits => ?_
  · rw [hi, decide_eq_false (by omega)]; rfl
  · rw [hi, decide_eq_true (by omega), decide_eq_false (by omega)]; rfl
  rw [decide_eq_true (by omega), decide_eq_true (by omega)] at hi
  have hlen : (xorTail s.rkey.block s.source).length = s.slen := by rw [xorTail_length, State.source_length]; omega
  exact endsAs_done hi ⟨completes_withOut s _ _ _ _ _, keptCodec_withOut s _, hlen ▸ sameOutside_withOut s _ _,
    fun k hk => byteAt_of_xorTail (n := s.slen) (holdsAt_withOut s _ _) (by omega) hk⟩

/-- Settles O53. -/
theorem markClassifies : Obligations.MarkClassifies := by
  refine ⟨by decide, fun s => endsAs_windows rfl fun hwin => ?_⟩
  have hi : outcomeOf .mark s
      = src8 s.source 0 >>= fun b => .ok (s.finish (markClass b) (b.setWidth 32) 0 0) := by
    rw [outcomeOf, mark, genericChecks_ok rfl hwin]
    rfl
  refine endsAs_check .truncatedInput (fun hempty => ?_) fun hsome => ?_
  · have hnil : s.source = [] := List.length_eq_zero_iff.mp (by rw [State.source_length, hempty])
    rw [hi, hnil]; rfl
  · rw [(src8_eq_ok _ _ _).mpr (s.source_getElem? (Nat.pos_of_ne_zero hsome)), ok_bind] at hi
    refine endsAs_done hi ⟨completeOk_completes s _ ?_ rfl, ⟨rfl, rfl⟩, fun _ => rfl⟩
    simp only [State.finish_res, markClass, beq_iff_eq, Nat.add_zero]
    rfl

/-- Settles O55. -/
theorem keydumpWrites : Obligations.KeydumpWrites := by
  refine ⟨by decide, fun s => endsAs_windows rfl fun hwin => ?_⟩
  have hi : outcomeOf .keydump s = require (decide (176 ≤ s.dlen)) .range >>= fun _ =>
      .ok ((s.finish 11 0 0 176).withOut (s.roundKeys.toList.flatMap blockBytes)) := by
    rw [outcomeOf, keydump, genericChecks_ok rfl hwin]
    rfl
  refine endsAs_check .range (fun hroom => ?_) fun hfits => ?_
  · rw [hi, decide_eq_false (by omega)]; rfl
  rw [decide_eq_true (by omega)] at hi
  have hlen : (s.roundKeys.toList.flatMap blockBytes).length = 176 := by
    rw [flatMap_blockBytes_length, Vector.length_toList]
  exact endsAs_done hi ⟨completes_withOut s _ _ _ _ _, keptCodec_withOut s _, hlen ▸ sameOutside_withOut s _ _,
    fun r x hx => blockAt_of_holdsAt (holdsAt_withOut s _ _) ((Vector.getElem?_toList ..).trans hx)⟩

end Sys2Proof.Machine
end

section
/-! The chaining mode (42_block_cipher.md R263, R264, R266, R267): what decryption and encryption have in common, said once for
both directions, then the statements about the block commands and the payload commands. -/

namespace Sys2Proof.Machine

/-! ## The two directions -/

/-- The two directions of the chaining mode. -/
inductive Chaining where
  | dec
  | enc

namespace Chaining

/-- The other direction. -/
def flip : Chaining → Chaining
  | dec => enc
  | enc => dec

/-- The command on one block (R263, R264). -/
def block : Chaining → Instr
  | dec => .decblk
  | enc => .encblk

/-- The command on a payload (R266, R267). -/
def payload : Chaining → Instr
  | dec => .decpay
  | enc => .encpay

/-- The marker of the payloads that the direction takes. -/
def marker : Chaining → Byte
  | dec => 0x58#8
  | enc => 0x3C#8

/-- The block written for the block `x` under the rolling key `r`. -/
def out (d : Chaining) (s : State) (r x : Block) : Block :=
  match d with
  | dec => s.decCore x ^^^ r
  | enc => s.encCore (x ^^^ r)

/-- The rolling key after the block `x` under the rolling key `r`. -/
def next (d : Chaining) (s : State) (r x : Block) : Block :=
  match d with
  | dec => x
  | enc => s.encCore (x ^^^ r)

/-- The chain of the direction. -/
def chain (d : Chaining) (s : State) : Block → List Block → List Block × Block :=
  match d with
  | dec => decChain s.decCore
  | enc => encChain s.encCore

theorem block_wellFormed (d : Chaining) : d.block.wellFormed = true := by cases d <;> rfl

theorem block_inPlace (d : Chaining) : d.block.inPlace = true := by cases d <;> rfl

theorem payload_wellFormed (d : Chaining) : d.payload.wellFormed = true := by cases d <;> rfl

theorem payload_usesSource (d : Chaining) : d.payload.usesSource = true := by cases d <;> rfl

theorem payload_usesDest (d : Chaining) : d.payload.usesDest = true := by cases d <;> rfl

theorem chain_nil (d : Chaining) (s : State) (r : Block) : d.chain s r [] = ([], r) := by cases d <;> rfl

theorem chain_cons (d : Chaining) (s : State) (r x : Block) (xs : List Block) : d.chain s r (x :: xs)
    = (d.out s r x :: (d.chain s (d.next s r x) xs).1, (d.chain s (d.next s r x) xs).2) := by
  cases d <;> rfl

/-- One more block at the end of a chain. -/
theorem chain_concat (d : Chaining) (s : State) (r x : Block) (xs : List Block) : d.chain s r (xs ++ [x])
    = ((d.chain s r xs).1 ++ [d.out s (d.chain s r xs).2 x], d.next s (d.chain s r xs).2 x) := by
  induction xs generalizing r with
  | nil => simp only [List.nil_append, chain_cons, chain_nil]
  | cons y ys ih => simp only [List.cons_append, chain_cons, ih]

theorem outcomeOf_block (d : Chaining) (s : State) :
    outcomeOf d.block s = s.genericChecks d.block >>= fun _ => s.oneBlock >>= fun x =>
      .ok { s.blockEffect (d.out s s.rkey.block x) with rkey := Quad.ofBlock (d.next s s.rkey.block x) } := by
  cases d <;> rfl

theorem outcomeOf_payload (d : Chaining) (s : State) :
    outcomeOf d.payload s = s.genericChecks d.payload >>= fun _ =>
      Machine.payload (d.chain s) s.cfg.seed d.marker d.flip.marker s.source s.dlen >>= fun r => .ok (s.payloadEffect r) := by
  cases d <;> rfl

/-- One step of the chain. -/
theorem endsAs_block (d : Chaining) (s : State) :
    endsAs d.block s (s.windowChecks d.block ++ [(s.slen < 16, 1#8), (s.dlen < 16, 7#8)])
      (fun t => s.completes t 0 0 0 16 false ∧ t.comp = s.comp
        ∧ t.rkey = Quad.ofBlock (d.next s s.rkey.block (blockAt s.buf s.src)) ∧ sameOutside s.buf t.buf s.dst 16
        ∧ blockAt t.buf s.dst = d.out s s.rkey.block (blockAt s.buf s.src)) :=
  endsAs_oneBlock (out := d.out s s.rkey.block) (key := fun x => Quad.ofBlock (d.next s s.rkey.block x)) d.block_wellFormed
    (d.outcomeOf_block s)

end Chaining

/-- Settles O50: one step of the chain in each direction. -/
theorem chainBlocks : Obligations.ChainBlocks := by
  refine ⟨by decide, by decide, fun s => ⟨endsAs_mono (Chaining.dec.endsAs_block s) ?_,
    endsAs_mono (Chaining.enc.endsAs_block s) ?_⟩⟩
  all_goals
    rintro t ⟨hcompletes, hcomp, hrkey, hout, hblock⟩
    exact ⟨hcompletes, hcomp, hout, hblock, (congrArg Quad.block hrkey).trans (Quad.block_ofBlock _)⟩

/-! ## The chain over a payload -/

/-- The rolling key before block `j` of the payload. -/
def State.rolling (s : State) (d : Chaining) : Nat → Block
  | 0 => s.cfg.seed
  | j + 1 => d.next s (s.rolling d j) (s.payloadBlock j)

theorem State.rolling_dec (s : State) (j : Nat) : s.rolling .dec j = s.decKey j := by cases j <;> rfl

theorem State.rolling_enc (s : State) (j : Nat) : s.rolling .enc j = s.encKey j := by
  induction j with
  | zero => rfl
  | succ j ih => rw [State.rolling, ih]; rfl

/-- Block `j` of the payload that the command writes. -/
def State.chained (s : State) (d : Chaining) (j : Nat) : Block := d.out s (s.rolling d j) (s.payloadBlock j)

theorem blocksOf_readBytes (m : Memory) (a : Nat) {n k : Nat} (h : 16 * n ≤ k) :
    blocksOf n (Memory.readBytes m a k) = (List.range n).map fun j => blockAt m (a + 16 * j) := by
  induction n generalizing a k with
  | zero => rfl
  | succ n ih =>
    rw [blocksOf, Memory.readBytes_take, Memory.readBytes_drop, Nat.min_eq_left (by omega), ih _ (by omega),
      List.range_succ_eq_map, List.map_cons, List.map_map]
    refine congrArg₂ _ rfl (List.map_congr_left fun j _ => ?_)
    rw [Function.comp_apply, Nat.mul_succ]
    exact congrArg (blockAt m) (by omega)

/-- The chain from SEED over the blocks of the payload. -/
theorem chain_payloadBlocks (s : State) (d : Chaining) (n : Nat) :
    d.chain s s.cfg.seed ((List.range n).map s.payloadBlock) = ((List.range n).map (s.chained d), s.rolling d n) := by
  induction n with
  | zero => exact d.chain_nil s _
  | succ n ih =>
    simp only [List.range_succ, List.map_append, List.map_cons, List.map_nil, d.chain_concat, ih]
    rfl

/-- The payload written for the one in the source window, whose length is at least 4. -/
def State.payloadBytes (s : State) (d : Chaining) : List Byte :=
  d.flip.marker :: Memory.readBytes s.buf (s.src + 1) 3
    ++ ((List.range ((s.slen - 4) / 16)).map (s.chained d)).flatMap blockBytes
    ++ xorTail (s.rolling d ((s.slen - 4) / 16))
      (Memory.readBytes s.buf (s.src + 4 + 16 * ((s.slen - 4) / 16)) ((s.slen - 4) % 16))

theorem State.payloadBytes_length (s : State) (d : Chaining) (hlong : 4 ≤ s.slen) :
    (s.payloadBytes d).length = s.slen := by
  simp only [State.payloadBytes, List.length_append, List.length_cons, Memory.readBytes_length, flatMap_blockBytes_length,
    List.length_map, List.length_range, xorTail_length]
  omega

/-- What the payload commands do past their first check. -/
theorem payload_source (s : State) (d : Chaining) (hlong : 4 ≤ s.slen) :
    payload (d.chain s) s.cfg.seed d.marker d.flip.marker s.source s.dlen
      = require (s.source.head? == some d.marker) .cipherMarkerMismatch >>= fun _ =>
        require (decide (s.slen ≤ s.dlen)) .range >>= fun _ =>
          .ok (s.payloadBytes d, s.rolling d ((s.slen - 4) / 16)) := by
  have hhead : (s.source.drop 1).take 3 = Memory.readBytes s.buf (s.src + 1) 3 := by
    rw [s.source_eq, Memory.readBytes_drop, Memory.readBytes_take, Nat.min_eq_left (by omega)]
  have hbody : s.source.drop 4 = Memory.readBytes s.buf (s.src + 4) (s.slen - 4) := by
    rw [s.source_eq, Memory.readBytes_drop]
  have hchain : d.chain s s.cfg.seed (blocksOf ((s.slen - 4) / 16) (Memory.readBytes s.buf (s.src + 4) (s.slen - 4)))
      = ((List.range ((s.slen - 4) / 16)).map (s.chained d), s.rolling d ((s.slen - 4) / 16)) := by
    rw [blocksOf_readBytes _ _ (by omega)]
    exact chain_payloadBlocks s d _
  have htail : (s.slen - 4) - 16 * ((s.slen - 4) / 16) = (s.slen - 4) % 16 := by omega
  simp only [payload, hhead, hbody, State.source_length, Memory.readBytes_length, Memory.readBytes_drop, hchain, htail,
    decide_eq_true hlong, require_true, ok_bind]
  rfl

/-! ## The payload commands (42_block_cipher.md R266, R267) -/

/-- What a payload command that ends without error leaves. -/
structure PayloadDone (d : Chaining) (s t : State) : Prop where
  completes : s.completes t (BitVec.ofNat 32 ((s.slen - 4) / 16)) (BitVec.ofNat 32 ((s.slen - 4) % 16)) 0 s.ops.slen false
  comp : t.comp = s.comp
  rkey : t.rkey.block = s.rolling d ((s.slen - 4) / 16)
  outside : sameOutside s.buf t.buf s.dst s.slen
  marker : Memory.byteAt t.buf s.dst = d.flip.marker
  head : ∀ k, 1 ≤ k → k < 4 → Memory.byteAt t.buf (s.dst + k) = Memory.byteAt s.buf (s.src + k)
  tail : ∀ k, k < (s.slen - 4) % 16 → Memory.byteAt t.buf (s.dst + 4 + 16 * ((s.slen - 4) / 16) + k)
    = Memory.byteAt s.buf (s.src + 4 + 16 * ((s.slen - 4) / 16) + k) ^^^ blockByte (s.rolling d ((s.slen - 4) / 16)) k
  blocks : ∀ j, j < (s.slen - 4) / 16 → blockAt t.buf (s.dst + 4 + 16 * j) = s.chained d j

theorem payloadDone_completeOk (s : State) (d : Chaining) (hlong : 4 ≤ s.slen) :
    PayloadDone d s (s.completeOk (s.payloadEffect (s.payloadBytes d, s.rolling d ((s.slen - 4) / 16)))) := by
  set t := s.completeOk (s.payloadEffect (s.payloadBytes d, s.rolling d ((s.slen - 4) / 16)))
  have hholds : holdsAt t.buf s.dst (s.payloadBytes d) := holdsAt_withOut s (s.payloadEffect _) _
  have hout : sameOutside s.buf t.buf s.dst (s.payloadBytes d).length := sameOutside_withOut s (s.payloadEffect _) _
  rw [s.payloadBytes_length d hlong] at hout
  rw [State.payloadBytes, holdsAt_append, holdsAt_append] at hholds
  obtain ⟨⟨hhead, hblocks⟩, htail⟩ := hholds
  rw [List.length_cons, Memory.readBytes_length] at hblocks
  rw [List.length_append, List.length_cons, Memory.readBytes_length, flatMap_blockBytes_length, List.length_map,
    List.length_range, ← Nat.add_assoc] at htail
  refine ⟨completeOk_completes s _ rfl rfl, rfl, Quad.block_ofBlock _, hout, byteAt_of_holdsAt_cons hhead,
    fun k h1 h4 => hhead k _ ?_, fun k hk => byteAt_of_xorTail htail (by omega) hk,
    fun j hj => blockAt_of_holdsAt hblocks ?_⟩
  · obtain ⟨k, rfl⟩ := Nat.exists_eq_add_of_le' h1
    rw [List.getElem?_cons_succ, Memory.readBytes_getElem?, if_pos (by omega), Nat.add_assoc, Nat.add_comm 1]
  · rw [List.getElem?_map, List.getElem?_range hj, Option.map_some]

/-- DECPAY and ENCPAY, check by check. -/
theorem endsAs_payload (d : Chaining) (s : State) :
    endsAs d.payload s (s.windowChecks d.payload
        ++ [(s.slen < 4, 1#8), (Memory.byteAt s.buf s.src ≠ d.marker, 5#8), (s.dlen < s.slen, 7#8)])
      (PayloadDone d s) := by
  refine endsAs_windows d.payload_wellFormed fun hwin => ?_
  have hi := d.outcomeOf_payload s
  rw [genericChecks_ok d.payload_wellFormed hwin, ok_bind] at hi
  refine endsAs_check .truncatedInput (fun hshort => ?_) fun hlong => ?_
  · rw [hi, payload, State.source_length, decide_eq_false (by omega)]; rfl
  have hhead : s.source.head? = some (Memory.byteAt s.buf s.src) := by
    rw [List.head?_eq_getElem?, s.source_getElem? (by omega), Nat.add_zero]
  rw [payload_source s d (by omega), hhead] at hi
  refine endsAs_check .cipherMarkerMismatch (fun hmarker => ?_) fun hmarker => endsAs_check .range (fun hroom => ?_) fun hfits => ?_
  · rw [hi, beq_eq_false_iff_ne.mpr fun h => hmarker (Option.some.inj h)]; rfl
  · rw [hi, beq_iff_eq.mpr (congrArg some (not_not.mp hmarker)), decide_eq_false (by omega)]; rfl
  · rw [beq_iff_eq.mpr (congrArg some (not_not.mp hmarker)), decide_eq_true (by omega)] at hi
    exact endsAs_done hi (payloadDone_completeOk s d (by omega))

/-- Settles O52: the payload command of each direction. -/
theorem payloadChains : Obligations.PayloadChains := by
  refine ⟨by decide, by decide, fun s => ?_⟩
  intro nb m head tail
  have hdec : s.rolling .dec = s.decKey := funext s.rolling_dec
  have henc : s.rolling .enc = s.encKey := funext s.rolling_enc
  refine ⟨endsAs_mono (endsAs_payload .dec s) ?_, endsAs_mono (endsAs_payload .enc s) ?_⟩
  all_goals
    rintro t ⟨hcompletes, hcomp, hrkey, hout, hmarker, hhead, htail, hblocks⟩
    simp only [State.chained, hdec, henc] at hrkey htail hblocks
    exact ⟨hcompletes, hcomp, hrkey, hout, hmarker, hhead, htail, hblocks⟩

end Sys2Proof.Machine
end

section
/-! The round trip of payloads (42_block_cipher.md R262, R272 law 2): each direction of the chaining mode undoes the other, block
by block and key by key. -/

namespace Sys2Proof.Machine

/-! ## Each direction undoes the other -/

namespace Chaining

variable {s t : State}

theorem flip_flip (d : Chaining) : d.flip.flip = d := by cases d <;> rfl

theorem out_flip (d : Chaining) (s : State) (r x : Block) : d.flip.out s r (d.out s r x) = x := by
  cases d with
  | dec =>
    change s.encCore (s.decCore x ^^^ r ^^^ r) = x
    rw [BitVec.xor_assoc, BitVec.xor_self, BitVec.xor_zero, State.encCore_decCore]
  | enc =>
    change s.decCore (s.encCore (x ^^^ r)) ^^^ r = x
    rw [State.decCore_encCore, BitVec.xor_assoc, BitVec.xor_self, BitVec.xor_zero]

/-- Both directions roll on to the ciphertext. -/
theorem next_flip (d : Chaining) (s : State) (r x : Block) : d.flip.next s r (d.out s r x) = d.next s r x := by
  cases d with
  | dec =>
    change s.encCore (s.decCore x ^^^ r ^^^ r) = x
    rw [BitVec.xor_assoc, BitVec.xor_self, BitVec.xor_zero, State.encCore_decCore]
  | enc => rfl

theorem out_congr (d : Chaining) (hcfg : t.cfg = s.cfg) (hkey : t.key = s.key) : d.out t = d.out s := by
  cases s; cases t
  cases hcfg; cases hkey
  rfl

theorem next_congr (d : Chaining) (hcfg : t.cfg = s.cfg) (hkey : t.key = s.key) : d.next t = d.next s := by
  cases s; cases t
  cases hcfg; cases hkey
  rfl

end Chaining

section Blocks
variable {s t : State} {d : Chaining} {n j : Nat}

/-- The other direction, on the blocks that were written, goes through the same rolling keys. -/
theorem rolling_flip (hcfg : t.cfg = s.cfg) (hkey : t.key = s.key) (hblocks : ∀ i, i < n → t.payloadBlock i = s.chained d i)
    (hj : j ≤ n) : t.rolling d.flip j = s.rolling d j := by
  induction j with
  | zero => exact congrArg Config.seed hcfg
  | succ j ih =>
    rw [State.rolling, State.rolling, ih (by omega), hblocks j hj, Chaining.next_congr _ hcfg hkey]
    exact d.next_flip s _ _

theorem chained_flip (hcfg : t.cfg = s.cfg) (hkey : t.key = s.key) (hblocks : ∀ i, i < n → t.payloadBlock i = s.chained d i)
    (hj : j < n) : t.chained d.flip j = s.payloadBlock j := by
  rw [State.chained, rolling_flip hcfg hkey hblocks (Nat.le_of_lt hj), hblocks j hj, Chaining.out_congr _ hcfg hkey]
  exact d.out_flip s _ _

end Blocks

/-! ## The bytes of a payload -/

/-- A byte of a payload behind its header lies in a full block or in the tail. -/
theorem payload_body_cases {n k : Nat} (h4 : 4 ≤ k) (hk : k < n) :
    (∃ j i, j < (n - 4) / 16 ∧ i < 16 ∧ k = 4 + 16 * j + i) ∨ ∃ i, i < (n - 4) % 16 ∧ k = 4 + 16 * ((n - 4) / 16) + i := by
  by_cases h : k - 4 < 16 * ((n - 4) / 16)
  · exact .inl ⟨(k - 4) / 16, (k - 4) % 16, by omega, by omega, by omega⟩
  · exact .inr ⟨k - 4 - 16 * ((n - 4) / 16), by omega, by omega⟩

/-- A payload command and then the other one on its output: the bytes are those of the first payload. -/
theorem PayloadDone.flip_bytes {d : Chaining} {s t v u : State} {k : Nat} (hdone : PayloadDone d s t)
    (hback : PayloadDone d.flip v u) (hmarker : Memory.byteAt s.buf s.src = d.marker) (hcfg : v.cfg = s.cfg)
    (hkey : v.key = s.key) (hbuf : v.buf = t.buf) (hsrc : v.src = s.dst) (hslen : v.slen = s.slen) (hk : k < s.slen) :
    Memory.byteAt u.buf (v.dst + k) = Memory.byteAt s.buf (s.src + k) := by
  obtain ⟨-, -, -, -, hmarkback, hheadback, htailback, hblocksback⟩ := hback
  rw [hbuf, hsrc] at hheadback htailback
  rw [hslen] at htailback hblocksback
  have hblocks : ∀ j, j < (s.slen - 4) / 16 → v.payloadBlock j = s.chained d j := fun j hj => by
    rw [State.payloadBlock, hbuf, hsrc]
    exact hdone.blocks j hj
  obtain rfl | hk1 := Nat.eq_zero_or_pos k
  · rw [Nat.add_zero, Nat.add_zero, hmarkback, d.flip_flip, hmarker]
  by_cases hk4 : k < 4
  · rw [hheadback k hk1 hk4, hdone.head k hk1 hk4]
  obtain ⟨j, i, hj, hi, rfl⟩ | ⟨i, hi, rfl⟩ := payload_body_cases (Nat.not_lt.mp hk4) hk
  · simp only [← Nat.add_assoc]
    refine byteAt_of_blockAt ?_ hi
    rw [hblocksback j hj, chained_flip hcfg hkey hblocks hj, State.payloadBlock]
  · simp only [← Nat.add_assoc]
    rw [htailback i hi, rolling_flip hcfg hkey hblocks le_rfl, hdone.tail i hi, BitVec.xor_assoc, BitVec.xor_self,
      BitVec.xor_zero]

/-- After a payload command without error, the command of the other direction on its output, to a destination apart from it,
ends without error and gives the payload back. -/
theorem payload_then_flip {d : Chaining} {s t : State} {d2 l2 : Nat} (hcode : t.errcode = 0#8) (hroom : s.slen ≤ l2)
    (hsize : d2 + l2 ≤ s.cfg.bufSize) (hapart : s.dst + s.slen ≤ d2 ∨ d2 + l2 ≤ s.dst) (ht : exec d.payload s = .next t) :
    ∃ u, exec d.flip.payload (t.window s.dst s.slen d2 l2) = .next u ∧ u.errcode = 0#8
      ∧ ∀ k, k < s.slen → Memory.byteAt u.buf (d2 + k) = Memory.byteAt s.buf (s.src + k) := by
  obtain ⟨hchecks, hdone⟩ := endsAs_windows_success (endsAs_payload d s) (by simp) ht hcode
  obtain ⟨-, ⟨hcfg, -, -, -, hkey, -⟩, -⟩ := hdone.completes
  simp only [List.forall_mem_cons, not_lt, not_not] at hchecks
  obtain ⟨hlong, hmarker, hfits, -⟩ := hchecks
  have hdest : s.dst + s.dlen ≤ s.cfg.bufSize := (windowsOk_of_success ht hcode).2.1 d.payload_usesDest
  have hbuf := Config.bufSize_lt s.cfg
  set v := t.window s.dst s.slen d2 l2
  have hsrc : v.src = s.dst := t.window_src s.ops.dst.isLt
  have hslen : v.slen = s.slen := t.window_slen s.ops.slen.isLt
  have hdst : v.dst = d2 := t.window_dst (by omega)
  have hdlen : v.dlen = l2 := t.window_dlen (by omega)
  have hvsize : v.cfg.bufSize = s.cfg.bufSize := congrArg Config.bufSize hcfg
  have hwin : v.windowsOk d.flip.payload := windowsOk_of_apart (by omega) (by omega) (by omega)
  have hvmarker : Memory.byteAt v.buf v.src = d.flip.marker := by rw [hsrc]; exact hdone.marker
  have hpass : ∀ c ∈ [(v.slen < 4, 1#8), (Memory.byteAt v.buf v.src ≠ d.flip.marker, 5#8), (v.dlen < v.slen, 7#8)], ¬ c.1 := by
    simp only [List.forall_mem_cons, not_lt, not_not]
    exact ⟨by omega, hvmarker, by omega, by simp⟩
  obtain ⟨u, hu, hback⟩ := endsAs_windows_passed (endsAs_payload d.flip v) hwin hpass
  obtain ⟨⟨-, hucode, -⟩, -⟩ := hback.completes
  refine ⟨u, hu, hucode, fun k hk => ?_⟩
  rw [← hdst]
  exact hdone.flip_bytes hback hmarker hcfg hkey rfl hsrc hslen hk

/-- Settles O59: each direction after the other. -/
theorem payloadRoundTrip : Obligations.PayloadRoundTrip := by
  intro s t d2 l2 hcode hroom hsize hapart
  exact ⟨payload_then_flip (d := .enc) hcode hroom hsize hapart, payload_then_flip (d := .dec) hcode hroom hsize hapart⟩

end Sys2Proof.Machine
end

section
/-! The payload commands as the host's sequence SEED, one block command for each full block, XORTAIL on the tail
(42_block_cipher.md R272 law 3; 43_system.md R311), in place or not. -/

namespace Sys2Proof.Machine

theorem runCommand_of_exec {i : Instr} {s t : State} (h : exec i s = .next t) : runCommand i s = t := by
  rw [runCommand, h]

theorem Quad.eq_of_block_eq {p q : Quad} (h : p.block = q.block) : p = q := by
  rw [← p.ofBlock_block, h, q.ofBlock_block]

/-! ## The windows of the sequence -/

/-- The source window and the destination of a payload lie in BUF and are the same or apart (20_memory.md R84, R85). -/
structure PayloadWindows (s : State) : Prop where
  source : s.src + s.slen ≤ s.cfg.bufSize
  dest : s.dst + s.slen ≤ s.cfg.bufSize
  place : s.src = s.dst ∨ s.src + s.slen ≤ s.dst ∨ s.dst + s.slen ≤ s.src

theorem payloadWindows_of_windowsOk {s : State} {d : Chaining} (h : s.windowsOk d.payload) (hfits : s.slen ≤ s.dlen) :
    PayloadWindows s := by
  obtain ⟨hsource, hdest, hplace⟩ := h
  have hdest := hdest d.payload_usesDest
  refine ⟨hsource d.payload_usesSource, by omega, ?_⟩
  by_cases hmeet : s.overlapping
  · exact .inl (hplace d.payload_usesSource d.payload_usesDest hmeet).2
  · right
    by_contra hclose
    exact hmeet ⟨max s.src s.dst, by omega⟩

section Part
variable {s v : State} {a b n : Nat}

/-- The windows of a command on a part of the payload: `n` bytes from `a` to `b`. -/
theorem part_fields (h : PayloadWindows s) (ha : a + n ≤ s.src + s.slen) (hb : b + n ≤ s.dst + s.slen) :
    (v.window a n b n).src = a ∧ (v.window a n b n).slen = n ∧ (v.window a n b n).dst = b ∧ (v.window a n b n).dlen = n := by
  have hbuf := Config.bufSize_lt s.cfg
  obtain ⟨hsource, hdest, -⟩ := h
  exact ⟨v.window_src (by omega), v.window_slen (by omega), v.window_dst (by omega), v.window_dlen (by omega)⟩

/-- A command that works in place has its windows right on every part that lies at one offset in both windows. -/
theorem part_windowsOk {i : Instr} (h : PayloadWindows s) (hcfg : v.cfg = s.cfg) (hi : i.inPlace = true) (hsrc : s.src ≤ a)
    (hab : a + s.dst = b + s.src) (ha : a + n ≤ s.src + s.slen) : (v.window a n b n).windowsOk i := by
  obtain ⟨ha', hslen, hb', hdlen⟩ := part_fields (v := v) (b := b) h ha (by omega)
  have hsize : (v.window a n b n).cfg.bufSize = s.cfg.bufSize := congrArg Config.bufSize hcfg
  obtain ⟨hsource, hdest, hplace⟩ := h
  refine ⟨fun _ => by omega, fun _ => by omega, fun _ _ hmeet => ⟨hi, ?_⟩⟩
  obtain ⟨x, hx⟩ := hmeet
  omega

end Part

/-! ## The sequence, command by command -/

/-- The state after SEED and the block commands on the first `n` full blocks. -/
structure AfterBlocks (d : Chaining) (s : State) (n : Nat) (v : State) : Prop where
  cfg : v.cfg = s.cfg
  key : v.key = s.key
  rkey : v.rkey.block = s.rolling d n
  blocks : ∀ j, j < n → blockAt v.buf (s.dst + 4 + 16 * j) = s.chained d j
  outside : sameOutside s.buf v.buf (s.dst + 4) (16 * n)

section Sequence
variable {d : Chaining} {s v : State} {n : Nat}

/-- SEED (43_system.md R311). -/
theorem AfterBlocks.seed (d : Chaining) (s : State) : AfterBlocks d s 0 (runCommand .seed s) := by
  have hi : outcomeOf .seed s = .ok { s.finish 0 0 0 0 with rkey := Quad.ofBlock s.cfg.seed } := by
    rw [outcomeOf, Machine.seed, genericChecks_ok rfl (windowsOk_of_no_windows s rfl rfl)]
    rfl
  rw [runCommand_of_ok hi]
  exact ⟨rfl, rfl, Quad.block_ofBlock _, fun j hj => absurd hj (Nat.not_lt_zero j), fun _ _ => rfl⟩

/-- The source past the first `n` blocks is untouched, in place or not. -/
theorem AfterBlocks.source_kept (h : AfterBlocks d s n v) (hwin : PayloadWindows s) {o : Nat} (ho : 4 + 16 * n ≤ o)
    (hlen : o < s.slen) : Memory.byteAt v.buf (s.src + o) = Memory.byteAt s.buf (s.src + o) := by
  have hplace := hwin.place
  exact h.outside _ (by omega)

/-- The block command on the next block. -/
theorem AfterBlocks.step (h : AfterBlocks d s n v) (hwin : PayloadWindows s) (hlen : 4 + 16 * (n + 1) ≤ s.slen) :
    AfterBlocks d s (n + 1) (runCommand d.block (v.window (s.src + 4 + 16 * n) 16 (s.dst + 4 + 16 * n) 16)) := by
  have hok : (v.window (s.src + 4 + 16 * n) 16 (s.dst + 4 + 16 * n) 16).windowsOk d.block :=
    part_windowsOk hwin h.cfg d.block_inPlace (by omega) (by omega) (by omega)
  obtain ⟨hsrc, hslen, hdst, hdlen⟩ := part_fields (v := v) (a := s.src + 4 + 16 * n) (b := s.dst + 4 + 16 * n) (n := 16)
    hwin (by omega) (by omega)
  set w := v.window (s.src + 4 + 16 * n) 16 (s.dst + 4 + 16 * n) 16
  obtain ⟨t, ht, ⟨-, ⟨hcfg, -, -, -, hkey, -⟩, -⟩, -, hrkey, hout, hblock⟩ :=
    endsAs_windows_passed (d.endsAs_block w) hok (by simp [hslen, hdlen])
  have hread : blockAt w.buf w.src = s.payloadBlock n := by
    rw [hsrc]
    refine blockAt_congr fun k hk => ?_
    simp only [Nat.add_assoc]
    exact h.source_kept hwin (by omega) (by omega)
  have hroll : w.rkey.block = s.rolling d n := h.rkey
  rw [hread, hroll] at hrkey hblock
  rw [Chaining.next_congr (t := w) d h.cfg h.key] at hrkey
  rw [Chaining.out_congr (t := w) d h.cfg h.key, hdst] at hblock
  rw [hdst] at hout
  rw [runCommand_of_exec ht]
  refine ⟨hcfg.trans h.cfg, hkey.trans h.key, (congrArg Quad.block hrkey).trans (Quad.block_ofBlock _), fun j hj => ?_,
    fun x hx => ?_⟩
  · obtain hj | rfl := Nat.lt_succ_iff_lt_or_eq.mp hj
    · rw [← h.blocks j hj]
      exact blockAt_congr fun k hk => hout _ (by omega)
    · exact hblock
  · exact (hout x (by omega)).trans (h.outside x (by omega))

theorem AfterBlocks.runBlocks (hwin : PayloadWindows s) (hlen : 4 + 16 * n ≤ s.slen) :
    AfterBlocks d s n (runBlocks d.block s.src s.dst (runCommand .seed s) n) := by
  induction n with
  | zero => exact AfterBlocks.seed d s
  | succ n ih => exact (ih (by omega)).step hwin hlen

/-- XORTAIL on what is left behind the full blocks. -/
theorem AfterBlocks.xortail {m : Nat} (h : AfterBlocks d s n v) (hwin : PayloadWindows s) (hm : m ≤ 15)
    (hlen : 4 + 16 * n + m ≤ s.slen) : ∃ u,
      exec .xortail (v.window (s.src + 4 + 16 * n) m (s.dst + 4 + 16 * n) m) = .next u ∧ u.errcode = 0#8
        ∧ u.rkey.block = s.rolling d n ∧ (∀ j, j < n → blockAt u.buf (s.dst + 4 + 16 * j) = s.chained d j)
        ∧ ∀ k, k < m → Memory.byteAt u.buf (s.dst + 4 + 16 * n + k)
          = Memory.byteAt s.buf (s.src + 4 + 16 * n + k) ^^^ blockByte (s.rolling d n) k := by
  have hok : (v.window (s.src + 4 + 16 * n) m (s.dst + 4 + 16 * n) m).windowsOk .xortail :=
    part_windowsOk hwin h.cfg rfl (by omega) (by omega) (by omega)
  obtain ⟨hsrc, hslen, hdst, hdlen⟩ := part_fields (v := v) (a := s.src + 4 + 16 * n) (b := s.dst + 4 + 16 * n) (n := m)
    hwin (by omega) (by omega)
  obtain ⟨-, hxortail⟩ := xortailXors
  obtain ⟨u, hu, ⟨⟨-, hcode, -⟩, -⟩, ⟨-, hrkey⟩, hout, hbytes⟩ :=
    endsAs_windows_passed (hxortail _) hok (by simp [hslen, hdlen, hm])
  rw [hdst, hslen] at hout
  rw [hdst, hslen, hsrc] at hbytes
  refine ⟨u, hu, hcode, (congrArg Quad.block hrkey).trans h.rkey, fun j hj => ?_, fun k hk => ?_⟩
  · rw [← h.blocks j hj]
    exact blockAt_congr fun k hk => hout _ (by omega)
  · refine (hbytes k hk).trans (congrArg₂ _ ?_ (congrArg (blockByte · k) h.rkey))
    simp only [Nat.add_assoc]
    exact h.source_kept hwin (by omega) (by omega)

end Sequence

/-- Settles O60: the sequence goes through the rolling keys and blocks of the payload command. -/
theorem payloadDecomposes : Obligations.PayloadDecomposes := by
  intro i j s t hij ht hcode nb blocks last
  obtain ⟨d, rfl, rfl⟩ : ∃ d : Chaining, i = d.payload ∧ j = d.block := by
    obtain ⟨rfl, rfl⟩ | ⟨rfl, rfl⟩ := hij
    · exact ⟨.dec, rfl, rfl⟩
    · exact ⟨.enc, rfl, rfl⟩
  obtain ⟨hchecks, hdone⟩ := endsAs_windows_success (endsAs_payload d s) (by simp) ht hcode
  simp only [List.forall_mem_cons, not_lt] at hchecks
  obtain ⟨hlong, -, hfits, -⟩ := hchecks
  have hwin := payloadWindows_of_windowsOk (windowsOk_of_success ht hcode) hfits
  have hblocks : AfterBlocks d s nb blocks := AfterBlocks.runBlocks hwin (by omega)
  obtain ⟨u, hu, hucode, hrkey, hbody, htail⟩ := hblocks.xortail (m := (s.slen - 4) % 16) hwin (by omega) (by omega)
  have hlast : last = u := runCommand_of_exec hu
  rw [hlast]
  refine ⟨Quad.eq_of_block_eq (hrkey.trans hdone.rkey.symm), hucode, fun k hk4 hk => ?_⟩
  obtain ⟨j, o, hj, ho, rfl⟩ | ⟨o, ho, rfl⟩ := payload_body_cases hk4 hk
  · simp only [← Nat.add_assoc]
    exact byteAt_of_blockAt ((hbody j hj).trans (hdone.blocks j hj).symm) ho
  · simp only [← Nat.add_assoc]
    exact (htail o ho).trans (hdone.tail o ho).symm

end Sys2Proof.Machine
end

section
/-! The handshake between host and engine (43_system.md R310 to R320): the rules about the register file, the soft reset
and the engine's turn, then the statements. -/

namespace Sys2Proof.Machine

/-! ## The engine's turn (43_system.md R318) -/

/-- With a command pending, the engine's turn runs the command that the word names. -/
theorem engineTurn_of_decode {s : State} {i : Instr} (hb : s.status.busy = true) (hi : decode s.cmd = .ok i) :
    engineTurn s = exec i s := by
  rw [engineTurn_of_busy hb, exec_eq, State.pendingOutcome, hi]

theorem step_of_engineNext {s : State} (h : s.engineNext) : step s = engineTurn { s with agenda := s.agenda.tail } := by
  obtain ha | ⟨rest, ha⟩ := h
  · have hself : { s with agenda := s.agenda.tail } = s := by rw [ha, List.tail_nil, ← ha]
    rw [hself, step, ha]
  · rw [step_of_engine ha, ha, List.tail_cons]

/-- The engine moves first after the fetch of a word, and the agenda is then as it was. -/
theorem step_withFetchWord (s : State) (nbits w : Nat) :
    step (s.withFetchWord nbits w) = engineTurn (s.issue (tableWord nbits w)) := by
  have hnext : (s.withFetchWord nbits w).engineNext := by
    rw [State.engineNext, State.withFetchWord_agenda]
    cases s.agenda with
    | nil => exact .inl rfl
    | cons e es => exact .inr ⟨_, rfl⟩
  have htail : (s.withFetchWord nbits w).agenda.tail = (s.issue (tableWord nbits w)).agenda := by
    rw [State.withFetchWord_agenda, State.issue_agenda]
    cases s.agenda <;> rfl
  rw [step_of_engineNext hnext, htail]
  rfl

theorem decodeTableWord_eq_some {nbits w : Nat} {i : Instr} :
    decodeTableWord nbits w = some i ↔ decode (tableWord nbits w) = .ok i := by
  unfold decodeTableWord
  cases decode (tableWord nbits w) <;> simp

/-! ## Completion (43_system.md R318) -/

section Completion
variable (s : State) (r : Except ErrCode Effect)

theorem State.complete_kept : s.kept (s.complete r) := by
  cases r with
  | ok e => exact completeOk_kept s e
  | error e => exact completeErr_kept s e

theorem State.complete_done : (s.complete r).status.done = true := by cases r <;> rfl

theorem State.complete_coll : (s.complete r).status.coll = s.status.coll := by cases r <;> rfl

/-- ERR stands beside an error code, and only there (10_state.md R35). -/
theorem State.complete_err : (s.complete r).status.err = true ↔ (s.complete r).errcode ≠ 0#8 := by
  cases r with
  | ok e => simp
  | error e => simp [code_ne_zero]

/-- WARN stands beside a warning code, and only there (10_state.md R36). -/
theorem State.complete_warn : (s.complete r).status.warn = true ↔ (s.complete r).warncode ≠ 0#8 := by
  cases r with
  | ok e => cases h : e.warn <;> simp [h, warnCode]
  | error e => simp

end Completion

/-! ## The register file (10_state.md R30, R54; 43_system.md R313, R314) -/

/-- The registers that hold what the host writes to them. CTRL, STATUS and CMD take a write too, each by a rule of its
own. -/
def Reg.holdsWrite : Reg → Bool
  | .src | .slen | .dst | .dlen | .arg0 | .arg1 | .arg2 | .arg3 | .mask | .cand => true
  | .rkey0 | .rkey1 | .rkey2 | .rkey3 | .key0 | .key1 | .key2 | .key3 => true
  | _ => false

/-- The registers that ignore a write. -/
def Reg.readOnly : Reg → Bool
  | .id | .errcode | .warncode | .cmdcnt | .res0 | .res1 | .res2 | .res3 => true
  | _ => false

/-- The bits of a written value that the register has; its reserved bits stay 0 (10_state.md R51 to R54). -/
def Reg.stored (r : Reg) (v : Word) : Word :=
  match r with
  | .mask => v &&& 0xFFFF#32
  | .cand => v &&& 0x1007F#32
  | _ => v

theorem setWidth_extract_mask (v : Word) : (v.extractLsb' 0 16).setWidth 32 = v &&& 0xFFFF#32 := by
  apply BitVec.eq_of_getLsbD_eq
  intro i hi
  interval_cases i <;> simp

theorem candWord_extract (m : Colour) (v : Word) :
    Compositor.candWord ⟨m, v.extractLsb' 0 7, v.getLsbD 16⟩ = v &&& 0x1007F#32 := by
  apply BitVec.eq_of_getLsbD_eq
  intro i hi
  simp only [Compositor.candWord, BitVec.getLsbD_append, BitVec.getLsbD_and]
  interval_cases i <;> simp

/-- The law of the register file: the register written reads back what it has kept, every other register as before. -/
theorem State.readReg_writeReg (s : State) {r : Reg} (hr : r.holdsWrite = true) (v : Word) (q : Reg) :
    (s.writeReg r v).readReg q = if q = r then r.stored v else s.readReg q := by
  cases r
  case mask =>
    cases q
    case mask => exact setWidth_extract_mask v
    all_goals rfl
  case cand =>
    cases q
    case cand => exact candWord_extract s.comp.mask v
    all_goals rfl
  case src | slen | dst | dlen | arg0 | arg1 | arg2 | arg3 => cases q <;> rfl
  case rkey0 | rkey1 | rkey2 | rkey3 | key0 | key1 | key2 | key3 => cases q <;> rfl
  all_goals cases hr

/-- A write to a register that holds it reaches the operands, MASK and CAND, RKEY and KEY only. -/
theorem State.writeReg_frame (s : State) {r : Reg} (hr : r.holdsWrite = true) (v : Word) :
    s.writeReg r v = { s with
      ops := (s.writeReg r v).ops, comp := (s.writeReg r v).comp, rkey := (s.writeReg r v).rkey,
      key := (s.writeReg r v).key } := by
  cases r
  case id | ctrl | status | cmd | errcode | warncode | cmdcnt | res0 | res1 | res2 | res3 => cases hr
  all_goals rfl

theorem State.writeReg_readOnly (s : State) {r : Reg} (hr : r.readOnly = true) (v : Word) : s.writeReg r v = s := by
  cases r
  case id | errcode | warncode | cmdcnt | res0 | res1 | res2 | res3 => rfl
  all_goals cases hr

/-- What a register keeps of a written value, said by its offset as the statement says it. -/
theorem Reg.stored_eq (r : Reg) (v : Word) : r.stored v
    = if r.offset = 0x050 then v &&& 0xFFFF#32 else if r.offset = 0x054 then v &&& 0x1007F#32 else v := by
  cases r <;> rfl

/-- Two idle machines whose registers read alike answer every register read alike, at reserved offsets too. -/
theorem State.hostReadReg_rdata_congr {s t : State} {o : Nat} (hs : s.status.busy = false) (ht : t.status.busy = false)
    (h : ∀ r, r.offset = o → t.readReg r = s.readReg r) : (t.hostReadReg o).rdata = (s.hostReadReg o).rdata := by
  cases ho : Reg.atOffset o with
  | some r =>
    rw [State.hostReadReg_rdata_idle hs ho, State.hostReadReg_rdata_idle ht ho, h r ((Reg.atOffset_eq_some o r).mp ho)]
  | none => rw [State.hostReadReg_rdata_reserved ho, State.hostReadReg_rdata_reserved ho]

/-! ## Writes that take effect (43_system.md R313) -/

section Idle
variable {s : State} (rest : List Event) (v : Word)

theorem step_regWrite_idle {r : Reg} (hb : s.status.busy = false) :
    step { s with agenda := .host (.regWrite 4 r.offset v) :: rest }
      = .next (State.writeReg { s with agenda := rest } r v) := by
  rw [step_regWrite s rest v r.offset_aligned (Nat.lt_trans r.offset_lt (by decide))]
  simp [State.hostWriteReg, r.atOffset_offset, hb]

/-- A reserved offset ignores a write (10_state.md R56). -/
theorem step_regWrite_reserved {o : Nat} (hb : s.status.busy = false) (ho : o % 4 = 0) (hlt : o < 4096)
    (h : Reg.atOffset o = none) :
    step { s with agenda := .host (.regWrite 4 o v) :: rest } = .next { s with agenda := rest } := by
  rw [step_regWrite s rest v ho hlt]
  simp [State.hostWriteReg, h, hb]

end Idle

/-- A write to CTRL takes effect whether or not a command is pending. -/
theorem State.hostWriteReg_ctrl (s : State) (v : Word) : s.hostWriteReg 0x004 v = s.writeReg .ctrl v := by
  have hr : Reg.atOffset 0x004 = some .ctrl := rfl
  simp [State.hostWriteReg, hr]

theorem step_ctrlWrite (s : State) (v : Word) (rest : List Event) :
    step { s with agenda := .host (.regWrite 4 0x004 v) :: rest }
      = .next (State.writeReg { s with agenda := rest } .ctrl v) := by
  rw [step_regWrite s rest v (by decide) (by decide), State.hostWriteReg_ctrl]

/-! ## The soft reset (43_system.md R319) -/

theorem State.pendingUsesDest_of_no_dest {s : State} {i : Instr} (hi : decode s.cmd = .ok i)
    (hd : i.usesDest = false) : s.pendingUsesDest = false := by
  simp [State.pendingUsesDest, hi, hd]

theorem freshBytes_getElem? (d : Nat) {n k : Nat} (h : k < n) :
    (freshBytes d n)[k]? = some (Config.freeByte (d + k)) := by
  induction n generalizing d k with
  | zero => omega
  | succ n ih =>
    cases k with
    | zero => rfl
    | succ k => rw [freshBytes, List.getElem?_cons_succ, ih (d + 1) (by omega), Nat.add_right_comm]; rfl

theorem State.pendingDestLen_of_no_window {s : State} (h : s.pendingUsesDest = false) : s.pendingDestLen = 0 := by
  simp [State.pendingDestLen, h]

theorem State.pendingDestLen_of_window {s : State} (h : s.pendingUsesDest = true) :
    s.pendingDestLen = min s.dlen (s.cfg.bufSize - s.dst) := if_pos h

/-- BUF after a soft reset, with the two cases of `State.softReset` as one write. -/
theorem State.byteAt_softReset (s : State) (x : Nat) : Memory.byteAt s.softReset.buf x
    = Memory.byteAt (s.buf.writeBytes s.dst (freshBytes s.draws s.pendingDestLen)) x := by
  by_cases h : s.pendingDestLen = 0
  · simp [State.softReset, h, freshBytes]
  · simp [State.softReset, h, State.dst]

theorem State.softReset_buf_of_no_window {s : State} (h : s.pendingUsesDest = false) : s.softReset.buf = s.buf :=
  if_pos (State.pendingDestLen_of_no_window h)

theorem State.softReset_sameOutside {s : State} (h : s.pendingUsesDest = true) :
    sameOutside s.buf s.softReset.buf s.dst s.dlen := by
  intro x hx
  rw [s.byteAt_softReset]
  refine Memory.byteAt_writeBytes_outside _ _ _ _ ?_
  rw [freshBytes_length, State.pendingDestLen_of_window h]
  omega

theorem State.softReset_fresh {s : State} {k : Nat} (h : s.pendingUsesDest = true) (hk : k < s.dlen)
    (hin : s.dst + k < s.cfg.bufSize) :
    Memory.byteAt s.softReset.buf (s.dst + k) = Config.freeByte (s.draws + k) := by
  rw [s.byteAt_softReset]
  refine Memory.byteAt_writeBytes_inside _ _ _ _ _ (freshBytes_getElem? _ ?_)
  rw [State.pendingDestLen_of_window h]
  omega

/-- The soft reset leaves nothing of the state but the parameters and the model's own fields, and BUF. -/
theorem State.softReset_eq_powerOn (s : State) : s.softReset = { State.powerOn s.cfg with
    buf := s.softReset.buf, agenda := s.agenda, draws := s.softReset.draws, rdata := s.rdata } := rfl

/-! ## Register reads (43_system.md R314) -/

theorem State.hostReadReg_frame (s : State) (o : Nat) :
    s.hostReadReg o = { s with rdata := (s.hostReadReg o).rdata, draws := (s.hostReadReg o).draws } := by
  unfold State.hostReadReg
  split
  · split <;> rfl
  · rfl

/-! ## NOP, SEED and CANDRST (43_system.md R310 to R312) -/

/-- A command without windows passes the generic checks from every state. -/
theorem genericChecks_of_no_windows {i : Instr} (s : State) (hw : i.wellFormed = true) (hsrc : i.usesSource = false)
    (hdst : i.usesDest = false) : s.genericChecks i = .ok () :=
  genericChecks_ok hw (windowsOk_of_no_windows s hsrc hdst)

theorem outcomeOf_nop (s : State) : outcomeOf .nop s = .ok (s.finish 0 0 0 0) := by
  rw [outcomeOf, nop, genericChecks_of_no_windows s rfl rfl rfl]
  rfl

theorem outcomeOf_seed (s : State) :
    outcomeOf .seed s = .ok { s.finish 0 0 0 0 with rkey := Quad.ofBlock s.cfg.seed } := by
  rw [outcomeOf, seed, genericChecks_of_no_windows s rfl rfl rfl]
  rfl

theorem outcomeOf_candrst (s : State) :
    outcomeOf .candrst s = .ok { s.finish 0 0 0 0 with comp := ⟨s.comp.mask, 0x7F#7, false⟩ } := by
  rw [outcomeOf, candrst, genericChecks_of_no_windows s rfl rfl rfl]
  rfl

/-! ## The statements -/

/-- Settles O11: the engine moves, and what it leaves is the completion of the pending word's outcome. -/
theorem completionStep : Obligations.CompletionStep := by
  intro s hnext
  rw [step_of_engineNext hnext]
  refine ⟨fun hb => ⟨_, engineTurn_of_busy hb, ?_⟩, fun hb => engineTurn_of_idle hb⟩
  exact ⟨State.complete_busy _ _, State.complete_done _ _, State.complete_coll _ _, State.complete_cmdcnt _ _,
    State.complete_err _ _, State.complete_warn _ _, State.complete_kept _ _⟩

/-- Settles O13: the two meanings of a write to CTRL, then BUF by whether the pending word has a destination window. -/
theorem ctrlWriteResets : Obligations.CtrlWriteResets := by
  intro s v rest
  refine ⟨fun hie => ?_, fun hreset => ?_⟩
  · rw [step_ctrlWrite, State.writeReg_ctrl_ie (Bool.eq_false_iff.mp hie)]
  · have hkept : State.pendingUsesDest { s with agenda := rest } = false →
        (State.softReset { s with agenda := rest }).buf = s.buf := State.softReset_buf_of_no_window
    refine ⟨State.softReset { s with agenda := rest }, ?_, State.softReset_eq_powerOn _, fun hb => ?_, fun e he => ?_,
      fun i hi hd => ?_, fun i hb hi hd => ?_⟩
    · rw [step_ctrlWrite, State.writeReg_ctrl_reset hreset]
    · exact hkept (State.pendingUsesDest_idle hb)
    · exact hkept (State.pendingUsesDest_of_error he)
    · exact hkept (State.pendingUsesDest_of_no_dest hi hd)
    · have hwin : State.pendingUsesDest { s with agenda := rest } = true :=
        (State.pendingUsesDest_of_ok hb hi).trans hd
      exact ⟨State.softReset_sameOutside hwin, fun k hk hin => State.softReset_fresh hwin hk hin⟩

/-- Settles O15: the law of the register file at the offsets that hold a write; nothing at all at the others. -/
theorem registerReadback : Obligations.RegisterReadback := by
  intro s v rest hb
  refine ⟨fun o ho => ?_, fun o hal hlt ho => ?_⟩
  · have hany : (Reg.atOffset o).any Reg.holdsWrite = true := by revert o; decide
    obtain ⟨r, hat, hr⟩ := (Option.any_eq_true _ _).mp hany
    obtain rfl : r.offset = o := (Reg.atOffset_eq_some o r).mp hat
    have hframe := State.writeReg_frame { s with agenda := rest } hr v
    have hread := State.readReg_writeReg { s with agenda := rest } hr v
    have hidle : (State.writeReg { s with agenda := rest } r v).status.busy = false := by rw [hframe]; exact hb
    refine ⟨_, step_regWrite_idle rest v hb, ?_, fun o' ho' => ?_, hframe⟩
    · rw [State.hostReadReg_rdata_idle hidle hat, hread, if_pos rfl, Reg.stored_eq]
    · refine State.hostReadReg_rdata_congr hb hidle fun q hq => ?_
      have hne : q ≠ r := by rintro rfl; exact ho' hq.symm
      rw [hread, if_neg hne, State.readReg_withAgenda]
  · obtain hro | hres := ho
    · have hany : (Reg.atOffset o).any Reg.readOnly = true := by clear hlt hal; revert o; decide
      obtain ⟨r, hat, hr⟩ := (Option.any_eq_true _ _).mp hany
      obtain rfl : r.offset = o := (Reg.atOffset_eq_some o r).mp hat
      rw [step_regWrite_idle rest v hb, State.writeReg_readOnly _ hr]
    · exact step_regWrite_reserved rest v hb hal hlt (Reg.atOffset_reserved hres)

/-- Settles O8: a step of the engine is its turn on the pending word. -/
theorem stepRunsDecoded : Obligations.StepRunsDecoded := by
  refine ⟨fun s rest i hb hi => ⟨?_, ?_⟩, fun s nbits w i hw => ?_⟩
  · exact (step_of_engine rfl).trans (engineTurn_of_decode hb hi)
  · exact (step_of_engineNext (.inl rfl)).trans (engineTurn_of_decode hb hi)
  · exact (step_withFetchWord s nbits w).trans (engineTurn_of_decode rfl (decodeTableWord_eq_some.mp hw))

/-- Settles O10: a write that takes effect at CMD is `State.issue`. -/
theorem issueAccepts : Obligations.IssueAccepts := fun _ v rest hb => step_regWrite_idle (r := .cmd) rest v hb

/-- Settles O14: a write that takes effect at STATUS is `State.ackStatus`, flag by flag. -/
theorem acknowledgeClears : Obligations.AcknowledgeClears := by
  intro s v rest hb
  refine ⟨State.ackStatus { s with agenda := rest } v, step_regWrite_idle (r := .status) rest v hb, rfl, hb, ?_⟩
  simp [Status.ack]

/-- Settles O17: each read steps, and moves `rdata` and `draws` only. -/
theorem hostReadsChangeNothing : Obligations.HostReadsChangeNothing := by
  intro s rest
  refine ⟨fun o ho hlt => ?_, fun n a hn ha hin => ?_⟩
  · exact ⟨_, step_regRead s rest ho hlt, State.hostReadReg_frame _ o⟩
  · exact ⟨_, step_bufRead s rest hn ha hin, rfl⟩

/-- Settles O30: each command succeeds, with the effect its outcome lists. -/
theorem systemCommands : Obligations.SystemCommands := by
  refine ⟨by decide, by decide, by decide, fun s => ⟨?_, ?_, ?_⟩⟩
  · exact ⟨_, exec_of_ok (outcomeOf_nop s), completeOk_completes s _ rfl rfl, ⟨rfl, rfl⟩, fun _ => rfl⟩
  · exact ⟨_, exec_of_ok (outcomeOf_seed s), completeOk_completes s _ rfl rfl, fun _ => rfl, rfl,
      Quad.block_ofBlock _⟩
  · exact ⟨_, exec_of_ok (outcomeOf_candrst s), completeOk_completes s _ rfl rfl, fun _ => rfl, rfl, rfl⟩

end Sys2Proof.Machine
end

section
/-! Errors and the interrupt (60_exceptions.md): which errors a computation can end with, part by part and command by
command (R337), the generic checks at the engine's turn (R335), and the level of IRQ (R338). -/

namespace Sys2Proof.Machine

/-! ## The errors a computation can end with (60_exceptions.md R337) -/

/-- `x` ends without error, or with an error whose code is listed. -/
def Raises {α : Type} (x : Except ErrCode α) (codes : List Byte) : Prop := ∀ e, x = .error e → e.code ∈ codes

section Rules
variable {α β : Type} {codes : List Byte}

theorem Raises.pure (a : α) : Raises (pure a) codes := fun _ h => by cases h

theorem Raises.error {e : ErrCode} (h : e.code ∈ codes) : Raises (.error e : Except ErrCode α) codes := by
  rintro _ ⟨⟩
  exact h

theorem Raises.bind {x : Except ErrCode α} {f : α → Except ErrCode β} (hx : Raises x codes)
    (hf : ∀ a, Raises (f a) codes) : Raises (x >>= f) codes := by
  intro e h
  obtain h | ⟨a, -, h⟩ := (bind_eq_error x f e).mp h
  · exact hx e h
  · exact hf a e h

theorem Raises.require (c : Bool) {e : ErrCode} (h : e.code ∈ codes) : Raises (require c e) codes := by
  cases c with
  | true => exact .pure ()
  | false => exact .error h

theorem Raises.ite {p : Prop} [Decidable p] {x y : Except ErrCode α} (hx : Raises x codes) (hy : Raises y codes) :
    Raises (if p then x else y) codes := by
  split
  · exact hx
  · exact hy

/-- A reader whose only error is TruncatedInput. -/
theorem Raises.truncated {x : Except ErrCode α} (hx : ∀ e, x = .error e → e = .truncatedInput) (h : 1#8 ∈ codes) :
    Raises x codes := fun e he => hx e he ▸ h

end Rules

/-! ## Readers of the source window: TruncatedInput -/

section Readers
variable {b : List Byte} {codes : List Byte} (hshort : 1#8 ∈ codes)
include hshort

theorem raises_src8 (o : Nat) : Raises (src8 b o) codes := .truncated (fun _ h => (src8_error h).1) hshort

theorem raises_src16 (o : Nat) : Raises (src16 b o) codes := .truncated (fun _ h => (src16_error h).1) hshort

theorem raises_src32 (o : Nat) : Raises (src32 b o) codes := .truncated (fun _ h => src32_error h) hshort

theorem raises_decodeRows (o n xs : Nat) : Raises (decodeRows b o n xs) codes :=
  .truncated (fun _ h => decodeRows_error h) hshort

theorem raises_tileParse (o : Nat) : Raises (tileParse b o) codes := .truncated (fun _ h => tileParse_error h) hshort

theorem raises_colourList (o n : Nat) : Raises (colourList b o n) codes := by
  induction n generalizing o with
  | zero => exact .pure []
  | succ n ih => exact (raises_src16 hshort o).bind fun _ => (ih (o + 2)).bind fun _ => .pure _

theorem raises_paletteAt (o : Nat) : Raises (paletteAt b o) codes :=
  (raises_src8 hshort o).bind fun _ => (raises_colourList hshort (o + 1) _).bind fun _ => .pure _

theorem raises_l1Parse : Raises (l1Parse b) codes :=
  (raises_src8 hshort 0).bind fun _ => (raises_src8 hshort 1).bind fun _ => (raises_src8 hshort 2).bind fun _ =>
    (raises_src8 hshort 3).bind fun _ => .ite (.pure _) ((raises_decodeRows hshort 4 _ 0).bind fun _ => .pure _)

end Readers

/-! ## Encoders and conversions: Range -/

section Encoders
variable {codes : List Byte} (hrange : 7#8 ∈ codes)
include hrange

theorem raises_encodeRow (row : List Colour) (xs : Nat) (t : Colour) : Raises (encodeRow row xs t) codes :=
  (Raises.require _ hrange).bind fun _ => .pure _

theorem raises_encodeRows (xs : Nat) (t : Colour) (rows : List (List Colour)) : Raises (encodeRows xs t rows) codes := by
  induction rows with
  | nil => exact .pure []
  | cons row rows ih => exact (raises_encodeRow hrange row xs t).bind fun _ => ih.bind fun _ => .pure _

theorem raises_tileStream (mk : Colour) (u : Byte) (rows : List (List Colour)) : Raises (tileStream mk u rows) codes := by
  unfold tileStream
  split
  · exact .pure _
  · exact (raises_encodeRows hrange _ mk _).bind fun _ => .pure _

theorem raises_convert (rgba : Colour → List Byte) (tp : BitVec 2) (mask : Colour) (src : List Byte) (dlen : Nat) :
    Raises (convert rgba tp mask src dlen) codes :=
  (Raises.require _ hrange).bind fun _ => (Raises.require _ hrange).bind fun _ => .pure _

theorem raises_pack (rgb : Byte → Byte → Byte → Colour) (tp : BitVec 2) (mask : Colour) (src : List Byte) (dlen : Nat) :
    Raises (pack rgb tp mask src dlen) codes :=
  (Raises.require _ hrange).bind fun _ => (Raises.require _ hrange).bind fun _ => .pure _

end Encoders

/-! ## Streams with checks of their own: TruncatedInput and Range -/

section Streams
variable {b : List Byte} {codes : List Byte} (hshort : 1#8 ∈ codes)
include hshort

theorem raises_blocksAt (o n : Nat) : Raises (blocksAt b o n) codes := by
  induction n generalizing o with
  | zero => exact .pure []
  | succ n ih =>
    exact (raises_src8 hshort o).bind fun _ => (raises_src8 hshort _).bind fun _ => (raises_src8 hshort _).bind fun _ =>
      (raises_src16 hshort _).bind fun _ => (ih (o + 5)).bind fun _ => .pure _

theorem raises_offsetsAt (o n : Nat) : Raises (offsetsAt b o n) codes := by
  induction n generalizing o with
  | zero => exact .pure []
  | succ n ih => exact (raises_src32 hshort o).bind fun _ => (ih (o + 4)).bind fun _ => .pure _

theorem raises_spritePalette : Raises (spritePalette b) codes :=
  (raises_src8 hshort 0).bind fun _ => .ite ((raises_paletteAt hshort 1).bind fun _ => .pure _) (.pure _)

theorem raises_spriteStart : Raises (spriteStart b) codes :=
  (raises_spritePalette hshort).bind fun _ => (raises_src8 hshort _).bind fun _ => .pure _

variable (hrange : 7#8 ∈ codes)
include hrange

theorem raises_l1Stream (o : Operands) (t : Colour) : Raises (l1Stream o t b) codes :=
  .ite (.pure _) ((Raises.require _ hshort).bind fun _ => (raises_encodeRows hrange 0 t _).bind fun _ => .pure _)

theorem raises_frameAt (o : Nat) : Raises (frameAt b o) codes :=
  (raises_src16 hshort o).bind fun _ => (raises_src16 hshort _).bind fun _ => (raises_src16 hshort _).bind fun _ =>
    (raises_src16 hshort _).bind fun _ => (raises_src16 hshort _).bind fun _ => (raises_src16 hshort _).bind fun _ =>
      (raises_src16 hshort _).bind fun _ => (Raises.require _ hrange).bind fun _ =>
        (raises_blocksAt hshort _ _).bind fun _ => .pure _

theorem raises_framesAt (o n : Nat) : Raises (framesAt b o n) codes := by
  induction n generalizing o with
  | zero => exact .pure _
  | succ n ih => exact (raises_frameAt hshort hrange o).bind fun _ => (ih _).bind fun _ => .pure _

theorem raises_tilesAt (tb : Nat) (vs : List Word) : Raises (tilesAt b tb vs) codes := by
  induction vs with
  | nil => exact .pure []
  | cons v vs ih =>
    exact (Raises.require _ hrange).bind fun _ => (raises_tileParse hshort _).bind fun _ => ih.bind fun _ => .pure _

theorem raises_spriteFrames : Raises (spriteFrames b) codes :=
  (raises_spriteStart hshort).bind fun _ => (raises_framesAt hshort hrange _ _).bind fun _ => .pure _

theorem raises_spriteHead : Raises (spriteHead b) codes :=
  (raises_spriteFrames hshort hrange).bind fun _ => (raises_src32 hshort _).bind fun _ =>
    (Raises.require _ hrange).bind fun _ => (raises_offsetsAt hshort _ _).bind fun _ => .pure _

theorem raises_spriteParse (fallback : Colour) : Raises (spriteParse fallback b) codes := by
  rw [spriteParse_eq]
  exact (raises_spriteHead hshort hrange).bind fun _ => (Raises.require _ hrange).bind fun _ =>
    (raises_tilesAt hshort hrange _ _).bind fun _ => .pure _

theorem raises_oneBlock (s : State) : Raises s.oneBlock codes := fun e h => by
  obtain rfl | rfl := oneBlock_error h
  · exact hshort
  · exact hrange

/-- The payload commands are the only ones with CipherMarkerMismatch. -/
theorem raises_payload (hmark : 5#8 ∈ codes) (chain : Block → List Block → List Block × Block) (seed : Block)
    (want new : Byte) (dlen : Nat) : Raises (payload chain seed want new b dlen) codes :=
  (Raises.require _ hshort).bind fun _ => (Raises.require _ hmark).bind fun _ =>
    (Raises.require _ hrange).bind fun _ => .pure _

end Streams

/-! ## The errors of each command -/

/-- A command that uses a window can end with Range, one that uses both with Overlap. -/
theorem mem_errorsOf_of_windows (i : Instr) : (i.usesSource = true ∨ i.usesDest = true → 7#8 ∈ errorsOf i)
    ∧ (i.usesSource = true → i.usesDest = true → 8#8 ∈ errorsOf i) := by
  cases i with
  | tiledec scanOnly => revert scanOnly; decide
  | _ => simp [Instr.usesSource, Instr.usesDest, errorsOf]

theorem raises_genericChecks {i : Instr} (s : State) (hw : i.wellFormed = true) :
    Raises (s.genericChecks i) (errorsOf i) := by
  obtain ⟨hrange, hoverlap⟩ := mem_errorsOf_of_windows i
  unfold State.genericChecks
  rw [hw]
  intro e he
  split at he
  · contradiction
  split at he
  next hsrc => cases he; exact hrange (.inl (Bool.and_elim_left hsrc))
  split at he
  next hdst => cases he; exact hrange (.inr (Bool.and_elim_left hdst))
  split at he
  next hmeet =>
    cases he
    simp only [Bool.and_eq_true] at hmeet
    obtain ⟨⟨⟨hs, hd⟩, -⟩, -⟩ := hmeet
    exact hoverlap hs hd
  · cases he

/-- A well-formed command ends without error or with one of its own (60_exceptions.md R337). -/
theorem raises_outcomeOf {i : Instr} (s : State) (hw : i.wellFormed = true) : Raises (outcomeOf i s) (errorsOf i) := by
  have hgeneric := raises_genericChecks s hw
  cases i with
  | nop | seed | candrst | isoxy => exact hgeneric.bind fun _ => .pure _
  | maskfin =>
    refine hgeneric.bind fun _ => .ite (.pure _) ?_
    split
    · exact .pure _
    · exact .pure _
  | cvt555 tp | cvt565 tp =>
    exact hgeneric.bind fun _ => (raises_convert (by simp [errorsOf]) _ _ _ _ _).bind fun _ => .pure _
  | pack555 tp | pack565 tp =>
    exact hgeneric.bind fun _ => (raises_pack (by simp [errorsOf]) _ _ _ _ _).bind fun _ => .pure _
  | l1dec ext =>
    exact hgeneric.bind fun _ => (raises_l1Parse (by simp [errorsOf])).bind fun _ =>
      (Raises.require _ (by simp [errorsOf, ErrCode.code])).bind fun _ => .pure _
  | l1ext => exact hgeneric.bind fun _ => (raises_l1Parse (by decide)).bind fun _ => .pure _
  | l1enc tm =>
    exact hgeneric.bind fun _ => (raises_l1Stream (by simp [errorsOf]) (by simp [errorsOf]) _ _).bind fun _ =>
      (Raises.require _ (by simp [errorsOf, ErrCode.code])).bind fun _ => .pure _
  | palscan => exact hgeneric.bind fun _ => (raises_paletteAt (by decide) 0).bind fun _ => .pure _
  | tiledec scanOnly =>
    cases scanOnly with
    | true => exact hgeneric.bind fun _ => (raises_tileParse (by decide) 0).bind fun _ => .pure _
    | false =>
      exact hgeneric.bind fun _ => (raises_tileParse (by decide) 0).bind fun _ =>
        (Raises.require _ (by decide)).bind fun _ => .pure _
  | tileenc =>
    exact hgeneric.bind fun _ => (Raises.require _ (by decide)).bind fun _ =>
      (raises_tileStream (by decide) _ _ _).bind fun _ => (Raises.require _ (by decide)).bind fun _ => .pure _
  | canvas =>
    exact hgeneric.bind fun _ => (Raises.require _ (by decide)).bind fun _ =>
      (Raises.require _ (by decide)).bind fun _ => .pure _
  | blit =>
    exact hgeneric.bind fun _ => (Raises.require _ (by decide)).bind fun _ =>
      (Raises.require _ (by decide)).bind fun _ => (Raises.require _ (by decide)).bind fun _ => .pure _
  | sprdec =>
    exact hgeneric.bind fun _ => (raises_spriteParse (by decide) (by decide) _).bind fun _ =>
      (Raises.require _ (by decide)).bind fun _ => .pure _
  | decblk | encblk | coreenc | coredec =>
    exact hgeneric.bind fun _ => (raises_oneBlock (by decide) (by decide) s).bind fun _ => .pure _
  | xortail =>
    exact hgeneric.bind fun _ => (Raises.require _ (by decide)).bind fun _ =>
      (Raises.require _ (by decide)).bind fun _ => .pure _
  | decpay | encpay =>
    exact hgeneric.bind fun _ => (raises_payload (by decide) (by decide) (by decide) _ _ _ _ _).bind fun _ => .pure _
  | mark => exact hgeneric.bind fun _ => (raises_src8 (by decide) 0).bind fun _ => .pure _
  | keydump => exact hgeneric.bind fun _ => (Raises.require _ (by decide)).bind fun _ => .pure _

/-- Settles O25: a command that ends without error leaves ERR clear, and one that ends with an error is
`State.completeErr`. -/
theorem errorChangesOnly : Obligations.ErrorChangesOnly := by
  intro i s t hexec herr
  obtain ⟨e, -, rfl⟩ | ⟨e, -, rfl⟩ := exec_cases hexec
  · cases herr
  · exact completeErr_failed s e

/-- Settles O26: an error by the command's outcome, a warning by its effect. -/
theorem errorsRaised : Obligations.ErrorsRaised := by
  intro i s t hw hexec
  obtain ⟨e, he, rfl⟩ | ⟨e, he, rfl⟩ := exec_cases hexec
  · refine ⟨.inl rfl, ?_⟩
    cases hwarn : e.warn with
    | false => exact .inl (by rw [State.completeOk_warncode, hwarn]; rfl)
    | true =>
      have hwarns : i ∈ [Instr.maskfin, .sprdec] := by
        by_contra hi
        exact absurd ((effectFits he).warn hi) (by simp [hwarn])
      exact .inr ⟨by rw [State.completeOk_warncode, hwarn]; rfl, rfl, by simpa using hwarns⟩
  · exact ⟨.inr (raises_outcomeOf s hw e he), .inl rfl⟩

/-! ## The generic checks at the engine's turn (60_exceptions.md R335) -/

/-- A pending word that names no command completes with IllegalCommand. -/
theorem step_of_illegal {s : State} {e : Illegal} (hb : s.status.busy = true) (hnext : s.engineNext)
    (he : decode s.cmd = .error e) :
    step s = .next (State.completeErr { s with agenda := s.agenda.tail } .illegalCommand) := by
  rw [step_of_engineNext hnext, engineTurn_of_busy (s := { s with agenda := s.agenda.tail }) hb]
  simp [State.pendingOutcome, he]

/-- A pending word that names a command runs it. -/
theorem step_of_decode {s : State} {i : Instr} (hb : s.status.busy = true) (hnext : s.engineNext)
    (hi : decode s.cmd = .ok i) : step s = exec i { s with agenda := s.agenda.tail } :=
  (step_of_engineNext hnext).trans (engineTurn_of_decode hb hi)

/-- Settles O27: a word that is legal leaves the window checks, which every command makes first. -/
theorem genericChecksFirst : Obligations.GenericChecksFirst := by
  intro s hb hnext
  refine ⟨fun e he => ⟨_, step_of_illegal hb (.inr hnext) he, completeErr_failed _ _⟩, fun i hi => ?_⟩
  obtain ⟨hw, -⟩ := (decodeEncodeAgree _ _).mp hi
  have hchecks : endsAs i { s with agenda := s.agenda.tail } (s.windowChecks i ++ []) fun _ => True :=
    endsAs_windows hw fun _ => ⟨_, exec_eq i _, trivial⟩
  obtain ⟨hsource, hpast⟩ := hchecks
  rw [step_of_decode hb (.inr hnext) hi]
  refine ⟨hsource, fun hsrc hd hout => ?_, fun hsrc hdst hs hd hmeet hplace => ?_⟩
  · obtain ⟨hdest, -⟩ := hpast hsrc
    exact hdest ⟨hd, hout⟩
  · obtain ⟨-, hinside⟩ := hpast hsrc
    obtain ⟨hoverlap, -⟩ := hinside hdst
    exact hoverlap ⟨hs, hd, hmeet, hplace⟩

/-! ## The interrupt output (60_exceptions.md R338) -/

section Irq
variable (s : State) (v : Word)

theorem State.irq_iff : s.irq = true ↔ s.ie = true ∧ s.status.done = true := by simp [State.irq]

theorem State.irq_of_not_ie {s : State} (h : s.ie = false) : s.irq = false := by simp [State.irq, h]

theorem State.irq_of_not_done {s : State} (h : s.status.done = false) : s.irq = false := by simp [State.irq, h]

theorem State.irq_complete (r : Except ErrCode Effect) : (s.complete r).irq = s.ie := by
  have hie : (s.complete r).ie = s.ie := by cases r <;> rfl
  rw [State.irq, hie, State.complete_done, Bool.and_true]

theorem State.irq_ackStatus (hv : v.getLsbD 1 = true) : (s.ackStatus v).irq = false :=
  State.irq_of_not_done (by simp [Status.ack, hv])

theorem State.irq_issue : (s.issue v).irq = false := State.irq_of_not_done rfl

/-- A write to CTRL drops IRQ by the soft reset, or by clearing IE. -/
theorem State.irq_writeReg_ctrl (hv : v.getLsbD 0 = false ∨ v.getLsbD 1 = true) : (s.writeReg .ctrl v).irq = false := by
  by_cases hreset : v.getLsbD 1 = true
  · rw [State.writeReg_ctrl_reset hreset]
    exact State.irq_of_not_ie rfl
  · rw [State.writeReg_ctrl_ie hreset]
    exact State.irq_of_not_ie (hv.resolve_right hreset)

end Irq

/-- While idle a write to a defined register takes effect. -/
theorem State.hostWriteReg_idle {s : State} (hb : s.status.busy = false) (r : Reg) (v : Word) :
    s.hostWriteReg r.offset v = s.writeReg r v := by
  simp [State.hostWriteReg, hb, r.atOffset_offset]

/-- What a step leaves when the host's register write is next. -/
theorem eq_of_step_regWrite {s t : State} {n o : Nat} {v : Word} (hnext : s.hostNext (.regWrite n o v))
    (hstep : step s = .next t) : t = State.hostWriteReg { s with agenda := s.agenda.tail } o v := by
  obtain ⟨rest, ha⟩ := hnext
  rw [step_of_host ha] at hstep
  obtain ⟨-, ht⟩ := regWriteStep_eq_next.mp hstep
  rw [ht, ha, List.tail_cons]

theorem eq_of_step_regWrite_idle {s t : State} {n : Nat} {r : Reg} {v : Word} (hb : s.status.busy = false)
    (hnext : s.hostNext (.regWrite n r.offset v)) (hstep : step s = .next t) :
    t = State.writeReg { s with agenda := s.agenda.tail } r v :=
  (eq_of_step_regWrite hnext hstep).trans (State.hostWriteReg_idle (s := { s with agenda := s.agenda.tail }) hb r v)

/-- Settles O20: the completion of the pending outcome, and the three registers whose write drops IRQ. -/
theorem irqFollowsDone : Obligations.IrqFollowsDone := by
  intro s t
  refine ⟨s.irq_iff, fun hnext hb hie hstep => ?_, fun v hb hv hnext hstep => ?_, fun v hv hnext hstep => ?_,
    fun v hb hnext hstep => ?_⟩
  · rw [step_of_engineNext (.inr hnext), engineTurn_of_busy (s := { s with agenda := s.agenda.tail }) hb] at hstep
    cases hstep
    exact (State.irq_complete _ _).trans hie
  · rw [eq_of_step_regWrite_idle (r := .status) hb hnext hstep]
    exact State.irq_ackStatus _ v hv
  · rw [eq_of_step_regWrite hnext hstep, State.hostWriteReg_ctrl]
    exact State.irq_writeReg_ctrl _ v hv
  · rw [eq_of_step_regWrite_idle (r := .cmd) hb hnext hstep]
    exact State.irq_issue _ v

end Sys2Proof.Machine
end

section
/-! Reset and liveness (70_reset_and_hazards.md R370, R380): the machine after power-on meets the invariant, a step moves
the agenda on by one event and keeps the parameters, and so permitted events all run and leave the engine to move. -/

namespace Sys2Proof.Machine

/-! ## Reset (R370) -/

/-- With any parameters: BUF has no written byte, and the flags and codes are those of a reset. -/
theorem State.inv_powerOn (c : Config) : (State.powerOn c).Inv := by
  have hbuf : (State.powerOn c).buf.fits c.bufSize := ⟨rfl, rfl⟩
  exact (State.inv_iff _).mpr ⟨hbuf, CodesAgree.reset⟩

/-- Settles O2: reset is power-on with the default parameters. -/
theorem resetMeetsInvariant : Obligations.ResetMeetsInvariant := State.inv_powerOn Config.default

/-! ## Parameters and agenda (43_system.md R320) -/

/-- `t` has the parameters and the agenda of `s`: what decides which transactions are permitted and who moves next. -/
structure State.SameSchedule (s t : State) : Prop where
  cfg : t.cfg = s.cfg
  agenda : t.agenda = s.agenda

theorem State.kept.sameSchedule {s t : State} (h : s.kept t) : s.SameSchedule t := by
  obtain ⟨hcfg, -, -, -, -, hagenda, -, -⟩ := h
  exact ⟨hcfg, hagenda⟩

theorem State.keepsRegisters.sameSchedule {s t : State} (h : s.keepsRegisters t) : s.SameSchedule t :=
  ⟨by rw [h], by rw [h]⟩

theorem State.sameSchedule_writeReg (s : State) (r : Reg) (v : Word) : s.SameSchedule (s.writeReg r v) := by
  cases r
  case ctrl =>
    by_cases hv : v.getLsbD 1 = true
    · rw [State.writeReg_ctrl_reset hv]
      exact ⟨s.softReset_cfg, s.softReset_agenda⟩
    · rw [State.writeReg_ctrl_ie hv]
      exact ⟨rfl, rfl⟩
  all_goals exact ⟨rfl, rfl⟩

theorem State.sameSchedule_hostWriteReg (s : State) (o : Nat) (v : Word) : s.SameSchedule (s.hostWriteReg o v) := by
  obtain ⟨-, -, h⟩ | ⟨-, r, -, h⟩ | ⟨-, h⟩ := s.hostWriteReg_cases o v <;> rw [h]
  · exact ⟨s.collide_cfg, s.collide_agenda⟩
  · exact s.sameSchedule_writeReg r v
  · exact ⟨rfl, rfl⟩

theorem hostStep_sameSchedule {x : HostTxn} {s t : State} (h : hostStep x s = .next t) : s.SameSchedule t := by
  obtain ⟨o, v, -, rfl⟩ | ⟨-, hkeeps⟩ := hostStep_cases h
  · exact s.sameSchedule_hostWriteReg o v
  · exact hkeeps.sameSchedule

theorem engineTurn_sameSchedule {s t : State} (h : engineTurn s = .next t) : s.SameSchedule t := by
  cases hb : s.status.busy with
  | true =>
    rw [engineTurn_of_busy hb] at h
    cases h
    exact (s.complete_kept _).sameSchedule
  | false =>
    rw [engineTurn_of_idle hb] at h
    cases h
    exact ⟨rfl, rfl⟩

/-- A step takes the first event off the agenda, whoever moves. -/
theorem step_sameSchedule {s t : State} (h : step s = .next t) :
    State.SameSchedule { s with agenda := s.agenda.tail } t := by
  obtain ⟨-, hturn⟩ | ⟨x, -, hhost⟩ := step_cases h
  · exact engineTurn_sameSchedule hturn
  · exact hostStep_sameSchedule hhost

/-! ## Permitted events all run (R380) -/

/-- The bus permits every host transaction that is to come. -/
def State.agendaPermitted (s : State) : Prop := ∀ x, Event.host x ∈ s.agenda → x.permitted s.cfg = true

theorem State.agendaPermitted.step {s t : State} (h : s.agendaPermitted) (hstep : step s = .next t) :
    t.agendaPermitted := by
  obtain ⟨hcfg, hagenda⟩ := step_sameSchedule hstep
  intro x hx
  rw [hagenda] at hx
  rw [hcfg]
  exact h x (List.mem_of_mem_tail hx)

/-- Where the engine moves next, the step answers a next state, and no command is then pending. -/
theorem step_completes_of_engineNext {s : State} (h : s.engineNext) :
    ∃ t, step s = .next t ∧ t.status.busy = false := by
  rw [step_of_engineNext h]
  cases hb : s.status.busy with
  | true => exact ⟨_, engineTurn_of_busy hb, State.complete_busy _ _⟩
  | false => exact ⟨_, engineTurn_of_idle hb, hb⟩

theorem step_of_agendaPermitted {s : State} (h : s.agendaPermitted) : ∃ t, step s = .next t := by
  have hengine : s.engineNext → ∃ t, step s = .next t := fun hnext =>
    (step_completes_of_engineNext hnext).imp fun _ ht => ht.1
  cases ha : s.agenda with
  | nil => exact hengine (.inl ha)
  | cons e rest =>
    cases e with
    | engine => exact hengine (.inr ⟨rest, ha⟩)
    | host x =>
      have hperm : x.permitted s.cfg = true := h x (by rw [ha]; exact List.mem_cons_self)
      rw [step_of_host ha]
      exact hostStep_of_permitted hperm

/-- As many steps as there are events use the agenda up. -/
theorem runSteps_of_agendaPermitted {n : Nat} {s : State} (hn : s.agenda.length = n) (h : s.agendaPermitted) :
    ∃ t, runSteps n s = .next t ∧ t.agenda = [] := by
  induction n generalizing s with
  | zero => exact ⟨s, rfl, List.length_eq_zero_iff.mp hn⟩
  | succ n ih =>
    obtain ⟨u, hu⟩ := step_of_agendaPermitted h
    have hlen : u.agenda.length = n := by rw [(step_sameSchedule hu).agenda, List.length_tail, hn, Nat.add_sub_cancel]
    rw [runSteps_succ hu]
    exact ih hlen (h.step hu)

/-- Settles O23: the events leave an empty agenda, on which the engine moves. -/
theorem pendingCompletes : Obligations.PendingCompletes := by
  intro s hperm
  obtain ⟨u, hrun, hempty⟩ := runSteps_of_agendaPermitted rfl hperm
  obtain ⟨t, hstep, hbusy⟩ := step_completes_of_engineNext (.inl hempty)
  have hagenda : t.agenda = [] := by rw [(step_sameSchedule hstep).agenda, hempty, List.tail_nil]
  exact ⟨t, (runSteps_add hrun 1).trans (runSteps_succ hstep 0), hbusy, hagenda⟩

end Sys2Proof.Machine
end
